-- ==== Sys2Proof/Word.lean ====
section
/-! DEFINITION. The plain number types of the model: bytes, words, and the bounded indices of the spec
(file numbers, page indices, voice, slot and alarm numbers are written as `Fin`). -/

namespace Sys2Proof

/-- One byte of Exchange RAM, of the page array or of the standby link. -/
abbrev Byte := BitVec 8

/-- A 16-bit word of the cartridge bus, or a two-byte little-endian field. -/
abbrev Word := BitVec 16

/-- A file number, 0 to 15 (TABLE 1-2). -/
abbrev FileNo := Fin 16

/-- A page index, 0 to 479 (R2). -/
abbrev PageNo := Fin 480

/-- An addressed memory: (address, byte) pairs, addresses rising, none equal to what an unlisted
address reads as. -/
abbrev Mem := List Host.Cell

/-- A set of files, one bit for each (R13, R25, R46). -/
abbrev FileSet := BitVec 16

end Sys2Proof
end

