-- ==== Sys2Proof/Syntax.lean ====
section
/-! DEFINITION. The commands of the part: one constructor of `Instr` for each row of
spec/opcode_table.json, with its operands. -/

namespace Sys2Proof

/-- The three rails (R164). -/
inductive Rail where
  | vcart | vkeep | vcell
  deriving DecidableEq, Repr

/-- The four command cells (R143). -/
inductive CellId where
  | store | calendar | sound | rumble
  deriving DecidableEq, Repr

/-- What a page array write cut short by a supply loss or part restart leaves (R3): the complete old
content, the complete new content, or a mixture; byte k of a torn record is new where the mask says so. Of a
page write that failed verify the second write, of its Bad header, may be the one cut short: `dev` lists the
bytes of the first that did not take, and byte k of the header is the Bad header's where the mask says so
(log 10). -/
inductive WriteRemains where
  | old
  | new
  | torn (mask : List Bool)
  | badHeader (dev : List Host.Cell) (mask : List Bool)
  deriving DecidableEq, Repr

/-- Which page array write is in progress at a supply loss or part restart: the one that the store engine's
next event makes, or, while a commit in Staging may enter Rolling back with that event, the rewrite of the
first staged page that STAGE_CHUNK would not make and ROLLBACK_PAGE_FREE would (log 9). -/
inductive WriteInProgress where
  | nextEvent
  | firstRollback
  deriving DecidableEq, Repr

/-- How a supply loss or part restart meets the page array (R3): the write in progress and what is left of
it. -/
structure WriteCut where
  write : WriteInProgress
  remains : WriteRemains
  deriving DecidableEq, Repr

/-- The read-back of a page header rewrite (R3): it matches, or it differs and the header is written once
more with state Bad; `bad` lists the bytes (position in the header, byte) of that unverified write that did
not take (log 10). -/
inductive HeaderVerify where
  | pass
  | fail (bad : List Host.Cell)
  deriving DecidableEq, Repr

/-- The read-back of a full page write (R3): it matches, or it differs; `dev` lists the payload bytes
(position in the payload, byte) that did not take the write, and `bad` the bytes of the Bad header's
unverified write that did not take (log 10). -/
inductive Verify where
  | pass
  | fail (dev bad : List Host.Cell)
  deriving DecidableEq, Repr

/-- The two bytes of SET_CAP, each an event of its own at the link (R155). -/
inductive CapByte where
  | command
  | argument (b : Byte)
  deriving DecidableEq, Repr

/-- A command. `v` is a value written on the cartridge bus; for a request row it is the value written to
the unit's command cell, whose offset field names the request's block (log 8). `r` is the outcome of a
page write's verify and `dev` the bytes of an unverified record write that did not take (log 9). -/
inductive Instr where
  -- supply and crystal
  | railJudgementChange (rail : Rail) (mv : Nat) (cut : WriteCut)
  | cellLowChange (mv : Nat)
  | crystalEdge
  | detectorWindowExpiry
  | settlingComplete
  | secondEvent
  -- unit to unit
  | cueRequest (slot : Fin 4) (alarm : Fin 32)
  | playRequest (pattern : Fin 8) (priority : Fin 4)
  | purgeRequest
  | purgeReply
  -- calendar cell
  | readCalendar (v : Word)
  | setCalendar (v : Word)
  | setRollover (v : Word)
  | addAlarm (v : Word)
  | removeAlarm (v : Word)
  | listAlarms (v : Word)
  | takeFired (v : Word)
  -- store cell and store engine
  | readEntry (v : Word)
  | readFile (v : Word)
  | readFilePage
  | commitFile (v : Word)
  | stageChunk (r : Verify)
  | rollbackPageFree (r : HeaderVerify)
  | armJournal (dev : List Host.Cell)
  | commitEntryWrite (dev : List Host.Cell)
  | liveRewrite (r : HeaderVerify)
  | breakPageFree (r : HeaderVerify)
  | damagedEntryWrite (dev : List Host.Cell)
  | freeOldPage (r : HeaderVerify)
  | clearJournal (dev : List Host.Cell)
  | deleteFile (v : Word)
  | deleteEntryClear (dev : List Host.Cell)
  | verifyFile (v : Word)
  | verifyPage
  | readRaw (v : Word)
  | readRawPage
  | formatStore (v : Word)
  | formatHeaderWrite (dev : List Host.Cell)
  | formatJournalWrite (dev : List Host.Cell)
  | formatEntryWrite (dev : List Host.Cell)
  | formatPageWrite (r : HeaderVerify)
  | readStoreStatus (v : Word)
  | scanDiscardHeader (dev : List Host.Cell)
  | scanClearBatteryLost
  | scanHeaderRead
  | scanJournalRead
  | rollForwardEntryWrite (dev : List Host.Cell)
  | rollForwardOldPageFree (r : HeaderVerify)
  | rollForwardLiveRewrite (r : HeaderVerify)
  | scanEntryRead (dev : List Host.Cell)
  | scanChainWalk (dev : List Host.Cell)
  | scanSweepPage (r : HeaderVerify)
  | scanPublish
  -- sound engine and sound cell
  | productionEvent
  | stepBoundary (voice : Fin 8)
  | beatEvent
  | rampEnd
  | pullEvent
  | setVoices (v : Word)
  | commitVoices (v : Word)
  | broadcast (v : Word)
  | silence (v : Word)
  | loadWave (v : Word)
  | startSound (v : Word)
  | stopSound (v : Word)
  | setTempo (v : Word)
  | queueNotes (v : Word)
  | loadCue (v : Word)
  | playCue (v : Word)
  | readSoundStatus (v : Word)
  -- rumble unit and rumble cell
  | driveWrap
  | unitEvent
  | trip (asserted : Bool)
  | setLevels (v : Word)
  | loadPattern (v : Word)
  | playPattern (v : Word)
  | stopRumble (v : Word)
  | clearTrip (v : Word)
  | readRumbleStatus (v : Word)
  -- console port
  | blockOffer (cell : CellId) (v : Word)
  | abortRequest
  | acknowledge (cell : CellId)
  | refusedCellWrite (cell : CellId) (v : Word)
  | noticeEnableWrite (v : Word)
  | partRestart (v : Word) (cut : WriteCut)
  | exchangeRamWrite (addr : BitVec 13) (v : Word)
  -- standby link
  | status
  | cal
  | nextDue
  | firedHead
  | wakeAck
  | setCap (b : CapByte)
  | quiesce
  | resume
  | startCondition
  | stopCondition
  | addressByte (b : Byte)
  | notAcknowledgedByte (b : Byte)
  deriving DecidableEq, Repr

end Sys2Proof
end

