-- ==== Sys2Proof/Decode.lean ====
section
/-! DEFINITION. Reading a command from the table's bits. No row of spec/opcode_table.json gives bits
(every "fields" is empty and no row has "fixed"), so no word spells a command. -/

namespace Sys2Proof

/-- The command that a word spells by the table's bits: none, for no row of this table gives bits. -/
def decodeTableWord (_nbits _w : Nat) : Option Instr := none

end Sys2Proof
end

