-- ==== Sys2Proof/Config.lean ====
section
/-! DEFINITION. The free values: what the spec leaves open and the machine goes on with. -/

namespace Sys2Proof

/-- The page count field of the header that the BatteryLost discard writes. R18 fixes its signature (0)
and gives no page count; nothing reads the field once the signature is 0 (log 13). -/
opaque Config.discardPageCount : Word

end Sys2Proof
end

