-- ==== Sys2Proof/Machine/State.lean ====
section
/-! DEFINITION. The state of the part as plain data, block by block, its value right after reset, and
the reasons a step could stop for. -/

namespace Sys2Proof.Machine

/-- Reasons to stop with a fault. The spec names none (errors are status codes, marks, bytes not
acknowledged, outcome records), so the type is empty: no meaning raises a fault. Safe: nothing is cut off. -/
inductive Fault where
  deriving DecidableEq, Repr

/-- Reasons to refuse a command. -/
inductive Refusal where
  /-- Raised by `exec`'s arm of a command that has no meaning yet; no arm raises it now. Safe: a claim
  about such a command could not be proved. -/
  | notModelled (mnemonic : String)
  deriving DecidableEq, Repr

/-! ## Supply monitor (spec/10) -/

/-- The four supply states (R164). -/
inductive SupplyState where
  | full | standby | backup | dead
  deriving DecidableEq, Repr

/-- One rail: its level in millivolts and the monitor's judgement of it (R164). -/
structure RailState where
  mv : Nat
  good : Bool
  deriving DecidableEq, Repr

/-- The supply monitor: one judgement for each rail, and CellLow (R164, R170). -/
structure Supply where
  vcart : RailState
  vkeep : RailState
  vcell : RailState
  cellLow : Bool
  deriving DecidableEq, Repr

/-! ## Calendar unit (spec/03, spec/04) -/

/-- Oscillator states (TABLE 3-2). -/
inductive Osc where
  | running | stopped | settling
  deriving DecidableEq, Repr

/-- A calendar time: a day number and a second of day (R54). -/
structure CalTime where
  day : Fin 65536
  second : Fin 86400
  deriving DecidableEq, Repr

/-- The rumble of an alarm: a pattern slot with a priority (TABLE 4-1). -/
structure RumbleRef where
  pattern : Fin 8
  priority : Fin 4
  deriving DecidableEq, Repr

/-- An alarm entry (TABLE 4-1). `every` is the repeat interval in minutes; 0 is None (R171). -/
structure Alarm where
  id : Fin 32
  owner : FileNo
  due : CalTime
  every : Word
  wake : Bool
  cue : Option (Fin 4)
  rumble : Option RumbleRef
  tag : Word
  deriving DecidableEq, Repr

/-- A fired record (TABLE 4-2). -/
structure Fired where
  id : Fin 32
  owner : FileNo
  tag : Word
  due : CalTime
  missed : Byte
  supply : SupplyState
  delivered : Bool
  wake : Bool
  rearmed : Bool
  deriving DecidableEq, Repr

/-- The calendar unit's cell-domain state (TABLE 3-5). -/
structure Calendar where
  osc : Osc
  settle : Fin 2048
  prescaler : Fin 32768
  now : CalTime
  timeLost : Bool
  epoch : Fin 65536
  rollover : Fin 86400
  alarms : List Alarm
  fired : List Fired
  overflow : Bool
  wakePending : Bool
  deriving DecidableEq, Repr

/-! ## Standby link (spec/09) -/

/-- Target states (TABLE 9-2). -/
inductive LinkTarget where
  | idle | address | command | argument | complete | read | ignore
  deriving DecidableEq, Repr

/-- The eight standby commands (TABLE 9-3). -/
inductive LinkCmd where
  | status | cal | nextDue | firedHead | wakeAck | setCap | quiesce | resume
  deriving DecidableEq, Repr

/-- The rumble cap (R160). -/
inductive Cap where
  | full | lowOnly | off
  deriving DecidableEq, Repr

/-- Quiesce states (TABLE 9-5). -/
inductive Quiesce where
  | none | pending | done
  deriving DecidableEq, Repr

/-- The standby link: its four pieces of state (spec/09, opening), the captured response (R156), and
the acknowledgement given to the last written byte (R154, R155). -/
structure Link where
  target : LinkTarget
  selected : Option LinkCmd
  cap : Cap
  quiesce : Quiesce
  response : List Byte
  ack : Bool
  deriving DecidableEq, Repr

/-! ## Console port (spec/08) -/

/-- A block held by a cell: its offset and the length captured at acceptance, in words (R143, R144). -/
structure Block where
  off : Nat
  words : Nat
  deriving DecidableEq, Repr

/-- A command cell's state with the block it holds (R143). -/
inductive Hold where
  | idle
  | busy (b : Block)
  | pending (b : Block)
  deriving DecidableEq, Repr

/-- A command cell (R143). -/
structure CellReg where
  hold : Hold
  refused : Bool
  deriving DecidableEq, Repr

/-- The console port (TABLE 8-3). -/
structure Port where
  ram : Mem
  store : CellReg
  calendar : CellReg
  sound : CellReg
  rumble : CellReg
  enable : BitVec 12
  deriving DecidableEq, Repr

/-- Status codes of a termination record (TABLE 11-2). -/
inductive Status where
  | ok | badOp | badArg | noFile | protected_ | noSpace | linkMismatch | dataCheck | unformatted | worn
  | quiesced | aborted | queueFull | tableFull | noAlarm | engineStopped | engineRunning | tripped
  | tripActive | capped | noPattern | patternInUse
  deriving DecidableEq, Repr

/-! ## Store engine (spec/01, spec/02) -/

/-- Store states (TABLE 1-4). -/
inductive StoreState where
  | off | scanning | unformatted | ready | busy | quiesced
  deriving DecidableEq, Repr

/-- The three outcomes a scan records (R25). -/
inductive ScanKind where
  | clean | rolledForward | rolledBack
  deriving DecidableEq, Repr

/-- The last scan outcome (R25). -/
structure ScanOutcome where
  kind : ScanKind
  damaged : FileSet
  discard : Bool
  deriving DecidableEq, Repr

/-- A directory entry (TABLE 1-2), its fields at their stored widths (TABLE 11-10). -/
structure Entry where
  live : Bool
  damaged : Bool
  protect : Byte
  length : Word
  pageCount : Byte
  root : Word
  gen : Word
  day : Word
  second : BitVec 32
  epoch : Word
  deriving DecidableEq, Repr

/-- The operation a journal protects (TABLE 1-1). -/
inductive JournalKind where
  | commit | delete
  deriving DecidableEq, Repr

/-- The fields of an armed journal (TABLE 1-1). -/
structure Journal where
  kind : JournalKind
  file : FileNo
  newRoot : Word
  newCount : Byte
  newLength : Word
  newGen : Word
  newProtect : Byte
  day : Word
  second : BitVec 32
  epoch : Word
  oldRoot : Word
  oldGen : Word
  deriving DecidableEq, Repr

/-- The place the recovery scan has reached: what its next event does (R18 to R24). -/
inductive ScanPhase where
  /-- Step 1, or step 2 when BatteryLost is clear. -/
  | begin
  /-- Step 1 after the discard header write. -/
  | discarded
  /-- Step 3, the journal not yet read. -/
  | journal
  /-- Roll-forward: the entry write. -/
  | rollEntry (j : Journal)
  /-- Roll-forward: the old page to free next and its position in the walk. -/
  | rollOld (j : Journal) (k : Nat) (page : PageNo)
  /-- Roll-forward: the Staged page to make Live next and its position. -/
  | rollLive (j : Journal) (k : Nat) (page : PageNo)
  /-- Roll-forward: the clearing write. -/
  | rollClear
  /-- Step 4, the entry to read next. -/
  | entries (f : FileNo)
  /-- Step 5, the file whose chain is walked, the position, and the link that leads to it. -/
  | walk (f : FileNo) (k : Nat) (link : Word)
  /-- Step 6, the page to dispose of next. -/
  | sweep (page : PageNo)
  /-- Step 7, before the publication. -/
  | publish
  /-- Step 7, waiting for the purge reply. -/
  | purging
  deriving DecidableEq, Repr

/-- What the scan has noted so far for its outcome (R25). -/
structure ScanNotes where
  rolled : Bool
  staged : Bool
  damaged : FileSet
  discard : Bool
  deriving DecidableEq, Repr

/-- The stamp taken when the journal is armed (R6). -/
structure Stamp where
  time : CalTime
  epoch : Fin 65536
  deriving DecidableEq, Repr

/-- The captured arguments of a COMMIT_FILE, its generation (R34), its staged list in staging order
(R35), and the chain that it replaces (R38). -/
structure Commit where
  file : FileNo
  buf : Nat
  length : Nat
  protect : Byte
  gen : Word
  staged : List PageNo
  old : List PageNo
  deriving DecidableEq, Repr

/-- The phase of a commit: what its next event does (R35 to R39). -/
inductive CommitPhase where
  /-- Staging; the chunk position to stage next. -/
  | staging (chunk : Nat)
  /-- Rolling back; the staged pages still to free, and the status the request will end with. -/
  | rollback (todo : List PageNo) (why : Status)
  | arm
  | entry (stamp : Stamp)
  /-- Rewrites to Live: the pages done and the pages to do, in chain order. -/
  | live (done todo : List PageNo)
  /-- After a break: the pages kept and the new pages to free. -/
  | breakFree (kept todo : List PageNo)
  | damagedEntry (kept : List PageNo)
  /-- Old pages to free; `broken` holds the pages kept after a break. -/
  | freeOld (todo : List PageNo) (broken : Option Nat)
  | clear (broken : Option Nat)
  deriving DecidableEq, Repr

/-- The phase of a delete (R40, R41). -/
inductive DeletePhase where
  | arm
  | entry
  | freeOld (todo : List PageNo)
  | clear
  | purging
  deriving DecidableEq, Repr

/-- The phase of a format (R44, R45); `bad` counts the pages that failed verify. -/
inductive FormatPhase where
  | header
  | journal
  | entries (f : FileNo)
  | pages (page : PageNo) (bad : Nat)
  | purging (bad : Nat)
  deriving DecidableEq, Repr

/-- A running store request with its captured arguments and its progress. -/
inductive Job where
  /-- The range, the buffer, the position of the next page and the link that leads to it (R33). -/
  | readFile (file : FileNo) (offset length buf k : Nat) (link : Word)
  /-- The position of the next page and the link that leads to it (R42). -/
  | verify (file : FileNo) (k : Nat) (link : Word)
  /-- First page, page count, buffer and pages copied (R43). -/
  | readRaw (first count buf done : Nat)
  | commit (c : Commit) (ph : CommitPhase)
  | delete (file : FileNo) (ph : DeletePhase)
  | format (ph : FormatPhase)
  deriving DecidableEq, Repr

/-- The block of the running request, the abort mark, and AbortLate (R28, R47, R48). -/
structure Run where
  blk : Block
  abort : Bool
  late : Bool
  deriving DecidableEq, Repr

/-- What the store engine is doing. -/
inductive Op where
  | none
  | scan (n : ScanNotes) (ph : ScanPhase)
  | run (r : Run) (j : Job)
  deriving DecidableEq, Repr

/-- The two forms of a purge request (R83). -/
inductive PurgeForm where
  | file (f : FileNo)
  | allNotLive
  deriving DecidableEq, Repr

/-- The store engine's working state (TABLE 1-5), the purge request and reply under way (R24, R41), and
the entries as the engine last read or wrote them (R30, log 11). -/
structure Store where
  status : StoreState
  verdict : Bool
  free : List PageNo
  bad : List PageNo
  live : FileSet
  hold : Bool
  op : Op
  waiting : Option Block
  last : ScanOutcome
  damagedNow : FileSet
  storeDamaged : Bool
  chains : Vector (List PageNo) 16
  dir : Vector Entry 16
  purgeReq : Option PurgeForm
  purgeReply : Option Nat
  deriving DecidableEq, Repr

/-! ## Sound engine (spec/05, spec/06) -/

/-- Voice sources (TABLE 5-2). -/
inductive Source where
  | off | square | wave | noise
  deriving DecidableEq, Repr

/-- The moduli a Square voice and the drive can have (TABLE 5-2, R122). -/
inductive Modulus where
  | m16 | m32 | m64 | m256
  deriving DecidableEq, Repr

/-- When a voice takes its staged set (R89, R90). -/
inductive UpdateMode where
  | immediate | synced
  deriving DecidableEq, Repr

/-- One parameter set of a voice (TABLE 5-2). -/
structure VoiceSet where
  source : Source
  period : Nat
  modulus : Modulus
  duty : Nat
  slot : Fin 8
  level : Fin 128
  panL : Fin 16
  panR : Fin 16
  key : Bool
  deriving DecidableEq, Repr

/-- A voice record (R86). -/
structure Voice where
  active : VoiceSet
  staged : VoiceSet
  mode : UpdateMode
  member : Bool
  periodCount : Nat
  stepCount : Nat
  waveIndex : Fin 32
  noisePos : Fin 32767
  pending : Bool
  retrigger : Bool
  deriving DecidableEq, Repr

/-- What a note entry writes (TABLE 6-4, R115). -/
inductive NoteAction where
  | keyOn (period : Nat) (level : Fin 128)
  | keyOff
  | setLevel (level : Fin 128)
  | setWave (slot : Fin 8)
  deriving DecidableEq, Repr

/-- A note: a voice and what is written to it. -/
structure Note where
  voice : Fin 8
  action : NoteAction
  deriving DecidableEq, Repr

/-- A note entry of a request list or a cue slot, with its delay (TABLE 6-4). -/
structure NoteEntry where
  note : Note
  delay : Nat
  deriving DecidableEq, Repr

/-- A queued note entry, with its wait (R113). -/
structure Queued where
  note : Note
  wait : Nat
  deriving DecidableEq, Repr

/-- Engine states (TABLE 6-2). -/
inductive EngineState where
  | stopped | running | muting | held
  deriving DecidableEq, Repr

/-- Why a cue was dropped (R119). -/
inductive DropReason where
  | emptySlot | notRunning | queueFull
  deriving DecidableEq, Repr

/-- The last dropped cue (TABLE 6-5). -/
structure Drop where
  alarm : Fin 32
  slot : Fin 4
  reason : DropReason
  deriving DecidableEq, Repr

/-- One stereo frame of two 16-bit two's-complement samples (R96). -/
structure Frame where
  left : Word
  right : Word
  deriving DecidableEq, Repr

/-- The sound engine (R86, R94, R98, R106). `sdo` is the frame being shifted out. -/
structure Sound where
  engine : EngineState
  gain : Nat
  hold : Bool
  frameCount : Nat
  tempo : Nat
  nextTempo : Nat
  beats : BitVec 32
  notes : List Queued
  cues : Vector (List NoteEntry) 4
  lastDrop : Option Drop
  cueDropped : Bool
  voices : Vector Voice 8
  waves : Vector (Option (Vector Byte 32)) 8
  fifo : List Frame
  sdo : Frame
  deriving DecidableEq, Repr

/-! ## Rumble unit (spec/07) -/

/-- One set of drive settings (R122). -/
structure DriveSet where
  modulus : Modulus
  low : Nat
  high : Nat
  deriving DecidableEq, Repr

/-- Drive level codes (TABLE 7-2). -/
inductive Level where
  | off | low | high | full
  deriving DecidableEq, Repr

/-- What a pattern's step length counts (TABLE 7-3). -/
inductive Pacing where
  | time | beat
  deriving DecidableEq, Repr

/-- One step of a pattern (TABLE 7-3). -/
structure PatStep where
  level : Level
  length : Nat
  deriving DecidableEq, Repr

/-- A pattern (TABLE 7-3); `times` is its repeat, 0 for endless. -/
structure Pattern where
  pacing : Pacing
  times : Nat
  steps : List PatStep
  deriving DecidableEq, Repr

/-- Where a play comes from (R126). -/
inductive PlaySource where
  | console | alarm
  deriving DecidableEq, Repr

/-- A play (R126). -/
structure Play where
  pattern : Fin 8
  priority : Fin 4
  source : PlaySource
  deriving DecidableEq, Repr

/-- The current play with its progress (R126). -/
structure Current where
  play : Play
  step : Nat
  reps : Nat
  left : Nat
  deriving DecidableEq, Repr

/-- How a play ended (TABLE 7-5). -/
inductive OutcomeKind where
  | completed | preempted | evicted | dropped | beatLost | capped | tripped | quiesced | stopped
  | noPattern
  deriving DecidableEq, Repr

/-- An outcome record (R138). -/
structure OutcomeRec where
  pattern : Fin 8
  source : PlaySource
  kind : OutcomeKind
  deriving DecidableEq, Repr

/-- The rumble unit (TABLE 7-6). `duty` is the duty of the drive period in progress. -/
structure Rumble where
  active : DriveSet
  staged : DriveSet
  drivePending : Bool
  duty : Nat
  patterns : Vector (Option Pattern) 8
  current : Option Current
  queue : List Play
  outcomes : List OutcomeRec
  trip : Bool
  hold : Bool
  capChanged : Bool
  deriving DecidableEq, Repr

/-! ## The whole part -/

/-- The state: the queue of commands waiting, and every piece of state the spec gives the part. -/
structure State where
  pending : List Instr
  supply : Supply
  msns : Bool
  cal : Calendar
  batteryLost : Bool
  sram : Mem
  link : Link
  port : Port
  store : Store
  sound : Sound
  rumble : Rumble
  deriving DecidableEq, Repr

/-! ## Reset -/

/-- TABLE 3-5: the calendar unit after a cold start. -/
def Calendar.reset : Calendar :=
  { osc := .stopped, settle := 0, prescaler := 0, now := { day := 0, second := 0 }, timeLost := true,
    epoch := 0, rollover := 0, alarms := [], fired := [], overflow := false, wakePending := false }

/-- R163: the standby link after keep-domain power-up. -/
def Link.reset : Link :=
  { target := .idle, selected := none, cap := .full, quiesce := .none, response := [], ack := false }

/-- R143: a command cell after Full entry. -/
def CellReg.reset : CellReg := { hold := .idle, refused := false }

/-- TABLE 8-3: the console port after Full entry. -/
def Port.reset : Port :=
  { ram := [], store := .reset, calendar := .reset, sound := .reset, rumble := .reset, enable := 0 }

/-- R7: the Empty form of a directory entry. -/
def Entry.empty : Entry :=
  { live := false, damaged := false, protect := 0, length := 0, pageCount := 0, root := 0xFFFF, gen := 0,
    day := 0, second := 0, epoch := 0 }

/-- TABLE 1-5: the store engine after Full entry, the recovery scan at its step 1. -/
def Store.reset : Store :=
  { status := .scanning, verdict := false, free := [], bad := [], live := 0, hold := false,
    op := .scan { rolled := false, staged := false, damaged := 0, discard := false } .begin,
    waiting := none, last := { kind := .clean, damaged := 0, discard := false }, damagedNow := 0,
    storeDamaged := false, chains := Vector.replicate 16 [], dir := Vector.replicate 16 Entry.empty,
    purgeReq := none, purgeReply := none }

/-- TABLE 5-5: either parameter set of a voice after Full entry. -/
def VoiceSet.reset : VoiceSet :=
  { source := .off, period := 1, modulus := .m64, duty := 32, slot := 0, level := 0, panL := 15,
    panR := 15, key := false }

/-- TABLE 5-5: a voice record after Full entry. -/
def Voice.reset : Voice :=
  { active := .reset, staged := .reset, mode := .immediate, member := false, periodCount := 0,
    stepCount := 0, waveIndex := 0, noisePos := 0, pending := false, retrigger := false }

/-- The zero frame (R98). -/
def Frame.zero : Frame := { left := 0, right := 0 }

/-- TABLE 6-3 and R105: the sound engine after Full entry. -/
def Sound.reset : Sound :=
  { engine := .stopped, gain := 64, hold := false, frameCount := 0, tempo := 4096, nextTempo := 4096,
    beats := 0, notes := [], cues := Vector.replicate 4 [], lastDrop := none, cueDropped := false,
    voices := Vector.replicate 8 Voice.reset, waves := Vector.replicate 8 none, fifo := [],
    sdo := .zero }

/-- TABLE 7-6: a set of drive settings after Full entry. -/
def DriveSet.reset : DriveSet := { modulus := .m64, low := 24, high := 48 }

/-- TABLE 7-6: the rumble unit after Full entry, MSNS deasserted. -/
def Rumble.reset : Rumble :=
  { active := .reset, staged := .reset, drivePending := false, duty := 0,
    patterns := Vector.replicate 8 none, current := none, queue := [], outcomes := [], trip := false,
    hold := false, capChanged := false }

/-- The part right after the step from Dead to Full (R165): cold start, keep-domain power-up and Full
entry, raised by VCART becoming good with VKEEP and VCELL lost (log 1). -/
def State.reset : State :=
  { pending := [],
    supply := { vcart := { mv := 3000, good := true }, vkeep := { mv := 0, good := false },
                vcell := { mv := 0, good := false }, cellLow := true },
    msns := false, cal := .reset, batteryLost := true, sram := [], link := .reset, port := .reset,
    store := .reset, sound := .reset, rumble := .reset }

end Sys2Proof.Machine
end

