-- ==== Sys2Proof/Machine/Ops.lean ====
section
/-! DEFINITION. The shared operations: bytes and byte order, addressed memory, the check of R1, file
sets, command cells, the termination record, and the store engine's held report to the standby link. -/

namespace Sys2Proof.Machine

/-! ## Bytes and byte order (spec/00, Byte order; spec/11) -/

/-- The low byte of a number. -/
def byteOf (n : Nat) : Byte := BitVec.ofNat 8 n

/-- A two-byte little-endian field. -/
def bytes16 (n : Nat) : List Byte := [byteOf n, byteOf (n / 256)]

/-- A four-byte little-endian field. -/
def bytes32 (n : Nat) : List Byte :=
  [byteOf n, byteOf (n / 256), byteOf (n / 65536), byteOf (n / 16777216)]

/-- A flag written as a byte, 0 or 1. -/
def flagByte (b : Bool) : Byte := if b then 1 else 0

/-- The byte whose named bits, from bit 0 up, are the list. -/
def bitsByte : List Bool → Byte
  | [] => 0
  | b :: bs => flagByte b ||| (bitsByte bs <<< 1)

/-- The number that little-endian bytes spell. -/
def natOf : List Byte → Nat
  | [] => 0
  | b :: bs => b.toNat + 256 * natOf bs

/-- The word that the bytes spell. -/
def wordOf (bs : List Byte) : Word := BitVec.ofNat 16 (natOf bs)

/-- A number as a bounded index, when it is in range. -/
def inRange (k n : Nat) : Option (Fin n) := if h : k < n then some ⟨k, h⟩ else none

/-- A function on each element of a fixed-size vector. -/
def mapVec {α β : Type} {n : Nat} (f : α → β) (v : Vector α n) : Vector β n :=
  ⟨(v.toList.map f).toArray, by simp⟩

/-! ## Addressed memory -/

/-- What an unlisted address reads as: 0, in Exchange RAM by TABLE 8-3, in the page array by log 2. -/
def Mem.unlisted : Byte := 0

/-- The byte at an address. -/
def Mem.read : Mem → Nat → Byte
  | [], _ => Mem.unlisted
  | (a, v) :: m, x => if x = a then v else Mem.read m x

/-- Write one byte, keeping the canonical form. -/
def Mem.write : Mem → Nat → Byte → Mem
  | [], x, v => if v = Mem.unlisted then [] else [(x, v)]
  | (a, w) :: m, x, v =>
    if x < a then (if v = Mem.unlisted then (a, w) :: m else (x, v) :: (a, w) :: m)
    else if x = a then (if v = Mem.unlisted then m else (x, v) :: m)
    else (a, w) :: Mem.write m x v

/-- Write bytes at consecutive addresses. -/
def Mem.writes : Mem → Nat → List Byte → Mem
  | m, _, [] => m
  | m, a, b :: bs => Mem.writes (Mem.write m a b) (a + 1) bs

/-- Read `n` bytes at consecutive addresses. -/
def Mem.reads (m : Mem) (a : Nat) : Nat → List Byte
  | 0 => []
  | n + 1 => Mem.read m a :: Mem.reads m (a + 1) n

/-- All addresses are above `lo` and rise, and no listed byte is what an unlisted address reads as. -/
def Mem.wfFrom : Nat → Mem → Bool
  | _, [] => true
  | lo, (a, v) :: m => decide (lo ≤ a) && decide (v ≠ Mem.unlisted) && Mem.wfFrom (a + 1) m

/-- The canonical form. -/
def Memory.wf (m : Mem) : Bool := Mem.wfFrom 0 m

/-! ## The check (R1) -/

/-- One bit through the shift register of polynomial x^16 + x^12 + x^5 + 1. -/
def crcBit (c : Word) (b : Bool) : Word :=
  if c.msb != b then (c <<< 1) ^^^ 0x1021 else c <<< 1

/-- One byte, most significant bit first. -/
def crcByte (c : Word) (b : Byte) : Word :=
  [7, 6, 5, 4, 3, 2, 1, 0].foldl (fun c i => crcBit c (b.getLsbD i)) c

/-- The check over bytes in ascending address order, initial value 0xFFFF. -/
def check16 (bs : List Byte) : Word := bs.foldl crcByte 0xFFFF

/-- Bytes followed by their check, low byte first. -/
def withCheck (bs : List Byte) : List Byte := bs ++ bytes16 (check16 bs).toNat

/-- The `n` bytes pass the check stored in the two bytes after them. -/
def passes (n : Nat) (bs : List Byte) : Bool :=
  decide ((bs.drop n).take 2 = bytes16 (check16 (bs.take n)).toNat)

/-! ## File sets -/

/-- Membership in a file set. -/
def FileSet.has (x : FileSet) (f : FileNo) : Bool := x.getLsbD f.val

/-- A file joins the set. -/
def FileSet.join (x : FileSet) (f : FileNo) : FileSet := x ||| (1#16 <<< f.val)

/-- A file leaves the set. -/
def FileSet.leave (x : FileSet) (f : FileNo) : FileSet := x &&& ~~~(1#16 <<< f.val)

/-! ## Calendar time (spec/00, Time; R58, R73) -/

/-- `a` is later than `b`. -/
def CalTime.later (a b : CalTime) : Bool :=
  decide (b.day < a.day) || (decide (a.day = b.day) && decide (b.second < a.second))

/-- The position of a calendar time in seconds (R73). -/
def CalTime.pos (t : CalTime) : Nat := t.day.val * 86400 + t.second.val

/-- The calendar time at a position, where one exists (R73). -/
def CalTime.ofPos (p : Nat) : Option CalTime :=
  if h : p < 65536 * 86400 then
    some { day := ⟨p / 86400, by omega⟩, second := ⟨p % 86400, by omega⟩ }
  else none

/-- R58: the game day of a day and second under a rollover second. -/
def gameDayOf (rollover day second : Nat) : Nat := if rollover ≤ second then day else day - 1

/-- R58: the game day of a calendar time under a rollover second. -/
def gameDay (rollover : Fin 86400) (t : CalTime) : Nat :=
  gameDayOf rollover.val t.day.val t.second.val

/-! ## Moduli -/

/-- The number a modulus stands for. -/
def Modulus.num : Modulus → Nat
  | .m16 => 16
  | .m32 => 32
  | .m64 => 64
  | .m256 => 256

/-- The modulus a number names. -/
def Modulus.ofNum (n : Nat) : Option Modulus :=
  if n = 16 then some .m16 else if n = 32 then some .m32 else if n = 64 then some .m64
  else if n = 256 then some .m256 else none

/-! ## Supply state (R164) -/

/-- The supply state that the three judgements form. -/
def Supply.state (p : Supply) : SupplyState :=
  if p.vcart.good then .full else if p.vkeep.good then .standby else if p.vcell.good then .backup
  else .dead

/-- The supply state of the part. -/
def State.supplyState (s : State) : SupplyState := s.supply.state

/-- The console domain is powered (TABLE 10-1). -/
def State.consoleOn (s : State) : Bool := decide (s.supplyState = .full)

/-- The keep domain is powered (TABLE 10-1). -/
def State.keepOn (s : State) : Bool :=
  decide (s.supplyState = .full) || decide (s.supplyState = .standby)

/-- The cell domain is powered (TABLE 10-1). -/
def State.cellOn (s : State) : Bool := decide (s.supplyState ≠ .dead)

/-! ## Exchange RAM and command cells (R142 to R146) -/

/-- The byte of Exchange RAM at an offset. -/
def State.ramByte (s : State) (a : Nat) : Byte := Mem.read s.port.ram a

/-- The number that `n` bytes of Exchange RAM spell. -/
def State.ramNat (s : State) (a n : Nat) : Nat := natOf (Mem.reads s.port.ram a n)

/-- A unit's write of bytes into Exchange RAM, whole at its event (R142). -/
def State.putRam (s : State) (a : Nat) (bs : List Byte) : State :=
  { s with port := { s.port with ram := Mem.writes s.port.ram a bs } }

/-- One of the four cells. -/
def Port.cell (p : Port) : CellId → CellReg
  | .store => p.store
  | .calendar => p.calendar
  | .sound => p.sound
  | .rumble => p.rumble

/-- Replace one of the four cells. -/
def Port.setCell (p : Port) (c : CellId) (r : CellReg) : Port :=
  match c with
  | .store => { p with store := r }
  | .calendar => { p with calendar := r }
  | .sound => { p with sound := r }
  | .rumble => { p with rumble := r }

/-- A cell of the part. -/
def State.cell (s : State) (c : CellId) : CellReg := s.port.cell c

/-- Replace a cell of the part. -/
def State.setCell (s : State) (c : CellId) (r : CellReg) : State :=
  { s with port := s.port.setCell c r }

/-- The code of a status (TABLE 11-2). -/
def Status.code : Status → Byte
  | .ok => 0x00
  | .badOp => 0x01
  | .badArg => 0x02
  | .noFile => 0x03
  | .protected_ => 0x04
  | .noSpace => 0x05
  | .linkMismatch => 0x06
  | .dataCheck => 0x07
  | .unformatted => 0x08
  | .worn => 0x09
  | .quiesced => 0x0A
  | .aborted => 0x0B
  | .queueFull => 0x0C
  | .tableFull => 0x0D
  | .noAlarm => 0x0E
  | .engineStopped => 0x0F
  | .engineRunning => 0x10
  | .tripped => 0x11
  | .tripActive => 0x12
  | .capped => 0x13
  | .noPattern => 0x14
  | .patternInUse => 0x15

/-- What a unit answers: a status, the Partial and AbortLate flags, and a count (R146). -/
structure Answer where
  status : Status
  part : Bool
  late : Bool
  count : Nat
  deriving DecidableEq, Repr

/-- OK with a count. -/
def Answer.ok (count : Nat) : Answer := { status := .ok, part := false, late := false, count := count }

/-- A status with count 0 and neither Partial nor AbortLate. The spec gives count 0 for a block refused by
the general checks (R148), for a store block that fails its checks (R28) and for other refusals where the
request's rule or table says so; for ADD_ALARM, REMOVE_ALARM, LIST_ALARMS, TAKE_FIRED, START_SOUND, SET_TEMPO
and LOAD_CUE refused by their own checks it gives no count, and 0 is the model's choice (log 32). -/
def Answer.refuse (st : Status) : Answer := { status := st, part := false, late := false, count := 0 }

/-- The four bytes of a termination record (TABLE 11-1): Done always, Error unless OK. -/
def Answer.bytes (a : Answer) : List Byte :=
  [a.status.code, bitsByte [true, decide (a.status ≠ .ok), a.part, a.late]] ++ bytes16 a.count

/-- R146: write the termination record in the block's last four bytes; the cell becomes Pending. -/
def State.terminate (s : State) (c : CellId) (b : Block) (a : Answer) : State :=
  (s.putRam (b.off + 4 * b.words - 4) a.bytes).setCell c
    { hold := .pending b, refused := (s.cell c).refused }

/-- R172, R146: result fields from a position of the block on, then the termination record. -/
def State.answerWith (s : State) (c : CellId) (b : Block) (at_ : Nat) (fields : List Byte)
    (a : Answer) : State :=
  (s.putRam (b.off + at_) fields).terminate c b a

/-! ## Held units and the quiesce state (R16, R161) -/

/-- R16, R161: the store counts as held. -/
def Store.held (st : Store) : Bool :=
  decide (st.status = .quiesced) ||
    (decide (st.status = .unformatted) && st.hold && decide (st.op = .none))

/-- R161: the sound engine and the rumble unit count as held. -/
def State.allHeld (s : State) : Bool :=
  s.store.held && decide (s.sound.engine = .held) && s.rumble.hold

/-- R161: Pending becomes Done at the event at which the last of the three comes to count as held. -/
def State.settleQuiesce (s : State) : State :=
  if s.link.quiesce = .pending ∧ s.allHeld = true then
    { s with link := { s.link with quiesce := .done } }
  else s

/-- The outcome of a step that goes on, as every step of this part does. -/
def goesOn (s : State) : Host.Outcome State Fault Refusal := .next s

end Sys2Proof.Machine
end

