-- ==== Sys2Proof/Machine/Operands.lean ====
section
/-! DEFINITION. How the fields of a request block are read: argument fields (R171), buffers (R149), and
the records of TABLE 11-7 and TABLE 11-8 as arguments. -/

namespace Sys2Proof.Machine

/-- The block a value written to a cell names, its length read from the header as it stands (R144). -/
def State.blockAt (s : State) (v : Word) : Block :=
  let off := v.toNat % 4096
  { off := off, words := (s.ramByte (off + 1)).toNat }

/-- R144: the header checks of an offer. -/
def Block.offerable (b : Block) : Bool :=
  decide (b.off % 4 = 0) && decide (b.off ≠ 0) && decide (2 ≤ b.words) && decide (b.words ≤ 64) &&
    decide (b.off + 4 * b.words ≤ 4096)

/-- The operation code of a block (TABLE 11-1). -/
def State.opcode (s : State) (b : Block) : Nat := (s.ramByte b.off).toNat

/-- A one-byte argument at a position of the block. -/
def State.arg8 (s : State) (b : Block) (k : Nat) : Nat := (s.ramByte (b.off + k)).toNat

/-- A two-byte argument. -/
def State.arg16 (s : State) (b : Block) (k : Nat) : Nat := s.ramNat (b.off + k) 2

/-- A four-byte argument. -/
def State.arg32 (s : State) (b : Block) (k : Nat) : Nat := s.ramNat (b.off + k) 4

/-- R149: a buffer of the given offset and length keeps the buffer rules against the block. -/
def Block.bufferOk (b : Block) (buf len : Nat) : Bool :=
  decide (len = 0) ||
    (decide (buf + len ≤ 4096) &&
      (decide (buf + len ≤ b.off) || decide (b.off + 4 * b.words ≤ buf)))

/-- The pages a length needs: the least whole number of 256-byte pages that holds it. -/
def pagesFor (len : Nat) : Nat := (len + 255) / 256

/-- The action of a note entry at an address, its fields in range for that action (R116 check 2). -/
def State.actionAt (s : State) (a : Nat) : Option NoteAction :=
  match (s.ramByte a).toNat with
  | 0 =>
    match inRange (s.ramByte (a + 3)).toNat 128 with
    | some level =>
      let period := s.ramNat (a + 4) 2
      if 1 ≤ period ∧ period ≤ 4095 then some (.keyOn period level) else none
    | none => none
  | 1 => some .keyOff
  | 2 => (inRange (s.ramByte (a + 3)).toNat 128).map .setLevel
  | 3 => (inRange (s.ramByte (a + 6)).toNat 8).map .setWave
  | _ => none

/-- A note entry at an address (TABLE 11-8), when it passes check 2 of R116. -/
def State.noteAt (s : State) (a : Nat) : Option NoteEntry :=
  match s.actionAt a, inRange (s.ramByte (a + 1)).toNat 8 with
  | some act, some voice =>
    some { note := { voice := voice, action := act }, delay := (s.ramByte (a + 2)).toNat }
  | _, _ => none

/-- `n` note entries from an address, when all pass. -/
def State.notesAt (s : State) (a : Nat) : Nat → Option (List NoteEntry)
  | 0 => some []
  | n + 1 =>
    match s.noteAt a, State.notesAt s (a + 8) n with
    | some e, some es => some (e :: es)
    | _, _ => none

/-- The cue of an alarm entry: absent, in range, or out of range. -/
def State.alarmCueAt (s : State) (a : Nat) : Option (Option (Fin 4)) :=
  if (s.ramByte (a + 12)).getLsbD 1 then (inRange (s.ramByte (a + 13)).toNat 4).map some else some none

/-- The rumble of an alarm entry: absent, in range, or out of range. -/
def State.alarmRumbleAt (s : State) (a : Nat) : Option (Option RumbleRef) :=
  if (s.ramByte (a + 12)).getLsbD 2 then
    match inRange (s.ramByte (a + 14)).toNat 8, inRange (s.ramByte (a + 15)).toNat 4 with
    | some p, some q => some (some { pattern := p, priority := q })
    | _, _ => none
  else some none

/-- An alarm entry at an address (TABLE 11-7) under an id, when its fields are in range (R68 check 1). -/
def State.alarmAt (s : State) (a : Nat) (id : Fin 32) : Option Alarm :=
  match inRange (s.ramByte (a + 1)).toNat 16, inRange (s.ramNat (a + 4) 4) 86400, s.alarmCueAt a,
    s.alarmRumbleAt a with
  | some owner, some second, some cue, some rumble =>
    some { id := id, owner := owner,
           due := { day := Fin.ofNat 65536 (s.ramNat (a + 2) 2), second := second },
           every := wordOf (Mem.reads s.port.ram (a + 8) 2),
           wake := (s.ramByte (a + 12)).getLsbD 0, cue := cue, rumble := rumble,
           tag := wordOf (Mem.reads s.port.ram (a + 10) 2) }
  | _, _, _, _ => none

/-- A drive level code (TABLE 11-6). -/
def Level.ofNum (n : Nat) : Option Level :=
  match n with
  | 0 => some .off
  | 1 => some .low
  | 2 => some .high
  | 3 => some .full
  | _ => none

/-- `n` pattern steps from an address, when every level and length is in range (R125). -/
def State.stepsAt (s : State) (a : Nat) : Nat → Option (List PatStep)
  | 0 => some []
  | n + 1 =>
    match Level.ofNum (s.ramByte a).toNat, State.stepsAt s (a + 2) n with
    | some l, some ps =>
      if (s.ramByte (a + 1)).toNat = 0 then none
      else some ({ level := l, length := (s.ramByte (a + 1)).toNat } :: ps)
    | _, _ => none

end Sys2Proof.Machine
end

