-- ==== Sys2Proof/Machine/Rumble.lean ====
section
/-! DEFINITION. The rumble unit (spec/07): the drive, patterns, plays, the conditions that take the
motor, the outcome list, and the requests of the rumble cell. -/

namespace Sys2Proof.Machine

/-! ## Rumble state, outcome list, start of a play -/

/-- The four states (R126). -/
inductive RumbleState where
  | idle | playing | tripped | held
  deriving DecidableEq, Repr

/-- R126: the state read from the marks and the current play. -/
def Rumble.state (r : Rumble) : RumbleState :=
  if r.hold then .held else if r.trip then .tripped else
    match r.current with
    | some _ => .playing
    | none => .idle

/-- R138: add a record at the tail; with 8 records held it is dropped. -/
def Rumble.record (r : Rumble) (p : Play) (k : OutcomeKind) : Rumble :=
  if r.outcomes.length < 8 then
    { r with outcomes := r.outcomes ++ [{ pattern := p.pattern, source := p.source, kind := k }] }
  else r

/-- The records of several plays, in order (R138). -/
def Rumble.recordAll (r : Rumble) (ps : List Play) (k : OutcomeKind) : Rumble :=
  ps.foldl (fun r p => r.record p k) r

/-- The plays present, the current one first. -/
def Rumble.plays (r : Rumble) : List Play :=
  (match r.current with
   | some c => [c.play]
   | none => []) ++ r.queue

/-- The pattern in a slot. -/
def Rumble.patternOf (r : Rumble) (slot : Fin 8) : Option Pattern := r.patterns[slot]

/-- The length of a step of the pattern in a slot. -/
def Rumble.stepLength (r : Rumble) (slot : Fin 8) (i : Nat) : Nat :=
  match r.patternOf slot with
  | some p =>
    match p.steps[i]? with
    | some st => st.length
    | none => 0
  | none => 0

/-- The pattern in a slot is Beat-paced. -/
def Rumble.beatPaced (r : Rumble) (slot : Fin 8) : Bool :=
  match r.patternOf slot with
  | some p => decide (p.pacing = .beat)
  | none => false

/-- R130: a play becomes current and starts. -/
def Rumble.start (r : Rumble) (p : Play) : Rumble :=
  { r with current := some { play := p, step := 0, reps := 0, left := r.stepLength p.pattern 0 } }

/-- R131: no play is current and the drive goes to 0 at once. -/
def Rumble.idleDrive (r : Rumble) : Rumble := { r with current := none, queue := [], duty := 0 }

/-- R131: plays are taken from the head of the queue until one starts; a Beat-paced head with the sound
engine not Running leaves with outcome BeatLost. -/
def Rumble.takeFrom (running : Bool) : List Play → Rumble → Rumble
  | [], r => r.idleDrive
  | p :: ps, r =>
    if r.beatPaced p.pattern && !running then Rumble.takeFrom running ps (r.record p .beatLost)
    else Rumble.start { r with queue := ps } p

/-- R131: the current play ends with an outcome and the queue is taken from. -/
def Rumble.endCurrent (r : Rumble) (running : Bool) (p : Play) (k : OutcomeKind) : Rumble :=
  Rumble.takeFrom running r.queue (r.record p k)

/-- R133, R134, R136, R137: every play ends with one outcome, the current first and then the queue in
order; no play is present and the drive goes to 0 at once. -/
def Rumble.endAll (r : Rumble) (k : OutcomeKind) : Rumble := (r.recordAll r.plays k).idleDrive

/-! ## Steps of the current play (R130) -/

/-- R130: the repetitions completed after one more, held at 255 (R126). -/
def repsAfter (n : Nat) : Nat := if n < 255 then n + 1 else 255

/-- R130: the remaining count of the current play falls by 1, ending steps or the play. -/
def Rumble.countDown (r : Rumble) (running : Bool) (c : Current) (p : Pattern) : Rumble :=
  if 1 < c.left then { r with current := some { c with left := c.left - 1 } }
  else if c.step + 1 < p.steps.length then
    { r with current := some { c with step := c.step + 1,
                                      left := r.stepLength c.play.pattern (c.step + 1) } }
  else if p.times = 0 ∨ repsAfter c.reps < p.times then
    { r with current := some { c with step := 0, reps := repsAfter c.reps,
                                      left := r.stepLength c.play.pattern 0 } }
  else r.endCurrent running c.play .completed

/-- R130: one unit or beat reaches the current play, when its pattern has that pacing. -/
def Rumble.tick (r : Rumble) (pacing : Pacing) (running : Bool) : Rumble :=
  match r.current with
  | some c =>
    match r.patternOf c.play.pattern with
    | some p => if p.pacing = pacing then r.countDown running c p else r
    | none => r
  | none => r

/-- R132: the beat-lost signal ends a Beat-paced current play BeatLost, with the drive at 0 at once. -/
def Rumble.beatLost (r : Rumble) : Rumble :=
  match r.current with
  | some c =>
    if r.beatPaced c.play.pattern then
      Rumble.endCurrent { r with duty := 0 } false c.play .beatLost
    else r
  | none => r

/-! ## Arrival of a play (R128, R129) -/

/-- How an arrival ends: started, queued, or refused with the console's status and the alarm's
outcome. -/
inductive Arrival where
  | started
  | queued
  | refused (st : Status) (k : OutcomeKind)
  deriving DecidableEq, Repr

/-- R128: the checks of an arrival, in order. -/
def Rumble.arrivalCheck (r : Rumble) (cap : Cap) (running : Bool) (slot : Fin 8) : Option Arrival :=
  if r.trip then some (.refused .tripped .tripped)
  else if r.hold then some (.refused .quiesced .quiesced)
  else if cap = .off then some (.refused .capped .capped)
  else if (r.patternOf slot).isNone then some (.refused .noPattern .noPattern)
  else if r.beatPaced slot && !running then some (.refused .engineStopped .beatLost)
  else none

/-- R129 step 3: after every pending play of equal or higher priority, before the first of lower. -/
def insertPlay (p : Play) : List Play → List Play
  | [] => [p]
  | q :: qs => if q.priority < p.priority then p :: q :: qs else q :: insertPlay p qs

/-- R129: place a play that passed the checks. -/
def Rumble.place (r : Rumble) (p : Play) : Rumble × Arrival :=
  match r.current with
  | none => (r.start p, .started)
  | some c =>
    if c.play.priority < p.priority then ((r.record c.play .preempted).start p, .started)
    else if r.queue.length < 4 then ({ r with queue := insertPlay p r.queue }, .queued)
    else
      match r.queue.getLast? with
      | some t =>
        if t.priority < p.priority then
          ({ r.record t .evicted with queue := insertPlay p r.queue.dropLast }, .queued)
        else (r, .refused .queueFull .dropped)
      | none => (r, .refused .queueFull .dropped)

/-- R128, R129: an arrival, checked and then placed. -/
def Rumble.arrive (r : Rumble) (cap : Cap) (running : Bool) (p : Play) : Rumble × Arrival :=
  match r.arrivalCheck cap running p.pattern with
  | some a => (r, a)
  | none => r.place p

/-- R128: an alarm play; a refusal is recorded in the outcome list and not answered. -/
def Rumble.alarmPlay (r : Rumble) (cap : Cap) (running : Bool) (p : Play) : Rumble :=
  match r.arrive cap running p with
  | (r', .refused _ k) => r'.record p k
  | (r', _) => r'

/-! ## Conditions that take the motor -/

/-- R133: the reaction to a cap change. -/
def Rumble.capChange (r : Rumble) (cap : Cap) : Rumble :=
  let r1 := { r with capChanged := true }
  if cap = .off then r1.endAll .capped else r1

/-- R134: a trip. -/
def Rumble.tripNow (r : Rumble) : Rumble :=
  if r.trip then r
  else if r.hold then { r with trip := true, duty := 0 }
  else { r.endAll .tripped with trip := true }

/-- R136: a quiesce request. -/
def Rumble.quiesce (r : Rumble) : Rumble :=
  if r.hold then r
  else if r.trip then { r with hold := true }
  else { r.endAll .quiesced with hold := true }

/-- R136: a resume request. -/
def Rumble.resume (r : Rumble) : Rumble := { r with hold := false }

/-! ## The drive (R122, R123) -/

/-- R123: a level code downgraded by the cap. -/
def Level.capped (l : Level) (cap : Cap) : Level :=
  match cap, l with
  | .lowOnly, .high => .low
  | .lowOnly, .full => .low
  | _, l => l

/-- TABLE 7-2: the duty of a level code under drive settings. -/
def DriveSet.duty (d : DriveSet) : Level → Nat
  | .off => 0
  | .low => d.low
  | .high => d.high
  | .full => d.modulus.num

/-- The level of the current step. -/
def Rumble.stepLevel (r : Rumble) (c : Current) : Level :=
  match r.patternOf c.play.pattern with
  | some p =>
    match p.steps[c.step]? with
    | some st => st.level
    | none => .off
  | none => .off

/-- R123: the duty that a wrap fixes, from the active set as it stands. -/
def Rumble.wrapDuty (r : Rumble) (cap : Cap) : Nat :=
  if r.hold || r.trip || decide (cap = .off) then 0
  else
    match r.current with
    | some c => r.active.duty ((r.stepLevel c).capped cap)
    | none => 0

/-- R122: a wrap: the staged set is taken if pending, then the duty is fixed. -/
def Rumble.wrap (r : Rumble) (cap : Cap) : Rumble :=
  let r1 := if r.drivePending then { r with active := r.staged, drivePending := false } else r
  { r1 with duty := r1.wrapDuty cap }

/-! ## The unit within the part -/

/-- The sound engine is Running, as the rumble unit reads it (R110). -/
def State.beatRunning (s : State) : Bool := decide (s.sound.engine = .running)

/-- Replace the rumble unit. -/
def State.withRumble (s : State) (r : Rumble) : State := { s with rumble := r }

/-- A play request of an alarm reaches the unit (R76, R128). -/
def State.playRequest (s : State) (p : RumbleRef) : State :=
  s.withRumble (s.rumble.alarmPlay s.link.cap s.beatRunning
    { pattern := p.pattern, priority := p.priority, source := .alarm })

/-- The beat signal reaches the unit (R130). -/
def State.beatSignal (s : State) : State := s.withRumble (s.rumble.tick .beat s.beatRunning)

/-- The beat-lost signal reaches the unit (R132); the engine has left Running. -/
def State.beatLostSignal (s : State) : State := s.withRumble s.rumble.beatLost

/-! ## Requests of the rumble cell (R127; TABLE 11-6) -/

/-- R124: the staged settings of a SET_LEVELS, each duty lowered to the new modulus. -/
def DriveSet.ofLevels (m : Modulus) (low high : Nat) : DriveSet :=
  { modulus := m, low := min low m.num, high := min high m.num }

/-- R124 SET_LEVELS. -/
def State.setLevels (s : State) (b : Block) : State :=
  match Modulus.ofNum (s.arg16 b 4) with
  | some m =>
    if s.arg16 b 6 ≤ 256 ∧ s.arg16 b 8 ≤ 256 then
      (s.withRumble { s.rumble with staged := DriveSet.ofLevels m (s.arg16 b 6) (s.arg16 b 8),
                                    drivePending := true }).terminate .rumble b (.ok 0)
    else s.terminate .rumble b (.refuse .badArg)
  | none => s.terminate .rumble b (.refuse .badArg)

/-- The slot is named by the current play or by a play in the queue (R125). -/
def Rumble.inUse (r : Rumble) (slot : Fin 8) : Bool := r.plays.any fun p => decide (p.pattern = slot)

/-- The pattern that a LOAD_PATTERN block states, when its fields are in range (R125 check 1). -/
def State.patternArg (s : State) (b : Block) : Option (Fin 8 × Pattern) :=
  let n := s.arg8 b 7
  match inRange (s.arg8 b 4) 8, s.stepsAt (b.off + 8) n with
  | some slot, some steps =>
    if s.arg8 b 5 ≤ 1 ∧ s.arg8 b 6 ≤ 15 ∧ n ≤ 16 then
      some (slot, { pacing := if s.arg8 b 5 = 0 then .time else .beat, times := s.arg8 b 6,
                    steps := steps })
    else none
  | _, _ => none

/-- A loaded slot's contents; a list of 0 steps makes the slot empty (R125). -/
def Pattern.asSlot (p : Pattern) : Option Pattern := if p.steps.isEmpty then none else some p

/-- R125 LOAD_PATTERN. -/
def State.loadPattern (s : State) (b : Block) : State :=
  match s.patternArg b with
  | none => s.terminate .rumble b (.refuse .badArg)
  | some (slot, p) =>
    if s.rumble.inUse slot then s.terminate .rumble b (.refuse .patternInUse)
    else
      (s.withRumble { s.rumble with patterns := s.rumble.patterns.set slot p.asSlot }).terminate .rumble
        b (.ok p.steps.length)

/-- The disposition code of a placed play (TABLE 11-6). -/
def Arrival.code : Arrival → Byte
  | .started => 0
  | _ => 1

/-- R128, TABLE 7-4: the termination of a PLAY_PATTERN that is not placed: its status, with the plays in the
queue as its count. -/
def Rumble.refusal (r : Rumble) (st : Status) : Answer :=
  { status := st, part := false, late := false, count := r.queue.length }

/-- R128, R129 PLAY_PATTERN. -/
def State.playPattern (s : State) (b : Block) : State :=
  match inRange (s.arg8 b 4) 8, inRange (s.arg8 b 5) 4 with
  | some slot, some prio =>
    match s.rumble.arrive s.link.cap s.beatRunning
      { pattern := slot, priority := prio, source := .console } with
    | (_, .refused st _) => s.terminate .rumble b (s.rumble.refusal st)
    | (r', a) =>
      (s.withRumble r').answerWith .rumble b 6 [a.code, 0] (.ok r'.queue.length)
  | _, _ => s.terminate .rumble b (s.rumble.refusal .badArg)

/-- R137 STOP_RUMBLE. -/
def State.stopRumble (s : State) (b : Block) : State :=
  let n := s.rumble.plays.length
  let r' := match s.rumble.current with
    | some _ => s.rumble.endAll .stopped
    | none => s.rumble
  (s.withRumble r').terminate .rumble b (.ok n)

/-- R135 CLEAR_TRIP. -/
def State.clearTrip (s : State) (b : Block) : State :=
  if s.rumble.trip then
    if s.msns then s.terminate .rumble b (.refuse .tripActive)
    else (s.withRumble { s.rumble with trip := false }).terminate .rumble b (.ok 0)
  else s.terminate .rumble b (.ok 0)

/-- Rumble state codes of READ_RUMBLE_STATUS (TABLE 11-6). -/
def RumbleState.code : RumbleState → Byte
  | .idle => 0
  | .playing => 1
  | .tripped => 2
  | .held => 3

/-- Cap codes (TABLE 11-6, TABLE 11-13). -/
def Cap.code : Cap → Byte
  | .full => 0
  | .lowOnly => 1
  | .off => 2

/-- Source codes (TABLE 11-9). -/
def PlaySource.code : PlaySource → Byte
  | .console => 0
  | .alarm => 1

/-- Outcome codes (after TABLE 11-9). -/
def OutcomeKind.code : OutcomeKind → Byte
  | .completed => 0
  | .preempted => 1
  | .evicted => 2
  | .dropped => 3
  | .beatLost => 4
  | .capped => 5
  | .tripped => 6
  | .quiesced => 7
  | .stopped => 8
  | .noPattern => 9

/-- An outcome record as returned (TABLE 11-9). -/
def OutcomeRec.bytes (o : OutcomeRec) : List Byte :=
  [byteOf o.pattern.val, o.source.code, o.kind.code, 0]

/-- The current play's bytes 8 to 14 of READ_RUMBLE_STATUS, 0 when None (TABLE 11-6). -/
def Rumble.currentBytes (r : Rumble) : List Byte :=
  match r.current with
  | some c => [1, byteOf c.play.pattern.val, byteOf c.play.priority.val, c.play.source.code,
               byteOf c.step, byteOf c.reps, byteOf c.left]
  | none => [0, 0, 0, 0, 0, 0, 0]

/-- The eight record places, those past the last record 0 (R172). -/
def Rumble.outcomeBytes (r : Rumble) : List Byte :=
  let bs := (r.outcomes.map OutcomeRec.bytes).flatten
  bs ++ List.replicate (32 - bs.length) 0

/-- The result bytes 4 to 55 of READ_RUMBLE_STATUS (R139, TABLE 11-6). -/
def State.rumbleStatusBytes (s : State) : List Byte :=
  let r := s.rumble
  [r.state.code, flagByte r.trip, flagByte r.hold, s.link.cap.code] ++ r.currentBytes ++
    [byteOf r.queue.length] ++ bytes16 r.active.modulus.num ++ bytes16 r.active.low ++
    bytes16 r.active.high ++ [flagByte r.capChanged, byteOf r.outcomes.length] ++ r.outcomeBytes

/-- R139 READ_RUMBLE_STATUS. -/
def State.readRumbleStatus (s : State) (b : Block) : State :=
  (s.withRumble { s.rumble with outcomes := [], capChanged := false }).answerWith .rumble b 4
    s.rumbleStatusBytes (.ok s.rumble.outcomes.length)

/-- The words a request of the rumble cell needs (TABLE 11-6), none for another operation code. -/
def State.rumbleNeeds (s : State) (b : Block) : Option Nat :=
  match s.opcode b with
  | 1 => some 4
  | 2 => some (3 + (s.arg8 b 7 + 1) / 2)
  | 3 => some 3
  | 4 => some 2
  | 5 => some 2
  | 6 => some 15
  | _ => none

/-- A rumble request that passed the general checks, by its operation code. -/
def State.rumbleRequest (s : State) (b : Block) : State :=
  match s.opcode b with
  | 1 => s.setLevels b
  | 2 => s.loadPattern b
  | 3 => s.playPattern b
  | 4 => s.stopRumble b
  | 5 => s.clearTrip b
  | _ => s.readRumbleStatus b

/-- R127: the unit takes an accepted block. -/
def State.runRumble (s : State) (b : Block) : State :=
  match s.rumbleNeeds b with
  | none => s.terminate .rumble b (.refuse .badOp)
  | some n => if b.words < n then s.terminate .rumble b (.refuse .badArg) else s.rumbleRequest b

end Sys2Proof.Machine
end

