-- ==== Sys2Proof/Machine/Sound.lean ====
section
/-! DEFINITION. The sound engine (spec/05, spec/06): voices and their takes, steps and sources, the
mixer, the note queue, beats, cues, the engine states, and the requests of the sound cell. -/

namespace Sys2Proof.Machine

/-! ## Staged writes (R87) -/

/-- A staged write: the value is stored and the pending mark is set. -/
def Voice.stage (v : Voice) (f : VoiceSet → VoiceSet) : Voice :=
  { v with staged := f v.staged, pending := true }

/-- R87: a write of key On also sets the retrigger mark, a write of key Off clears it. -/
def Voice.stageKey (v : Voice) (on : Bool) : Voice :=
  { v.stage (fun p => { p with key := on }) with retrigger := on }

/-- R87: a write of modulus lowers a staged duty above it. -/
def VoiceSet.withModulus (p : VoiceSet) (m : Modulus) : VoiceSet :=
  { p with modulus := m, duty := min p.duty m.num }

/-! ## Takes (R88 to R90) -/

/-- R88: the voice takes its staged set. -/
def Voice.take (v : Voice) : Voice :=
  let v1 := { v with active := v.staged, pending := false }
  if v.retrigger then
    { v1 with periodCount := 0, stepCount := 0, waveIndex := 0, noisePos := 0, retrigger := false }
  else { v1 with stepCount := if v.stepCount < v.staged.modulus.num then v.stepCount else 0 }

/-- R89: at the end of an event that wrote staged sets, an Immediate voice with its pending mark set and
its active key Off takes. -/
def Voice.idleTake (v : Voice) : Voice :=
  if v.mode = .immediate ∧ v.pending = true ∧ v.active.key = false then v.take else v

/-- R90: a Synced voice with its pending mark set takes. -/
def Voice.syncTake (v : Voice) : Voice :=
  if v.mode = .synced ∧ v.pending = true then v.take else v

/-- R111 step 4: the takes of a beat event. -/
def Voice.beatTake (v : Voice) : Voice := v.idleTake.syncTake

/-! ## Steps and sources (R92 to R95) -/

/-- R92: the source's phase advances by one step. -/
def Voice.advancePhase (v : Voice) : Voice :=
  match v.active.source with
  | .square =>
    { v with stepCount := if v.stepCount + 1 < v.active.modulus.num then v.stepCount + 1 else 0 }
  | .wave => { v with waveIndex := v.waveIndex + 1 }
  | .noise => { v with noisePos := v.noisePos + 1 }
  | .off => v

/-- R92: a step boundary: the counter resets, the phase advances, and a pending Immediate voice takes. -/
def Voice.boundary (v : Voice) : Voice :=
  let v1 := ({ v with periodCount := 0 } : Voice).advancePhase
  if v1.mode = .immediate ∧ v1.pending = true then v1.take else v1

/-- R92: a production event advances a voice whose active key is On by one frame. -/
def Voice.advance (v : Voice) : Voice :=
  if v.active.key then
    let v1 := { v with periodCount := v.periodCount + 1 }
    if v1.active.period ≤ v1.periodCount then v1.boundary else v1
  else v

/-- R95: the register of 15 stages after a number of advances from all ones; bit 0 is the stage that
leaves next, and the next input is the exclusive OR of the two oldest stages. -/
def noiseRegister : Nat → BitVec 15
  | 0 => 0x7FFF#15
  | n + 1 =>
    let r := noiseRegister n
    (r >>> 1) ||| (if r.getLsbD 0 != r.getLsbD 1 then 0x4000#15 else 0#15)

/-- R95: the noise sequence bit at a position. -/
def noiseBit (pos : Nat) : Bool := (noiseRegister pos).getLsbD 0

/-- R94: the sample a Wave voice reads; an empty slot gives 0. -/
def Voice.waveSample (v : Voice) (waves : Vector (Option (Vector Byte 32)) 8) : Int :=
  match waves[v.active.slot] with
  | some w => w[v.waveIndex].toInt
  | none => 0

/-- R93 to R95: a voice's step output. -/
def Voice.stepOutput (v : Voice) (waves : Vector (Option (Vector Byte 32)) 8) : Int :=
  match v.active.source with
  | .off => 0
  | .square => if v.stepCount < v.active.duty then 127 else -127
  | .wave => v.waveSample waves
  | .noise => if noiseBit v.noisePos.val then 127 else -127

/-! ## The mixer (R96) -/

/-- R96: a voice's contribution to one side, rounded toward zero. -/
def Voice.contribution (v : Voice) (waves : Vector (Option (Vector Byte 32)) 8) (pan : Fin 16) : Int :=
  if v.active.key then Int.tdiv (v.stepOutput waves * v.active.level.val * pan.val) 16 else 0

/-- R96: the limit to the 16-bit range. -/
def limit16 (x : Int) : Int := if 32767 < x then 32767 else if x < -32768 then -32768 else x

/-- R96: the sum of a side, times the gain, divided by 64 toward zero, limited. -/
def mixSide (gain : Nat) (contributions : List Int) : Word :=
  BitVec.ofInt 16 (limit16 (Int.tdiv (contributions.sum * gain) 64))

/-- R96: one stereo frame from the eight voices. -/
def mixFrame (gain : Nat) (waves : Vector (Option (Vector Byte 32)) 8) (voices : Vector Voice 8) :
    Frame :=
  { left := mixSide gain (voices.toList.map fun v => v.contribution waves v.active.panL),
    right := mixSide gain (voices.toList.map fun v => v.contribution waves v.active.panR) }

/-! ## The note queue (R113 to R115) -/

/-- R114: insert a note whose due beat is `d` beats after the coming one. -/
def insertNote (n : Note) : Nat → List Queued → List Queued
  | d, [] => [{ note := n, wait := d }]
  | d, q :: qs =>
    if q.wait ≤ d then q :: insertNote n (d - q.wait) qs
    else { note := n, wait := d } :: { q with wait := q.wait - d } :: qs

/-- R114: insert the entries of one request in list order. -/
def insertNotes (es : List NoteEntry) (qs : List Queued) : List Queued :=
  es.foldl (fun qs e => insertNote e.note e.delay qs) qs

/-- R115: the staged writes of one note. -/
def NoteAction.apply (a : NoteAction) (v : Voice) : Voice :=
  match a with
  | .keyOn period level =>
    ((v.stage (fun p => { p with period := period })).stage
      (fun p => { p with level := level })).stageKey true
  | .keyOff => v.stageKey false
  | .setLevel level => v.stage (fun p => { p with level := level })
  | .setWave slot => v.stage (fun p => { p with slot := slot })

/-- R115: apply a note to its voice. -/
def applyNote (n : Note) (vs : Vector Voice 8) : Vector Voice 8 :=
  vs.set n.voice (n.action.apply vs[n.voice])

/-- R113: the due entries leave the head and are applied; then the head's wait falls by 1. -/
def beatNotes : List Queued → Vector Voice 8 → List Queued × Vector Voice 8
  | [], vs => ([], vs)
  | q :: qs, vs =>
    if q.wait = 0 then beatNotes qs (applyNote q.note vs) else ({ q with wait := q.wait - 1 } :: qs, vs)

/-! ## Beat events, production events, the ramp, pulls -/

/-- Replace the sound engine. -/
def State.withSound (s : State) (so : Sound) : State := { s with sound := so }

/-- R111 steps 1 to 4: the beat event within the sound engine. -/
def Sound.beat (so : Sound) : Sound :=
  let r := beatNotes so.notes so.voices
  { so with frameCount := 0, beats := so.beats + 1, tempo := so.nextTempo, notes := r.1,
            voices := mapVec Voice.beatTake r.2 }

/-- R111: the beat event; its last act sends the beat signal to the rumble unit. -/
def State.beatEvent (s : State) : State := (s.withSound s.sound.beat).beatSignal

/-- R108: the engine leaves Muting: for Held when the hold mark is set, else for Stopped with the FIFO
emptied. -/
def Sound.rampEnd (so : Sound) : Sound :=
  if so.hold then { so with gain := 0, engine := .held }
  else { so with gain := 0, engine := .stopped, fifo := [] }

/-- R108, R161: the ramp's end, with its held report. -/
def State.rampEnd (s : State) : State := (s.withSound s.sound.rampEnd).settleQuiesce

/-- R97, R108: the g that a production event's frame carries. -/
def Sound.frameGain (so : Sound) : Nat := if so.engine = .muting then so.gain - 1 else so.gain

/-- R97 steps 1 to 3: one frame is mixed and appended, and the voices advance. -/
def Sound.produceFrame (so : Sound) : Sound :=
  { so with gain := so.frameGain, fifo := so.fifo ++ [mixFrame so.frameGain so.waves so.voices],
            voices := mapVec Voice.advance so.voices }

/-- R97: a production event can occur. -/
def Sound.canProduce (so : Sound) : Bool :=
  (decide (so.engine = .running) || decide (so.engine = .muting)) && decide (so.fifo.length < 64)

/-- R97: a production event, with the beat event or the ramp's end that it brings. -/
def State.produce (s : State) : State :=
  let so := s.sound.produceFrame
  if s.sound.engine = .running then
    let s1 := s.withSound { so with frameCount := so.frameCount + 1 }
    if so.frameCount + 1 = so.tempo then s1.beatEvent else s1
  else
    let s1 := s.withSound so
    if so.gain = 0 then s1.rampEnd else s1

/-- R111: the production event that is next brings a beat event: the frame counter reaches the active
tempo. -/
def Sound.beatDue (so : Sound) : Bool :=
  so.canProduce && decide (so.engine = .running) && decide (so.frameCount + 1 = so.tempo)

/-- R108: the production event that is next ends the ramp: its frame carries g of 0. -/
def Sound.rampDue (so : Sound) : Bool :=
  so.canProduce && decide (so.engine = .muting) && decide (so.frameGain = 0)

/-- R92: the production event that is next brings the voice to a step boundary: its period counter reaches
the active period. -/
def Sound.stepDue (so : Sound) (v : Fin 8) : Bool :=
  so.canProduce && so.voices[v].active.key &&
    decide (so.voices[v].active.period ≤ so.voices[v].periodCount + 1)

/-- R98: a pull sends the oldest frame in Running or Muting, else a zero frame. -/
def Sound.pull (so : Sound) : Sound :=
  if so.engine = .running ∨ so.engine = .muting then
    match so.fifo with
    | f :: fs => { so with fifo := fs, sdo := f }
    | [] => { so with sdo := .zero }
  else { so with sdo := .zero }

/-! ## Departures from Running, quiesce and resume (R108 to R110) -/

/-- R108, R109: the engine leaves Running for Muting and the note queue is emptied. -/
def Sound.mute (so : Sound) : Sound := { so with notes := [], engine := .muting }

/-- R109: a quiesce request within the engine. -/
def Sound.quiesce (so : Sound) : Sound :=
  let so1 := { so with hold := true }
  match so.engine with
  | .running => so1.mute
  | .stopped => { so1 with engine := .held }
  | .muting => so1
  | .held => so1

/-- R109, R110: a quiesce request; a departure from Running sends the beat-lost signal. -/
def State.soundQuiesce (s : State) : State :=
  let s1 := s.withSound s.sound.quiesce
  if s.sound.engine = .running then s1.beatLostSignal else s1

/-- R109: a resume request. -/
def Sound.resume (so : Sound) : Sound :=
  let so1 := { so with hold := false }
  if so.engine = .held then { so1 with engine := .stopped, fifo := [] } else so1

/-! ## Cues (R117 to R119) -/

/-- R118: insert a cue slot's entries. -/
def Sound.insertCue (so : Sound) (slot : Fin 4) : Sound :=
  { so with notes := insertNotes so.cues[slot] so.notes }

/-- R118: the queue lacks room for every entry of the slot. -/
def Sound.cueFull (so : Sound) (slot : Fin 4) : Bool :=
  decide (64 < so.notes.length + so.cues[slot].length)

/-- R119: why an alarm's cue request is dropped, if it is. -/
def Sound.dropReason (so : Sound) (slot : Fin 4) : Option DropReason :=
  if so.cues[slot].isEmpty then some .emptySlot
  else if so.engine ≠ .running then some .notRunning
  else if so.cueFull slot then some .queueFull
  else none

/-- R119: an alarm's cue request. -/
def Sound.cueRequest (so : Sound) (slot : Fin 4) (alarm : Fin 32) : Sound :=
  match so.dropReason slot with
  | some reason =>
    { so with lastDrop := some { alarm := alarm, slot := slot, reason := reason }, cueDropped := true }
  | none => so.insertCue slot

/-- A cue request of an alarm reaches the engine (R76, R119). -/
def State.cueRequest (s : State) (slot : Fin 4) (alarm : Fin 32) : State :=
  s.withSound (s.sound.cueRequest slot alarm)

/-! ## Requests of the sound cell: voices and waves (R99 to R104; TABLE 11-5) -/

/-- Replace the voices. -/
def State.withVoices (s : State) (vs : Vector Voice 8) : State :=
  s.withSound { s.sound with voices := vs }

/-- Write one parameter of a voice, when the parameter code and the value are valid (TABLE 5-4). -/
def Voice.writeParam (v : Voice) (param value : Nat) : Option Voice :=
  match param with
  | 0 =>
    match value with
    | 0 => some (v.stage fun p => { p with source := .off })
    | 1 => some (v.stage fun p => { p with source := .square })
    | 2 => some (v.stage fun p => { p with source := .wave })
    | 3 => some (v.stage fun p => { p with source := .noise })
    | _ => none
  | 1 => if 1 ≤ value ∧ value ≤ 4095 then some (v.stage fun p => { p with period := value }) else none
  | 2 => (Modulus.ofNum value).map fun m => v.stage fun p => p.withModulus m
  | 3 =>
    if value ≤ v.staged.modulus.num then some (v.stage fun p => { p with duty := value }) else none
  | 4 => (inRange value 8).map fun x => v.stage fun p => { p with slot := x }
  | 5 => (inRange value 128).map fun x => v.stage fun p => { p with level := x }
  | 6 => (inRange value 16).map fun x => v.stage fun p => { p with panL := x }
  | 7 => (inRange value 16).map fun x => v.stage fun p => { p with panR := x }
  | 8 =>
    match value with
    | 0 => some (v.stageKey false)
    | 1 => some (v.stageKey true)
    | _ => none
  | 9 =>
    match value with
    | 0 => some { v with mode := .immediate }
    | 1 => some { v with mode := .synced }
    | _ => none
  | 10 =>
    match value with
    | 0 => some { v with member := false }
    | 1 => some { v with member := true }
    | _ => none
  | _ => none

/-- One entry of a SET_VOICES list: voice, parameter code, value. -/
structure VoiceWrite where
  voice : Nat
  param : Nat
  value : Nat
  deriving DecidableEq, Repr

/-- The entries of a SET_VOICES block from an address (TABLE 11-5). -/
def State.voiceWrites (s : State) (a : Nat) : Nat → List VoiceWrite
  | 0 => []
  | n + 1 =>
    { voice := (s.ramByte a).toNat, param := (s.ramByte (a + 1)).toNat, value := s.ramNat (a + 2) 2 }
      :: State.voiceWrites s (a + 4) n

/-- R100: one entry applied to the voices, when it passes. -/
def applyWrite (w : VoiceWrite) (vs : Vector Voice 8) : Option (Vector Voice 8) :=
  match inRange w.voice 8 with
  | some i => (vs[i].writeParam w.param w.value).map fun v => vs.set i v
  | none => none

/-- R100: the entries applied in list order up to the first that fails, and how many were applied. -/
def applyWrites : List VoiceWrite → Vector Voice 8 → Vector Voice 8 × Nat
  | [], vs => (vs, 0)
  | w :: ws, vs =>
    match applyWrite w vs with
    | some vs' => let r := applyWrites ws vs'; (r.1, r.2 + 1)
    | none => (vs, 0)

/-- R100: the termination of a SET_VOICES that applied `k` entries of a list of `n`. -/
def setVoicesAnswer (k n : Nat) : Answer :=
  if k = n then .ok n else { status := .badArg, part := true, late := false, count := k }

/-- R100 SET_VOICES. -/
def State.setVoices (s : State) (b : Block) : State :=
  let n := s.arg8 b 4
  if 16 < n then s.terminate .sound b (.refuse .badArg)
  else
    let r := applyWrites (s.voiceWrites (b.off + 8) n) s.sound.voices
    (s.withVoices (mapVec Voice.idleTake r.1)).terminate .sound b (setVoicesAnswer r.2 n)

/-- The number of voices with a property. -/
def countVoices (p : Voice → Bool) (vs : Vector Voice 8) : Nat := (vs.toList.filter p).length

/-- R101 COMMIT_VOICES. -/
def State.commitVoices (s : State) (b : Block) : State :=
  let n := countVoices (fun v => decide (v.mode = .synced) && v.pending) s.sound.voices
  (s.withVoices (mapVec Voice.syncTake s.sound.voices)).terminate .sound b (.ok n)

/-- R102: the write that a BROADCAST makes, when its parameter and value are valid. -/
def broadcastWrite (param value : Nat) : Option (Voice → Voice) :=
  match param with
  | 5 => (inRange value 128).map fun x v => v.stage fun p => { p with level := x }
  | 8 =>
    match value with
    | 0 => some fun v => v.stageKey false
    | 1 => some fun v => v.stageKey true
    | _ => none
  | _ => none

/-- R102 BROADCAST. -/
def State.broadcast (s : State) (b : Block) : State :=
  match broadcastWrite (s.arg8 b 4) (s.arg16 b 6) with
  | none => s.terminate .sound b (.refuse .badArg)
  | some f =>
    (s.withVoices (mapVec (fun v => if v.member then (f v).idleTake else v) s.sound.voices)).terminate
      .sound b (.ok (countVoices (·.member) s.sound.voices))

/-- R103: source Off, key Off and level 0 in a parameter set. -/
def VoiceSet.silent (p : VoiceSet) : VoiceSet := { p with source := .off, key := false, level := 0 }

/-- R103, R86: SILENCE on one voice. A staged write pending before it is lost, so the staged set of a
pending voice goes back to the active one (log 12). -/
def Voice.silence (v : Voice) : Voice :=
  { v with active := v.active.silent,
           staged := if v.pending then v.active.silent else v.staged.silent,
           pending := false, retrigger := false }

/-- R103 SILENCE. -/
def State.silence (s : State) (b : Block) : State :=
  (s.withSound { s.sound with voices := mapVec Voice.silence s.sound.voices, notes := [] }).terminate
    .sound b (.ok 0)

/-- The 32 bytes of Exchange RAM from an offset, as samples (R104). -/
def State.samplesAt (s : State) (a : Nat) : Vector Byte 32 :=
  Vector.ofFn fun i => s.ramByte (a + i.val)

/-- R104 LOAD_WAVE. -/
def State.loadWave (s : State) (b : Block) : State :=
  match inRange (s.arg8 b 4) 8 with
  | none => s.terminate .sound b (.refuse .badArg)
  | some slot =>
    if b.bufferOk (s.arg16 b 6) 32 then
      (s.withSound { s.sound with waves := s.sound.waves.set slot (some (s.samplesAt (s.arg16 b 6))) }).terminate
        .sound b (.ok 0)
    else s.terminate .sound b (.refuse .badArg)

/-! ## Requests of the sound cell: beats, notes and cues (R107 to R120) -/

/-- A tempo is in range (R106). -/
def tempoOk (t : Nat) : Bool := decide (256 ≤ t) && decide (t ≤ 65535)

/-- R107: the engine after a start. -/
def Sound.started (so : Sound) (tempo : Nat) : Sound :=
  { so with tempo := tempo, nextTempo := tempo, frameCount := 0, beats := 0, gain := 64, fifo := [],
            engine := .running }

/-- R107 START_SOUND. -/
def State.startSound (s : State) (b : Block) : State :=
  if tempoOk (s.arg16 b 4) then
    match s.sound.engine with
    | .running => s.terminate .sound b (.refuse .engineRunning)
    | .muting => s.terminate .sound b (.refuse .engineRunning)
    | .held => s.terminate .sound b (.refuse .quiesced)
    | .stopped => (s.withSound (s.sound.started (s.arg16 b 4))).terminate .sound b (.ok 0)
  else s.terminate .sound b (.refuse .badArg)

/-- R108, R110: a STOP_SOUND's effect on the engine and the beat-lost signal it sends. -/
def State.stopNow (s : State) : State :=
  if s.sound.engine = .running then (s.withSound s.sound.mute).beatLostSignal else s

/-- R108 STOP_SOUND. -/
def State.stopSound (s : State) (b : Block) : State := s.stopNow.terminate .sound b (.ok 0)

/-- R112 SET_TEMPO. -/
def State.setTempo (s : State) (b : Block) : State :=
  if tempoOk (s.arg16 b 4) then
    (s.withSound { s.sound with nextTempo := s.arg16 b 4 }).terminate .sound b (.ok 0)
  else s.terminate .sound b (.refuse .badArg)

/-- R116: the termination of a QUEUE_NOTES that inserted `k` entries of a list of `n`. -/
def queueNotesAnswer (k n : Nat) : Answer :=
  if k = n then .ok n else { status := .queueFull, part := false, late := false, count := k }

/-- R116 QUEUE_NOTES. -/
def State.queueNotes (s : State) (b : Block) : State :=
  let n := s.arg8 b 4
  if 16 < n then s.terminate .sound b (.refuse .badArg)
  else
    match s.notesAt (b.off + 8) n with
    | none => s.terminate .sound b (.refuse .badArg)
    | some es =>
      if s.sound.engine = .running then
        let k := min n (64 - s.sound.notes.length)
        (s.withSound { s.sound with notes := insertNotes (es.take k) s.sound.notes }).terminate
          .sound b (queueNotesAnswer k n)
      else s.terminate .sound b (.refuse .engineStopped)

/-- R117 LOAD_CUE. -/
def State.loadCue (s : State) (b : Block) : State :=
  let n := s.arg8 b 5
  match inRange (s.arg8 b 4) 4, s.notesAt (b.off + 8) n with
  | some slot, some es =>
    if 8 < n then s.terminate .sound b (.refuse .badArg)
    else
      (s.withSound { s.sound with cues := s.sound.cues.set slot es }).terminate .sound b (.ok n)
  | _, _ => s.terminate .sound b (.refuse .badArg)

/-- R118 PLAY_CUE. -/
def State.playCue (s : State) (b : Block) : State :=
  match inRange (s.arg8 b 4) 4 with
  | none => s.terminate .sound b (.refuse .badArg)
  | some slot =>
    if s.sound.cues[slot].isEmpty then s.terminate .sound b (.refuse .badArg)
    else if s.sound.engine ≠ .running then s.terminate .sound b (.refuse .engineStopped)
    else if s.sound.cueFull slot then s.terminate .sound b (.refuse .queueFull)
    else (s.withSound (s.sound.insertCue slot)).terminate .sound b (.ok s.sound.cues[slot].length)

/-- Engine state codes of READ_SOUND_STATUS (TABLE 11-5). -/
def EngineState.code : EngineState → Byte
  | .stopped => 0
  | .running => 1
  | .muting => 2
  | .held => 3

/-- Drop reason codes (TABLE 11-5). -/
def DropReason.code : DropReason → Byte
  | .emptySlot => 0
  | .notRunning => 1
  | .queueFull => 2

/-- The last dropped cue's bytes 16 to 19 of READ_SOUND_STATUS. -/
def Sound.dropBytes (so : Sound) : List Byte :=
  match so.lastDrop with
  | some d => [1, byteOf d.alarm.val, byteOf d.slot.val, d.reason.code]
  | none => [0, 0, 0, 0]

/-- The result bytes 4 to 19 of READ_SOUND_STATUS (R120, TABLE 11-5). -/
def Sound.statusBytes (so : Sound) : List Byte :=
  [so.engine.code, flagByte so.hold, byteOf so.gain, byteOf so.notes.length] ++ bytes16 so.tempo ++
    bytes16 so.nextTempo ++ bytes32 so.beats.toNat ++ so.dropBytes

/-- R120 READ_SOUND_STATUS. -/
def State.readSoundStatus (s : State) (b : Block) : State :=
  (s.withSound { s.sound with cueDropped := false }).answerWith .sound b 4 s.sound.statusBytes (.ok 0)

/-- The words a request of the sound cell needs (TABLE 11-5), none for another operation code. -/
def State.soundNeeds (s : State) (b : Block) : Option Nat :=
  match s.opcode b with
  | 1 => some (3 + s.arg8 b 4)
  | 2 => some 2
  | 3 => some 3
  | 4 => some 2
  | 5 => some 3
  | 6 => some 3
  | 7 => some 2
  | 8 => some 3
  | 9 => some (3 + 2 * s.arg8 b 4)
  | 10 => some (3 + 2 * s.arg8 b 5)
  | 11 => some 3
  | 12 => some 6
  | _ => none

/-- A sound request that passed the general checks, by its operation code. -/
def State.soundRequest (s : State) (b : Block) : State :=
  match s.opcode b with
  | 1 => s.setVoices b
  | 2 => s.commitVoices b
  | 3 => s.broadcast b
  | 4 => s.silence b
  | 5 => s.loadWave b
  | 6 => s.startSound b
  | 7 => s.stopSound b
  | 8 => s.setTempo b
  | 9 => s.queueNotes b
  | 10 => s.loadCue b
  | 11 => s.playCue b
  | _ => s.readSoundStatus b

/-- R99: the engine takes an accepted block. -/
def State.runSound (s : State) (b : Block) : State :=
  match s.soundNeeds b with
  | none => s.terminate .sound b (.refuse .badOp)
  | some n => if b.words < n then s.terminate .sound b (.refuse .badArg) else s.soundRequest b

end Sys2Proof.Machine
end

