-- ==== Sys2Proof/Machine/Calendar.lean ====
section
/-! DEFINITION. The calendar unit (spec/03, spec/04): the counting path, the alarm table, firing, the
fired list, purges, and the requests of the calendar cell. -/

namespace Sys2Proof.Machine

/-- Replace the calendar unit. -/
def State.withCal (s : State) (c : Calendar) : State := { s with cal := c }

/-! ## The alarm table (R66, R67, R73) -/

/-- R66: after every entry due earlier or at the same time, before every entry due later. -/
def insertAlarm (a : Alarm) : List Alarm → List Alarm
  | [] => [a]
  | x :: xs => if x.due.later a.due then a :: x :: xs else x :: insertAlarm a xs

/-- R67: the lowest free id. -/
def lowestFree (alarms : List Alarm) : Option (Fin 32) :=
  (List.finRange 32).find? fun i => alarms.all fun a => decide (a.id ≠ i)

/-- R73: the whole intervals from a due time that are not later than now. -/
def intervalsPassed (due now : CalTime) (seconds : Nat) : Nat := (now.pos - due.pos) / seconds

/-- R73: the next due time of a repeating entry, where it is a calendar time; None for a once-only
entry. -/
def nextDue (a : Alarm) (now : CalTime) : Option CalTime :=
  if a.every = 0 then none
  else
    CalTime.ofPos (a.due.pos +
      (intervalsPassed a.due now (60 * a.every.toNat) + 1) * (60 * a.every.toNat))

/-- R73: the missed count, held at 255. -/
def missedCount (a : Alarm) (now : CalTime) : Byte :=
  if a.every = 0 then 0
  else byteOf (min 255 (intervalsPassed a.due now (60 * a.every.toNat)))

/-! ## Firing (R72 to R77) -/

/-- R74: the fired record of an entry. -/
def firedRecord (a : Alarm) (now : CalTime) (st : SupplyState) : Fired :=
  { id := a.id, owner := a.owner, tag := a.tag, due := a.due, missed := missedCount a now, supply := st,
    delivered := decide (st = .full), wake := a.wake, rearmed := (nextDue a now).isSome }

/-- R75: append a record, or drop it and set the fired-overflow flag. -/
def Calendar.addFired (c : Calendar) (f : Fired) : Calendar :=
  if c.fired.length < 16 then { c with fired := c.fired ++ [f] } else { c with overflow := true }

/-- R72 steps 1 to 3: the head leaves the table and is reinserted when it has a next due time. -/
def Calendar.rearm (c : Calendar) (a : Alarm) (rest : List Alarm) : Calendar :=
  { c with alarms := match nextDue a c.now with
      | some due => insertAlarm { a with due := due } rest
      | none => rest }

/-- R76: the actions handed on in Full. -/
def State.deliver (s : State) (a : Alarm) : State :=
  let s1 := match a.cue with
    | some slot => s.cueRequest slot a.id
    | none => s
  match a.rumble with
  | some p => s1.playRequest p
  | none => s1

/-- R77: a wake-flagged firing outside Full sets wake-pending. -/
def Calendar.raiseWake (c : Calendar) (wake : Bool) : Calendar :=
  { c with wakePending := c.wakePending || wake }

/-- R72: one firing of the head entry. -/
def State.fire (s : State) (a : Alarm) (rest : List Alarm) : State :=
  let s1 := s.withCal ((s.cal.rearm a rest).addFired (firedRecord a s.cal.now s.supplyState))
  if s.supplyState = .full then s1.deliver a else s1.withCal (s1.cal.raiseWake a.wake)

/-- R72: fire heads while the head's due time is not later than now; at most `n` firings. -/
def State.fireDue : Nat → State → State × Nat
  | 0, s => (s, 0)
  | n + 1, s =>
    match s.cal.alarms with
    | [] => (s, 0)
    | a :: rest =>
      if a.due.later s.cal.now then (s, 0)
      else let r := State.fireDue n (s.fire a rest); (r.1, r.2 + 1)

/-- R72: one application of the firing rule, with the number of records formed; an application fires
each entry at most once, so the table's size bounds it. -/
def State.applyFiring (s : State) : State × Nat := State.fireDue s.cal.alarms.length s

/-! ## The counting path (R52 to R54, R56) -/

/-- R54: the time one second later, and whether the count wrapped. -/
def CalTime.advance (t : CalTime) : CalTime × Bool :=
  if h : t.second.val + 1 < 86400 then ({ t with second := ⟨t.second.val + 1, h⟩ }, false)
  else if h : t.day.val + 1 < 65536 then ({ day := ⟨t.day.val + 1, h⟩, second := 0 }, false)
  else ({ day := 0, second := 0 }, true)

/-- R53, R54: the prescaler returns to 0 and the count advances. -/
def Calendar.tick (c : Calendar) : Calendar :=
  let r := c.now.advance
  { c with prescaler := 0, now := r.1, timeLost := c.timeLost || r.2 }

/-- R54, R72: a second event: the count advances and the firing rule is applied. -/
def State.secondEvent (s : State) : State := ((s.withCal s.cal.tick).applyFiring).1

/-- R52: the settling count reaches 2048 cycles. -/
def Calendar.settled (c : Calendar) : Calendar := { c with osc := .running, settle := 0 }

/-- R52, R53: a crystal edge. The spec gives the stop detector edges, and the settling count and the
prescaler cycles, and does not relate the two; one edge counts as one cycle here (DESIGN CHOICE, log 30). -/
def State.crystalEdge (s : State) : State :=
  match s.cal.osc with
  | .stopped => s.withCal { s.cal with osc := .settling, settle := 0 }
  | .settling =>
    if h : s.cal.settle.val + 1 < 2048 then
      s.withCal { s.cal with settle := ⟨s.cal.settle.val + 1, h⟩ }
    else s.withCal s.cal.settled
  | .running =>
    if h : s.cal.prescaler.val + 1 < 32768 then
      s.withCal { s.cal with prescaler := ⟨s.cal.prescaler.val + 1, h⟩ }
    else s.secondEvent

/-- R52, R56: the detector window passes with no edge. -/
def Calendar.stop (c : Calendar) : Calendar :=
  if c.osc = .stopped then c else { c with osc := .stopped, settle := 0, timeLost := true }

/-! ## Purges (R83) -/

/-- The entries that a purge leaves in the table. -/
def PurgeForm.keeps (p : PurgeForm) (live : FileSet) (a : Alarm) : Bool :=
  match p with
  | .file f => decide (a.owner ≠ f)
  | .allNotLive => FileSet.has live a.owner

/-- R83: the calendar unit takes the purge request under way and sends the reply. -/
def State.purge (s : State) : State :=
  match s.store.purgeReq with
  | none => s
  | some p =>
    let kept := s.cal.alarms.filter (p.keeps s.store.live)
    { s with cal := { s.cal with alarms := kept },
             store := { s.store with purgeReq := none,
                                     purgeReply := some (s.cal.alarms.length - kept.length) } }

/-! ## Requests of the calendar cell (spec/03, 3.7; TABLE 11-4) -/

/-- Oscillator codes (TABLE 11-4). -/
def Osc.code : Osc → Byte
  | .running => 0
  | .stopped => 1
  | .settling => 2

/-- The result bytes 4 to 19 of READ_CALENDAR (R59, TABLE 11-4). -/
def State.calendarBytes (s : State) : List Byte :=
  let c := s.cal
  bytes16 c.now.day.val ++ bytes16 (gameDay c.rollover c.now) ++ bytes32 c.now.second.val ++
    bytes32 c.rollover.val ++ bytes16 c.epoch.val ++
    [bitsByte [c.timeLost, s.supply.cellLow], c.osc.code]

/-- R59 READ_CALENDAR. -/
def State.readCalendar (s : State) (b : Block) : State :=
  s.answerWith .calendar b 4 s.calendarBytes (.ok 0)

/-- R57: the epoch rises by 1 and stays at 65535. -/
def epochAfter (e : Fin 65536) : Fin 65536 := if h : e.val + 1 < 65536 then ⟨e.val + 1, h⟩ else e

/-- R60 steps 1 to 4: the count, the prescaler, TimeLost and the epoch of a set. -/
def Calendar.setTime (c : Calendar) (t : CalTime) : Calendar :=
  { c with now := t, prescaler := 0, timeLost := decide (c.osc = .stopped) && c.timeLost,
           epoch := epochAfter c.epoch }

/-- R60 SET_CALENDAR. -/
def State.setCalendar (s : State) (b : Block) : State :=
  match inRange (s.arg32 b 8) 86400 with
  | none => s.terminate .calendar b (.refuse .badArg)
  | some second =>
    let t : CalTime := { day := Fin.ofNat 65536 (s.arg16 b 4), second := second }
    let r := (s.withCal (s.cal.setTime t)).applyFiring
    r.1.terminate .calendar b (.ok r.2)

/-- R62 SET_ROLLOVER. -/
def State.setRollover (s : State) (b : Block) : State :=
  match inRange (s.arg32 b 4) 86400 with
  | none => s.terminate .calendar b (.refuse .badArg)
  | some second => (s.withCal { s.cal with rollover := second }).terminate .calendar b (.ok 0)

/-- R68 ADD_ALARM. -/
def State.addAlarm (s : State) (b : Block) : State :=
  match s.alarmAt (b.off + 4) ((lowestFree s.cal.alarms).getD 0) with
  | none => s.terminate .calendar b (.refuse .badArg)
  | some a =>
    if FileSet.has s.store.live a.owner = false then s.terminate .calendar b (.refuse .noFile)
    else if a.due.later s.cal.now = false then s.terminate .calendar b (.refuse .badArg)
    else if 32 ≤ s.cal.alarms.length then s.terminate .calendar b (.refuse .tableFull)
    else
      (s.withCal { s.cal with alarms := insertAlarm a s.cal.alarms }).answerWith .calendar b 4
        [byteOf a.id.val] (.ok 0)

/-- R70 REMOVE_ALARM. -/
def State.removeAlarm (s : State) (b : Block) : State :=
  match inRange (s.arg8 b 4) 32, inRange (s.arg8 b 5) 16 with
  | some id, some owner =>
    if s.cal.alarms.any fun a => decide (a.id = id) && decide (a.owner = owner) then
      (s.withCal { s.cal with alarms := s.cal.alarms.filter fun a => decide (a.id ≠ id) }).terminate
        .calendar b (.ok 0)
    else s.terminate .calendar b (.refuse .noAlarm)
  | _, _ => s.terminate .calendar b (.refuse .badArg)

/-- An alarm entry as returned (TABLE 11-7). -/
def Alarm.bytes (a : Alarm) : List Byte :=
  [byteOf a.id.val, byteOf a.owner.val] ++ bytes16 a.due.day.val ++ bytes32 a.due.second.val ++
    bytes16 a.every.toNat ++ bytes16 a.tag.toNat ++
    [bitsByte [a.wake, a.cue.isSome, a.rumble.isSome],
     match a.cue with
     | some c => byteOf c.val
     | none => 0] ++
    match a.rumble with
    | some r => [byteOf r.pattern.val, byteOf r.priority.val]
    | none => [0, 0]

/-- R71 LIST_ALARMS. -/
def State.listAlarms (s : State) (b : Block) : State :=
  if b.bufferOk (s.arg16 b 4) 512 then
    (s.putRam (s.arg16 b 4) (s.cal.alarms.map Alarm.bytes).flatten).terminate .calendar b
      (.ok s.cal.alarms.length)
  else s.terminate .calendar b (.refuse .badArg)

/-- Supply state codes of a fired record (TABLE 11-9). No record is formed in Dead. -/
def SupplyState.code : SupplyState → Byte
  | .full => 0
  | .standby => 1
  | .backup => 2
  | .dead => 3

/-- A fired record as returned (TABLE 11-9). -/
def Fired.bytes (f : Fired) : List Byte :=
  [byteOf f.id.val, byteOf f.owner.val] ++ bytes16 f.tag.toNat ++ bytes16 f.due.day.val ++
    [f.missed, f.supply.code] ++ bytes32 f.due.second.val ++
    [bitsByte [f.delivered, f.wake, f.rearmed], 0, 0, 0]

/-- R80: the fired list after a take of up to `n` records. -/
def Calendar.take (c : Calendar) (n : Nat) : Calendar :=
  { c with fired := c.fired.drop n, overflow := c.overflow && decide (n < c.fired.length) }

/-- R80 TAKE_FIRED. -/
def State.takeFired (s : State) (b : Block) : State :=
  let n := s.arg8 b 6
  if 1 ≤ n ∧ n ≤ 16 ∧ b.bufferOk (s.arg16 b 4) (n * 16) = true then
    let taken := s.cal.fired.take n
    ((s.withCal (s.cal.take n)).putRam (s.arg16 b 4) (taken.map Fired.bytes).flatten).answerWith
      .calendar b 8 [byteOf (s.cal.fired.drop n).length, flagByte s.cal.overflow, 0, 0] (.ok taken.length)
  else s.terminate .calendar b (.refuse .badArg)

/-- The words a request of the calendar cell needs (TABLE 11-4), none for another operation code. -/
def State.calendarNeeds (s : State) (b : Block) : Option Nat :=
  match s.opcode b with
  | 1 => some 6
  | 2 => some 4
  | 3 => some 3
  | 4 => some 6
  | 5 => some 3
  | 6 => some 3
  | 7 => some 4
  | _ => none

/-- A calendar request that passed the general checks, by its operation code. -/
def State.calendarRequest (s : State) (b : Block) : State :=
  match s.opcode b with
  | 1 => s.readCalendar b
  | 2 => s.setCalendar b
  | 3 => s.setRollover b
  | 4 => s.addAlarm b
  | 5 => s.removeAlarm b
  | 6 => s.listAlarms b
  | _ => s.takeFired b

/-- The request front takes an accepted block (spec/03, 3.7). -/
def State.runCalendar (s : State) (b : Block) : State :=
  match s.calendarNeeds b with
  | none => s.terminate .calendar b (.refuse .badOp)
  | some n => if b.words < n then s.terminate .calendar b (.refuse .badArg) else s.calendarRequest b

end Sys2Proof.Machine
end

