-- ==== Sys2Proof/Machine/PageArray.lean ====
section
/-! DEFINITION. The page array (spec/01, spec/11.5): the records as bytes, how they are written and
read, what a write cut short leaves, the verified page writes with the free list and the bad-page set,
and the end of a store request. -/

namespace Sys2Proof.Machine

/-! ## Placement (TABLE 11-10) -/

/-- First byte of the store header. -/
def headerBase : Nat := 0

/-- First byte of the commit journal. -/
def journalBase : Nat := 16

/-- First byte of a directory entry. -/
def entryBase (f : FileNo) : Nat := 64 + 32 * f.val

/-- First byte of a page record. -/
def pageBase (p : PageNo) : Nat := 1024 + 268 * p.val

/-! ## Writes (R3) -/

/-- A record write: where, and the bytes of the whole record. -/
structure RecWrite where
  base : Nat
  bytes : List Byte
  deriving DecidableEq, Repr

/-- Bytes written, from a position on, of which some did not take (log 9). -/
def overlay (dev : List Host.Cell) : Nat → List Byte → List Byte
  | _, [] => []
  | k, b :: bs => (dev.lookup k).getD b :: overlay dev (k + 1) bs

/-- The new byte where the mask says so, else the old one. -/
def mixBytes : List Bool → List Byte → List Byte → List Byte
  | m :: ms, o :: os, n :: ns => (if m then n else o) :: mixBytes ms os ns
  | _, os, _ => os

/-- The record passes every check that its write covers, by the record's length: store header (6 bytes),
page header (10), journal or entry (32), whole page record (268). -/
def recordPasses (bs : List Byte) : Bool :=
  if bs.length = 6 then passes 4 bs
  else if bs.length = 10 then passes 8 bs
  else if bs.length = 32 then passes 30 bs
  else passes 8 bs && passes 256 (bs.drop 10)

/-- R3: what an unverified record write leaves. A fault in it shows as a failed check, so bytes that pass
every check are no fault: the write took whole (log 9). -/
def written (dev : List Host.Cell) (bs : List Byte) : List Byte :=
  if recordPasses (overlay dev 0 bs) then bs else overlay dev 0 bs

/-- Write bytes of the page array. -/
def State.putArray (s : State) (w : RecWrite) : State :=
  { s with sram := Mem.writes s.sram w.base w.bytes }

/-- An unverified record write, with the bytes that did not take. -/
def State.putRecord (s : State) (w : RecWrite) (dev : List Host.Cell) : State :=
  s.putArray { w with bytes := written dev w.bytes }

/-! ## Links -/

/-- End of a chain (R171). -/
def linkEnd : Word := 0xFFFF

/-- The page a link names. -/
def linkPage (w : Word) : Option PageNo := inRange w.toNat 480

/-- The link to a page. -/
def pageLink (p : PageNo) : Word := BitVec.ofNat 16 p.val

/-- A link is End or a page index (R173). -/
def linkValid (w : Word) : Bool := decide (w = linkEnd) || decide (w.toNat < 480)

/-! ## Store header (R4) -/

/-- A valid header. -/
def validHeader : RecWrite :=
  { base := headerBase, bytes := withCheck (bytes16 0x5047 ++ bytes16 480) }

/-- R18: the header of the BatteryLost discard, signature 0. -/
def discardHeader : RecWrite :=
  { base := headerBase, bytes := withCheck (bytes16 0 ++ bytes16 Config.discardPageCount.toNat) }

/-- R4: the header is valid. -/
def headerValid (m : Mem) : Bool :=
  let bs := Mem.reads m headerBase 6
  passes 4 bs && decide (bs.take 4 = bytes16 0x5047 ++ bytes16 480)

/-! ## Directory entries (R7, R8; TABLE 11-10) -/

/-- An entry's 32 bytes. -/
def Entry.bytes (e : Entry) : List Byte :=
  withCheck ([flagByte e.live, flagByte e.damaged, e.protect] ++ bytes16 e.length.toNat ++ [e.pageCount] ++
    bytes16 e.root.toNat ++ bytes16 e.gen.toNat ++ bytes16 e.day.toNat ++ bytes32 e.second.toNat ++
    bytes16 e.epoch.toNat ++ List.replicate 12 0)

/-- The fields of an entry as its bytes stand. -/
def readEntry (m : Mem) (f : FileNo) : Entry :=
  let a := entryBase f
  { live := decide (Mem.read m a = 1), damaged := (Mem.read m (a + 1)).getLsbD 0,
    protect := Mem.read m (a + 2), length := wordOf (Mem.reads m (a + 3) 2),
    pageCount := Mem.read m (a + 5), root := wordOf (Mem.reads m (a + 6) 2),
    gen := wordOf (Mem.reads m (a + 8) 2), day := wordOf (Mem.reads m (a + 10) 2),
    second := BitVec.ofNat 32 (natOf (Mem.reads m (a + 12) 4)),
    epoch := wordOf (Mem.reads m (a + 16) 2) }

/-- R8: a Live entry is consistent. -/
def Entry.consistent (e : Entry) : Bool :=
  decide (e.length.toNat ≤ 16384) && decide (e.pageCount.toNat = pagesFor e.length.toNat) &&
    (if e.pageCount = 0 then decide (e.root = linkEnd) else decide (e.root.toNat < 480)) &&
    decide (e.gen ≠ 0) && decide (e.second.toNat ≤ 86399) && decide (e.protect.toNat ≤ 15)

/-- R8: the entry is taken as it stands: its check passes and it says Empty, or says Live and is
consistent. -/
def entryReadable (m : Mem) (f : FileNo) : Bool :=
  passes 30 (Mem.reads m (entryBase f) 32) &&
    (decide (Mem.read m (entryBase f) = 0) ||
      (decide (Mem.read m (entryBase f) = 1) && (readEntry m f).consistent))

/-- The write of an entry. -/
def entryWrite (f : FileNo) (e : Entry) : RecWrite := { base := entryBase f, bytes := e.bytes }

/-- R7: the Empty form with damaged set. -/
def Entry.emptyDamaged : Entry := { Entry.empty with damaged := true }

/-! ## Commit journal (R5, R6; TABLE 11-10) -/

/-- The kind code of a journal. -/
def JournalKind.code : JournalKind → Byte
  | .commit => 0
  | .delete => 1

/-- The 32 bytes of an armed journal. -/
def Journal.bytes (j : Journal) : List Byte :=
  withCheck ([1, j.kind.code, byteOf j.file.val] ++ bytes16 j.newRoot.toNat ++ [j.newCount] ++
    bytes16 j.newLength.toNat ++ bytes16 j.newGen.toNat ++ [j.newProtect] ++ bytes16 j.day.toNat ++
    bytes32 j.second.toNat ++ bytes16 j.epoch.toNat ++ bytes16 j.oldRoot.toNat ++
    bytes16 j.oldGen.toNat ++ List.replicate 7 0)

/-- The arming write. -/
def armWrite (j : Journal) : RecWrite := { base := journalBase, bytes := j.bytes }

/-- R6: the clearing write: state Clear, a fresh check, the other fields as they were. -/
def clearWrite (m : Mem) : RecWrite :=
  { base := journalBase, bytes := withCheck (0 :: Mem.reads m (journalBase + 1) 29) }

/-- R44: the journal that a format writes: Clear, every other field 0. -/
def formatJournal : RecWrite :=
  { base := journalBase, bytes := withCheck (List.replicate 30 0) }

/-- The kind a code names. -/
def JournalKind.ofCode (b : Byte) : Option JournalKind :=
  if b = 0 then some .commit else if b = 1 then some .delete else none

/-- R5: the journal as read: Armed with its fields, or Clear. -/
def readJournal (m : Mem) : Option Journal :=
  let a := journalBase
  match JournalKind.ofCode (Mem.read m (a + 1)), inRange (Mem.read m (a + 2)).toNat 16 with
  | some kind, some file =>
    let j : Journal :=
      { kind := kind, file := file, newRoot := wordOf (Mem.reads m (a + 3) 2),
        newCount := Mem.read m (a + 5), newLength := wordOf (Mem.reads m (a + 6) 2),
        newGen := wordOf (Mem.reads m (a + 8) 2), newProtect := Mem.read m (a + 10),
        day := wordOf (Mem.reads m (a + 11) 2),
        second := BitVec.ofNat 32 (natOf (Mem.reads m (a + 13) 4)),
        epoch := wordOf (Mem.reads m (a + 17) 2), oldRoot := wordOf (Mem.reads m (a + 19) 2),
        oldGen := wordOf (Mem.reads m (a + 21) 2) }
    if passes 30 (Mem.reads m a 32) = true ∧ Mem.read m a = 1 ∧ linkValid j.newRoot = true ∧
        j.newCount.toNat ≤ 64 ∧ j.newLength.toNat ≤ 16384 ∧ j.newGen ≠ 0 ∧ j.newProtect.toNat ≤ 15 ∧
        j.second.toNat ≤ 86399 ∧ linkValid j.oldRoot = true ∧ j.oldGen ≠ 0 then some j
    else none
  | _, _ => none

/-- R7, R38: the entry written from a Commit journal. -/
def Journal.entry (j : Journal) : Entry :=
  { live := true, damaged := false, protect := j.newProtect, length := j.newLength,
    pageCount := j.newCount, root := j.newRoot, gen := j.newGen, day := j.day, second := j.second,
    epoch := j.epoch }

/-! ## Page records (R9; TABLE 11-11) -/

/-- Page states (R9). -/
inductive PageState where
  | free | staged | live | bad
  deriving DecidableEq, Repr

/-- Page state codes. -/
def PageState.code : PageState → Byte
  | .free => 0
  | .staged => 1
  | .live => 2
  | .bad => 3

/-- The fields of a page header, the state as its code byte. -/
structure PageHdr where
  state : Byte
  owner : Byte
  seq : Byte
  gen : Word
  next : Word
  deriving DecidableEq, Repr

/-- The ten bytes of a page header with its check. -/
def PageHdr.bytes (h : PageHdr) : List Byte :=
  withCheck ([h.state, h.owner, h.seq, 0] ++ bytes16 h.gen.toNat ++ bytes16 h.next.toNat)

/-- R9: the header that a rewrite to Free or to Bad writes. -/
def PageHdr.plain (st : PageState) : PageHdr :=
  { state := st.code, owner := 0, seq := 0, gen := 0, next := linkEnd }

/-- The header fields of a page as they stand. -/
def readHdr (m : Mem) (p : PageNo) : PageHdr :=
  let a := pageBase p
  { state := Mem.read m a, owner := Mem.read m (a + 1), seq := Mem.read m (a + 2),
    gen := wordOf (Mem.reads m (a + 4) 2), next := wordOf (Mem.reads m (a + 6) 2) }

/-- The header check passes. -/
def hdrPasses (m : Mem) (p : PageNo) : Bool := passes 8 (Mem.reads m (pageBase p) 10)

/-- The payload check passes. -/
def payloadPasses (m : Mem) (p : PageNo) : Bool := passes 256 (Mem.reads m (pageBase p + 10) 258)

/-- A header rewrite of a page. -/
def hdrWrite (p : PageNo) (h : PageHdr) : RecWrite := { base := pageBase p, bytes := h.bytes }

/-- A full write of a page. -/
def pageWrite (p : PageNo) (h : PageHdr) (payload : List Byte) : RecWrite :=
  { base := pageBase p, bytes := h.bytes ++ withCheck payload }

/-- R3: what a mixture of a write cut short leaves. A mixture that passes its checks is not torn (a torn
record fails its check), so it counts as the old content (log 9). -/
def tornOr (mask : List Bool) (old new : List Byte) : List Byte :=
  if recordPasses (mixBytes mask old new) then old else mixBytes mask old new

/-- R3: what a write cut short leaves. Only a page write has a Bad header after it (log 10). -/
def WriteRemains.content (left : WriteRemains) (old new : List Byte) : List Byte :=
  match left with
  | .old => old
  | .new => new
  | .torn mask => tornOr mask old new
  | .badHeader dev mask =>
    if new.length = 10 ∨ new.length = 268 then
      tornOr mask ((overlay dev 0 new).take 10) (PageHdr.plain .bad).bytes ++ (overlay dev 0 new).drop 10
    else old

/-- R9: the header of a rewrite from Staged to Live. -/
def liveHdr (m : Mem) (p : PageNo) : PageHdr := { readHdr m p with state := PageState.live.code }

/-- R10, R19, R22, R33: the page meets a walk's conditions: one of the states, the owner, the generation,
the sequence equal to the position, the header check, and a valid link (R173). -/
def walkOk (m : Mem) (p : PageNo) (states : List PageState) (f : FileNo) (gen : Word) (k : Nat) : Bool :=
  let h := readHdr m p
  states.any (fun st => decide (st.code = h.state)) && decide (h.owner.toNat = f.val) &&
    decide (h.gen = gen) && decide (h.seq.toNat = k) && hdrPasses m p && linkValid h.next

/-! ## Free list, bad-page set, Worn (R11, R12) -/

/-- R12: Worn follows the size of the bad-page set. -/
def Store.worn (st : Store) : Bool := decide (24 ≤ st.bad.length)

/-- R12: a page joins the bad-page set, which holds no index twice. -/
def Store.retire (st : Store) (p : PageNo) : Store :=
  if p ∈ st.bad then st else { st with bad := st.bad ++ [p] }

/-- A page leaves the bad-page set (log 31). -/
def Store.recall (st : Store) (p : PageNo) : Store :=
  { st with bad := st.bad.filter fun q => decide (q ≠ p) }

/-- R11: a page joins the tail of the free list. -/
def Store.release (st : Store) (p : PageNo) : Store := { st with free := st.free ++ [p] }

/-- Replace the store engine's working state. -/
def State.withStore (s : State) (st : Store) : State := { s with store := st }

/-- R3: the verify passed. -/
def passed : HeaderVerify → Bool
  | .pass => true
  | .fail _ => false

/-- R3: a header rewrite with verify. A read-back that differs is followed by an unverified write of the
header with state Bad, and the page joins the bad-page set. -/
def State.rewrite (s : State) (p : PageNo) (h : PageHdr) (r : HeaderVerify) : State :=
  match r with
  | .pass => s.putArray (hdrWrite p h)
  | .fail bad => (s.putRecord (hdrWrite p (.plain .bad)) bad).withStore (s.store.retire p)

/-- R11: a rewrite to Free with verify; a page that passes joins the free-list tail. -/
def State.freePage (s : State) (p : PageNo) (r : HeaderVerify) : State :=
  let s1 := s.rewrite p (.plain .free) r
  if passed r then s1.withStore (s1.store.release p) else s1

/-! ## Engine progress -/

/-- Set what the store engine is doing. -/
def State.setOp (s : State) (op : Op) : State := s.withStore { s.store with op := op }

/-- R15: the store state at the end of a request that ran on a formatted store. -/
def Store.rest (st : Store) : StoreState :=
  if st.status = .busy then (if st.hold then .quiesced else .ready) else st.status

/-- R28: the end of a running request: the termination, the operation context None, and the store state
that R15 and R16 give, with the held report of R161. -/
def State.endRun (s : State) (r : Run) (st : Status) (part : Bool) (count : Nat) : State :=
  ((s.terminate .store r.blk { status := st, part := part, late := r.late, count := count }).withStore
    { s.store with op := .none, status := s.store.rest }).settleQuiesce

/-- The files whose entries are Live. -/
def Store.liveFiles (st : Store) : FileSet :=
  (List.finRange 16).foldl (fun x f => if st.dir[f].live then FileSet.join x f else x) 0

end Sys2Proof.Machine
end

