-- ==== Sys2Proof/Machine/StoreRequests.lean ====
section
/-! DEFINITION. The requests of the store cell (spec/02): their start checks, their events, aborts, and
what a purge reply ends for them. -/

namespace Sys2Proof.Machine

/-! ## Start of a request (R27) -/

/-- R27, R15: a request that passed its checks and takes time begins. -/
def State.startRun (s : State) (b : Block) (j : Job) : State :=
  s.withStore { s.store with op := .run { blk := b, abort := false, late := false } j,
                             status := if s.store.status = .ready then .busy else s.store.status }

/-- R27: a block that fails a check ends at the start event. -/
def State.refuseStore (s : State) (b : Block) (st : Status) : State :=
  s.terminate .store b (.refuse st)

/-- R31: the flags and the count of days since commit. -/
def daysSince (rollover : Fin 86400) (now : CalTime) (e : Entry) : Int :=
  (gameDay rollover now : Int) - (gameDayOf rollover.val e.day.toNat e.second.toNat : Int)

/-- The result bytes 8 to 31 of READ_ENTRY (R30, R31; TABLE 11-3). -/
def State.entryBytes (s : State) (e : Entry) : List Byte :=
  let d := daysSince s.cal.rollover s.cal.now e
  [flagByte e.live, flagByte e.damaged, e.protect, e.pageCount] ++ bytes16 e.length.toNat ++
    bytes16 e.root.toNat ++ bytes16 e.gen.toNat ++ bytes16 e.day.toNat ++ bytes32 e.second.toNat ++
    bytes16 e.epoch.toNat ++ bytes16 d.toNat ++
    [bitsByte [decide (d < 0), decide (e.epoch.toNat ≠ s.cal.epoch.val), s.cal.timeLost], 0, 0, 0]

/-- R30 READ_ENTRY at its start event. -/
def State.readEntryReq (s : State) (b : Block) : State :=
  match inRange (s.arg8 b 4) 16 with
  | none => s.refuseStore b .badArg
  | some f =>
    let e := s.store.dir[f]
    if s.store.status = .unformatted then s.refuseStore b .unformatted
    else if e.live = false then s.refuseStore b .noFile
    else s.answerWith .store b 8 (s.entryBytes e) (.ok (daysSince s.cal.rollover s.cal.now e).toNat)

/-- R32 READ_FILE at its start event. -/
def State.readFileReq (s : State) (b : Block) : State :=
  let offset := s.arg16 b 6
  let length := s.arg16 b 8
  let buf := s.arg16 b 10
  match inRange (s.arg8 b 4) 16 with
  | none => s.refuseStore b .badArg
  | some f =>
    let e := s.store.dir[f]
    if 16384 < offset ∨ 16384 < length then s.refuseStore b .badArg
    else if s.store.status = .unformatted then s.refuseStore b .unformatted
    else if e.live = false then s.refuseStore b .noFile
    else if e.length.toNat < offset + length then s.refuseStore b .badArg
    else if b.bufferOk buf length = false then s.refuseStore b .badArg
    else if length = 0 then s.terminate .store b (.ok 0)
    else s.startRun b (.readFile f offset length buf 0 e.root)

/-- R34: the generation of a commit. -/
def nextGen (e : Entry) : Word :=
  if e.live = false then 1 else if e.gen = 0xFFFF then 1 else e.gen + 1

/-- R34 COMMIT_FILE at its start event. -/
def State.commitReq (s : State) (b : Block) : State :=
  let protect := s.arg8 b 5
  let length := s.arg16 b 6
  let buf := s.arg16 b 8
  match inRange (s.arg8 b 4) 16 with
  | none => s.refuseStore b .badArg
  | some f =>
    let e := s.store.dir[f]
    if 15 < protect then s.refuseStore b .badArg
    else if s.store.status = .unformatted then s.refuseStore b .unformatted
    else if s.store.worn = true then s.refuseStore b .worn
    else if e.live = true ∧ e.protect.toNat ≠ protect then s.refuseStore b .protected_
    else if 16384 < length ∨ b.bufferOk buf length = false then s.refuseStore b .badArg
    else if s.store.free.length < pagesFor length then s.refuseStore b .noSpace
    else
      s.startRun b (.commit
        { file := f, buf := buf, length := length, protect := byteOf protect, gen := nextGen e,
          staged := [], old := s.store.chains[f] }
        (if length = 0 then .arm else .staging (pagesFor length - 1)))

/-- R40 DELETE_FILE at its start event. -/
def State.deleteReq (s : State) (b : Block) : State :=
  match inRange (s.arg8 b 4) 16 with
  | none => s.refuseStore b .badArg
  | some f =>
    let e := s.store.dir[f]
    if 15 < s.arg8 b 5 then s.refuseStore b .badArg
    else if s.store.status = .unformatted then s.refuseStore b .unformatted
    else if e.live = false then s.refuseStore b .noFile
    else if e.protect.toNat ≠ s.arg8 b 5 then s.refuseStore b .protected_
    else s.startRun b (.delete f .arm)

/-- R42 VERIFY_FILE at its start event; a file with no pages passes there. -/
def State.verifyReq (s : State) (b : Block) : State :=
  match inRange (s.arg8 b 4) 16 with
  | none => s.refuseStore b .badArg
  | some f =>
    let e := s.store.dir[f]
    if s.store.status = .unformatted then s.refuseStore b .unformatted
    else if e.live = false then s.refuseStore b .noFile
    else if e.pageCount = 0 then s.terminate .store b (.ok 0)
    else s.startRun b (.verify f 0 e.root)

/-- R43 READ_RAW at its start event. -/
def State.readRawReq (s : State) (b : Block) : State :=
  let first := s.arg16 b 4
  let count := s.arg8 b 6
  let buf := s.arg16 b 8
  if 479 < first ∨ count < 1 ∨ 15 < count ∨ 480 < first + count ∨ b.bufferOk buf (268 * count) = false then
    s.refuseStore b .badArg
  else s.startRun b (.readRaw first count buf 0)

/-- R44, R15: FORMAT_STORE at its start event. -/
def State.formatReq (s : State) (b : Block) : State :=
  s.withStore { s.store with status := .unformatted, verdict := false, free := [], bad := [], live := 0,
                             damagedNow := 0, chains := Vector.replicate 16 [],
                             op := .run { blk := b, abort := false, late := false }
                               (.format .header) }

/-- Store state codes (after TABLE 11-10). -/
def StoreState.code : StoreState → Byte
  | .off => 0
  | .scanning => 1
  | .unformatted => 2
  | .ready => 3
  | .busy => 4
  | .quiesced => 5

/-- Scan outcome codes (TABLE 11-3). -/
def ScanKind.code : ScanKind → Byte
  | .clean => 0
  | .rolledForward => 1
  | .rolledBack => 2

/-- The result bytes 4 to 19 of READ_STORE_STATUS (R46, TABLE 11-3). -/
def Store.statusBytes (st : Store) : List Byte :=
  [0, 0, 0, 0, st.status.code, flagByte st.worn] ++ bytes16 st.free.length ++ bytes16 st.bad.length ++
    bytes16 st.damagedNow.toNat ++ [st.last.kind.code, flagByte st.last.discard] ++
    bytes16 st.last.damaged.toNat

/-- R46 READ_STORE_STATUS at its start event. -/
def State.readStoreStatus (s : State) (b : Block) : State :=
  (s.withStore { s.store with storeDamaged := false }).answerWith .store b 4 s.store.statusBytes (.ok 0)

/-- The words a request of the store cell needs (TABLE 11-3), none for another operation code. -/
def State.storeNeeds (s : State) (b : Block) : Option Nat :=
  match s.opcode b with
  | 1 => some 9
  | 2 => some 4
  | 3 => some 4
  | 4 => some 3
  | 5 => some 3
  | 6 => some 4
  | 7 => some 2
  | 8 => some 6
  | _ => none

/-- A store request that passed the general checks, by its operation code. -/
def State.storeRequest (s : State) (b : Block) : State :=
  match s.opcode b with
  | 1 => s.readEntryReq b
  | 2 => s.readFileReq b
  | 3 => s.commitReq b
  | 4 => s.deleteReq b
  | 5 => s.verifyReq b
  | 6 => s.readRawReq b
  | 7 => s.formatReq b
  | _ => s.readStoreStatus b

/-- R27 check 3: the store counts as held with its hold set. -/
def Store.refusesHeld (st : Store) : Bool := st.hold && st.held

/-- R27: the engine starts a block and applies its checks in order. -/
def State.startStore (s : State) (b : Block) : State :=
  match s.storeNeeds b with
  | none => s.refuseStore b .badOp
  | some n =>
    if b.words < n then s.refuseStore b .badArg
    else if s.store.refusesHeld = true ∧ s.opcode b ≠ 1 ∧ s.opcode b ≠ 8 then s.refuseStore b .quiesced
    else s.storeRequest b

/-- R27: the engine is handed an accepted block: it waits in Scanning, else it starts at once. -/
def State.runStore (s : State) (b : Block) : State :=
  if s.store.status = .scanning then s.withStore { s.store with waiting := some b } else s.startStore b

/-! ## Page events of READ_FILE, VERIFY_FILE and READ_RAW (R33, R42, R43, R47) -/

/-- Set the progress of the running request. -/
def State.setJob (s : State) (r : Run) (j : Job) : State := s.setOp (.run r j)

/-- R47: the end of a page event that passed: ABORTED with Partial when the abort mark is set; OK at the
last page; otherwise the request goes on. -/
def State.afterPage (s : State) (r : Run) (last : Bool) (count : Nat) (next : Job) : State :=
  if r.abort then s.endRun r .aborted true count
  else if last then s.endRun r .ok false count
  else s.setJob r next

/-- R33: the range bytes that lie in the pages before position `k`. -/
def rangeBefore (offset length k : Nat) : Nat := min length (256 * k - offset)

/-- R33: a page event of READ_FILE. -/
def State.readFilePage (s : State) (r : Run) (f : FileNo) (offset length buf k : Nat) (link : Word) :
    State :=
  let count := rangeBefore offset length k
  let lastK := (offset + length - 1) / 256
  match linkPage link with
  | none => s.endRun r .linkMismatch true count
  | some p =>
    let next := (readHdr s.sram p).next
    if walkOk s.sram p [.live] f s.store.dir[f].gen k = false ∨ (k < lastK ∧ next = linkEnd) then
      s.endRun r .linkMismatch true count
    else if 256 * (k + 1) ≤ offset then
      s.afterPage r false count (.readFile f offset length buf (k + 1) next)
    else if payloadPasses s.sram p = false then s.endRun r .dataCheck true count
    else
      let lo := max offset (256 * k)
      let hi := min (offset + length) (256 * (k + 1))
      (s.putRam (buf + (lo - offset))
        (Mem.reads s.sram (pageBase p + 10 + (lo - 256 * k)) (hi - lo))).afterPage r
        (decide (k = lastK)) (rangeBefore offset length (k + 1))
        (.readFile f offset length buf (k + 1) next)

/-- R42: a page event of VERIFY_FILE. -/
def State.verifyPage (s : State) (r : Run) (f : FileNo) (k : Nat) (link : Word) : State :=
  let e := s.store.dir[f]
  match linkPage link with
  | none => s.endRun r .linkMismatch false k
  | some p =>
    let next := (readHdr s.sram p).next
    if walkOk s.sram p [.live] f e.gen k = false ∨
        (decide (next = linkEnd) ≠ decide (k + 1 = e.pageCount.toNat)) then
      s.endRun r .linkMismatch false k
    else if payloadPasses s.sram p = false then s.endRun r .dataCheck false k
    else s.afterPage r (decide (k + 1 = e.pageCount.toNat)) (k + 1) (.verify f (k + 1) next)

/-- R43: a page event of READ_RAW. -/
def State.readRawPage (s : State) (r : Run) (first count buf done : Nat) : State :=
  (s.putRam (buf + 268 * done) (Mem.reads s.sram (1024 + 268 * (first + done)) 268)).afterPage r
    (decide (done + 1 = count)) (done + 1) (.readRaw first count buf (done + 1))

/-! ## COMMIT_FILE (R35 to R39, R48) -/

/-- The new chain in chain order: chunks are staged from the last to the first (R35). -/
def Commit.chain (c : Commit) : List PageNo := c.staged.reverse

/-- R35: the link that the next staged chunk carries. -/
def Commit.stageLink (c : Commit) : Word :=
  match c.staged.getLast? with
  | some p => pageLink p
  | none => linkEnd

/-- R6: the root of the new chain. -/
def Commit.root (c : Commit) : Word := c.stageLink

/-- R35: a chunk's bytes from Exchange RAM, zero-filled beyond the file's end. -/
def State.chunkBytes (s : State) (c : Commit) (i : Nat) : List Byte :=
  let n := min 256 (c.length - 256 * i)
  Mem.reads s.port.ram (c.buf + 256 * i) n ++ List.replicate (256 - n) 0

/-- R35: the header of a staged chunk. -/
def Commit.stageHdr (c : Commit) (i : Nat) : PageHdr :=
  { state := PageState.staged.code, owner := byteOf c.file.val, seq := byteOf i, gen := c.gen,
    next := c.stageLink }

/-- R35: the full write of a chunk on a page. -/
def State.stageWrite (s : State) (c : Commit) (i : Nat) (p : PageNo) : RecWrite :=
  pageWrite p (c.stageHdr i) (s.chunkBytes c i)

/-- R37, R48: the commit enters Rolling back; with nothing staged the request ends there. -/
def State.enterRollback (s : State) (r : Run) (c : Commit) (why : Status) : State :=
  if c.staged = [] then s.endRun r why false 0 else s.setJob r (.commit c (.rollback c.staged why))

/-- Why a commit in Staging enters Rolling back: an abort (R48) or the lack of a page (R37). -/
def Run.rollbackWhy (r : Run) : Status := if r.abort then .aborted else .noSpace

/-- R35, R48: what follows a chunk that was staged and verified. -/
def State.afterStage (s : State) (r : Run) (c : Commit) (i : Nat) : State :=
  if r.abort then s.enterRollback r c .aborted
  else match i with
    | 0 => s.setJob r (.commit c .arm)
    | i + 1 => s.setJob r (.commit c (.staging i))

/-- R36, R48: what follows a chunk whose page was retired. -/
def State.afterRetire (s : State) (r : Run) (c : Commit) (i : Nat) : State :=
  if r.abort then s.enterRollback r c .aborted else s.setJob r (.commit c (.staging i))

/-- R3: the bytes of a page whose full write failed verify: the payload as it took the write, under the
Bad header as its unverified write left it (log 10). -/
def badPage (p : PageNo) (dev bad : List Host.Cell) (payload : List Byte) : RecWrite :=
  { base := pageBase p,
    bytes := written bad (PageHdr.plain .bad).bytes ++ overlay dev 0 (withCheck payload) }

/-- R35 to R37: a staging event. -/
def State.stageChunk (s : State) (r : Run) (c : Commit) (i : Nat) (v : Verify) : State :=
  match s.store.free with
  | [] => s.enterRollback r c r.rollbackWhy
  | p :: rest =>
    match v with
    | .pass =>
      ((s.putArray (s.stageWrite c i p)).withStore { s.store with free := rest }).afterStage r
        { c with staged := c.staged ++ [p] } i
    | .fail dev bad =>
      ((s.putArray (badPage p dev bad (s.chunkBytes c i))).withStore
        ({ s.store with free := rest }.retire p)).afterRetire r c i

/-- R37: one staged page is rewritten Free; the last one ends the request. -/
def State.rollbackPage (s : State) (r : Run) (c : Commit) (todo : List PageNo) (why : Status)
    (v : HeaderVerify) : State :=
  match todo with
  | [] => s.endRun r why false 0
  | [p] => (s.freePage p v).endRun r why false 0
  | p :: q :: ps => (s.freePage p v).setJob r (.commit c (.rollback (q :: ps) why))

/-- R6: the current stamp. -/
def State.stamp (s : State) : Stamp := { time := s.cal.now, epoch := s.cal.epoch }

/-- R6: the journal of a commit under a stamp. -/
def State.commitJournal (s : State) (c : Commit) (t : Stamp) : Journal :=
  let e := s.store.dir[c.file]
  { kind := .commit, file := c.file, newRoot := c.root, newCount := byteOf c.staged.length,
    newLength := BitVec.ofNat 16 c.length, newGen := c.gen, newProtect := c.protect,
    day := BitVec.ofNat 16 t.time.day.val, second := BitVec.ofNat 32 t.time.second.val,
    epoch := BitVec.ofNat 16 t.epoch.val, oldRoot := if e.live then e.root else linkEnd,
    oldGen := if e.live then e.gen else 1 }

/-- R6: the journal of a delete under a stamp. -/
def State.deleteJournal (s : State) (f : FileNo) (t : Stamp) : Journal :=
  let e := s.store.dir[f]
  { kind := .delete, file := f, newRoot := linkEnd, newCount := 0, newLength := 0, newGen := e.gen,
    newProtect := 0, day := BitVec.ofNat 16 t.time.day.val,
    second := BitVec.ofNat 32 t.time.second.val, epoch := BitVec.ofNat 16 t.epoch.val,
    oldRoot := e.root, oldGen := e.gen }

/-- R38 step 1: a commit arms the journal. -/
def State.armCommit (s : State) (r : Run) (c : Commit) (dev : List Host.Cell) : State :=
  (s.putRecord (armWrite (s.commitJournal c s.stamp)) dev).setJob r (.commit c (.entry s.stamp))

/-- R40 step 1: a delete arms the journal. -/
def State.armDelete (s : State) (r : Run) (f : FileNo) (dev : List Host.Cell) : State :=
  (s.putRecord (armWrite (s.deleteJournal f s.stamp)) dev).setJob r (.delete f .entry)

/-- R38: the phase after the rewrites to Live. -/
def Commit.afterLive (c : Commit) (broken : Option Nat) : CommitPhase :=
  if c.old = [] then .clear broken else .freeOld c.old broken

/-- R38: the phase after the entry write. -/
def Commit.afterEntry (c : Commit) : CommitPhase :=
  if c.chain = [] then c.afterLive none else .live [] c.chain

/-- R38 step 2: the entry is written Live from the journal's fields. -/
def State.commitEntry (s : State) (r : Run) (c : Commit) (t : Stamp) (dev : List Host.Cell) : State :=
  let e := (s.commitJournal c t).entry
  ((s.putRecord (entryWrite c.file e) dev).withStore
    { s.store with dir := s.store.dir.set c.file e, live := FileSet.join s.store.live c.file,
                   damagedNow := FileSet.leave s.store.damagedNow c.file,
                   chains := s.store.chains.set c.file c.chain }).setJob r (.commit c c.afterEntry)

/-- R38 step 3, R39: one new page is rewritten Live; a failed verify breaks the chain there. -/
def State.liveRewrite (s : State) (r : Run) (c : Commit) (done todo : List PageNo)
    (v : HeaderVerify) : State :=
  match todo with
  | [] => s.setJob r (.commit c (c.afterLive none))
  | p :: ps =>
    let s1 := s.rewrite p (liveHdr s.sram p) v
    if passed v then
      s1.setJob r (.commit c (if ps = [] then c.afterLive none else .live (done ++ [p]) ps))
    else
      (s1.withStore { s1.store with chains := s1.store.chains.set c.file done }).setJob r
        (.commit c (if ps = [] then .damagedEntry done else .breakFree done ps))

/-- R39: a new page after the break is rewritten Free. -/
def State.breakFree (s : State) (r : Run) (c : Commit) (kept todo : List PageNo) (v : HeaderVerify) : State :=
  match todo with
  | [] => s.setJob r (.commit c (.damagedEntry kept))
  | p :: ps =>
    (s.freePage p v).setJob r
      (.commit c (if ps = [] then .damagedEntry kept else .breakFree kept ps))

/-- R39: the entry is written again with damaged set. -/
def State.damagedEntry (s : State) (r : Run) (c : Commit) (kept : List PageNo) (dev : List Host.Cell) :
    State :=
  let e := { s.store.dir[c.file] with damaged := true }
  ((s.putRecord (entryWrite c.file e) dev).withStore
    { s.store with dir := s.store.dir.set c.file e,
                   damagedNow := FileSet.join s.store.damagedNow c.file, storeDamaged := true }).setJob r
    (.commit c (c.afterLive (some kept.length)))

/-- R38 step 4: one old page of a commit is rewritten Free. -/
def State.freeOldCommit (s : State) (r : Run) (c : Commit) (todo : List PageNo) (broken : Option Nat)
    (v : HeaderVerify) : State :=
  match todo with
  | [] => s.setJob r (.commit c (.clear broken))
  | p :: ps =>
    (s.freePage p v).setJob r (.commit c (if ps = [] then .clear broken else .freeOld ps broken))

/-- R38 step 5, R39: the journal is cleared and the request ends. -/
def State.clearCommit (s : State) (r : Run) (c : Commit) (broken : Option Nat) (dev : List Host.Cell) :
    State :=
  let s1 := s.putRecord (clearWrite s.sram) dev
  match broken with
  | none => s1.endRun r .ok false c.staged.length
  | some n => s1.endRun r .linkMismatch false n

/-! ## DELETE_FILE (R40, R41) -/

/-- R40 step 2: the entry is written in its Empty form. -/
def State.deleteEntry (s : State) (r : Run) (f : FileNo) (dev : List Host.Cell) : State :=
  let old := s.store.chains[f]
  ((s.putRecord (entryWrite f .empty) dev).withStore
    { s.store with dir := s.store.dir.set f .empty, live := FileSet.leave s.store.live f,
                   damagedNow := FileSet.leave s.store.damagedNow f,
                   chains := s.store.chains.set f [] }).setJob r
    (.delete f (if old = [] then .clear else .freeOld old))

/-- R40 step 3: one page of the deleted chain is rewritten Free. -/
def State.freeOldDelete (s : State) (r : Run) (f : FileNo) (todo : List PageNo) (v : HeaderVerify) : State :=
  match todo with
  | [] => s.setJob r (.delete f .clear)
  | p :: ps => (s.freePage p v).setJob r (.delete f (if ps = [] then .clear else .freeOld ps))

/-- R40 step 4, R41: the journal is cleared, and the purge request is sent. -/
def State.clearDelete (s : State) (r : Run) (f : FileNo) (dev : List Host.Cell) : State :=
  let s1 := (s.putRecord (clearWrite s.sram) dev).setJob r (.delete f .purging)
  s1.withStore { s1.store with purgeReq := some (.file f) }

/-! ## FORMAT_STORE (R44, R45) -/

/-- R44 step 1. -/
def State.formatHeader (s : State) (r : Run) (dev : List Host.Cell) : State :=
  (s.putRecord validHeader dev).setJob r (.format .journal)

/-- R44 step 2. -/
def State.formatJournalWrite (s : State) (r : Run) (dev : List Host.Cell) : State :=
  (s.putRecord formatJournal dev).setJob r (.format (.entries 0))

/-- R44 step 3: one entry in the Empty form. -/
def State.formatEntry (s : State) (r : Run) (f : FileNo) (dev : List Host.Cell) : State :=
  let s1 := (s.putRecord (entryWrite f .empty) dev).withStore
    { s.store with dir := s.store.dir.set f .empty }
  s1.setJob r (.format (if h : f.val + 1 < 16 then .entries ⟨f.val + 1, h⟩ else .pages 0 0))

/-- R44 step 4, R45: one page header Free with verify; the last one sends the purge. -/
def State.formatPage (s : State) (r : Run) (p : PageNo) (bad : Nat) (v : HeaderVerify) : State :=
  let s1 := s.freePage p v
  let bad1 := if passed v then bad else bad + 1
  if h : p.val + 1 < 480 then s1.setJob r (.format (.pages ⟨p.val + 1, h⟩ bad1))
  else
    let s2 := s1.setJob r (.format (.purging bad1))
    s2.withStore { s2.store with purgeReq := some .allNotLive }

/-- R45: the purge reply ends the format. -/
def State.formatEnd (s : State) (r : Run) (bad : Nat) : State :=
  (s.withStore { s.store with verdict := true, purgeReply := none, status := .busy }).endRun r .ok false bad

/-- R41: the purge reply ends the delete. -/
def State.deleteEnd (s : State) (r : Run) (removed : Nat) : State :=
  (s.withStore { s.store with purgeReply := none }).endRun r .ok false removed

/-! ## Aborts (R26, R47, R48) -/

/-- R48: an abort that reaches a commit, by its phase; the arming write is the dividing event. -/
def State.abortCommit (s : State) (r : Run) (c : Commit) (ph : CommitPhase) : State :=
  match ph with
  | .staging _ => s.setJob { r with abort := true } (.commit c ph)
  | .arm =>
    if c.length = 0 then s.setJob { r with late := true } (.commit c ph)
    else s.enterRollback { r with abort := true } c .aborted
  | .rollback _ why =>
    if why = .aborted then s else s.setJob { r with late := true } (.commit c ph)
  | .entry _ | .live _ _ | .breakFree _ _ | .damagedEntry _ | .freeOld _ _ | .clear _ =>
    s.setJob { r with late := true } (.commit c ph)

/-- R26, R47, R48: an abort request reaches the store engine. -/
def State.abortStore (s : State) : State :=
  match s.store.op with
  | .none => s
  | .scan _ _ =>
    match s.store.waiting with
    | some b => (s.withStore { s.store with waiting := none }).terminate .store b (.refuse .aborted)
    | none => s
  | .run r j =>
    match j with
    | .readFile _ _ _ _ _ _ | .verify _ _ _ | .readRaw _ _ _ _ => s.setJob { r with abort := true } j
    | .commit c ph => s.abortCommit r c ph
    | .delete _ _ | .format _ => s.setJob { r with late := true } j

/-! ## Quiesce and resume (R16, R49) -/

/-- R16: a quiesce request within the store engine. -/
def Store.quiesce (st : Store) : Store :=
  { st with hold := true, status := if st.status = .ready then .quiesced else st.status }

/-- R16: a resume request within the store engine. -/
def Store.resume (st : Store) : Store :=
  { st with hold := false, status := if st.status = .quiesced then .ready else st.status }

end Sys2Proof.Machine
end

