-- ==== Sys2Proof/Machine/Scan.lean ====
section
/-! DEFINITION. The recovery scan (spec/01, R18 to R26), the purge reply, the write in progress that a
supply loss can cut short (R3), and the meanings of the store engine's own events. -/

namespace Sys2Proof.Machine

/-! ## Walks (R19, R20, R22) -/

/-- R19 part 3: from a position and link of the new chain, the next Staged page to rewrite, or the
clearing write; `n` positions remain. -/
def rollLiveFrom (m : Mem) (j : Journal) : Nat → Nat → Word → ScanPhase
  | 0, _, _ => .rollClear
  | n + 1, k, link =>
    match linkPage link with
    | none => .rollClear
    | some p =>
      if walkOk m p [.staged, .live] j.file j.newGen k then
        if (readHdr m p).state = PageState.staged.code then .rollLive j k p
        else rollLiveFrom m j n (k + 1) (readHdr m p).next
      else .rollClear

/-- R19, R20: what follows the old chain's walk. -/
def afterRollOld (m : Mem) (j : Journal) : ScanPhase :=
  match j.kind with
  | .commit => rollLiveFrom m j j.newCount.toNat 0 j.newRoot
  | .delete => .rollClear

/-- R19 part 2: from a position and link of the old chain, the page to free, or what follows. -/
def rollOldFrom (m : Mem) (j : Journal) (k : Nat) (link : Word) : ScanPhase :=
  match linkPage link with
  | none => afterRollOld m j
  | some p =>
    if k < 64 ∧ walkOk m p [.live] j.file j.oldGen k = true then .rollOld j k p else afterRollOld m j

/-- R22: the walk of the first Live entry with pages among the files, or step 6. -/
def firstWalk (st : Store) : List FileNo → ScanPhase
  | [] => .sweep 0
  | f :: fs =>
    if st.dir[f].live ∧ st.dir[f].pageCount ≠ 0 then .walk f 0 st.dir[f].root else firstWalk st fs

/-- R22: the walk after a file's. -/
def walkAfter (st : Store) (f : FileNo) : ScanPhase := firstWalk st ((List.finRange 16).drop (f.val + 1))

/-- R22: a walk of this scan has claimed the page. -/
def Store.claimed (st : Store) (p : PageNo) : Bool := st.chains.toList.any fun c => decide (p ∈ c)

/-- R22: the page a walk claims at a position. -/
def State.claims (s : State) (f : FileNo) (k : Nat) (link : Word) : Option PageNo :=
  match linkPage link with
  | some p =>
    if walkOk s.sram p [.live] f s.store.dir[f].gen k = true ∧ s.store.claimed p = false then some p
    else none
  | none => none

/-- How a page event of step 5 leaves the walk: it goes on, ends sound, or ends at a break. -/
inductive WalkEnd where
  | more (next : Word)
  | sound
  | broken
  deriving DecidableEq, Repr

/-- R22: what a page event of step 5 finds. -/
def State.walkFinds (s : State) (f : FileNo) (k : Nat) (link : Word) : WalkEnd :=
  match s.claims f k link with
  | none => .broken
  | some p =>
    let next := (readHdr s.sram p).next
    if k + 1 < s.store.dir[f].pageCount.toNat then
      if next = linkEnd then .broken else .more next
    else if next = linkEnd then .sound else .broken

/-! ## The write in progress (R3) -/

/-- The write that the scan's next event makes. -/
def State.scanWrite (s : State) : ScanPhase → Option RecWrite
  | .begin => if s.batteryLost then some discardHeader else none
  | .rollEntry j => some (entryWrite j.file (if j.kind = .commit then j.entry else .empty))
  | .rollOld _ _ p => some (hdrWrite p (.plain .free))
  | .rollLive _ _ p => some (hdrWrite p (liveHdr s.sram p))
  | .rollClear => some (clearWrite s.sram)
  | .entries f => if entryReadable s.sram f then none else some (entryWrite f .emptyDamaged)
  | .walk f k link =>
    if s.walkFinds f k link = .broken ∧ s.store.dir[f].damaged = false then
      some (entryWrite f { s.store.dir[f] with damaged := true })
    else none
  | .sweep p =>
    let h := readHdr s.sram p
    if s.store.claimed p = true ∨
        (hdrPasses s.sram p = true ∧ (h.state = PageState.free.code ∨ h.state = PageState.bad.code)) then none
    else some (hdrWrite p (.plain .free))
  | .discarded | .journal | .publish | .purging => none

/-- The write that a commit's next event makes. -/
def State.commitWrite (s : State) (c : Commit) : CommitPhase → Option RecWrite
  | .staging i => s.store.free.head?.map fun p => s.stageWrite c i p
  | .rollback todo _ => todo.head?.map fun p => hdrWrite p (.plain .free)
  | .arm => some (armWrite (s.commitJournal c s.stamp))
  | .entry t => some (entryWrite c.file (s.commitJournal c t).entry)
  | .live _ todo => todo.head?.map fun p => hdrWrite p (liveHdr s.sram p)
  | .breakFree _ todo => todo.head?.map fun p => hdrWrite p (.plain .free)
  | .damagedEntry _ => some (entryWrite c.file { s.store.dir[c.file] with damaged := true })
  | .freeOld todo _ => todo.head?.map fun p => hdrWrite p (.plain .free)
  | .clear _ => some (clearWrite s.sram)

/-- The write that a delete's next event makes. -/
def State.deleteWrite (s : State) (f : FileNo) : DeletePhase → Option RecWrite
  | .arm => some (armWrite (s.deleteJournal f s.stamp))
  | .entry => some (entryWrite f .empty)
  | .freeOld todo => todo.head?.map fun p => hdrWrite p (.plain .free)
  | .clear => some (clearWrite s.sram)
  | .purging => none

/-- The write that a format's next event makes. -/
def formatWrite : FormatPhase → Option RecWrite
  | .header => some validHeader
  | .journal => some formatJournal
  | .entries f => some (entryWrite f .empty)
  | .pages p _ => some (hdrWrite p (.plain .free))
  | .purging _ => none

/-- R37, R48: a commit in Staging may enter Rolling back with its first page: an abort has reached it
(log 14), or the free list is empty (log 15). -/
abbrev State.mayRollBack (s : State) (r : Run) : Prop := r.abort = true ∨ s.store.free = []

/-- R3: the write that the store engine's next event makes, if it makes one. Of a commit in Staging it is the
chunk's. -/
def State.nextWrite (s : State) : Option RecWrite :=
  match s.store.op with
  | .none => none
  | .scan _ ph => s.scanWrite ph
  | .run _ j =>
    match j with
    | .commit c ph => s.commitWrite c ph
    | .delete f ph => s.deleteWrite f ph
    | .format ph => formatWrite ph
    | .readFile _ _ _ _ _ _ | .verify _ _ _ | .readRaw _ _ _ _ => none

/-- R3, R37, R48: the write of a ROLLBACK_PAGE_FREE that enters Rolling back from Staging. -/
def State.firstRollbackWrite (s : State) : Option RecWrite :=
  match s.store.op with
  | .run r (.commit c (.staging _)) =>
    if s.mayRollBack r then s.commitWrite c (.rollback c.staged r.rollbackWhy) else none
  | _ => none

/-- R3: the write in progress (log 9). -/
def State.writeInProgress (s : State) : WriteInProgress → Option RecWrite
  | .nextEvent => s.nextWrite
  | .firstRollback => s.firstRollbackWrite

/-- R3: a supply loss or part restart cuts the write in progress short. -/
def State.cutWrite (s : State) (cut : WriteCut) : State :=
  match s.writeInProgress cut.write with
  | none => s
  | some w =>
    s.putArray { w with bytes := WriteRemains.content cut.remains (Mem.reads s.sram w.base w.bytes.length) w.bytes }

/-! ## Steps of the scan -/

/-- Set the scan's notes and place. -/
def State.setScan (s : State) (n : ScanNotes) (ph : ScanPhase) : State := s.setOp (.scan n ph)

/-- A note that a file is recorded as damaged (R21, R22). -/
def ScanNotes.damage (n : ScanNotes) (f : FileNo) : ScanNotes :=
  { n with damaged := FileSet.join n.damaged f }

/-- R19, R20: the roll-forward's entry write. -/
def State.rollEntry (s : State) (n : ScanNotes) (j : Journal) (dev : List Host.Cell) : State :=
  let s1 := s.putRecord (entryWrite j.file (if j.kind = .commit then j.entry else .empty)) dev
  s1.setScan n (rollOldFrom s1.sram j 0 j.oldRoot)

/-- R19 part 2: one old page is rewritten Free and the walk goes on over the link it had. It does not
join the free list at this event (R11). -/
def State.rollOld (s : State) (n : ScanNotes) (j : Journal) (k : Nat) (p : PageNo)
    (v : HeaderVerify) : State :=
  let next := (readHdr s.sram p).next
  let s1 := s.rewrite p (.plain .free) v
  s1.setScan n (rollOldFrom s1.sram j (k + 1) next)

/-- R19 part 3: one Staged page is rewritten Live and the walk goes on over its link (log 20). -/
def State.rollLive (s : State) (n : ScanNotes) (j : Journal) (k : Nat) (p : PageNo)
    (v : HeaderVerify) : State :=
  let next := (readHdr s.sram p).next
  let s1 := s.rewrite p (liveHdr s.sram p) v
  s1.setScan n (rollLiveFrom s1.sram j (j.newCount.toNat - (k + 1)) (k + 1) next)

/-- R20: the roll-forward clears the journal; step 4 follows. -/
def State.rollClear (s : State) (n : ScanNotes) (dev : List Host.Cell) : State :=
  (s.putRecord (clearWrite s.sram) dev).setScan { n with rolled := true } (.entries 0)

/-- R21: the place after an entry of step 4. -/
def State.afterScanEntry (s : State) (n : ScanNotes) (f : FileNo) : State :=
  s.setScan n (if h : f.val + 1 < 16 then .entries ⟨f.val + 1, h⟩
    else firstWalk s.store (List.finRange 16))

/-- R21, R8: step 4 on one entry. -/
def State.scanEntry (s : State) (n : ScanNotes) (f : FileNo) (dev : List Host.Cell) : State :=
  if entryReadable s.sram f then
    let e := readEntry s.sram f
    (s.withStore { s.store with dir := s.store.dir.set f e }).afterScanEntry
      (if e.damaged then n.damage f else n) f
  else
    ((s.putRecord (entryWrite f .emptyDamaged) dev).withStore
      { s.store with dir := s.store.dir.set f .emptyDamaged }).afterScanEntry (n.damage f) f

/-- R22: the page a walk claims joins the file's chain. -/
def Store.claim (st : Store) (f : FileNo) : Option PageNo → Store
  | some p => { st with chains := st.chains.set f (st.chains[f] ++ [p]) }
  | none => st

/-- R22: an entry is marked damaged, unless its flag is already set. -/
def State.markDamaged (s : State) (f : FileNo) (dev : List Host.Cell) : State :=
  let e := { s.store.dir[f] with damaged := true }
  if s.store.dir[f].damaged then s
  else (s.putRecord (entryWrite f e) dev).withStore { s.store with dir := s.store.dir.set f e }

/-- R22: step 5 on one page. -/
def State.scanWalk (s : State) (n : ScanNotes) (f : FileNo) (k : Nat) (link : Word)
    (dev : List Host.Cell) : State :=
  let s1 := s.withStore (s.store.claim f (s.claims f k link))
  match s.walkFinds f k link with
  | .more next => s1.setScan n (.walk f (k + 1) next)
  | .sound => s1.setScan n (walkAfter s1.store f)
  | .broken => let s2 := s1.markDamaged f dev; s2.setScan (n.damage f) (walkAfter s2.store f)

/-- R23: the place after a page of step 6. -/
def State.afterSweep (s : State) (n : ScanNotes) (p : PageNo) : State :=
  s.setScan n (if h : p.val + 1 < 480 then .sweep ⟨p.val + 1, h⟩ else .publish)

/-- R23, R173: step 6 on one page. A page whose header check fails leaves the bad-page set before its
rewrite, which an earlier step of this scan may have put it in (log 31). -/
def State.sweep (s : State) (n : ScanNotes) (p : PageNo) (v : HeaderVerify) : State :=
  let h := readHdr s.sram p
  if s.store.claimed p then s.afterSweep n p
  else if hdrPasses s.sram p = false then ((s.withStore (s.store.recall p)).freePage p v).afterSweep n p
  else if h.state = PageState.bad.code then (s.withStore (s.store.retire p)).afterSweep n p
  else if h.state = PageState.free.code then (s.withStore (s.store.release p)).afterSweep n p
  else if h.state = PageState.staged.code then (s.freePage p v).afterSweep { n with staged := true } p
  else (s.freePage p v).afterSweep n p

/-- R24, R13: step 7 publishes the live-file set and sends the purge. -/
def State.publish (s : State) (n : ScanNotes) : State :=
  (s.withStore { s.store with live := if s.store.verdict then s.store.liveFiles else 0,
                              purgeReq := some .allNotLive }).setScan n .purging

/-- R25: the outcome that a scan records. -/
def ScanNotes.outcome (n : ScanNotes) (formatted : Bool) : ScanOutcome :=
  if formatted then
    { kind := if n.rolled then .rolledForward else if n.staged then .rolledBack else .clean,
      damaged := n.damaged, discard := n.discard }
  else { kind := .clean, damaged := 0, discard := n.discard }

/-- R24, R25, R15, R16: the working state when the scan ends. -/
def Store.scanEnd (st : Store) (n : ScanNotes) : Store :=
  let o := n.outcome st.verdict
  { st with last := o, damagedNow := o.damaged, storeDamaged := st.storeDamaged || decide (o.damaged ≠ 0),
            op := .none, waiting := none, purgeReply := none,
            status := if st.verdict then (if st.hold then .quiesced else .ready) else .unformatted }

/-- R24, R27: the scan ends, and a waiting block starts at the same event or is terminated QUIESCED. -/
def State.scanEnd (s : State) (n : ScanNotes) : State :=
  let s1 := (s.withStore (s.store.scanEnd n)).settleQuiesce
  match s.store.waiting with
  | none => s1
  | some b => if s.store.hold then s1.refuseStore b .quiesced else s1.startStore b

/-- R24, R41, R45: the purge reply reaches the store engine. -/
def State.purgeReplied (s : State) : State :=
  match s.store.purgeReply with
  | none => s
  | some k =>
    match s.store.op with
    | .scan n .purging => s.scanEnd n
    | .run r (.delete _ .purging) => s.deleteEnd r k
    | .run r (.format (.purging bad)) => s.formatEnd r bad
    | _ => s

/-! ## Meanings of the store engine's events: each acts when the engine is at that event, and leaves
the state as it is otherwise (log 5). -/

/-- R33 READ_FILE_PAGE. -/
def execReadFilePage (s : State) : Host.Outcome State Fault Refusal :=
  match s.store.op with
  | .run r (.readFile f offset length buf k link) => goesOn (s.readFilePage r f offset length buf k link)
  | _ => goesOn s

/-- R42 VERIFY_PAGE. -/
def execVerifyPage (s : State) : Host.Outcome State Fault Refusal :=
  match s.store.op with
  | .run r (.verify f k link) => goesOn (s.verifyPage r f k link)
  | _ => goesOn s

/-- R43 READ_RAW_PAGE. -/
def execReadRawPage (s : State) : Host.Outcome State Fault Refusal :=
  match s.store.op with
  | .run r (.readRaw first count buf done) => goesOn (s.readRawPage r first count buf done)
  | _ => goesOn s

/-- R35 to R37, R48 STAGE_CHUNK. -/
def execStageChunk (v : Verify) (s : State) : Host.Outcome State Fault Refusal :=
  match s.store.op with
  | .run r (.commit c (.staging i)) => goesOn (s.stageChunk r c i v)
  | _ => goesOn s

/-- R37, R48 ROLLBACK_PAGE_FREE. A commit in Staging that an abort has reached, or that finds the free
list empty, enters Rolling back with its first page here (log 14, log 15). -/
def execRollbackPageFree (v : HeaderVerify) (s : State) : Host.Outcome State Fault Refusal :=
  match s.store.op with
  | .run r (.commit c (.rollback todo why)) => goesOn (s.rollbackPage r c todo why v)
  | .run r (.commit c (.staging _)) =>
    if s.mayRollBack r then
      goesOn (s.rollbackPage r c c.staged r.rollbackWhy v)
    else goesOn s
  | _ => goesOn s

/-- R6, R38, R40 ARM_JOURNAL. -/
def execArmJournal (dev : List Host.Cell) (s : State) : Host.Outcome State Fault Refusal :=
  match s.store.op with
  | .run r (.commit c .arm) => goesOn (s.armCommit r c dev)
  | .run r (.delete f .arm) => goesOn (s.armDelete r f dev)
  | _ => goesOn s

/-- R38 COMMIT_ENTRY_WRITE. -/
def execCommitEntryWrite (dev : List Host.Cell) (s : State) : Host.Outcome State Fault Refusal :=
  match s.store.op with
  | .run r (.commit c (.entry t)) => goesOn (s.commitEntry r c t dev)
  | _ => goesOn s

/-- R38, R39 LIVE_REWRITE. -/
def execLiveRewrite (v : HeaderVerify) (s : State) : Host.Outcome State Fault Refusal :=
  match s.store.op with
  | .run r (.commit c (.live done todo)) => goesOn (s.liveRewrite r c done todo v)
  | _ => goesOn s

/-- R39 BREAK_PAGE_FREE. -/
def execBreakPageFree (v : HeaderVerify) (s : State) : Host.Outcome State Fault Refusal :=
  match s.store.op with
  | .run r (.commit c (.breakFree kept todo)) => goesOn (s.breakFree r c kept todo v)
  | _ => goesOn s

/-- R39 DAMAGED_ENTRY_WRITE. -/
def execDamagedEntryWrite (dev : List Host.Cell) (s : State) : Host.Outcome State Fault Refusal :=
  match s.store.op with
  | .run r (.commit c (.damagedEntry kept)) => goesOn (s.damagedEntry r c kept dev)
  | _ => goesOn s

/-- R38, R40 FREE_OLD_PAGE. -/
def execFreeOldPage (v : HeaderVerify) (s : State) : Host.Outcome State Fault Refusal :=
  match s.store.op with
  | .run r (.commit c (.freeOld todo broken)) => goesOn (s.freeOldCommit r c todo broken v)
  | .run r (.delete f (.freeOld todo)) => goesOn (s.freeOldDelete r f todo v)
  | _ => goesOn s

/-- R6, R38, R40, R20 CLEAR_JOURNAL. -/
def execClearJournal (dev : List Host.Cell) (s : State) : Host.Outcome State Fault Refusal :=
  match s.store.op with
  | .run r (.commit c (.clear broken)) => goesOn (s.clearCommit r c broken dev)
  | .run r (.delete f .clear) => goesOn (s.clearDelete r f dev)
  | .scan n .rollClear => goesOn (s.rollClear n dev)
  | _ => goesOn s

/-- R40 DELETE_ENTRY_CLEAR. -/
def execDeleteEntryClear (dev : List Host.Cell) (s : State) : Host.Outcome State Fault Refusal :=
  match s.store.op with
  | .run r (.delete f .entry) => goesOn (s.deleteEntry r f dev)
  | _ => goesOn s

/-- R44 FORMAT_HEADER_WRITE. -/
def execFormatHeaderWrite (dev : List Host.Cell) (s : State) : Host.Outcome State Fault Refusal :=
  match s.store.op with
  | .run r (.format .header) => goesOn (s.formatHeader r dev)
  | _ => goesOn s

/-- R44 FORMAT_JOURNAL_WRITE. -/
def execFormatJournalWrite (dev : List Host.Cell) (s : State) : Host.Outcome State Fault Refusal :=
  match s.store.op with
  | .run r (.format .journal) => goesOn (s.formatJournalWrite r dev)
  | _ => goesOn s

/-- R44 FORMAT_ENTRY_WRITE. -/
def execFormatEntryWrite (dev : List Host.Cell) (s : State) : Host.Outcome State Fault Refusal :=
  match s.store.op with
  | .run r (.format (.entries f)) => goesOn (s.formatEntry r f dev)
  | _ => goesOn s

/-- R44, R45 FORMAT_PAGE_WRITE. -/
def execFormatPageWrite (v : HeaderVerify) (s : State) : Host.Outcome State Fault Refusal :=
  match s.store.op with
  | .run r (.format (.pages p bad)) => goesOn (s.formatPage r p bad v)
  | _ => goesOn s

/-- R18 SCAN_DISCARD_HEADER. -/
def execScanDiscardHeader (dev : List Host.Cell) (s : State) : Host.Outcome State Fault Refusal :=
  match s.store.op with
  | .scan n .begin =>
    if s.batteryLost then goesOn ((s.putRecord discardHeader dev).setScan n .discarded) else goesOn s
  | _ => goesOn s

/-- R18 SCAN_CLEAR_BATTERY_LOST. -/
def execScanClearBatteryLost (s : State) : Host.Outcome State Fault Refusal :=
  match s.store.op with
  | .scan n .discarded =>
    goesOn ({ s with batteryLost := false, store := { s.store with verdict := false } }.setScan
      { n with discard := true } .publish)
  | _ => goesOn s

/-- R18 SCAN_HEADER_READ. -/
def execScanHeaderRead (s : State) : Host.Outcome State Fault Refusal :=
  match s.store.op with
  | .scan n .begin =>
    if s.batteryLost then goesOn s
    else
      let v := headerValid s.sram
      goesOn ((s.withStore { s.store with verdict := v }).setScan n (if v then .journal else .publish))
  | _ => goesOn s

/-- R19 SCAN_JOURNAL_READ. -/
def execScanJournalRead (s : State) : Host.Outcome State Fault Refusal :=
  match s.store.op with
  | .scan n .journal =>
    match readJournal s.sram with
    | none => goesOn (s.setScan n (.entries 0))
    | some j => goesOn (s.setScan n (.rollEntry j))
  | _ => goesOn s

/-- R19, R20 ROLL_FORWARD_ENTRY_WRITE. -/
def execRollForwardEntryWrite (dev : List Host.Cell) (s : State) : Host.Outcome State Fault Refusal :=
  match s.store.op with
  | .scan n (.rollEntry j) => goesOn (s.rollEntry n j dev)
  | _ => goesOn s

/-- R19 ROLL_FORWARD_OLD_PAGE_FREE. -/
def execRollForwardOldPageFree (v : HeaderVerify) (s : State) : Host.Outcome State Fault Refusal :=
  match s.store.op with
  | .scan n (.rollOld j k p) => goesOn (s.rollOld n j k p v)
  | _ => goesOn s

/-- R19 ROLL_FORWARD_LIVE_REWRITE. -/
def execRollForwardLiveRewrite (v : HeaderVerify) (s : State) : Host.Outcome State Fault Refusal :=
  match s.store.op with
  | .scan n (.rollLive j k p) => goesOn (s.rollLive n j k p v)
  | _ => goesOn s

/-- R21 SCAN_ENTRY_READ. -/
def execScanEntryRead (dev : List Host.Cell) (s : State) : Host.Outcome State Fault Refusal :=
  match s.store.op with
  | .scan n (.entries f) => goesOn (s.scanEntry n f dev)
  | _ => goesOn s

/-- R22 SCAN_CHAIN_WALK. -/
def execScanChainWalk (dev : List Host.Cell) (s : State) : Host.Outcome State Fault Refusal :=
  match s.store.op with
  | .scan n (.walk f k link) => goesOn (s.scanWalk n f k link dev)
  | _ => goesOn s

/-- R23 SCAN_SWEEP_PAGE. -/
def execScanSweepPage (v : HeaderVerify) (s : State) : Host.Outcome State Fault Refusal :=
  match s.store.op with
  | .scan n (.sweep p) => goesOn (s.sweep n p v)
  | _ => goesOn s

/-- R24 SCAN_PUBLISH. -/
def execScanPublish (s : State) : Host.Outcome State Fault Refusal :=
  match s.store.op with
  | .scan n .publish => goesOn (s.publish n)
  | _ => goesOn s

/-- R83 PURGE_REQUEST: the calendar unit takes the purge request under way. -/
def execPurgeRequest (s : State) : Host.Outcome State Fault Refusal := goesOn s.purge

/-- R24, R41, R45 PURGE_REPLY. -/
def execPurgeReply (s : State) : Host.Outcome State Fault Refusal := goesOn s.purgeReplied

end Sys2Proof.Machine
end

