-- ==== Sys2Proof/Machine/Flags.lean ====
section
/-! DEFINITION. What the part shows: the notice causes and line, the wake line, the motor drive, the
words a bus read returns, and the responses of the standby link. All are functions of the state
(log 27, log 28). -/

namespace Sys2Proof.Machine

/-! ## Notices (R150, R151; TABLE 8-2) -/

/-- A cell shows Pending. -/
def CellReg.isPending (c : CellReg) : Bool :=
  match c.hold with
  | .pending _ => true
  | _ => false

/-- The twelve causes in rank order: whether each is present. -/
def State.causeList (s : State) : List Bool :=
  [s.rumble.trip, s.port.store.isPending, s.port.calendar.isPending, s.port.sound.isPending,
   s.port.rumble.isPending, !s.cal.fired.isEmpty, s.sound.cueDropped, !s.rumble.outcomes.isEmpty,
   s.rumble.capChanged, s.store.storeDamaged, s.cal.timeLost,
   s.port.store.refused || s.port.calendar.refused || s.port.sound.refused || s.port.rumble.refused]

/-- The number whose binary digits, from the least significant up, are the list. -/
def bitsNat : List Bool → Nat
  | [] => 0
  | b :: bs => b.toNat + 2 * bitsNat bs

/-- The set of causes present, bit r − 1 for the cause of rank r. -/
def State.causes (s : State) : BitVec 12 := BitVec.ofNat 12 (bitsNat s.causeList)

/-- The position, from `r` up, of the first bit that is set, or 0. -/
def firstSet (x : BitVec 12) : Nat → List Nat → Nat
  | _, [] => 0
  | r, i :: is => if x.getLsbD i then r else firstSet x (r + 1) is

/-- R150: the top-cause number: the lowest rank present and enabled, or 0. -/
def State.topCause (s : State) : Nat := firstSet (s.causes &&& s.port.enable) 1 (List.range 12)

/-- R150, TABLE 11-12: the word that a read of the notice summary returns. -/
def State.noticeSummary (s : State) : Word := BitVec.ofNat 16 (s.causes.toNat + 4096 * s.topCause)

/-- R151: NTC is asserted while a cause is both present and enabled; in another supply state than Full
the pin is high impedance (R153). -/
def State.ntc (s : State) : Option Bool :=
  if s.consoleOn then some (decide (s.causes &&& s.port.enable ≠ 0)) else none

/-! ## The wake line (R159) and the motor drive (R122, R167) -/

/-- R159: WAK is asserted exactly when the supply is Standby and wake-pending is set; high impedance
while the keep domain is unpowered. -/
def State.wak (s : State) : Option Bool :=
  if s.keepOn then some (decide (s.supplyState = .standby) && s.cal.wakePending) else none

/-- R122, R167: the duty on MDRV; 0 while the console domain is unpowered. -/
def State.motorDuty (s : State) : Nat := if s.consoleOn then s.rumble.duty else 0

/-- R98, R167: the frame on SDO; high impedance while the console domain is unpowered. -/
def State.sdoFrame (s : State) : Option Frame := if s.consoleOn then some s.sound.sdo else none

/-- R98: bit `k` of a frame as shifted out: the left sample and then the right, each from its most
significant bit down. -/
def Frame.bit (f : Frame) (k : Fin 32) : Bool :=
  if k.val < 16 then f.left.getLsbD (15 - k.val) else f.right.getLsbD (31 - k.val)

/-- R98: bit `k` on SDO after a pull. -/
def State.sdoBit (s : State) (k : Fin 32) : Option Bool := s.sdoFrame.map fun f => f.bit k

/-! ## Bus reads (R141, R143; TABLE 11-12) -/

/-- The offset field that a cell shows (R143). -/
def CellReg.offset (c : CellReg) : Nat :=
  match c.hold with
  | .idle => 0
  | .busy b => b.off
  | .pending b => b.off

/-- R143: the value a read of a cell returns. -/
def CellReg.value (c : CellReg) : Word :=
  BitVec.ofNat 16 (c.offset + 16384 * c.refused.toNat + 32768 * c.isPending.toNat)

/-- R141: the even byte address that an access names. -/
def wordAddr (a : BitVec 13) : Nat := a.toNat / 2 * 2

/-- R141: the word that a read of an address returns in Full; in another supply state the bus pins are
high impedance. A read changes nothing. -/
def State.busRead (s : State) (a : BitVec 13) : Option Word :=
  if s.consoleOn then
    if wordAddr a < 4096 then some (wordOf (Mem.reads s.port.ram (wordAddr a) 2))
    else if wordAddr a = 0x1000 then some s.port.store.value
    else if wordAddr a = 0x1002 then some s.port.calendar.value
    else if wordAddr a = 0x1004 then some s.port.sound.value
    else if wordAddr a = 0x1006 then some s.port.rumble.value
    else if wordAddr a = 0x1008 then some s.noticeSummary
    else if wordAddr a = 0x100A then some (s.port.enable.setWidth 16)
    else if wordAddr a = 0x100C then some 0
    else some 0xFFFF
  else none

/-! ## Responses of the standby link (R157, R158; TABLE 11-13) -/

/-- The store state in STATUS. -/
def State.storeStatusCode (s : State) : Byte := if s.consoleOn then s.store.status.code else 0

/-- The sound state in STATUS. -/
def State.soundStatusCode (s : State) : Byte := if s.consoleOn then s.sound.engine.code + 1 else 0

/-- The rumble state in STATUS. -/
def State.rumbleStatusCode (s : State) : Byte := if s.consoleOn then s.rumble.state.code + 1 else 0

/-- Quiesce state codes. -/
def Quiesce.code : Quiesce → Byte
  | .none => 0
  | .pending => 1
  | .done => 2

/-- R157: the STATUS response. -/
def State.statusResponse (s : State) : List Byte :=
  [s.supplyState.code, s.storeStatusCode, s.soundStatusCode, s.rumbleStatusCode, s.link.cap.code,
   s.link.quiesce.code, byteOf s.cal.fired.length,
   bitsByte [s.cal.wakePending, s.cal.overflow, s.cal.timeLost, s.supply.cellLow]]

/-- R158: the CAL response. -/
def State.calResponse (s : State) : List Byte :=
  let c := s.cal
  bytes16 c.now.day.val ++ bytes32 c.now.second.val ++ bytes16 (gameDay c.rollover c.now) ++
    bytes16 c.epoch.val

/-- R158: the NEXT_DUE response. -/
def State.nextDueResponse (s : State) : List Byte :=
  match s.cal.alarms with
  | a :: _ => 1 :: (bytes16 a.due.day.val ++ bytes32 a.due.second.val)
  | [] => List.replicate 7 0

/-- R158: the FIRED_HEAD response. -/
def State.firedHeadResponse (s : State) : List Byte :=
  match s.cal.fired with
  | f :: _ => 1 :: f.bytes
  | [] => List.replicate 17 0

/-- R156: the response captured when the target is addressed for reading. -/
def State.linkResponse (s : State) : List Byte :=
  match s.link.selected with
  | some .cal => s.calResponse
  | some .nextDue => s.nextDueResponse
  | some .firedHead => s.firedHeadResponse
  | _ => s.statusResponse

/-- R156, R174: byte `k` of the response as clocked out; past its end 0xFF. -/
def State.linkByteOut (s : State) (k : Nat) : Byte := s.link.response.getD k 0xFF

end Sys2Proof.Machine
end

