-- ==== Sys2Proof/Machine/Supply.lean ====
section
/-! DEFINITION. The supply monitor (spec/10): judgements, supply events, and the meanings of the rail,
crystal and alarm-action commands. -/

namespace Sys2Proof.Machine

/-! ## Judgements (R164, R170) -/

/-- R164: a judgement with two thresholds, good above the one and lost below the other. -/
def RailState.judge (r : RailState) (goodAbove lostBelow mv : Nat) : RailState :=
  { mv := mv, good := if goodAbove < mv then true else if mv < lostBelow then false else r.good }

/-- R164: the rails with one of them at a new level, in millivolts. -/
def Supply.setRail (p : Supply) (rail : Rail) (mv : Nat) : Supply :=
  match rail with
  | .vcart => { p with vcart := p.vcart.judge 2900 2700 mv }
  | .vkeep => { p with vkeep := p.vkeep.judge 2600 2400 mv }
  | .vcell => { p with vcell := { mv := mv, good := decide (2000 ≤ mv) } }

/-- R170: CellLow as VCELL stands. -/
def Supply.formCellLow (p : Supply) : Supply := { p with cellLow := decide (p.vcell.mv < 2500) }

/-- R170: CellLow follows VCELL in every supply state except Dead. -/
def Supply.trackCellLow (p : Supply) (rail : Rail) : Supply :=
  if rail = .vcell ∧ p.state ≠ .dead then p.formCellLow else p

/-! ## Supply events (R165 to R169) -/

/-- R169: cold start. -/
def State.coldStart (s : State) : State :=
  { s with cal := .reset, sram := [], batteryLost := true, supply := s.supply.formCellLow }

/-- R163: keep-domain power-up. -/
def State.keepPowerUp (s : State) : State := { s with link := .reset }

/-- The rumble unit at Full entry: its values of TABLE 7-6, an asserted MSNS taken as a trip (R140). -/
def Rumble.atFullEntry (msns : Bool) : Rumble := if msns then Rumble.reset.tripNow else .reset

/-- R166: Full entry. -/
def State.fullEntry (s : State) : State :=
  { s with port := .reset, store := .reset, sound := .reset, rumble := .atFullEntry s.msns,
           cal := { s.cal with wakePending := false }, link := { s.link with quiesce := .none } }

/-- The store engine without power: its state reads Off (R15, R157), nothing in flight (log 3). -/
def Store.unpowered : Store := { Store.reset with status := .off, op := .none }

/-- R167: supply loss: the console domain's state is lost (log 3), a page array write in progress is cut
short, and the quiesce state becomes None. -/
def State.supplyLoss (s : State) (cut : WriteCut) : State :=
  let s1 := s.cutWrite cut
  { s1 with port := .reset, store := .unpowered, sound := .reset, rumble := .reset,
            link := { s1.link with quiesce := .none } }

/-- R168: Backup entry: the link's state is lost (log 4). -/
def State.backupEntry (s : State) : State := { s with link := .reset }

/-- R168: power-down of every domain in Dead: the cell domain's state is lost (log 4). -/
def State.powerDown (s : State) : State :=
  { s with cal := .reset, sram := [], batteryLost := true, link := .reset, port := .reset,
           store := .unpowered, sound := .reset, rumble := .reset }

/-- R165: the supply events of a change of supply state, in order. -/
def State.supplyEvents (s : State) (before after : SupplyState) (cut : WriteCut) : State :=
  match before, after with
  | .dead, .backup => s.coldStart
  | .dead, .standby => s.coldStart.keepPowerUp
  | .dead, .full => s.coldStart.keepPowerUp.fullEntry
  | .backup, .standby => s.keepPowerUp
  | .backup, .full => s.keepPowerUp.fullEntry
  | .standby, .full => s.fullEntry
  | .full, .standby => s.supplyLoss cut
  | .full, .backup => (s.supplyLoss cut).backupEntry
  | .standby, .backup => s.backupEntry
  | .full, .dead => s.powerDown
  | .standby, .dead => s.powerDown
  | .backup, .dead => s.powerDown
  | .dead, .dead => s
  | .backup, .backup => s
  | .standby, .standby => s
  | .full, .full => s

/-- R164, R165, R170: a rail's new level reaches the monitor: the judgement, CellLow, the supply state
and the supply events of its change. -/
def State.setRail (s : State) (rail : Rail) (mv : Nat) (cut : WriteCut) : State :=
  let p := (s.supply.setRail rail mv).trackCellLow rail
  ({ s with supply := p } : State).supplyEvents s.supplyState p.state cut

/-- R152, R166: a part restart: a supply loss of the console domain and Full entry at one event. -/
def State.restart (s : State) (cut : WriteCut) : State := (s.supplyLoss cut).fullEntry

/-! ## Meanings -/

/-- R164 RAIL_JUDGEMENT_CHANGE: a rail takes a new level. -/
def execRailJudgementChange (rail : Rail) (mv : Nat) (cut : WriteCut) (s : State) :
    Host.Outcome State Fault Refusal := goesOn (s.setRail rail mv cut)

/-- R170 CELL_LOW_CHANGE: VCELL takes a new level (log 24). -/
def execCellLowChange (mv : Nat) (s : State) : Host.Outcome State Fault Refusal :=
  goesOn (s.setRail .vcell mv ⟨.nextEvent, .old⟩)

/-- R52, R53 CRYSTAL_EDGE. -/
def execCrystalEdge (s : State) : Host.Outcome State Fault Refusal :=
  if s.cellOn then goesOn s.crystalEdge else goesOn s

/-- R52, R56 DETECTOR_WINDOW_EXPIRY. -/
def execDetectorWindowExpiry (s : State) : Host.Outcome State Fault Refusal :=
  if s.cellOn then goesOn (s.withCal s.cal.stop) else goesOn s

/-- R52 SETTLING_COMPLETE: the cycle that takes the settling count to 2048 (log 7). -/
def execSettlingComplete (s : State) : Host.Outcome State Fault Refusal :=
  if s.cellOn = true ∧ s.cal.osc = .settling ∧ s.cal.settle.val = 2047 then
    goesOn (s.withCal s.cal.settled)
  else goesOn s

/-- R53, R54 SECOND_EVENT: the cycle that takes the prescaler past 32767 (log 7). After a SET_CALENDAR the
prescaler stands at 0, and a second event that was about to be raised does not happen (R61). -/
def execSecondEvent (s : State) : Host.Outcome State Fault Refusal :=
  if s.cellOn = true ∧ s.cal.osc = .running ∧ s.cal.prescaler.val = 32767 then goesOn s.secondEvent
  else goesOn s

/-- R76, R119 CUE_REQUEST: an alarm's cue request reaches the sound engine (log 7). -/
def execCueRequest (slot : Fin 4) (alarm : Fin 32) (s : State) : Host.Outcome State Fault Refusal :=
  if s.consoleOn then goesOn (s.cueRequest slot alarm) else goesOn s

/-- R76, R128 PLAY_REQUEST: an alarm's play request reaches the rumble unit (log 7). -/
def execPlayRequest (pattern : Fin 8) (priority : Fin 4) (s : State) :
    Host.Outcome State Fault Refusal :=
  if s.consoleOn then goesOn (s.playRequest { pattern := pattern, priority := priority }) else goesOn s

/-! ## Meanings of the sound engine's and the rumble unit's own events -/

/-- R97 PRODUCTION_EVENT. -/
def execProductionEvent (s : State) : Host.Outcome State Fault Refusal :=
  if s.consoleOn = true ∧ s.sound.canProduce = true then goesOn s.produce else goesOn s

/-- R92 STEP_BOUNDARY of one voice: the production event that brings the voice to it (log 7). -/
def execStepBoundary (v : Fin 8) (s : State) : Host.Outcome State Fault Refusal :=
  if s.consoleOn = true ∧ s.sound.stepDue v = true then goesOn s.produce else goesOn s

/-- R111 BEAT_EVENT: the production event that takes the frame counter to the active tempo (log 7). -/
def execBeatEvent (s : State) : Host.Outcome State Fault Refusal :=
  if s.consoleOn = true ∧ s.sound.beatDue = true then goesOn s.produce else goesOn s

/-- R108 RAMP_END: the production event whose frame carries g of 0 (log 7). -/
def execRampEnd (s : State) : Host.Outcome State Fault Refusal :=
  if s.consoleOn = true ∧ s.sound.rampDue = true then goesOn s.produce else goesOn s

/-- R98 PULL_EVENT. -/
def execPullEvent (s : State) : Host.Outcome State Fault Refusal :=
  if s.consoleOn then goesOn (s.withSound s.sound.pull) else goesOn s

/-- R122, R123 DRIVE_WRAP. -/
def execDriveWrap (s : State) : Host.Outcome State Fault Refusal :=
  if s.consoleOn then goesOn (s.withRumble (s.rumble.wrap s.link.cap)) else goesOn s

/-- R130 UNIT_EVENT: one unit of a Time-paced current play passes. -/
def execUnitEvent (s : State) : Host.Outcome State Fault Refusal :=
  if s.consoleOn then goesOn (s.withRumble (s.rumble.tick .time s.beatRunning)) else goesOn s

/-- R134 TRIP: the level of MSNS; an assertion in Full is a trip (log 25). -/
def execTrip (asserted : Bool) (s : State) : Host.Outcome State Fault Refusal :=
  let s1 : State := { s with msns := asserted }
  if asserted = true ∧ s.consoleOn = true then goesOn (s1.withRumble s.rumble.tripNow) else goesOn s1

end Sys2Proof.Machine
end

