-- ==== Sys2Proof/Machine/Port.lean ====
section
/-! DEFINITION. The console port (spec/08): writes on the cartridge bus, the command cells, and the
meanings of the commands that the console sends. -/

namespace Sys2Proof.Machine

/-! ## Command cells (R143 to R145) -/

/-- A cell hands its unit an accepted block. -/
def State.runUnit (s : State) (c : CellId) (b : Block) : State :=
  match c with
  | .store => s.runStore b
  | .calendar => s.runCalendar b
  | .sound => s.runSound b
  | .rumble => s.runRumble b

/-- R143 to R145: the Refused mark is set. -/
def State.markRefused (s : State) (c : CellId) : State := s.setCell c { s.cell c with refused := true }

/-- R144: a nonzero value offered to an Idle cell. -/
def State.offer (s : State) (c : CellId) (v : Word) : State :=
  let b := s.blockAt v
  if b.offerable then (s.setCell c { hold := .busy b, refused := false }).runUnit c b
  else s.markRefused c

/-- R145: an abort request; only the store cell is ever found Busy. -/
def State.abortUnit (s : State) (c : CellId) : State :=
  match c with
  | .store => s.abortStore
  | .calendar | .sound | .rumble => s

/-- R144, R145: a write of a value to a cell. -/
def State.cellWrite (s : State) (c : CellId) (v : Word) : State :=
  match (s.cell c).hold with
  | .idle => if v = 0 then s else s.offer c v
  | .busy _ => if v = 0 then s.abortUnit c else s.markRefused c
  | .pending _ => if v = 0 then s.setCell c { s.cell c with hold := .idle } else s.markRefused c

/-- R141: a write to a cell as the bus makes it: answered in Full alone. -/
def State.busCellWrite (s : State) (c : CellId) (v : Word) : State :=
  if s.consoleOn then s.cellWrite c v else s

/-- An offer of a block whose operation code is `op` (log 8): the cell is Idle and takes the block, and
the header says that request. -/
def State.offersRequest (s : State) (c : CellId) (op : Nat) (v : Word) : Bool :=
  s.consoleOn && decide ((s.cell c).hold = .idle) && decide (v ≠ 0) && (s.blockAt v).offerable &&
    decide (s.opcode (s.blockAt v) = op)

/-- A command named after a request: the offer of that request's block; any other write is not that
command and changes nothing under its name (log 5, log 8). -/
def State.namedOffer (s : State) (c : CellId) (op : Nat) (v : Word) : State :=
  if s.offersRequest c op v then s.cellWrite c v else s

/-! ## Bus writes (R141, R142, R151, R152; TABLE 11-12) -/

/-- R151: a write to notice enable. -/
def State.writeEnable (s : State) (v : Word) : State :=
  { s with port := { s.port with enable := v.setWidth 12 } }

/-- R152: a write to part control. -/
def State.writePartControl (s : State) (v : Word) (cut : WriteCut) : State :=
  if v = 1 then s.restart cut else s

/-- R141: a word written on the cartridge bus in Full. -/
def State.busWrite (s : State) (a : BitVec 13) (v : Word) : State :=
  if wordAddr a < 4096 then s.putRam (wordAddr a) (bytes16 v.toNat)
  else if wordAddr a = 0x1000 then s.cellWrite .store v
  else if wordAddr a = 0x1002 then s.cellWrite .calendar v
  else if wordAddr a = 0x1004 then s.cellWrite .sound v
  else if wordAddr a = 0x1006 then s.cellWrite .rumble v
  else if wordAddr a = 0x100A then s.writeEnable v
  else if wordAddr a = 0x100C then s.writePartControl v ⟨.nextEvent, .old⟩
  else s

/-! ## Meanings of the port's commands -/

/-- R144 BLOCK_OFFER. -/
def execBlockOffer (c : CellId) (v : Word) (s : State) : Host.Outcome State Fault Refusal :=
  goesOn (s.busCellWrite c v)

/-- R145 ABORT_REQUEST: a zero written to the store cell. -/
def execAbortRequest (s : State) : Host.Outcome State Fault Refusal := goesOn (s.busCellWrite .store 0)

/-- R145 ACKNOWLEDGE: a zero written to a cell. -/
def execAcknowledge (c : CellId) (s : State) : Host.Outcome State Fault Refusal :=
  goesOn (s.busCellWrite c 0)

/-- R144, R145 REFUSED_CELL_WRITE: a nonzero value written to a cell. -/
def execRefusedCellWrite (c : CellId) (v : Word) (s : State) : Host.Outcome State Fault Refusal :=
  goesOn (s.busCellWrite c v)

/-- R151 NOTICE_ENABLE_WRITE. -/
def execNoticeEnableWrite (v : Word) (s : State) : Host.Outcome State Fault Refusal :=
  if s.consoleOn then goesOn (s.writeEnable v) else goesOn s

/-- R152 PART_RESTART: a write to part control. -/
def execPartRestart (v : Word) (cut : WriteCut) (s : State) : Host.Outcome State Fault Refusal :=
  if s.consoleOn then goesOn (s.writePartControl v cut) else goesOn s

/-- R141, R142 EXCHANGE_RAM_WRITE: a word written on the bus (log 26). -/
def execExchangeRamWrite (a : BitVec 13) (v : Word) (s : State) : Host.Outcome State Fault Refusal :=
  if s.consoleOn then goesOn (s.busWrite a v) else goesOn s

/-! ## Meanings of the requests: the offer of the request's block (TABLE 11-3 to TABLE 11-6) -/

/-- R30 READ_ENTRY. -/
def execReadEntry (v : Word) (s : State) : Host.Outcome State Fault Refusal :=
  goesOn (s.namedOffer .store 1 v)

/-- R32 READ_FILE. -/
def execReadFile (v : Word) (s : State) : Host.Outcome State Fault Refusal :=
  goesOn (s.namedOffer .store 2 v)

/-- R34 COMMIT_FILE. -/
def execCommitFile (v : Word) (s : State) : Host.Outcome State Fault Refusal :=
  goesOn (s.namedOffer .store 3 v)

/-- R40 DELETE_FILE. -/
def execDeleteFile (v : Word) (s : State) : Host.Outcome State Fault Refusal :=
  goesOn (s.namedOffer .store 4 v)

/-- R42 VERIFY_FILE. -/
def execVerifyFile (v : Word) (s : State) : Host.Outcome State Fault Refusal :=
  goesOn (s.namedOffer .store 5 v)

/-- R43 READ_RAW. -/
def execReadRaw (v : Word) (s : State) : Host.Outcome State Fault Refusal :=
  goesOn (s.namedOffer .store 6 v)

/-- R44 FORMAT_STORE. -/
def execFormatStore (v : Word) (s : State) : Host.Outcome State Fault Refusal :=
  goesOn (s.namedOffer .store 7 v)

/-- R46 READ_STORE_STATUS. -/
def execReadStoreStatus (v : Word) (s : State) : Host.Outcome State Fault Refusal :=
  goesOn (s.namedOffer .store 8 v)

/-- R59 READ_CALENDAR. -/
def execReadCalendar (v : Word) (s : State) : Host.Outcome State Fault Refusal :=
  goesOn (s.namedOffer .calendar 1 v)

/-- R60 SET_CALENDAR. -/
def execSetCalendar (v : Word) (s : State) : Host.Outcome State Fault Refusal :=
  goesOn (s.namedOffer .calendar 2 v)

/-- R62 SET_ROLLOVER. -/
def execSetRollover (v : Word) (s : State) : Host.Outcome State Fault Refusal :=
  goesOn (s.namedOffer .calendar 3 v)

/-- R68 ADD_ALARM. -/
def execAddAlarm (v : Word) (s : State) : Host.Outcome State Fault Refusal :=
  goesOn (s.namedOffer .calendar 4 v)

/-- R70 REMOVE_ALARM. -/
def execRemoveAlarm (v : Word) (s : State) : Host.Outcome State Fault Refusal :=
  goesOn (s.namedOffer .calendar 5 v)

/-- R71 LIST_ALARMS. -/
def execListAlarms (v : Word) (s : State) : Host.Outcome State Fault Refusal :=
  goesOn (s.namedOffer .calendar 6 v)

/-- R80 TAKE_FIRED. -/
def execTakeFired (v : Word) (s : State) : Host.Outcome State Fault Refusal :=
  goesOn (s.namedOffer .calendar 7 v)

/-- R100 SET_VOICES. -/
def execSetVoices (v : Word) (s : State) : Host.Outcome State Fault Refusal :=
  goesOn (s.namedOffer .sound 1 v)

/-- R101 COMMIT_VOICES. -/
def execCommitVoices (v : Word) (s : State) : Host.Outcome State Fault Refusal :=
  goesOn (s.namedOffer .sound 2 v)

/-- R102 BROADCAST. -/
def execBroadcast (v : Word) (s : State) : Host.Outcome State Fault Refusal :=
  goesOn (s.namedOffer .sound 3 v)

/-- R103 SILENCE. -/
def execSilence (v : Word) (s : State) : Host.Outcome State Fault Refusal :=
  goesOn (s.namedOffer .sound 4 v)

/-- R104 LOAD_WAVE. -/
def execLoadWave (v : Word) (s : State) : Host.Outcome State Fault Refusal :=
  goesOn (s.namedOffer .sound 5 v)

/-- R107 START_SOUND. -/
def execStartSound (v : Word) (s : State) : Host.Outcome State Fault Refusal :=
  goesOn (s.namedOffer .sound 6 v)

/-- R108 STOP_SOUND. -/
def execStopSound (v : Word) (s : State) : Host.Outcome State Fault Refusal :=
  goesOn (s.namedOffer .sound 7 v)

/-- R112 SET_TEMPO. -/
def execSetTempo (v : Word) (s : State) : Host.Outcome State Fault Refusal :=
  goesOn (s.namedOffer .sound 8 v)

/-- R116 QUEUE_NOTES. -/
def execQueueNotes (v : Word) (s : State) : Host.Outcome State Fault Refusal :=
  goesOn (s.namedOffer .sound 9 v)

/-- R117 LOAD_CUE. -/
def execLoadCue (v : Word) (s : State) : Host.Outcome State Fault Refusal :=
  goesOn (s.namedOffer .sound 10 v)

/-- R118 PLAY_CUE. -/
def execPlayCue (v : Word) (s : State) : Host.Outcome State Fault Refusal :=
  goesOn (s.namedOffer .sound 11 v)

/-- R120 READ_SOUND_STATUS. -/
def execReadSoundStatus (v : Word) (s : State) : Host.Outcome State Fault Refusal :=
  goesOn (s.namedOffer .sound 12 v)

/-- R124 SET_LEVELS. -/
def execSetLevels (v : Word) (s : State) : Host.Outcome State Fault Refusal :=
  goesOn (s.namedOffer .rumble 1 v)

/-- R125 LOAD_PATTERN. -/
def execLoadPattern (v : Word) (s : State) : Host.Outcome State Fault Refusal :=
  goesOn (s.namedOffer .rumble 2 v)

/-- R128 PLAY_PATTERN. -/
def execPlayPattern (v : Word) (s : State) : Host.Outcome State Fault Refusal :=
  goesOn (s.namedOffer .rumble 3 v)

/-- R137 STOP_RUMBLE. -/
def execStopRumble (v : Word) (s : State) : Host.Outcome State Fault Refusal :=
  goesOn (s.namedOffer .rumble 4 v)

/-- R135 CLEAR_TRIP. -/
def execClearTrip (v : Word) (s : State) : Host.Outcome State Fault Refusal :=
  goesOn (s.namedOffer .rumble 5 v)

/-- R139 READ_RUMBLE_STATUS. -/
def execReadRumbleStatus (v : Word) (s : State) : Host.Outcome State Fault Refusal :=
  goesOn (s.namedOffer .rumble 6 v)

end Sys2Proof.Machine
end

