-- ==== Sys2Proof/Machine/Link.lean ====
section
/-! DEFINITION. The standby link (spec/09): conditions and bytes, the eight commands, the cap, quiesce
and resume. -/

namespace Sys2Proof.Machine

/-- Replace the link. -/
def State.withLink (s : State) (l : Link) : State := { s with link := l }

/-- A written byte is acknowledged and moves the target. -/
def Link.acked (l : Link) (t : LinkTarget) : Link := { l with target := t, ack := true }

/-- A written byte is not acknowledged; the target moves. -/
def Link.nacked (l : Link) (t : LinkTarget) : Link := { l with target := t, ack := false }

/-! ## Conditions and the address (R154, R156; 11.7) -/

/-- R154: a start or repeated start. -/
def Link.start (l : Link) : Link := { l with target := .address }

/-- R154: a stop. -/
def Link.stop (l : Link) : Link := { l with target := .idle, selected := none }

/-- R154, R156: a byte in Address. -/
def State.addressByte (s : State) (b : Byte) : State :=
  if b = 0x58 then s.withLink (s.link.acked .command)
  else if b = 0x59 then s.withLink { s.link.acked .read with response := s.linkResponse }
  else s.withLink (s.link.nacked .ignore)

/-! ## Quiesce and resume (R161, R162) -/

/-- R161: a QUIESCE: from None, requests to the three units (the rumble unit before the beat-lost signal
of the sound engine, R136) and the held reports. -/
def State.quiesceAll (s : State) : State :=
  match s.link.quiesce with
  | .none =>
    let s1 := s.withLink { s.link with quiesce := .pending }
    let s2 := s1.withStore s1.store.quiesce
    let s3 := s2.withRumble s2.rumble.quiesce
    s3.soundQuiesce.settleQuiesce
  | .pending => s
  | .done => s

/-- R162: a RESUME: requests to the three units; the quiesce state becomes None. -/
def State.resumeAll (s : State) : State :=
  { s with store := s.store.resume, sound := s.sound.resume, rumble := s.rumble.resume,
           link := { s.link with quiesce := .none } }

/-! ## Command and argument bytes (R155, R174; TABLE 11-13) -/

/-- The command that a byte names. -/
def LinkCmd.ofByte (b : Byte) : Option LinkCmd :=
  if b = 0x01 then some .status else if b = 0x02 then some .cal else if b = 0x03 then some .nextDue
  else if b = 0x04 then some .firedHead else if b = 0x10 then some .wakeAck
  else if b = 0x11 then some .setCap else if b = 0x12 then some .quiesce
  else if b = 0x13 then some .resume else none

/-- TABLE 9-3: a command is taken in the present supply state. -/
def State.takes (s : State) (c : LinkCmd) : Bool :=
  match c with
  | .quiesce => s.consoleOn
  | .resume => s.consoleOn
  | .status | .cal | .nextDue | .firedHead | .wakeAck | .setCap => true

/-- R155, R159: the effect that a command takes at its command byte. -/
def State.commandEffect (s : State) (c : LinkCmd) : State :=
  match c with
  | .wakeAck => s.withCal { s.cal with wakePending := false }
  | .quiesce => s.quiesceAll
  | .resume => s.resumeAll
  | .status | .cal | .nextDue | .firedHead | .setCap => s

/-- R155: the state after a command byte that is taken. -/
def LinkCmd.after (c : LinkCmd) : LinkTarget :=
  match c with
  | .setCap => .argument
  | .status | .cal | .nextDue | .firedHead | .wakeAck | .quiesce | .resume => .complete

/-- R155: a command byte that is acknowledged: it becomes the selected command and takes effect. -/
def State.takeCommand (s : State) (c : LinkCmd) : State :=
  let s1 := s.commandEffect c
  s1.withLink { s1.link.acked c.after with selected := some c }

/-- R155: a byte in Command. -/
def State.commandByte (s : State) (b : Byte) : State :=
  match LinkCmd.ofByte b with
  | some c =>
    if s.takes c then s.takeCommand c else s.withLink { s.link.nacked .ignore with selected := none }
  | none => s.withLink { s.link.nacked .ignore with selected := none }

/-- The cap that an argument byte encodes. -/
def Cap.ofByte (b : Byte) : Option Cap :=
  if b = 0 then some .full else if b = 1 then some .lowOnly else if b = 2 then some .off else none

/-- R160: the cap is written; a change in Full reaches the rumble unit. -/
def State.writeCap (s : State) (c : Cap) : State :=
  let s1 := s.withLink { s.link with cap := c }
  if c ≠ s.link.cap ∧ s.consoleOn = true then s1.withRumble (s.rumble.capChange c) else s1

/-- R155: a byte in Argument. -/
def State.argumentByte (s : State) (b : Byte) : State :=
  match Cap.ofByte b with
  | some c =>
    let s1 := s.writeCap c
    s1.withLink (s1.link.acked .complete)
  | none => s.withLink (s.link.nacked .ignore)

/-- R154: a byte written on the link, by the target state. In Idle and in Read no written byte reaches
the target (log 19). -/
def State.linkByte (s : State) (b : Byte) : State :=
  match s.link.target with
  | .idle => s
  | .address => s.addressByte b
  | .command => s.commandByte b
  | .argument => s.argumentByte b
  | .complete => s.withLink (s.link.nacked .ignore)
  | .read => s
  | .ignore => s.withLink (s.link.nacked .ignore)

/-- A byte written while the keep domain is powered. -/
def State.wireByte (s : State) (b : Byte) : State := if s.keepOn then s.linkByte b else s

/-! ## Meanings: each row of the table writes its byte on the wire (log 6) -/

/-- R155 STATUS: the command byte 0x01. -/
def execStatus (s : State) : Host.Outcome State Fault Refusal := goesOn (s.wireByte 0x01)

/-- R155 CAL: the command byte 0x02. -/
def execCal (s : State) : Host.Outcome State Fault Refusal := goesOn (s.wireByte 0x02)

/-- R155 NEXT_DUE: the command byte 0x03. -/
def execNextDue (s : State) : Host.Outcome State Fault Refusal := goesOn (s.wireByte 0x03)

/-- R155 FIRED_HEAD: the command byte 0x04. -/
def execFiredHead (s : State) : Host.Outcome State Fault Refusal := goesOn (s.wireByte 0x04)

/-- R155, R159 WAKE_ACK: the command byte 0x10. -/
def execWakeAck (s : State) : Host.Outcome State Fault Refusal := goesOn (s.wireByte 0x10)

/-- The byte that an event of SET_CAP writes. -/
def CapByte.wire : CapByte → Byte
  | .command => 0x11
  | .argument b => b

/-- R155, R160 SET_CAP: its command byte 0x11, or its argument byte. -/
def execSetCap (b : CapByte) (s : State) : Host.Outcome State Fault Refusal :=
  goesOn (s.wireByte (CapByte.wire b))

/-- R161 QUIESCE: the command byte 0x12. -/
def execQuiesce (s : State) : Host.Outcome State Fault Refusal := goesOn (s.wireByte 0x12)

/-- R162 RESUME: the command byte 0x13. -/
def execResume (s : State) : Host.Outcome State Fault Refusal := goesOn (s.wireByte 0x13)

/-- R154 START_CONDITION. -/
def execStartCondition (s : State) : Host.Outcome State Fault Refusal :=
  if s.keepOn then goesOn (s.withLink s.link.start) else goesOn s

/-- R154 STOP_CONDITION. -/
def execStopCondition (s : State) : Host.Outcome State Fault Refusal :=
  if s.keepOn then goesOn (s.withLink s.link.stop) else goesOn s

/-- R154, R156 ADDRESS_BYTE. -/
def execAddressByte (b : Byte) (s : State) : Host.Outcome State Fault Refusal := goesOn (s.wireByte b)

/-- R154, R155, R174 NOT_ACKNOWLEDGED_BYTE. -/
def execNotAcknowledgedByte (b : Byte) (s : State) : Host.Outcome State Fault Refusal :=
  goesOn (s.wireByte b)

end Sys2Proof.Machine
end

