-- ==== Sys2Proof/Machine/Dispatch.lean ====
section
/-! DEFINITION. The meaning of every command: one arm for each constructor of `Instr`. -/

namespace Sys2Proof.Machine

/-- The effect of a command on everything but the queue. -/
def exec (i : Instr) (s : State) : Host.Outcome State Fault Refusal :=
  match i with
  | .railJudgementChange rail mv cut => Sys2Proof.Machine.execRailJudgementChange rail mv cut s
  | .cellLowChange mv => Sys2Proof.Machine.execCellLowChange mv s
  | .crystalEdge => Sys2Proof.Machine.execCrystalEdge s
  | .detectorWindowExpiry => Sys2Proof.Machine.execDetectorWindowExpiry s
  | .settlingComplete => Sys2Proof.Machine.execSettlingComplete s
  | .secondEvent => Sys2Proof.Machine.execSecondEvent s
  | .cueRequest slot alarm => Sys2Proof.Machine.execCueRequest slot alarm s
  | .playRequest pattern priority => Sys2Proof.Machine.execPlayRequest pattern priority s
  | .purgeRequest => Sys2Proof.Machine.execPurgeRequest s
  | .purgeReply => Sys2Proof.Machine.execPurgeReply s
  | .readCalendar v => Sys2Proof.Machine.execReadCalendar v s
  | .setCalendar v => Sys2Proof.Machine.execSetCalendar v s
  | .setRollover v => Sys2Proof.Machine.execSetRollover v s
  | .addAlarm v => Sys2Proof.Machine.execAddAlarm v s
  | .removeAlarm v => Sys2Proof.Machine.execRemoveAlarm v s
  | .listAlarms v => Sys2Proof.Machine.execListAlarms v s
  | .takeFired v => Sys2Proof.Machine.execTakeFired v s
  | .readEntry v => Sys2Proof.Machine.execReadEntry v s
  | .readFile v => Sys2Proof.Machine.execReadFile v s
  | .readFilePage => Sys2Proof.Machine.execReadFilePage s
  | .commitFile v => Sys2Proof.Machine.execCommitFile v s
  | .stageChunk r => Sys2Proof.Machine.execStageChunk r s
  | .rollbackPageFree r => Sys2Proof.Machine.execRollbackPageFree r s
  | .armJournal dev => Sys2Proof.Machine.execArmJournal dev s
  | .commitEntryWrite dev => Sys2Proof.Machine.execCommitEntryWrite dev s
  | .liveRewrite r => Sys2Proof.Machine.execLiveRewrite r s
  | .breakPageFree r => Sys2Proof.Machine.execBreakPageFree r s
  | .damagedEntryWrite dev => Sys2Proof.Machine.execDamagedEntryWrite dev s
  | .freeOldPage r => Sys2Proof.Machine.execFreeOldPage r s
  | .clearJournal dev => Sys2Proof.Machine.execClearJournal dev s
  | .deleteFile v => Sys2Proof.Machine.execDeleteFile v s
  | .deleteEntryClear dev => Sys2Proof.Machine.execDeleteEntryClear dev s
  | .verifyFile v => Sys2Proof.Machine.execVerifyFile v s
  | .verifyPage => Sys2Proof.Machine.execVerifyPage s
  | .readRaw v => Sys2Proof.Machine.execReadRaw v s
  | .readRawPage => Sys2Proof.Machine.execReadRawPage s
  | .formatStore v => Sys2Proof.Machine.execFormatStore v s
  | .formatHeaderWrite dev => Sys2Proof.Machine.execFormatHeaderWrite dev s
  | .formatJournalWrite dev => Sys2Proof.Machine.execFormatJournalWrite dev s
  | .formatEntryWrite dev => Sys2Proof.Machine.execFormatEntryWrite dev s
  | .formatPageWrite r => Sys2Proof.Machine.execFormatPageWrite r s
  | .readStoreStatus v => Sys2Proof.Machine.execReadStoreStatus v s
  | .scanDiscardHeader dev => Sys2Proof.Machine.execScanDiscardHeader dev s
  | .scanClearBatteryLost => Sys2Proof.Machine.execScanClearBatteryLost s
  | .scanHeaderRead => Sys2Proof.Machine.execScanHeaderRead s
  | .scanJournalRead => Sys2Proof.Machine.execScanJournalRead s
  | .rollForwardEntryWrite dev => Sys2Proof.Machine.execRollForwardEntryWrite dev s
  | .rollForwardOldPageFree r => Sys2Proof.Machine.execRollForwardOldPageFree r s
  | .rollForwardLiveRewrite r => Sys2Proof.Machine.execRollForwardLiveRewrite r s
  | .scanEntryRead dev => Sys2Proof.Machine.execScanEntryRead dev s
  | .scanChainWalk dev => Sys2Proof.Machine.execScanChainWalk dev s
  | .scanSweepPage r => Sys2Proof.Machine.execScanSweepPage r s
  | .scanPublish => Sys2Proof.Machine.execScanPublish s
  | .productionEvent => Sys2Proof.Machine.execProductionEvent s
  | .stepBoundary voice => Sys2Proof.Machine.execStepBoundary voice s
  | .beatEvent => Sys2Proof.Machine.execBeatEvent s
  | .rampEnd => Sys2Proof.Machine.execRampEnd s
  | .pullEvent => Sys2Proof.Machine.execPullEvent s
  | .setVoices v => Sys2Proof.Machine.execSetVoices v s
  | .commitVoices v => Sys2Proof.Machine.execCommitVoices v s
  | .broadcast v => Sys2Proof.Machine.execBroadcast v s
  | .silence v => Sys2Proof.Machine.execSilence v s
  | .loadWave v => Sys2Proof.Machine.execLoadWave v s
  | .startSound v => Sys2Proof.Machine.execStartSound v s
  | .stopSound v => Sys2Proof.Machine.execStopSound v s
  | .setTempo v => Sys2Proof.Machine.execSetTempo v s
  | .queueNotes v => Sys2Proof.Machine.execQueueNotes v s
  | .loadCue v => Sys2Proof.Machine.execLoadCue v s
  | .playCue v => Sys2Proof.Machine.execPlayCue v s
  | .readSoundStatus v => Sys2Proof.Machine.execReadSoundStatus v s
  | .driveWrap => Sys2Proof.Machine.execDriveWrap s
  | .unitEvent => Sys2Proof.Machine.execUnitEvent s
  | .trip asserted => Sys2Proof.Machine.execTrip asserted s
  | .setLevels v => Sys2Proof.Machine.execSetLevels v s
  | .loadPattern v => Sys2Proof.Machine.execLoadPattern v s
  | .playPattern v => Sys2Proof.Machine.execPlayPattern v s
  | .stopRumble v => Sys2Proof.Machine.execStopRumble v s
  | .clearTrip v => Sys2Proof.Machine.execClearTrip v s
  | .readRumbleStatus v => Sys2Proof.Machine.execReadRumbleStatus v s
  | .blockOffer cell v => Sys2Proof.Machine.execBlockOffer cell v s
  | .abortRequest => Sys2Proof.Machine.execAbortRequest s
  | .acknowledge cell => Sys2Proof.Machine.execAcknowledge cell s
  | .refusedCellWrite cell v => Sys2Proof.Machine.execRefusedCellWrite cell v s
  | .noticeEnableWrite v => Sys2Proof.Machine.execNoticeEnableWrite v s
  | .partRestart v cut => Sys2Proof.Machine.execPartRestart v cut s
  | .exchangeRamWrite addr v => Sys2Proof.Machine.execExchangeRamWrite addr v s
  | .status => Sys2Proof.Machine.execStatus s
  | .cal => Sys2Proof.Machine.execCal s
  | .nextDue => Sys2Proof.Machine.execNextDue s
  | .firedHead => Sys2Proof.Machine.execFiredHead s
  | .wakeAck => Sys2Proof.Machine.execWakeAck s
  | .setCap b => Sys2Proof.Machine.execSetCap b s
  | .quiesce => Sys2Proof.Machine.execQuiesce s
  | .resume => Sys2Proof.Machine.execResume s
  | .startCondition => Sys2Proof.Machine.execStartCondition s
  | .stopCondition => Sys2Proof.Machine.execStopCondition s
  | .addressByte b => Sys2Proof.Machine.execAddressByte b s
  | .notAcknowledgedByte b => Sys2Proof.Machine.execNotAcknowledgedByte b s

end Sys2Proof.Machine
end

