-- ==== Sys2Proof/Safety.lean ====
section
/-! DEFINITION. The words that the statements are written in: an accepted block, a page that fits a
chain, and the laws that every step keeps. -/

namespace Sys2Proof.Machine

/-! ## Words of the statements -/

/-- R144: a cell has taken a block and nothing else has happened yet. -/
def State.accepted (s : State) (c : CellId) (b : Block) : State :=
  s.setCell c { hold := .busy b, refused := false }

/-- R144: in Full, a nonzero value names a block that the Idle cell takes. -/
def State.canTake (s : State) (c : CellId) (v : Word) (b : Block) : Prop :=
  s.supplyState = .full ∧ (s.cell c).hold = .idle ∧ v ≠ 0 ∧ b = s.blockAt v ∧ b.off % 4 = 0 ∧ b.off ≠ 0 ∧
    2 ≤ b.words ∧ b.words ≤ 64 ∧ b.off + 4 * b.words ≤ 4096

/-- The value offers the block of the request with operation code `op`, at least `need` words long. -/
def State.offered (s : State) (c : CellId) (op need : Nat) (v : Word) (b : Block) : Prop :=
  s.canTake c v b ∧ s.opcode b = op ∧ need ≤ b.words

/-- R33, R22, R173: a page is in a state, names the file, carries the generation and the position as
sequence, passes its header check and has a link that is End or a page. -/
def pageFits (m : Mem) (p : PageNo) (state : Byte) (f : FileNo) (gen : Word) (k : Nat) : Prop :=
  (readHdr m p).state = state ∧ (readHdr m p).owner.toNat = f.val ∧ (readHdr m p).seq.toNat = k ∧
    (readHdr m p).gen = gen ∧ hdrPasses m p = true ∧
    ((readHdr m p).next = 0xFFFF ∨ (readHdr m p).next.toNat < 480)

/-- R72: the entries that one application of the firing rule fires: those at the head due by then. -/
def dueBy (alarms : List Alarm) (now : CalTime) : List Alarm :=
  alarms.takeWhile fun a => !a.due.later now

/-- R66: the table with an entry placed after every entry due no later and before the first due later. -/
def placed (a : Alarm) (alarms : List Alarm) : List Alarm :=
  (alarms.takeWhile fun x => !x.due.later a.due) ++ a :: alarms.dropWhile fun x => !x.due.later a.due

/-- R72, R73: a table that takes back each repeating entry of a list at its next due time, in order. -/
def takenBack (due : List Alarm) (now : CalTime) (alarms : List Alarm) : List Alarm :=
  due.foldl (fun tab x =>
    match nextDue x now with
    | some d => placed { x with due := d } tab
    | none => tab) alarms

/-- R76: what an entry hands on at a firing in Full, as commands, the cue request first. -/
def Alarm.actions (a : Alarm) : List Instr :=
  (match a.cue with
    | some slot => [.cueRequest slot a.id]
    | none => []) ++
  match a.rumble with
  | some r => [.playRequest r.pattern r.priority]
  | none => []

/-- The state after commands in a row. -/
def State.commands (s : State) : List Instr → State
  | [] => s
  | i :: is =>
    match exec i s with
    | .next t => t.commands is
    | .fault _ | .refused _ => s

/-- TABLE 11-7, R68: the sixteen bytes at an address of Exchange RAM state the alarm, every field in range;
the id byte is not read, and an absent cue or rumble leaves its bytes unread. -/
def State.alarmIs (s : State) (x : Nat) (a : Alarm) : Prop :=
  (s.ramByte (x + 1)).toNat = a.owner.val ∧ s.ramNat (x + 2) 2 = a.due.day.val ∧
    s.ramNat (x + 4) 4 = a.due.second.val ∧ s.ramNat (x + 8) 2 = a.every.toNat ∧
    s.ramNat (x + 10) 2 = a.tag.toNat ∧ (s.ramByte (x + 12)).getLsbD 0 = a.wake ∧
    (match a.cue with
      | none => (s.ramByte (x + 12)).getLsbD 1 = false
      | some k => (s.ramByte (x + 12)).getLsbD 1 = true ∧ (s.ramByte (x + 13)).toNat = k.val) ∧
    match a.rumble with
    | none => (s.ramByte (x + 12)).getLsbD 2 = false
    | some r => (s.ramByte (x + 12)).getLsbD 2 = true ∧ (s.ramByte (x + 14)).toNat = r.pattern.val ∧
        (s.ramByte (x + 15)).toNat = r.priority.val

/-- TABLE 11-8, R116: the eight bytes at an address of Exchange RAM state the note entry, every field that
its action reads in range. -/
def State.noteIs (s : State) (x : Nat) (e : NoteEntry) : Prop :=
  (s.ramByte (x + 1)).toNat = e.note.voice.val ∧ (s.ramByte (x + 2)).toNat = e.delay ∧
    match e.note.action with
    | .keyOn period level => s.ramByte x = 0 ∧ (s.ramByte (x + 3)).toNat = level.val ∧
        s.ramNat (x + 4) 2 = period ∧ 1 ≤ period ∧ period ≤ 4095
    | .keyOff => s.ramByte x = 1
    | .setLevel level => s.ramByte x = 2 ∧ (s.ramByte (x + 3)).toNat = level.val
    | .setWave slot => s.ramByte x = 3 ∧ (s.ramByte (x + 6)).toNat = slot.val

/-- TABLE 11-6, R125: the two bytes at an address of Exchange RAM state the pattern step. -/
def State.stepIs (s : State) (x : Nat) (st : PatStep) : Prop :=
  s.ramByte x = (match st.level with
    | .off => 0
    | .low => 1
    | .high => 2
    | .full => 3) ∧ (s.ramByte (x + 1)).toNat = st.length ∧ st.length ≠ 0

/-- TABLE 5-4, TABLE 11-5, R87, R100: the write of a value under a parameter code that takes a voice from
`v` to `u`, where the code and the value are valid. -/
def Voice.Written (v u : Voice) (param value : Nat) : Prop :=
  (∃ src, value = (match src with
      | Source.off => 0
      | .square => 1
      | .wave => 2
      | .noise => 3) ∧ param = 0 ∧
    u = { v with staged := { v.staged with source := src }, pending := true }) ∨
  (param = 1 ∧ 1 ≤ value ∧ value ≤ 4095 ∧
    u = { v with staged := { v.staged with period := value }, pending := true }) ∨
  (∃ m : Modulus, param = 2 ∧ value = m.num ∧
    u = { v with staged := { v.staged with modulus := m, duty := min v.staged.duty value },
                 pending := true }) ∨
  (param = 3 ∧ value ≤ v.staged.modulus.num ∧
    u = { v with staged := { v.staged with duty := value }, pending := true }) ∨
  (∃ slot : Fin 8, param = 4 ∧ value = slot.val ∧
    u = { v with staged := { v.staged with slot := slot }, pending := true }) ∨
  (∃ level : Fin 128, param = 5 ∧ value = level.val ∧
    u = { v with staged := { v.staged with level := level }, pending := true }) ∨
  (∃ pan : Fin 16, value = pan.val ∧
    (param = 6 ∧ u = { v with staged := { v.staged with panL := pan }, pending := true } ∨
      param = 7 ∧ u = { v with staged := { v.staged with panR := pan }, pending := true })) ∨
  ∃ on : Bool, value = on.toNat ∧
    (param = 8 ∧ u = { v with staged := { v.staged with key := on }, pending := true, retrigger := on } ∨
      param = 9 ∧ u = { v with mode := if on then .synced else .immediate } ∨
      param = 10 ∧ u = { v with member := on })

/-- R5, TABLE 1-1: the fields of a journal lie in their ranges. -/
def Journal.inRanges (j : Journal) : Prop :=
  (j.newRoot = 0xFFFF ∨ j.newRoot.toNat < 480) ∧ j.newCount.toNat ≤ 64 ∧ j.newLength.toNat ≤ 16384 ∧
    j.newGen ≠ 0 ∧ j.newProtect.toNat ≤ 15 ∧ j.second.toNat ≤ 86399 ∧
    (j.oldRoot = 0xFFFF ∨ j.oldRoot.toNat < 480) ∧ j.oldGen ≠ 0

/-- R8: a Live entry is consistent. -/
def Entry.fits (e : Entry) : Prop :=
  e.length.toNat ≤ 16384 ∧ e.pageCount.toNat = (e.length.toNat + 255) / 256 ∧
    (if e.pageCount = 0 then e.root = 0xFFFF else e.root.toNat < 480) ∧ e.gen ≠ 0 ∧
    e.second.toNat ≤ 86399 ∧ e.protect.toNat ≤ 15

/-- R9: the ten bytes of a rewrite to Free (code 0) or to Bad (code 3). -/
def plainHeader (code : Byte) : List Byte :=
  withCheck ([code, 0, 0, 0] ++ bytes16 0 ++ bytes16 0xFFFF)

/-- R3: the page array after a page's header was rewritten and verified; after a failed verify the Bad
header stands, as its unverified write left it. -/
def rewritten (m : Mem) (p : PageNo) (header : List Byte) : HeaderVerify → Mem
  | .pass => Mem.writes m (1024 + 268 * p.val) header
  | .fail bad => Mem.writes m (1024 + 268 * p.val) (written bad (plainHeader 3))

/-- R11: the free list after a page's rewrite to Free. -/
def Store.freeAfter (st : Store) (p : PageNo) : HeaderVerify → List PageNo
  | .pass => st.free ++ [p]
  | .fail _ => st.free

/-- R12: the bad-page set, which holds no index twice, after a page's rewrite. -/
def Store.badAfter (st : Store) (p : PageNo) : HeaderVerify → List PageNo
  | .pass => st.bad
  | .fail _ => if p ∈ st.bad then st.bad else st.bad ++ [p]

/-- R22: the walk of the first Live entry with pages from a file number up, or step 6. -/
def Store.walkPlace (st : Store) (lo : Nat) : ScanPhase :=
  match (List.finRange 16).find? fun g =>
    decide (lo ≤ g.val) && st.dir[g].live && decide (st.dir[g].pageCount ≠ 0) with
  | some g => .walk g 0 st.dir[g].root
  | none => .sweep 0

/-- R23: the place after a page of step 6. -/
def sweepAfter (p : PageNo) : ScanPhase :=
  if h : p.val + 1 < 480 then .sweep ⟨p.val + 1, h⟩ else .publish

/-- R161: the quiesce state where the three units count as held, or do not. -/
def Quiesce.reported (q : Quiesce) (held : Bool) : Quiesce :=
  if q = .pending ∧ held = true then .done else q

/-- R130: the length of the first step of the pattern in a slot. -/
def Rumble.firstLength (r : Rumble) (slot : Fin 8) : Nat :=
  match r.patterns[slot] with
  | some p =>
    match p.steps[0]? with
    | some st => st.length
    | none => 0
  | none => 0

/-- R130: a play that starts. -/
def Rumble.starting (r : Rumble) (x : Play) : Current :=
  { play := x, step := 0, reps := 0, left := r.firstLength x.pattern }

/-- R131, R138: the unit after a current play has ended: the records made, the first 8 kept, and the plays
from the one that starts now. -/
def Rumble.passedOn (r : Rumble) (ended : List OutcomeRec) : List Play → Rumble
  | [] =>
    { r with current := none, queue := [], duty := 0, outcomes := (r.outcomes ++ ended).take 8 }
  | q :: qs =>
    { r with current := some (r.starting q), queue := qs, outcomes := (r.outcomes ++ ended).take 8 }

/-- R131: the plays of a queue up to the first that can start: those that leave BeatLost. -/
def Rumble.skips (r : Rumble) (running : Bool) (skipped rest : List Play) : Prop :=
  r.queue = skipped ++ rest ∧ (∀ q ∈ skipped, r.beatPaced q.pattern = true ∧ running = false) ∧
    ∀ q ∈ rest.head?, r.beatPaced q.pattern = false ∨ running = true

/-- R138: the outcome records of plays that end together. -/
def endings (ps : List Play) (k : OutcomeKind) : List OutcomeRec :=
  ps.map fun p => { pattern := p.pattern, source := p.source, kind := k }

/-- R129: a play is placed: it starts with no play current (step 1), or over a current one of lower
priority (step 2), or it joins the queue after every play of equal or higher priority and before the first
of lower (step 3), where a full queue evicts its tail (step 4); `code` is 0 for started and 1 for queued. -/
inductive Rumble.Placed (r : Rumble) (x : Play) : Byte → Rumble → Prop where
  | starts : r.current = none → Rumble.Placed r x 0 { r with current := some (r.starting x) }
  | preempts (c : Current) : r.current = some c → c.play.priority < x.priority →
    Rumble.Placed r x 0 { r with
      current := some (r.starting x), outcomes := (r.outcomes ++ endings [c.play] .preempted).take 8 }
  | queues (c : Current) (high low : List Play) : r.current = some c → x.priority ≤ c.play.priority →
    r.queue = high ++ low → (∀ q ∈ high, x.priority ≤ q.priority) →
    (∀ q ∈ low.head?, q.priority < x.priority) → r.queue.length < 4 →
    Rumble.Placed r x 1 { r with queue := high ++ x :: low }
  | evicts (c : Current) (high low : List Play) (t : Play) : r.current = some c →
    x.priority ≤ c.play.priority → r.queue = high ++ low ++ [t] →
    (∀ q ∈ high, x.priority ≤ q.priority) → (∀ q ∈ low.head?, q.priority < x.priority) →
    t.priority < x.priority → r.queue.length = 4 →
    Rumble.Placed r x 1 { r with
      queue := high ++ x :: low, outcomes := (r.outcomes ++ endings [t] .evicted).take 8 }

/-- R113: the notes of a queue with their due beats, counted in beats after the coming one from `base`. -/
def dueBeats : Nat → List Queued → List (Note × Nat)
  | _, [] => []
  | base, q :: qs => (q.note, base + q.wait) :: dueBeats (base + q.wait) qs

/-! ## Memories -/

/-- Exchange RAM and the page array are in canonical form. -/
def State.memoriesCanonical (s : State) : Prop :=
  Memory.wf s.port.ram = true ∧ Memory.wf s.sram = true

/-! ## Supply (R164, R170, R78, R163, R167) -/

/-- A judgement agrees with its rail's level and thresholds. -/
def RailState.agrees (r : RailState) (goodAbove lostBelow : Nat) : Prop :=
  (r.good = true → lostBelow ≤ r.mv) ∧ (r.good = false → r.mv ≤ goodAbove)

/-- The judgements agree with the rails. -/
def Supply.lawful (p : Supply) : Prop :=
  p.vcart.agrees 2900 2700 ∧ p.vkeep.agrees 2600 2400 ∧ p.vcell.good = decide (2000 ≤ p.vcell.mv)

/-- The console domain without power (log 3). -/
def State.consoleLost (s : State) : Prop :=
  s.port = .reset ∧ s.store = .unpowered ∧ s.sound = .reset ∧ s.rumble = .reset

/-- R164, R170, R78, R163: the judgements agree with the rails, CellLow with VCELL except in Dead,
wake-pending is clear in Full, and outside Full no quiesce is in force and the console domain is
without power. -/
def State.supplyLawful (s : State) : Prop :=
  s.supply.lawful ∧
    (s.supplyState ≠ .dead → s.supply.cellLow = decide (s.supply.vcell.mv < 2500)) ∧
    (s.supplyState = .full → s.cal.wakePending = false) ∧
    (s.supplyState ≠ .full → s.link.quiesce = .none ∧ s.consoleLost)

/-! ## Calendar (R66, R75, R56) -/

/-- R66, R75, R56: at most 32 alarms with distinct ids, in order of due time, each due later than now;
at most 16 fired records, at least one while the overflow flag is set; TimeLost set in Stopped. -/
def Calendar.lawful (c : Calendar) : Prop :=
  c.alarms.length ≤ 32 ∧ (c.alarms.map (·.id)).Nodup ∧
    c.alarms.Pairwise (fun a b => a.due.later b.due = false) ∧
    (∀ a ∈ c.alarms, a.due.later c.now = true) ∧ c.fired.length ≤ 16 ∧
    (c.overflow = true → c.fired ≠ []) ∧ (c.osc = .stopped → c.timeLost = true)

/-! ## Sound (R86, R106, R113, R98, R117) -/

/-- TABLE 5-2: period and duty in range. -/
def VoiceSet.lawful (p : VoiceSet) : Prop := 1 ≤ p.period ∧ p.period ≤ 4095 ∧ p.duty ≤ p.modulus.num

/-- R86: both sets and the phase in range, the sets equal while nothing is pending, and the retrigger
mark set only over a pending key On. -/
def Voice.lawful (v : Voice) : Prop :=
  v.active.lawful ∧ v.staged.lawful ∧ v.periodCount ≤ 4095 ∧ v.stepCount < v.active.modulus.num ∧
    (v.pending = false → v.staged = v.active) ∧
    (v.retrigger = true → v.pending = true ∧ v.staged.key = true)

/-- TABLE 6-4: a note's period in range. -/
def NoteAction.lawful : NoteAction → Prop
  | .keyOn period _ => 1 ≤ period ∧ period ≤ 4095
  | .keyOff | .setLevel _ | .setWave _ => True

/-- R117: a cue slot holds at most 8 entries in range. -/
def cueLawful (es : List NoteEntry) : Prop :=
  es.length ≤ 8 ∧ ∀ e ∈ es, e.note.action.lawful ∧ e.delay ≤ 255

/-- R106, R113, R98: the engine's own state. -/
def Sound.lawful (so : Sound) : Prop :=
  so.gain ≤ 64 ∧ (so.engine = .running → so.gain = 64) ∧ (so.engine = .muting → 1 ≤ so.gain) ∧
    (so.engine = .held → so.hold = true) ∧ 256 ≤ so.tempo ∧ so.tempo ≤ 65535 ∧ 256 ≤ so.nextTempo ∧
    so.nextTempo ≤ 65535 ∧ so.frameCount < so.tempo ∧ so.notes.length ≤ 64 ∧
    (so.engine ≠ .running → so.notes = []) ∧
    (∀ q ∈ so.notes, q.note.action.lawful ∧ q.wait ≤ 255) ∧ (∀ es ∈ so.cues.toList, cueLawful es) ∧
    so.fifo.length ≤ 64 ∧ (so.engine = .stopped → so.fifo = []) ∧ ∀ v ∈ so.voices.toList, v.lawful

/-! ## Rumble (R122 to R126, R133, R138, R110) -/

/-- R122: the duties lie within the modulus. -/
def DriveSet.lawful (d : DriveSet) : Prop := d.low ≤ d.modulus.num ∧ d.high ≤ d.modulus.num

/-- TABLE 7-3: a pattern's fields in range. -/
def Pattern.lawful (p : Pattern) : Prop :=
  p.times ≤ 15 ∧ 1 ≤ p.steps.length ∧ p.steps.length ≤ 16 ∧
    ∀ st ∈ p.steps, 1 ≤ st.length ∧ st.length ≤ 255

/-- R126, R110: the current play names a loaded slot, stands at a step of it with units left, and is
Beat-paced only while the engine is Running. -/
def Rumble.currentLawful (r : Rumble) (running : Bool) (c : Current) : Prop :=
  (∃ p, r.patternOf c.play.pattern = some p ∧ c.step < p.steps.length) ∧ 1 ≤ c.left ∧ c.left ≤ 255 ∧
    c.reps ≤ 255 ∧ (r.beatPaced c.play.pattern = true → running = true)

/-- R122 to R126, R138: the unit's own state. -/
def Rumble.lawful (r : Rumble) (running : Bool) : Prop :=
  r.active.lawful ∧ r.staged.lawful ∧ r.duty ≤ r.active.modulus.num ∧
    (∀ i : Fin 8, ∀ p, r.patternOf i = some p → p.lawful) ∧
    (∀ c, r.current = some c → r.currentLawful running c) ∧
    (∀ p ∈ r.queue, (r.patternOf p.pattern).isSome = true) ∧ r.queue.length ≤ 4 ∧
    r.queue.Pairwise (fun a b => b.priority ≤ a.priority) ∧ (r.queue ≠ [] → r.current ≠ none) ∧
    ((r.trip = true ∨ r.hold = true) → r.current = none) ∧ r.outcomes.length ≤ 8

/-- R123, R133: a play is current, and the drive nonzero, only in Full with the cap not Off. -/
def State.rumbleLawful (s : State) : Prop :=
  s.rumble.lawful s.beatRunning ∧
    (s.rumble.current ≠ none → s.supplyState = .full ∧ s.link.cap ≠ .off) ∧
    (s.rumble.duty ≠ 0 → s.supplyState = .full ∧ s.rumble.state = .playing ∧ s.link.cap ≠ .off)

/-! ## Quiesce (R161, TABLE 9-5) -/

/-- R161: Pending while a unit is not held, Done while all are; the three holds stand together with a
quiesce and only in Full. -/
def State.quiesceLawful (s : State) : Prop :=
  (s.link.quiesce = .pending → s.allHeld = false) ∧ (s.link.quiesce = .done → s.allHeld = true) ∧
    (s.link.quiesce ≠ .none →
      s.supplyState = .full ∧ s.store.hold = true ∧ s.sound.hold = true ∧ s.rumble.hold = true) ∧
    (s.link.quiesce = .none →
      s.store.hold = false ∧ s.sound.hold = false ∧ s.rumble.hold = false) ∧
    (s.sound.engine = .held → s.sound.hold = true)

/-! ## The store engine (R15, R27, R145) -/

/-- The cell is Busy. -/
def Hold.isBusy : Hold → Prop
  | .busy _ => True
  | .idle | .pending _ => False

/-- R15, R16, R27, R145: what the engine does, its state, its hold and the store cell belong together. -/
def State.engineLawful (s : State) : Prop :=
  (s.supplyState ≠ .full → s.store.op = .none) ∧
    (s.supplyState = .full → s.store.status ≠ .off) ∧
    (s.store.status = .quiesced → s.store.hold = true) ∧
    (s.store.status = .scanning → ∃ n ph, s.store.op = .scan n ph) ∧
    match s.store.op with
    | .none =>
      s.store.status ≠ .busy ∧ ¬ s.port.store.hold.isBusy ∧ s.store.waiting = .none
    | .scan _ _ =>
      s.store.status = .scanning ∧
        match s.store.waiting with
        | some b => s.port.store.hold = .busy b
        | none => ¬ s.port.store.hold.isBusy
    | .run r j =>
      s.port.store.hold = .busy r.blk ∧ s.store.waiting = .none ∧
        match j with
        | .format _ => s.store.status = .unformatted
        | .readRaw _ _ _ _ => s.store.status = .busy ∨ s.store.status = .unformatted
        | .readFile _ _ _ _ _ _ | .verify _ _ _ | .commit _ _ | .delete _ _ => s.store.status = .busy

/-! ## Page accounting (R14) -/

/-- R14: the pages that a commit counts beside the chains: staged ones before the entry write, old ones
after it, and new ones still to free after a break. -/
def CommitPhase.pages (c : Commit) : CommitPhase → List PageNo
  | .staging _ | .arm | .entry _ => c.staged
  | .rollback todo _ => todo
  | .live _ _ | .damagedEntry _ => c.old
  | .breakFree _ todo => todo ++ c.old
  | .freeOld todo _ => todo
  | .clear _ => []

/-- R14: the pages of a deleted chain still to free. -/
def DeletePhase.pages : DeletePhase → List PageNo
  | .freeOld todo => todo
  | .arm | .entry | .clear | .purging => []

/-- R14: the pages that the operation in flight counts as its own. -/
def Op.pages : Op → List PageNo
  | .run _ (.commit c ph) => ph.pages c
  | .run _ (.delete _ ph) => ph.pages
  | .none | .scan _ _ | .run _ (.readFile _ _ _ _ _ _) | .run _ (.verify _ _ _)
  | .run _ (.readRaw _ _ _ _) | .run _ (.format _) => []

/-- R14: every place a page can be counted in: the free list, the chains, the operation in flight, the
bad-page set. -/
def Store.pageList (st : Store) : List PageNo :=
  st.free ++ st.chains.toList.flatten ++ st.op.pages ++ st.bad

/-- R14: every page is counted exactly once. -/
def Store.allCounted (st : Store) : Prop := ∀ p : PageNo, st.pageList.count p = 1

/-- A retired page's header says Bad, unless its unverified write left it failing its check (R3). -/
def badOnArray (m : Mem) (p : PageNo) : Prop := hdrPasses m p = true → (readHdr m p).state = 3

/-- R38, R39: the chains that the phases of a commit rest on. -/
def Commit.chainsLawful (c : Commit) (st : Store) : CommitPhase → Prop
  | .staging _ | .rollback _ _ | .arm | .entry _ => st.chains[c.file] = c.old
  | .live done todo => st.chains[c.file] = done ++ todo
  | .breakFree _ _ | .damagedEntry _ | .freeOld _ _ | .clear _ => True

/-- The pages as the scan accounts for them, place by place (R18 to R23). -/
def State.scanPages (s : State) : ScanPhase → Prop
  | .begin | .discarded | .journal =>
    s.store.free = [] ∧ s.store.bad = [] ∧ s.store.chains.toList.flatten = []
  | .rollEntry _ | .rollClear | .entries _ =>
    s.store.free = [] ∧ s.store.chains.toList.flatten = [] ∧ s.store.bad.Nodup ∧
      ∀ p ∈ s.store.bad, badOnArray s.sram p
  | .rollOld _ _ p | .rollLive _ _ p =>
    s.store.free = [] ∧ s.store.chains.toList.flatten = [] ∧ s.store.bad.Nodup ∧ p ∉ s.store.bad ∧
      ∀ q ∈ s.store.bad, badOnArray s.sram q
  | .walk _ _ _ =>
    s.store.free = [] ∧ (s.store.chains.toList.flatten ++ s.store.bad).Nodup ∧
      ∀ p ∈ s.store.bad, badOnArray s.sram p
  | .sweep p =>
    (∀ q, q < p → s.store.pageList.count q = 1) ∧
      ∀ q, p ≤ q → q ∉ s.store.free ∧ s.store.pageList.count q ≤ 1 ∧
        (q ∈ s.store.bad → badOnArray s.sram q)
  | .publish | .purging => s.store.verdict = true → s.store.allCounted

/-- The pages as a format accounts for them (R44). -/
def Store.formatPages (st : Store) : FormatPhase → Prop
  | .header | .journal | .entries _ => st.free = [] ∧ st.bad = [] ∧ st.chains.toList.flatten = []
  | .pages p _ =>
    st.chains.toList.flatten = [] ∧ (∀ q, q < p → st.pageList.count q = 1) ∧
      ∀ q, p ≤ q → q ∉ st.pageList
  | .purging _ => st.allCounted

/-- R14 with what carries it through every operation: in Ready, Busy and Quiesced every page is counted
exactly once. -/
def State.pagesLawful (s : State) : Prop :=
  s.engineLawful ∧ Memory.wf s.sram = true ∧
    ((s.store.status = .ready ∨ s.store.status = .busy ∨ s.store.status = .quiesced) →
      s.store.allCounted) ∧
    match s.store.op with
    | .scan _ ph => s.scanPages ph
    | .run _ (.commit c ph) => c.chainsLawful s.store ph
    | .run _ (.format ph) => s.store.formatPages ph
    | .none | .run _ (.readFile _ _ _ _ _ _) | .run _ (.verify _ _ _) | .run _ (.readRaw _ _ _ _)
    | .run _ (.delete _ _) => True

/-! ## Alarm owners (R83) -/

/-- Every alarm's owner is in the live-file set. -/
def State.ownersLive (s : State) : Prop :=
  ∀ a ∈ s.cal.alarms, FileSet.has s.store.live a.owner = true

/-- R83, R41, R24, R45: what stands of the law of R83 at each place of an operation. -/
def State.ownersAt (s : State) : Op → Prop
  | .none =>
    s.store.purgeReq = none ∧ s.store.purgeReply = none ∧
      (s.store.status ≠ .off → s.ownersLive)
  | .scan _ .purging =>
    (s.store.purgeReq = some .allNotLive ∧ s.store.purgeReply = none) ∨
      (s.store.purgeReq = none ∧ s.ownersLive)
  | .scan _ _ => s.store.purgeReq = none ∧ s.store.purgeReply = none
  | .run _ (.delete f .purging) =>
    (s.store.purgeReq = some (.file f) ∧ s.store.purgeReply = none ∧
        ∀ a ∈ s.cal.alarms, a.owner = f ∨ FileSet.has s.store.live a.owner = true) ∨
      (s.store.purgeReq = none ∧ s.ownersLive)
  | .run _ (.delete f ph) =>
    s.store.purgeReq = none ∧ s.store.purgeReply = none ∧
      ∀ a ∈ s.cal.alarms,
        (ph ≠ .arm ∧ ph ≠ .entry ∧ a.owner = f) ∨ FileSet.has s.store.live a.owner = true
  | .run _ (.format (.purging _)) =>
    (s.store.purgeReq = some .allNotLive ∧ s.store.purgeReply = none) ∨
      (s.store.purgeReq = none ∧ s.ownersLive)
  | .run _ (.format _) => s.store.purgeReq = none ∧ s.store.purgeReply = none
  | .run _ _ => s.store.purgeReq = none ∧ s.store.purgeReply = none ∧ s.ownersLive

/-- R83: in Full, once the store has left Scanning and outside a delete's purge and a format, every alarm
names a file in the live-file set. -/
def State.ownersLawful (s : State) : Prop := s.engineLawful ∧ s.ownersAt s.store.op

end Sys2Proof.Machine
end

