-- ==== Sys2Proof/Certificates/Slice0/Obligations.lean ====
section
/-! DEFINITION. The statements, one definition each, in the order of OBLIGATIONS.json. -/

open Sys2Proof Sys2Proof.Machine

/-! ## The queue, the outcomes, the termination record -/

/-- A step takes the command at the front of the queue and runs it on the state with the queue's rest; on
an empty queue the part idles (log 18). -/
def Obligations.StepTakesTheFrontCommand : Prop :=
  (∀ (c : Instr) (cs : List Instr) (s : State), s.pending = c :: cs →
    step s = exec c { s with pending := cs }) ∧
  ∀ s : State, s.pending = [] → step s = .next s

/-- Every command answers a next state and leaves the queue as it is: no command of this part faults or
is refused. -/
def Obligations.EveryCommandGoesOn : Prop :=
  ∀ (i : Instr) (s : State), ∃ t, exec i s = .next t ∧ t.pending = s.pending

/-- R146, R28, R15, R16, R161: a termination writes the status code, the flags (Done always, Error unless
OK, Partial, AbortLate) and the count into the block's last four bytes and no other byte; the cell becomes
Pending with its Refused mark as it stood; the other cells keep what they hold. The end of a running store
request terminates its block with the AbortLate of its run, makes the operation context None, takes a Busy
store to Ready or, under the hold, to Quiesced, and makes a quiesce Done when store, sound engine and rumble
unit are now all held. The running request's next place alone is what `setJob` writes. The status codes are
those of TABLE 11-2. -/
def Obligations.TerminationRecord : Prop :=
  (∀ st : Status, st.code = match st with
    | .ok => 0x00
    | .badOp => 0x01
    | .badArg => 0x02
    | .noFile => 0x03
    | .protected_ => 0x04
    | .noSpace => 0x05
    | .linkMismatch => 0x06
    | .dataCheck => 0x07
    | .unformatted => 0x08
    | .worn => 0x09
    | .quiesced => 0x0A
    | .aborted => 0x0B
    | .queueFull => 0x0C
    | .tableFull => 0x0D
    | .noAlarm => 0x0E
    | .engineStopped => 0x0F
    | .engineRunning => 0x10
    | .tripped => 0x11
    | .tripActive => 0x12
    | .capped => 0x13
    | .noPattern => 0x14
    | .patternInUse => 0x15) ∧
  (∀ (s : State) (c : CellId) (b : Block) (a : Answer), Memory.wf s.port.ram = true → 2 ≤ b.words →
    b.off + 4 * b.words ≤ 4096 → a.count ≤ 65535 →
    (s.terminate c b a).ramByte (b.off + 4 * b.words - 4) = a.status.code ∧
    (∀ k, ((s.terminate c b a).ramByte (b.off + 4 * b.words - 3)).getLsbD k =
      ([true, decide (a.status ≠ .ok), a.part, a.late].getD k false)) ∧
    (s.terminate c b a).ramNat (b.off + 4 * b.words - 2) 2 = a.count ∧
    (∀ x, x < b.off + 4 * b.words - 4 ∨ b.off + 4 * b.words ≤ x →
      (s.terminate c b a).ramByte x = s.ramByte x) ∧
    (s.terminate c b a).cell c = { hold := .pending b, refused := (s.cell c).refused } ∧
    ∀ c', c' ≠ c → (s.terminate c b a).cell c' = s.cell c') ∧
  (∀ (s t : State) (r : Run) (st : Status) (part : Bool) (count : Nat) (rest : StoreState),
    t = s.terminate .store r.blk { status := st, part := part, late := r.late, count := count } →
    rest = (if s.store.status = .busy then (if s.store.hold then .quiesced else .ready)
      else s.store.status) →
    s.endRun r st part count = { t with
      store := { s.store with op := .none, status := rest },
      link := { s.link with
        quiesce := s.link.quiesce.reported
          (decide (rest = .quiesced ∨ rest = .unformatted ∧ s.store.hold = true) &&
            decide (s.sound.engine = .held) && s.rumble.hold) } }) ∧
  ∀ (s : State) (r : Run) (j : Job),
    s.setJob r j = { s with store := { s.store with op := .run r j } }

/-! ## Supply -/

/-- R164: the judgements, each with its own thresholds and kept between them, and the supply state that
they form; in a lawful Dead state every rail is judged by the threshold at which it becomes good. -/
def Obligations.RailJudgements : Prop :=
  ∀ (s : State) (rail : Rail) (mv : Nat) (cut : WriteCut),
    ∃ t, exec (.railJudgementChange rail mv cut) s = .next t ∧
      t.supply.vcart = (if rail = .vcart then
        { mv := mv, good := if 2900 < mv then true else if mv < 2700 then false else s.supply.vcart.good }
        else s.supply.vcart) ∧
      t.supply.vkeep = (if rail = .vkeep then
        { mv := mv, good := if 2600 < mv then true else if mv < 2400 then false else s.supply.vkeep.good }
        else s.supply.vkeep) ∧
      t.supply.vcell = (if rail = .vcell then { mv := mv, good := decide (2000 ≤ mv) }
        else s.supply.vcell) ∧
      t.supplyState = (if t.supply.vcart.good then .full else if t.supply.vkeep.good then .standby
        else if t.supply.vcell.good then .backup else .dead) ∧
      (s.supply.lawful → s.supplyState = .dead →
        t.supply.vcart.good = decide (2900 < t.supply.vcart.mv) ∧
        t.supply.vkeep.good = decide (2600 < t.supply.vkeep.mv) ∧
        t.supply.vcell.good = decide (2000 ≤ t.supply.vcell.mv))

/-- R166, R152, R165: what Full entry does, from Standby, Backup and Dead when VCART becomes good and at a
part restart: the console domain takes its Full-entry values (TABLE 8-3, 1-5, 5-5, 6-3, 7-6) with an
asserted MSNS as a trip, wake-pending
and the quiesce state are cleared, and nothing else changes but a page array write that a restart cuts
short; from Backup the keep domain powers up first, from Dead the cell domain before it. A write of another
value to part control changes nothing. The model's choices: the sixteen entry copies in the Empty form (log
11), the zero frame on SDO (log 18), the write in progress at a restart and what of it is left
(`State.cutWrite`, log 9), an empty page array (log 2), and at power-up the settling count (log 18), the
response and the acknowledgement (log 19). -/
def Obligations.FullEntryAndPartRestart : Prop :=
  (Port.reset = { ram := [], store := { hold := .idle, refused := false },
                  calendar := { hold := .idle, refused := false },
                  sound := { hold := .idle, refused := false },
                  rumble := { hold := .idle, refused := false }, enable := 0 } ∧
    Store.reset = { status := .scanning, verdict := false, free := [], bad := [], live := 0, hold := false,
                    op := .scan { rolled := false, staged := false, damaged := 0, discard := false } .begin,
                    waiting := none, last := { kind := .clean, damaged := 0, discard := false },
                    damagedNow := 0, storeDamaged := false, chains := Vector.replicate 16 [],
                    dir := Vector.replicate 16
                      { live := false, damaged := false, protect := 0, length := 0, pageCount := 0,
                        root := 0xFFFF, gen := 0, day := 0, second := 0, epoch := 0 },
                    purgeReq := none, purgeReply := none }) ∧
  (∀ p : VoiceSet, p = { source := .off, period := 1, modulus := .m64, duty := 32, slot := 0, level := 0,
                         panL := 15, panR := 15, key := false } →
    Sound.reset = { engine := .stopped, gain := 64, hold := false, frameCount := 0, tempo := 4096,
                    nextTempo := 4096, beats := 0, notes := [], cues := Vector.replicate 4 [],
                    lastDrop := none, cueDropped := false,
                    voices := Vector.replicate 8
                      { active := p, staged := p, mode := .immediate, member := false, periodCount := 0,
                        stepCount := 0, waveIndex := 0, noisePos := 0, pending := false,
                        retrigger := false },
                    waves := Vector.replicate 8 none, fifo := [], sdo := { left := 0, right := 0 } }) ∧
  (∀ d : DriveSet, d = { modulus := .m64, low := 24, high := 48 } →
    Rumble.reset = { active := d, staged := d, drivePending := false, duty := 0,
                     patterns := Vector.replicate 8 none, current := none, queue := [], outcomes := [],
                     trip := false, hold := false, capChanged := false }) ∧
  (∀ (s : State) (mv : Nat) (cut : WriteCut), s.supplyState = .standby → 2900 < mv →
    exec (.railJudgementChange .vcart mv cut) s =
      .next { s with supply := { s.supply with vcart := { mv := mv, good := true } }, port := .reset,
                     store := .reset, sound := .reset,
                     rumble := { Rumble.reset with trip := s.msns },
                     cal := { s.cal with wakePending := false },
                     link := { s.link with quiesce := .none } }) ∧
  (∀ (s : State) (mv : Nat) (cut : WriteCut), s.supplyState = .backup → 2900 < mv →
    exec (.railJudgementChange .vcart mv cut) s =
      .next { s with supply := { s.supply with vcart := { mv := mv, good := true } }, port := .reset,
                     store := .reset, sound := .reset,
                     rumble := { Rumble.reset with trip := s.msns },
                     cal := { s.cal with wakePending := false },
                     link := { target := .idle, selected := none, cap := .full, quiesce := .none,
                               response := [], ack := false } }) ∧
  (∀ (s : State) (mv : Nat) (cut : WriteCut), s.supplyState = .dead → 2900 < mv →
    exec (.railJudgementChange .vcart mv cut) s =
      .next { s with supply := { s.supply with vcart := { mv := mv, good := true },
                                               cellLow := decide (s.supply.vcell.mv < 2500) },
                     port := .reset, store := .reset, sound := .reset,
                     rumble := { Rumble.reset with trip := s.msns },
                     cal := { osc := .stopped, settle := 0, prescaler := 0,
                              now := { day := 0, second := 0 }, timeLost := true, epoch := 0,
                              rollover := 0, alarms := [], fired := [], overflow := false,
                              wakePending := false },
                     batteryLost := true, sram := [],
                     link := { target := .idle, selected := none, cap := .full, quiesce := .none,
                               response := [], ack := false } }) ∧
  (∀ (s : State) (cut : WriteCut), s.supplyState = .full →
    exec (.partRestart 1 cut) s =
      .next { s with port := .reset, store := .reset, sound := .reset,
                     rumble := { Rumble.reset with trip := s.msns },
                     cal := { s.cal with wakePending := false },
                     link := { s.link with quiesce := .none }, sram := (s.cutWrite cut).sram }) ∧
  ∀ (s : State) (v : Word) (cut : WriteCut), v ≠ 1 → exec (.partRestart v cut) s = .next s

/-- R167, R168, R3: a supply loss, to Standby and to Backup: the console domain is gone from every pin and
from STATUS, the quiesce state becomes None, the cell domain stands, and the page array changes by no more
than the write in progress; in Backup the link is without power too. The whole next states are given. That
the write in progress is the one the store engine's next event makes (`State.nextWrite`) or, for a commit in
Staging that an abort has reached or that finds the free list empty (logs 14, 15), the rewrite to Free of its
first staged page, and that a mixture which passes its check leaves the old content, are the model's choices
(log 9); that a page write which failed verify may have its Bad header cut short is read from R3 (log 10); the
values that an unpowered domain's state stands at are the model's (logs 3 and 4). -/
def Obligations.SupplyLossStopsTheConsoleDomain : Prop :=
  (∀ (s : State) (mv : Nat) (cut : WriteCut), s.supplyState = .full → s.supply.vkeep.good = true →
    mv < 2700 →
    ∃ t, exec (.railJudgementChange .vcart mv cut) s = .next t ∧ t.supplyState = .standby ∧
      t.ntc = none ∧ t.sdoFrame = none ∧ t.motorDuty = 0 ∧ (∀ a, t.busRead a = none) ∧
      t.storeStatusCode = 0 ∧ t.soundStatusCode = 0 ∧ t.rumbleStatusCode = 0 ∧
      t = { s with supply := { s.supply with vcart := { mv := mv, good := false } },
                   sram := (s.cutWrite cut).sram, port := .reset,
                   store := { Store.reset with status := .off, op := .none }, sound := .reset,
                   rumble := .reset, link := { s.link with quiesce := .none } }) ∧
  (∀ (s : State) (mv : Nat) (cut : WriteCut), s.supplyState = .full → s.supply.vkeep.good = false →
    s.supply.vcell.good = true → mv < 2700 →
    exec (.railJudgementChange .vcart mv cut) s =
      .next { s with supply := { s.supply with vcart := { mv := mv, good := false } },
                     sram := (s.cutWrite cut).sram, port := .reset,
                     store := { Store.reset with status := .off, op := .none }, sound := .reset,
                     rumble := .reset,
                     link := { target := .idle, selected := none, cap := .full, quiesce := .none,
                               response := [], ack := false } }) ∧
  (∀ (mask : List Bool) (old new : List Byte) (k : Nat), (mixBytes mask old new)[k]? =
    if mask[k]? = some true ∧ k < old.length ∧ k < new.length then new[k]? else old[k]?) ∧
  (∀ (dev : List Host.Cell) (i k : Nat) (bs : List Byte),
    (overlay dev i bs)[k]? = bs[k]?.map fun b => (dev.lookup (i + k)).getD b) ∧
  (∀ bs : List Byte, recordPasses bs = if bs.length = 6 then passes 4 bs
    else if bs.length = 10 then passes 8 bs else if bs.length = 32 then passes 30 bs
    else passes 8 bs && passes 256 (bs.drop 10)) ∧
  (∀ s : State, s.writeInProgress .nextEvent = s.nextWrite) ∧
  (∀ s : State, (∀ (r : Run) (c : Commit) (i : Nat), s.store.op = .run r (.commit c (.staging i)) →
      r.abort = false ∧ s.store.free ≠ []) → s.writeInProgress .firstRollback = none) ∧
  (∀ (s : State) (r : Run) (c : Commit) (i : Nat), s.store.op = .run r (.commit c (.staging i)) →
    r.abort = true ∨ s.store.free = [] → c.staged = [] → s.writeInProgress .firstRollback = none) ∧
  (∀ (s : State) (r : Run) (c : Commit) (i : Nat) (p : PageNo) (ps : List PageNo),
    s.store.op = .run r (.commit c (.staging i)) → r.abort = true ∨ s.store.free = [] →
    c.staged = p :: ps →
    s.writeInProgress .firstRollback = some { base := 1024 + 268 * p.val, bytes := plainHeader 0 }) ∧
  (∀ (s : State) (cut : WriteCut), s.writeInProgress cut.write = none → (s.cutWrite cut).sram = s.sram) ∧
  ∀ (s : State) (cut : WriteCut) (w : RecWrite), s.writeInProgress cut.write = some w →
    (s.cutWrite cut).sram = Mem.writes s.sram w.base
      (match cut.remains with
        | .old => Mem.reads s.sram w.base w.bytes.length
        | .new => w.bytes
        | .torn mask =>
          if recordPasses (mixBytes mask (Mem.reads s.sram w.base w.bytes.length) w.bytes) then
            Mem.reads s.sram w.base w.bytes.length
          else mixBytes mask (Mem.reads s.sram w.base w.bytes.length) w.bytes
        | .badHeader dev mask =>
          if w.bytes.length = 10 ∨ w.bytes.length = 268 then
            (if passes 8 (mixBytes mask ((overlay dev 0 w.bytes).take 10) (plainHeader 3)) then
              (overlay dev 0 w.bytes).take 10
            else mixBytes mask ((overlay dev 0 w.bytes).take 10) (plainHeader 3)) ++
              (overlay dev 0 w.bytes).drop 10
          else Mem.reads s.sram w.base w.bytes.length)

/-- R163, R165, R168, R169, R170: cold start when VCELL or VKEEP comes back in Dead, keep-domain power-up,
Backup entry, power-down to Dead from each powered state, and a VCELL change that crosses no judgement:
CellLow alone follows it. The model's choices: an empty page array after cold start (log 2), the settling
count at 0 (log 18), no captured response and no acknowledgement after keep-domain power-up (log 19), and
the values that an unpowered domain's state stands at (logs 3 and 4). -/
def Obligations.ColdStartKeepPowerAndCellLow : Prop :=
  (∀ (s : State) (mv : Nat) (cut : WriteCut), s.supplyState = .dead → 2000 ≤ mv →
    exec (.railJudgementChange .vcell mv cut) s =
      .next { s with supply := { s.supply with vcell := { mv := mv, good := true },
                                               cellLow := decide (mv < 2500) },
                     cal := { osc := .stopped, settle := 0, prescaler := 0,
                              now := { day := 0, second := 0 }, timeLost := true, epoch := 0,
                              rollover := 0, alarms := [], fired := [], overflow := false,
                              wakePending := false },
                     batteryLost := true, sram := [] }) ∧
  (∀ (s : State) (mv : Nat) (cut : WriteCut), s.supplyState = .dead → 2600 < mv →
    exec (.railJudgementChange .vkeep mv cut) s =
      .next { s with supply := { s.supply with vkeep := { mv := mv, good := true },
                                               cellLow := decide (s.supply.vcell.mv < 2500) },
                     cal := { osc := .stopped, settle := 0, prescaler := 0,
                              now := { day := 0, second := 0 }, timeLost := true, epoch := 0,
                              rollover := 0, alarms := [], fired := [], overflow := false,
                              wakePending := false },
                     batteryLost := true, sram := [],
                     link := { target := .idle, selected := none, cap := .full, quiesce := .none,
                               response := [], ack := false } }) ∧
  (∀ (s : State) (mv : Nat) (cut : WriteCut), s.supplyState = .backup → 2600 < mv →
    exec (.railJudgementChange .vkeep mv cut) s =
      .next { s with supply := { s.supply with vkeep := { mv := mv, good := true } },
                     link := { target := .idle, selected := none, cap := .full, quiesce := .none,
                               response := [], ack := false } }) ∧
  (∀ (s : State) (mv : Nat) (cut : WriteCut), s.supplyState = .standby → s.supply.vcell.good = true →
    mv < 2400 →
    ∃ t, exec (.railJudgementChange .vkeep mv cut) s = .next t ∧ t.supplyState = .backup ∧
      t.wak = none ∧
      t = { s with supply := { s.supply with vkeep := { mv := mv, good := false } },
                   link := { target := .idle, selected := none, cap := .full, quiesce := .none,
                             response := [], ack := false } }) ∧
  (∀ (s : State) (rail : Rail) (mv : Nat) (cut : WriteCut) (sup : Supply),
    (s.supplyState = .full ∧ s.supply.vkeep.good = false ∧ s.supply.vcell.good = false ∧
        rail = .vcart ∧ mv < 2700 ∧ sup = { s.supply with vcart := { mv := mv, good := false } } ∨
      s.supplyState = .standby ∧ s.supply.vcell.good = false ∧ rail = .vkeep ∧ mv < 2400 ∧
        sup = { s.supply with vkeep := { mv := mv, good := false } } ∨
      s.supplyState = .backup ∧ rail = .vcell ∧ mv < 2000 ∧
        sup = { s.supply with vcell := { mv := mv, good := false } }) →
    exec (.railJudgementChange rail mv cut) s =
      .next { s with supply := sup,
                     cal := { osc := .stopped, settle := 0, prescaler := 0,
                              now := { day := 0, second := 0 }, timeLost := true, epoch := 0,
                              rollover := 0, alarms := [], fired := [], overflow := false,
                              wakePending := false },
                     batteryLost := true, sram := [],
                     link := { target := .idle, selected := none, cap := .full, quiesce := .none,
                               response := [], ack := false },
                     port := .reset, store := { Store.reset with status := .off, op := .none },
                     sound := .reset, rumble := .reset }) ∧
  ∀ (s : State) (mv : Nat), s.supplyState ≠ .dead → s.supply.vcell.good = decide (2000 ≤ mv) →
    exec (.cellLowChange mv) s =
      .next { s with supply := { s.supply with vcell := { s.supply.vcell with mv := mv },
                                               cellLow := decide (mv < 2500) } }

/-! ## The calendar -/

/-- R52, R53, R54, R56, R61: what a crystal edge does in each oscillator state, what the detector window
does, the end of settling, and a second event with no alarm due at the new time: the prescaler returns to 0,
the count rises by one second, across midnight and across the end of the count, where TimeLost is set, and
nothing else changes. A second event at a prescaler below 32767, as a SET_CALENDAR leaves it, does not
happen. That one edge counts as one cycle is log 30; that the end of settling and the second event are
commands of their own is log 7. -/
def Obligations.CountingPath : Prop :=
  (∀ s : State, s.supplyState ≠ .dead → s.cal.osc = .stopped →
    exec .crystalEdge s = .next { s with cal := { s.cal with osc := .settling, settle := 0 } }) ∧
  (∀ (s : State) (h : s.cal.settle.val + 1 < 2048), s.supplyState ≠ .dead → s.cal.osc = .settling →
    exec .crystalEdge s =
      .next { s with cal := { s.cal with settle := ⟨s.cal.settle.val + 1, h⟩ } }) ∧
  (∀ s : State, s.supplyState ≠ .dead → s.cal.osc = .settling → s.cal.settle.val + 1 = 2048 →
    exec .crystalEdge s = .next { s with cal := { s.cal with osc := .running, settle := 0 } }) ∧
  (∀ (s : State) (h : s.cal.prescaler.val + 1 < 32768), s.supplyState ≠ .dead →
    s.cal.osc = .running →
    exec .crystalEdge s =
      .next { s with cal := { s.cal with prescaler := ⟨s.cal.prescaler.val + 1, h⟩ } }) ∧
  (∀ s : State, s.supplyState ≠ .dead → s.cal.osc = .running → s.cal.prescaler.val = 32767 →
    exec .crystalEdge s = exec .secondEvent s) ∧
  (∀ s : State, s.supplyState ≠ .dead → s.cal.osc ≠ .stopped →
    exec .detectorWindowExpiry s =
      .next { s with cal := { s.cal with osc := .stopped, settle := 0, timeLost := true } }) ∧
  (∀ s : State, s.supplyState ≠ .dead → s.cal.osc = .stopped →
    exec .detectorWindowExpiry s = .next s) ∧
  (∀ s : State, s.supplyState ≠ .dead → s.cal.osc = .settling → s.cal.settle.val = 2047 →
    exec .settlingComplete s = .next { s with cal := { s.cal with osc := .running, settle := 0 } }) ∧
  (∀ s : State, (s.supplyState = .dead ∨ s.cal.osc ≠ .settling ∨ s.cal.settle.val ≠ 2047) →
    exec .settlingComplete s = .next s) ∧
  (∀ s : State, (s.supplyState = .dead ∨ s.cal.osc ≠ .running ∨ s.cal.prescaler.val ≠ 32767) →
    exec .secondEvent s = .next s) ∧
  (∀ (s : State) (h : s.cal.now.second.val + 1 < 86400), s.supplyState ≠ .dead → s.cal.osc = .running →
    s.cal.prescaler.val = 32767 →
    (∀ a ∈ s.cal.alarms.head?, a.due.later ⟨s.cal.now.day, ⟨s.cal.now.second.val + 1, h⟩⟩ = true) →
    exec .secondEvent s =
      .next { s with cal := { s.cal with prescaler := 0,
                                         now := ⟨s.cal.now.day, ⟨s.cal.now.second.val + 1, h⟩⟩ } }) ∧
  (∀ (s : State) (h : s.cal.now.day.val + 1 < 65536), s.supplyState ≠ .dead → s.cal.osc = .running →
    s.cal.prescaler.val = 32767 → s.cal.now.second.val = 86399 →
    (∀ a ∈ s.cal.alarms.head?, a.due.later ⟨⟨s.cal.now.day.val + 1, h⟩, 0⟩ = true) →
    exec .secondEvent s =
      .next { s with cal := { s.cal with prescaler := 0, now := ⟨⟨s.cal.now.day.val + 1, h⟩, 0⟩ } }) ∧
  ∀ s : State, s.supplyState ≠ .dead → s.cal.osc = .running → s.cal.prescaler.val = 32767 →
    s.cal.now.second.val = 86399 → s.cal.now.day.val = 65535 →
    (∀ a ∈ s.cal.alarms.head?, a.due.later ⟨0, 0⟩ = true) →
    exec .secondEvent s =
      .next { s with cal := { s.cal with prescaler := 0, now := ⟨0, 0⟩, timeLost := true } }

/-- R72, R74, R75, R76, R77, R66: one application of the firing rule at a second event. The entries due by
the new time fire in table order: their records, with the fields of TABLE 4-2, join the fired list, those
past 16 are dropped and set the overflow flag; the table keeps the entries not yet due and takes back each
repeating one at its next due time; in Full the sound engine and the rumble unit are as the cue and play
requests of the fired entries leave them, in firing order; outside Full they see nothing and a wake flag
sets wake-pending. The second event as a command of its own is log 7. -/
def Obligations.FiringRule : Prop :=
  (∀ (s : State) (now : CalTime) (due : List Alarm), s.supplyState ≠ .dead → s.cal.osc = .running →
    s.cal.prescaler.val = 32767 → s.cal.lawful → now = s.cal.now.advance.1 →
    due = dueBy s.cal.alarms now →
    ∃ t, exec .secondEvent s = .next t ∧ t.cal.now = now ∧ t.cal.prescaler = 0 ∧
      t.cal.timeLost = (s.cal.timeLost || s.cal.now.advance.2) ∧
      t.cal.fired = (s.cal.fired ++ due.map fun a => firedRecord a now s.supplyState).take 16 ∧
      t.cal.overflow = (s.cal.overflow || decide (16 < s.cal.fired.length + due.length)) ∧
      (∀ a ∈ t.cal.alarms, a.due.later now = true) ∧
      t.cal.alarms.Pairwise (fun a b => a.due.later b.due = false) ∧
      t.cal.alarms = takenBack due now (s.cal.alarms.drop due.length) ∧
      t.cal.wakePending =
        (s.cal.wakePending || (decide (s.supplyState ≠ .full) && due.any fun a => a.wake)) ∧
      t.cal.osc = s.cal.osc ∧ t.cal.settle = s.cal.settle ∧ t.cal.epoch = s.cal.epoch ∧
      t.cal.rollover = s.cal.rollover ∧ t.supply = s.supply ∧ t.msns = s.msns ∧
      t.batteryLost = s.batteryLost ∧ t.sram = s.sram ∧ t.link = s.link ∧ t.port = s.port ∧
      t.store = s.store ∧ (s.supplyState ≠ .full → t.sound = s.sound ∧ t.rumble = s.rumble) ∧
      (s.supplyState = .full → t.sound = (s.commands (due.flatMap Alarm.actions)).sound ∧
        t.rumble = (s.commands (due.flatMap Alarm.actions)).rumble)) ∧
  ∀ (a : Alarm) (now : CalTime) (st : SupplyState), firedRecord a now st =
    { id := a.id, owner := a.owner, tag := a.tag, due := a.due, missed := missedCount a now, supply := st,
      delivered := decide (st = .full), wake := a.wake, rearmed := (nextDue a now).isSome }

/-- R73: the next due time of a repeating entry is the due time plus the least whole number, at least 1,
of intervals that is later than now, where that is a calendar time; the missed count is the number of
intervals passed, held at 255; a once-only entry has neither. A calendar time is later than another exactly
when its position in seconds is greater. -/
def Obligations.RepeatArithmetic : Prop :=
  (∀ a b : CalTime, a.later b = true ↔ b.pos < a.pos) ∧
  (∀ t : CalTime, t.pos = t.day.val * 86400 + t.second.val) ∧
  (∀ (a : Alarm) (now : CalTime), a.every ≠ 0 → a.due.later now = false →
    ∃ k, 1 ≤ k ∧ now.pos < a.due.pos + k * (60 * a.every.toNat) ∧
      (∀ j, 1 ≤ j → now.pos < a.due.pos + j * (60 * a.every.toNat) → k ≤ j) ∧
      (a.due.pos + k * (60 * a.every.toNat) ≤ 5662310399 →
        ∃ d, nextDue a now = some d ∧ d.pos = a.due.pos + k * (60 * a.every.toNat)) ∧
      (5662310399 < a.due.pos + k * (60 * a.every.toNat) → nextDue a now = none) ∧
      (missedCount a now).toNat = min 255 (k - 1)) ∧
  ∀ (a : Alarm) (now : CalTime), a.every = 0 → nextDue a now = none ∧ missedCount a now = 0

/-- R60, R57, R56, R72, R76: SET_CALENDAR. A second out of range gives BAD_ARG and changes nothing else; a
set that passes takes the time, restarts the prescaler, clears TimeLost unless the oscillator is Stopped,
raises the epoch up to 65535, fires every alarm due by then and ends OK with their number: the records join
the fired list, the repeating entries go back into the table, and the actions reach the sound engine and the
rumble unit in firing order. -/
def Obligations.SetCalendar : Prop :=
  (∀ (s : State) (v : Word) (b : Block), s.offered .calendar 2 4 v b → 86400 ≤ s.arg32 b 8 →
    exec (.setCalendar v) s = .next ((s.accepted .calendar b).terminate .calendar b (.refuse .badArg))) ∧
  ∀ (s : State) (v : Word) (b : Block) (second : Fin 86400) (now : CalTime) (due : List Alarm),
    s.offered .calendar 2 4 v b → s.arg32 b 8 = second.val →
    now = ⟨Fin.ofNat 65536 (s.arg16 b 4), second⟩ → due = dueBy s.cal.alarms now → s.cal.lawful →
    ∃ u : State, exec (.setCalendar v) s = .next (u.terminate .calendar b (.ok due.length)) ∧
      u.cal.now = now ∧ u.cal.prescaler = 0 ∧
      u.cal.timeLost = (decide (s.cal.osc = .stopped) && s.cal.timeLost) ∧
      u.cal.epoch.val = min 65535 (s.cal.epoch.val + 1) ∧ u.cal.osc = s.cal.osc ∧
      u.cal.settle = s.cal.settle ∧ u.cal.rollover = s.cal.rollover ∧
      u.cal.wakePending = s.cal.wakePending ∧
      u.cal.fired = (s.cal.fired ++ due.map fun a => firedRecord a now .full).take 16 ∧
      u.cal.overflow = (s.cal.overflow || decide (16 < s.cal.fired.length + due.length)) ∧
      (∀ a ∈ u.cal.alarms, a.due.later now = true) ∧
      u.cal.alarms = takenBack due now (s.cal.alarms.drop due.length) ∧
      u.port = (s.accepted .calendar b).port ∧ u.store = s.store ∧ u.link = s.link ∧
      u.supply = s.supply ∧ u.sram = s.sram ∧
      u.sound = (s.commands (due.flatMap Alarm.actions)).sound ∧
      u.rumble = (s.commands (due.flatMap Alarm.actions)).rumble

/-- R62, R59, R58: SET_ROLLOVER writes the rollover second, or gives BAD_ARG and changes nothing else;
READ_CALENDAR returns the day, the game day formed by R58, the second, the rollover second, the epoch,
TimeLost, CellLow and the oscillator state, and changes no state of the calendar; a standby CAL read forms
the game day under the rollover second in force too. -/
def Obligations.RolloverAndReadCalendar : Prop :=
  (∀ (s : State) (v : Word) (b : Block) (second : Fin 86400), s.offered .calendar 3 3 v b →
    s.arg32 b 4 = second.val →
    exec (.setRollover v) s =
      .next (({ s.accepted .calendar b with cal := { s.cal with rollover := second } } : State).terminate
        .calendar b (.ok 0))) ∧
  (∀ (s : State) (v : Word) (b : Block), s.offered .calendar 3 3 v b → 86400 ≤ s.arg32 b 4 →
    exec (.setRollover v) s =
      .next ((s.accepted .calendar b).terminate .calendar b (.refuse .badArg))) ∧
  (∀ (s : State) (v : Word) (b : Block), s.offered .calendar 1 6 v b →
    exec (.readCalendar v) s =
      .next (((s.accepted .calendar b).putRam (b.off + 4)
        (bytes16 s.cal.now.day.val ++
          bytes16 (if s.cal.rollover ≤ s.cal.now.second then s.cal.now.day.val
            else if 0 < s.cal.now.day.val then s.cal.now.day.val - 1 else 0) ++
          bytes32 s.cal.now.second.val ++ bytes32 s.cal.rollover.val ++ bytes16 s.cal.epoch.val ++
          [bitsByte [s.cal.timeLost, s.supply.cellLow],
           match s.cal.osc with
           | .running => 0
           | .stopped => 1
           | .settling => 2])).terminate .calendar b (.ok 0))) ∧
  ∀ s : State, s.calResponse =
    bytes16 s.cal.now.day.val ++ bytes32 s.cal.now.second.val ++
      bytes16 (if s.cal.rollover ≤ s.cal.now.second then s.cal.now.day.val
        else if 0 < s.cal.now.day.val then s.cal.now.day.val - 1 else 0) ++
      bytes16 s.cal.epoch.val

/-- R68, R66, R67, TABLE 11-7: ADD_ALARM's checks in order, the first of them that the sixteen bytes state an
alarm with every field in range (`State.alarmIs`), and an add that passes: the entry with the lowest free id
joins the table after every entry due no later and before the first due later, and the id is returned. The
count 0 of a refusal by these checks is the model's choice (log 32). -/
def Obligations.AddAlarm : Prop :=
  (∀ (s : State) (x : Nat) (id : Fin 32) (a : Alarm),
    s.alarmAt x id = some a ↔ a.id = id ∧ s.alarmIs x a) ∧
  (∀ (s : State) (v : Word) (b : Block), s.offered .calendar 4 6 v b →
    s.alarmAt (b.off + 4) 0 = none →
    exec (.addAlarm v) s = .next ((s.accepted .calendar b).terminate .calendar b (.refuse .badArg))) ∧
  (∀ (s : State) (v : Word) (b : Block) (a : Alarm), s.offered .calendar 4 6 v b →
    s.alarmAt (b.off + 4) 0 = some a → s.store.live.getLsbD a.owner.val = false →
    exec (.addAlarm v) s = .next ((s.accepted .calendar b).terminate .calendar b (.refuse .noFile))) ∧
  (∀ (s : State) (v : Word) (b : Block) (a : Alarm), s.offered .calendar 4 6 v b →
    s.alarmAt (b.off + 4) 0 = some a → s.store.live.getLsbD a.owner.val = true →
    a.due.later s.cal.now = false →
    exec (.addAlarm v) s = .next ((s.accepted .calendar b).terminate .calendar b (.refuse .badArg))) ∧
  (∀ (s : State) (v : Word) (b : Block) (a : Alarm), s.offered .calendar 4 6 v b →
    s.alarmAt (b.off + 4) 0 = some a → s.store.live.getLsbD a.owner.val = true →
    a.due.later s.cal.now = true → 32 ≤ s.cal.alarms.length →
    exec (.addAlarm v) s =
      .next ((s.accepted .calendar b).terminate .calendar b (.refuse .tableFull))) ∧
  ∀ (s : State) (v : Word) (b : Block) (a : Alarm) (id : Fin 32), s.offered .calendar 4 6 v b →
    s.alarmAt (b.off + 4) 0 = some a → s.store.live.getLsbD a.owner.val = true →
    a.due.later s.cal.now = true → s.cal.alarms.length < 32 →
    (∀ x ∈ s.cal.alarms, x.id ≠ id) → (∀ j, j < id → ∃ x ∈ s.cal.alarms, x.id = j) →
    exec (.addAlarm v) s =
      .next ((({ s.accepted .calendar b with
          cal := { s.cal with alarms := placed { a with id := id } s.cal.alarms } } : State).putRam
        (b.off + 4) [byteOf id.val]).terminate .calendar b (.ok 0))

/-- R70, R71, R149: REMOVE_ALARM removes the entry that carries the id and names the owner; out-of-range
fields give BAD_ARG and a miss NO_ALARM, each changing nothing else. LIST_ALARMS writes every entry in table
order, as the sixteen bytes of TABLE 11-7, into the buffer and ends OK with their number; a buffer that breaks
the buffer rules gives BAD_ARG; no state of the calendar changes. The count 0 of the refusals of both is the
model's choice (log 32). -/
def Obligations.RemoveAndListAlarms : Prop :=
  (∀ a : Alarm, a.bytes = [BitVec.ofNat 8 a.id.val, BitVec.ofNat 8 a.owner.val] ++
    bytes16 a.due.day.val ++ bytes32 a.due.second.val ++ bytes16 a.every.toNat ++ bytes16 a.tag.toNat ++
    [BitVec.ofNat 8 (a.wake.toNat + 2 * a.cue.isSome.toNat + 4 * a.rumble.isSome.toNat),
     match a.cue with
     | some slot => BitVec.ofNat 8 slot.val
     | none => 0] ++
    match a.rumble with
    | some r => [BitVec.ofNat 8 r.pattern.val, BitVec.ofNat 8 r.priority.val]
    | none => [0, 0]) ∧
  (∀ (s : State) (v : Word) (b : Block), s.offered .calendar 5 3 v b →
    (32 ≤ s.arg8 b 4 ∨ 16 ≤ s.arg8 b 5) →
    exec (.removeAlarm v) s = .next ((s.accepted .calendar b).terminate .calendar b (.refuse .badArg))) ∧
  (∀ (s : State) (v : Word) (b : Block), s.offered .calendar 5 3 v b → s.arg8 b 4 < 32 →
    s.arg8 b 5 < 16 → (∀ a ∈ s.cal.alarms, ¬ (a.id.val = s.arg8 b 4 ∧ a.owner.val = s.arg8 b 5)) →
    exec (.removeAlarm v) s = .next ((s.accepted .calendar b).terminate .calendar b (.refuse .noAlarm))) ∧
  (∀ (s : State) (v : Word) (b : Block) (a : Alarm), s.offered .calendar 5 3 v b → a ∈ s.cal.alarms →
    a.id.val = s.arg8 b 4 → a.owner.val = s.arg8 b 5 →
    exec (.removeAlarm v) s =
      .next (({ s.accepted .calendar b with
          cal := { s.cal with alarms := s.cal.alarms.filter fun x => decide (x.id ≠ a.id) } } :
        State).terminate .calendar b (.ok 0))) ∧
  (∀ (s : State) (v : Word) (b : Block), s.offered .calendar 6 3 v b → s.arg16 b 4 + 512 ≤ 4096 →
    (s.arg16 b 4 + 512 ≤ b.off ∨ b.off + 4 * b.words ≤ s.arg16 b 4) →
    exec (.listAlarms v) s =
      .next (((s.accepted .calendar b).putRam (s.arg16 b 4)
        (s.cal.alarms.map Alarm.bytes).flatten).terminate .calendar b (.ok s.cal.alarms.length))) ∧
  ∀ (s : State) (v : Word) (b : Block), s.offered .calendar 6 3 v b →
    (4096 < s.arg16 b 4 + 512 ∨ (b.off < s.arg16 b 4 + 512 ∧ s.arg16 b 4 < b.off + 4 * b.words)) →
    exec (.listAlarms v) s = .next ((s.accepted .calendar b).terminate .calendar b (.refuse .badArg))

/-- R80: TAKE_FIRED removes the oldest records up to the maximum, writes them into the buffer, each as the
sixteen bytes of TABLE 11-9 (a record formed in Dead, which no firing makes, as code 3), reports
the records left and the overflow flag as it stood, and clears the flag when the list is left empty. The
count 0 of a refusal by its own checks is the model's choice (log 32). -/
def Obligations.TakeFired : Prop :=
  (∀ f : Fired, f.bytes = [BitVec.ofNat 8 f.id.val, BitVec.ofNat 8 f.owner.val] ++ bytes16 f.tag.toNat ++
    bytes16 f.due.day.val ++
    [f.missed, match f.supply with
      | .full => 0
      | .standby => 1
      | .backup => 2
      | .dead => 3] ++
    bytes32 f.due.second.val ++
    [BitVec.ofNat 8 (f.delivered.toNat + 2 * f.wake.toNat + 4 * f.rearmed.toNat), 0, 0, 0]) ∧
  (∀ (s : State) (v : Word) (b : Block), s.offered .calendar 7 4 v b →
    (s.arg8 b 6 = 0 ∨ 16 < s.arg8 b 6 ∨ 4096 < s.arg16 b 4 + s.arg8 b 6 * 16 ∨
      (b.off < s.arg16 b 4 + s.arg8 b 6 * 16 ∧ s.arg16 b 4 < b.off + 4 * b.words)) →
    exec (.takeFired v) s = .next ((s.accepted .calendar b).terminate .calendar b (.refuse .badArg))) ∧
  ∀ (s : State) (v : Word) (b : Block) (n : Nat), s.offered .calendar 7 4 v b → n = s.arg8 b 6 →
    1 ≤ n → n ≤ 16 → s.arg16 b 4 + n * 16 ≤ 4096 →
    (s.arg16 b 4 + n * 16 ≤ b.off ∨ b.off + 4 * b.words ≤ s.arg16 b 4) →
    exec (.takeFired v) s =
      .next (((({ s.accepted .calendar b with
          cal := { s.cal with fired := s.cal.fired.drop n,
                              overflow := s.cal.overflow && decide (n < s.cal.fired.length) } } :
        State).putRam (s.arg16 b 4) ((s.cal.fired.take n).map Fired.bytes).flatten).putRam (b.off + 8)
          [byteOf (s.cal.fired.length - n), flagByte s.cal.overflow, 0, 0]).terminate .calendar b
        (.ok (min n s.cal.fired.length)))

/-- R83, R84: a purge removes from the alarm table every entry of the file, or every entry whose owner is
not Live, keeps the others in order, touches neither the fired list nor wake-pending, and sends the number
removed; with no purge request under way nothing happens (log 5). -/
def Obligations.Purge : Prop :=
  (∀ (s : State) (f : FileNo), s.store.purgeReq = some (.file f) →
    exec .purgeRequest s =
      .next { s with
        cal := { s.cal with alarms := s.cal.alarms.filter fun a => decide (a.owner ≠ f) },
        store := { s.store with
          purgeReq := none,
          purgeReply := some (s.cal.alarms.filter fun a => decide (a.owner = f)).length } }) ∧
  (∀ s : State, s.store.purgeReq = some .allNotLive →
    exec .purgeRequest s =
      .next { s with
        cal := { s.cal with alarms := s.cal.alarms.filter fun a => s.store.live.getLsbD a.owner.val },
        store := { s.store with
          purgeReq := none,
          purgeReply := some (s.cal.alarms.filter fun a => !s.store.live.getLsbD a.owner.val).length } }) ∧
  ∀ s : State, s.store.purgeReq = none → exec .purgeRequest s = .next s

/-! ## The save store: taking a block, status and entry reads -/

/-- R27, R148: the general checks, in order. A store block is terminated BAD_OP for an operation code
that is none of the eight, then BAD_ARG for a block shorter than the request needs, then QUIESCED while
the store is held under its hold, except READ_ENTRY and READ_STORE_STATUS; the other three cells give
BAD_OP and BAD_ARG in the same way. Nothing else changes. In Scanning a store block waits; in another state
it starts at its event (`State.startStore`), as a block that waited does at the end of the scan. The operation
code is the block's first byte and its length in words the second, read at the offset that the value's low
12 bits give; arguments lie low byte first (TABLE 11-1). -/
def Obligations.GeneralChecks : Prop :=
  (∀ (s : State) (v : Word), s.blockAt v =
    { off := v.toNat % 4096, words := (s.ramByte (v.toNat % 4096 + 1)).toNat }) ∧
  (∀ (s : State) (b : Block) (k x : Nat), x = b.off + k →
    s.opcode b = (s.ramByte b.off).toNat ∧ s.arg8 b k = (s.ramByte x).toNat ∧
      s.arg16 b k = (s.ramByte x).toNat + 256 * (s.ramByte (x + 1)).toNat ∧
      s.arg32 b k = (s.ramByte x).toNat + 256 * (s.ramByte (x + 1)).toNat +
        65536 * (s.ramByte (x + 2)).toNat + 16777216 * (s.ramByte (x + 3)).toNat) ∧
  (∀ (s : State) (v : Word) (b : Block), s.canTake .store v b → s.store.status ≠ .scanning →
    (s.opcode b = 0 ∨ 8 < s.opcode b) →
    exec (.blockOffer .store v) s = .next ((s.accepted .store b).terminate .store b (.refuse .badOp))) ∧
  (∀ (s : State) (v : Word) (b : Block), s.canTake .store v b → s.store.status ≠ .scanning →
    1 ≤ s.opcode b → s.opcode b ≤ 8 →
    b.words < ([0, 9, 4, 4, 3, 3, 4, 2, 6].getD (s.opcode b) 0) →
    exec (.blockOffer .store v) s = .next ((s.accepted .store b).terminate .store b (.refuse .badArg))) ∧
  (∀ (s : State) (v : Word) (b : Block), s.canTake .store v b → s.store.status ≠ .scanning →
    1 < s.opcode b → s.opcode b < 8 →
    [0, 9, 4, 4, 3, 3, 4, 2, 6].getD (s.opcode b) 0 ≤ b.words → s.store.hold = true →
    (s.store.status = .quiesced ∨ s.store.status = .unformatted ∧ s.store.op = .none) →
    exec (.blockOffer .store v) s =
      .next ((s.accepted .store b).terminate .store b (.refuse .quiesced))) ∧
  (∀ (s : State) (v : Word) (b : Block), s.canTake .store v b → s.store.status = .scanning →
    exec (.blockOffer .store v) s =
      .next { s.accepted .store b with store := { s.store with waiting := some b } }) ∧
  (∀ (s : State) (v : Word) (b : Block), s.canTake .store v b → s.store.status ≠ .scanning →
    exec (.blockOffer .store v) s = .next ((s.accepted .store b).startStore b)) ∧
  (∀ (s : State) (v : Word) (b : Block), s.canTake .calendar v b →
    (s.opcode b = 0 ∨ 7 < s.opcode b) →
    exec (.blockOffer .calendar v) s =
      .next ((s.accepted .calendar b).terminate .calendar b (.refuse .badOp))) ∧
  (∀ (s : State) (v : Word) (b : Block), s.canTake .calendar v b → 1 ≤ s.opcode b → s.opcode b ≤ 7 →
    b.words < [0, 6, 4, 3, 6, 3, 3, 4].getD (s.opcode b) 0 →
    exec (.blockOffer .calendar v) s =
      .next ((s.accepted .calendar b).terminate .calendar b (.refuse .badArg))) ∧
  (∀ (s : State) (v : Word) (b : Block), s.canTake .sound v b →
    (s.opcode b = 0 ∨ 12 < s.opcode b) →
    exec (.blockOffer .sound v) s = .next ((s.accepted .sound b).terminate .sound b (.refuse .badOp))) ∧
  (∀ (s : State) (v : Word) (b : Block), s.canTake .sound v b → 1 ≤ s.opcode b → s.opcode b ≤ 12 →
    b.words < [0, 3 + s.arg8 b 4, 2, 3, 2, 3, 3, 2, 3, 3 + 2 * s.arg8 b 4, 3 + 2 * s.arg8 b 5, 3,
      6].getD (s.opcode b) 0 →
    exec (.blockOffer .sound v) s = .next ((s.accepted .sound b).terminate .sound b (.refuse .badArg))) ∧
  (∀ (s : State) (v : Word) (b : Block), s.canTake .rumble v b →
    (s.opcode b = 0 ∨ 6 < s.opcode b) →
    exec (.blockOffer .rumble v) s =
      .next ((s.accepted .rumble b).terminate .rumble b (.refuse .badOp))) ∧
  ∀ (s : State) (v : Word) (b : Block), s.canTake .rumble v b → 1 ≤ s.opcode b → s.opcode b ≤ 6 →
    b.words < [0, 4, 3 + (s.arg8 b 7 + 1) / 2, 3, 2, 2, 15].getD (s.opcode b) 0 →
    exec (.blockOffer .rumble v) s =
      .next ((s.accepted .rumble b).terminate .rumble b (.refuse .badArg))

/-- R30, R31: READ_ENTRY returns the entry as the engine last wrote it, the days since the commit under
the rollover second in force, and the three flags; it is taken in Ready and while held. Its refusals:
BAD_ARG, UNFORMATTED, NO_FILE. -/
def Obligations.ReadEntry : Prop :=
  (∀ (rollover : Fin 86400) (t : CalTime), gameDay rollover t =
    gameDayOf rollover.val t.day.val t.second.val) ∧
  (∀ rollover day second : Nat, gameDayOf rollover day second =
    if rollover ≤ second then day else if 0 < day then day - 1 else 0) ∧
  (∀ (s : State) (v : Word) (b : Block) (f : FileNo) (e : Entry) (d : Int),
    s.offered .store 1 9 v b → s.store.status = .ready ∨ s.store.status = .quiesced →
    s.arg8 b 4 = f.val → e = s.store.dir[f] → e.live = true →
    d = (gameDay s.cal.rollover s.cal.now : Int) -
      (gameDayOf s.cal.rollover.val e.day.toNat e.second.toNat : Int) →
    exec (.readEntry v) s =
      .next (((s.accepted .store b).putRam (b.off + 8)
        ([1, flagByte e.damaged, e.protect, e.pageCount] ++ bytes16 e.length.toNat ++
          bytes16 e.root.toNat ++ bytes16 e.gen.toNat ++ bytes16 e.day.toNat ++
          bytes32 e.second.toNat ++ bytes16 e.epoch.toNat ++ bytes16 d.toNat ++
          [bitsByte [decide (d < 0), decide (e.epoch.toNat ≠ s.cal.epoch.val), s.cal.timeLost],
            0, 0, 0])).terminate .store b (.ok d.toNat))) ∧
  (∀ (s : State) (v : Word) (b : Block), s.offered .store 1 9 v b → s.store.status ≠ .scanning →
    16 ≤ s.arg8 b 4 →
    exec (.readEntry v) s = .next ((s.accepted .store b).terminate .store b (.refuse .badArg))) ∧
  (∀ (s : State) (v : Word) (b : Block), s.offered .store 1 9 v b → s.store.status = .unformatted →
    s.arg8 b 4 < 16 →
    exec (.readEntry v) s = .next ((s.accepted .store b).terminate .store b (.refuse .unformatted))) ∧
  ∀ (s : State) (v : Word) (b : Block) (f : FileNo), s.offered .store 1 9 v b →
    s.store.status = .ready ∨ s.store.status = .quiesced → s.arg8 b 4 = f.val →
    s.store.dir[f].live = false →
    exec (.readEntry v) s = .next ((s.accepted .store b).terminate .store b (.refuse .noFile))

/-- R46, R120, R139: the three status requests. Each returns its fields, ends OK, and clears what it
reports: the StoreDamaged flag; the CueDropped flag; the outcome list and the CapChanged flag. The codes are
those of TABLE 11-3, 11-5, 11-6, 11-9 and 11-10, an outcome record four bytes. -/
def Obligations.StatusReads : Prop :=
  (∀ st : StoreState, st.code = match st with
    | .off => 0
    | .scanning => 1
    | .unformatted => 2
    | .ready => 3
    | .busy => 4
    | .quiesced => 5) ∧
  (∀ k : ScanKind, k.code = match k with
    | .clean => 0
    | .rolledForward => 1
    | .rolledBack => 2) ∧
  (∀ e : EngineState, e.code = match e with
    | .stopped => 0
    | .running => 1
    | .muting => 2
    | .held => 3) ∧
  (∀ d : DropReason, d.code = match d with
    | .emptySlot => 0
    | .notRunning => 1
    | .queueFull => 2) ∧
  (∀ r : RumbleState, r.code = match r with
    | .idle => 0
    | .playing => 1
    | .tripped => 2
    | .held => 3) ∧
  (∀ c : Cap, c.code = match c with
    | .full => 0
    | .lowOnly => 1
    | .off => 2) ∧
  (∀ x : PlaySource, x.code = match x with
    | .console => 0
    | .alarm => 1) ∧
  (∀ r : Rumble, r.state = if r.hold then .held else if r.trip then .tripped
    else if r.current = none then .idle else .playing) ∧
  (∀ r : Rumble, r.outcomeBytes = (r.outcomes.map fun o =>
    [BitVec.ofNat 8 o.pattern.val, o.source.code, (match o.kind with
      | .completed => 0
      | .preempted => 1
      | .evicted => 2
      | .dropped => 3
      | .beatLost => 4
      | .capped => 5
      | .tripped => 6
      | .quiesced => 7
      | .stopped => 8
      | .noPattern => 9), 0]).flatten ++ List.replicate (32 - 4 * r.outcomes.length) 0) ∧
  (∀ (s : State) (v : Word) (b : Block), s.offered .store 8 6 v b → s.store.status ≠ .scanning →
    exec (.readStoreStatus v) s =
      .next ((({ s.accepted .store b with store := { s.store with storeDamaged := false } } :
        State).putRam (b.off + 4)
          ([0, 0, 0, 0, s.store.status.code, flagByte (decide (24 ≤ s.store.bad.length))] ++
            bytes16 s.store.free.length ++ bytes16 s.store.bad.length ++
            bytes16 s.store.damagedNow.toNat ++ [s.store.last.kind.code, flagByte s.store.last.discard] ++
            bytes16 s.store.last.damaged.toNat)).terminate .store b (.ok 0))) ∧
  (∀ (s : State) (v : Word) (b : Block), s.offered .sound 12 6 v b →
    exec (.readSoundStatus v) s =
      .next ((({ s.accepted .sound b with sound := { s.sound with cueDropped := false } } :
        State).putRam (b.off + 4)
          ([s.sound.engine.code, flagByte s.sound.hold, byteOf s.sound.gain,
              byteOf s.sound.notes.length] ++ bytes16 s.sound.tempo ++ bytes16 s.sound.nextTempo ++
            bytes32 s.sound.beats.toNat ++
            match s.sound.lastDrop with
            | some d => [1, byteOf d.alarm.val, byteOf d.slot.val, d.reason.code]
            | none => [0, 0, 0, 0])).terminate .sound b (.ok 0))) ∧
  ∀ (s : State) (v : Word) (b : Block), s.offered .rumble 6 15 v b →
    exec (.readRumbleStatus v) s =
      .next ((({ s.accepted .rumble b with
          rumble := { s.rumble with outcomes := [], capChanged := false } } : State).putRam (b.off + 4)
        ([s.rumble.state.code, flagByte s.rumble.trip, flagByte s.rumble.hold, s.link.cap.code] ++
          (match s.rumble.current with
            | some c => [1, byteOf c.play.pattern.val, byteOf c.play.priority.val, c.play.source.code,
                byteOf c.step, byteOf c.reps, byteOf c.left]
            | none => [0, 0, 0, 0, 0, 0, 0]) ++
          [byteOf s.rumble.queue.length] ++ bytes16 s.rumble.active.modulus.num ++
          bytes16 s.rumble.active.low ++ bytes16 s.rumble.active.high ++
          [flagByte s.rumble.capChanged, byteOf s.rumble.outcomes.length] ++
          s.rumble.outcomeBytes)).terminate .rumble b (.ok s.rumble.outcomes.length))

/-! ## The save store: requests that take time -/

/-- R32, R42, R43, R15: READ_FILE, VERIFY_FILE and READ_RAW pass their checks and run: the arguments are
captured, the store is Busy (READ_RAW leaves Unformatted as it is) and the cell Busy; a READ_FILE of
length 0 ends OK at its start event, and so does a VERIFY_FILE of a file with no pages, which the model reads
into the spec (log 16). Their refusals, the first check that
fails giving the status: BAD_ARG for a field out of range, UNFORMATTED, NO_FILE, BAD_ARG for a range past
the file's end or a buffer that breaks the rules. -/
def Obligations.TransfersStart : Prop :=
  (∀ (s : State) (v : Word) (b : Block) (f : FileNo) (offset length buf : Nat),
    s.offered .store 2 4 v b → s.store.status = .ready → s.arg8 b 4 = f.val → s.arg16 b 6 = offset →
    s.arg16 b 8 = length → s.arg16 b 10 = buf → s.store.dir[f].live = true → offset ≤ 16384 →
    1 ≤ length → length ≤ 16384 → offset + length ≤ s.store.dir[f].length.toNat →
    buf + length ≤ 4096 → (buf + length ≤ b.off ∨ b.off + 4 * b.words ≤ buf) →
    exec (.readFile v) s =
      .next { s.accepted .store b with store := { s.store with
        status := .busy,
        op := .run { blk := b, abort := false, late := false }
          (.readFile f offset length buf 0 s.store.dir[f].root) } }) ∧
  (∀ (s : State) (v : Word) (b : Block) (f : FileNo), s.offered .store 2 4 v b →
    s.store.status = .ready → s.arg8 b 4 = f.val → s.arg16 b 8 = 0 → s.store.dir[f].live = true →
    s.arg16 b 6 ≤ s.store.dir[f].length.toNat → s.arg16 b 6 ≤ 16384 →
    exec (.readFile v) s = .next ((s.accepted .store b).terminate .store b (.ok 0))) ∧
  (∀ (s : State) (v : Word) (b : Block) (f : FileNo) (offset length buf : Nat) (e : Entry) (st : Status),
    s.offered .store 2 4 v b →
    (s.store.status = .ready ∨ s.store.status = .unformatted ∧ s.store.hold = false) →
    s.arg8 b 4 = f.val → s.arg16 b 6 = offset → s.arg16 b 8 = length → s.arg16 b 10 = buf →
    e = s.store.dir[f] →
    (16384 < offset ∨ 16384 < length ∨ s.store.status = .unformatted ∨ e.live = false ∨
      e.length.toNat < offset + length ∨
      length ≠ 0 ∧ (4096 < buf + length ∨ (b.off < buf + length ∧ buf < b.off + 4 * b.words))) →
    st = (if 16384 < offset ∨ 16384 < length then .badArg
      else if s.store.status = .unformatted then .unformatted
      else if e.live = false then .noFile else .badArg) →
    exec (.readFile v) s = .next ((s.accepted .store b).terminate .store b (.refuse st))) ∧
  (∀ (s : State) (v : Word) (b : Block), s.offered .store 2 4 v b →
    (s.store.status = .ready ∨ s.store.status = .unformatted ∧ s.store.hold = false) →
    16 ≤ s.arg8 b 4 →
    exec (.readFile v) s = .next ((s.accepted .store b).terminate .store b (.refuse .badArg))) ∧
  (∀ (s : State) (v : Word) (b : Block) (f : FileNo), s.offered .store 5 3 v b →
    s.store.status = .ready → s.arg8 b 4 = f.val → s.store.dir[f].live = true →
    exec (.verifyFile v) s =
      .next (if s.store.dir[f].pageCount = 0 then (s.accepted .store b).terminate .store b (.ok 0) else
        { s.accepted .store b with store := { s.store with
          status := .busy,
          op := .run { blk := b, abort := false, late := false }
            (.verify f 0 s.store.dir[f].root) } })) ∧
  (∀ (s : State) (v : Word) (b : Block) (f : FileNo) (st : Status), s.offered .store 5 3 v b →
    (s.store.status = .ready ∨ s.store.status = .unformatted ∧ s.store.hold = false) →
    s.arg8 b 4 = f.val → (s.store.status = .unformatted ∨ s.store.dir[f].live = false) →
    st = (if s.store.status = .unformatted then .unformatted else .noFile) →
    exec (.verifyFile v) s = .next ((s.accepted .store b).terminate .store b (.refuse st))) ∧
  (∀ (s : State) (v : Word) (b : Block), s.offered .store 5 3 v b →
    (s.store.status = .ready ∨ s.store.status = .unformatted ∧ s.store.hold = false) →
    16 ≤ s.arg8 b 4 →
    exec (.verifyFile v) s = .next ((s.accepted .store b).terminate .store b (.refuse .badArg))) ∧
  (∀ (s : State) (v : Word) (b : Block) (first count buf : Nat) (st : StoreState),
    s.offered .store 6 4 v b → s.store.hold = false →
    (s.store.status = .ready ∧ st = .busy ∨ s.store.status = .unformatted ∧ st = .unformatted) →
    s.arg16 b 4 = first → s.arg8 b 6 = count → s.arg16 b 8 = buf → 1 ≤ count → count ≤ 15 →
    first + count ≤ 480 → buf + 268 * count ≤ 4096 →
    (buf + 268 * count ≤ b.off ∨ b.off + 4 * b.words ≤ buf) →
    exec (.readRaw v) s =
      .next { s.accepted .store b with store := { s.store with
        status := st,
        op := .run { blk := b, abort := false, late := false } (.readRaw first count buf 0) } }) ∧
  ∀ (s : State) (v : Word) (b : Block) (first count buf : Nat), s.offered .store 6 4 v b →
    (s.store.status = .ready ∨ s.store.status = .unformatted ∧ s.store.hold = false) →
    s.arg16 b 4 = first → s.arg8 b 6 = count → s.arg16 b 8 = buf →
    (479 < first ∨ count = 0 ∨ 15 < count ∨ 480 < first + count ∨ 4096 < buf + 268 * count ∨
      (b.off < buf + 268 * count ∧ buf < b.off + 4 * b.words)) →
    exec (.readRaw v) s = .next ((s.accepted .store b).terminate .store b (.refuse .badArg))

/-- R34, R40, R44, R15: COMMIT_FILE, DELETE_FILE and FORMAT_STORE pass their checks and begin: a commit
with its generation fixed and its chunks to stage, or straight at the arming write for length 0; a delete
at its arming write; a format with the working state emptied and the store Unformatted. The refusals, the
first check that fails giving the status: of a commit BAD_ARG, UNFORMATTED, WORN, PROTECTED, BAD_ARG for the
length or the buffer, NO_SPACE; of a delete BAD_ARG, UNFORMATTED, NO_FILE, PROTECTED. -/
def Obligations.ChangesStart : Prop :=
  (∀ (s : State) (v : Word) (b : Block) (f : FileNo) (protect length buf : Nat),
    s.offered .store 3 4 v b → s.store.status = .ready → s.arg8 b 4 = f.val → s.arg8 b 5 = protect →
    s.arg16 b 6 = length → s.arg16 b 8 = buf → protect ≤ 15 → s.store.bad.length < 24 →
    (s.store.dir[f].live = true → s.store.dir[f].protect.toNat = protect) → length ≤ 16384 →
    (length = 0 ∨ buf + length ≤ 4096 ∧ (buf + length ≤ b.off ∨ b.off + 4 * b.words ≤ buf)) →
    (length + 255) / 256 ≤ s.store.free.length →
    exec (.commitFile v) s =
      .next { s.accepted .store b with store := { s.store with
        status := .busy,
        op := .run { blk := b, abort := false, late := false } (.commit
          { file := f, buf := buf, length := length, protect := byteOf protect,
            gen := if s.store.dir[f].live then
              (if s.store.dir[f].gen = 65535 then 1 else s.store.dir[f].gen + 1) else 1,
            staged := [], old := s.store.chains[f] }
          (if length = 0 then .arm else .staging ((length + 255) / 256 - 1))) } }) ∧
  (∀ (s : State) (v : Word) (b : Block) (f : FileNo) (protect length buf : Nat) (e : Entry) (st : Status),
    s.offered .store 3 4 v b →
    (s.store.status = .ready ∨ s.store.status = .unformatted ∧ s.store.hold = false) →
    s.arg8 b 4 = f.val → s.arg8 b 5 = protect → s.arg16 b 6 = length → s.arg16 b 8 = buf →
    e = s.store.dir[f] →
    (15 < protect ∨ s.store.status = .unformatted ∨ 24 ≤ s.store.bad.length ∨
      e.live = true ∧ e.protect.toNat ≠ protect ∨ 16384 < length ∨
      length ≠ 0 ∧ (4096 < buf + length ∨ (b.off < buf + length ∧ buf < b.off + 4 * b.words)) ∨
      s.store.free.length < (length + 255) / 256) →
    st = (if 15 < protect then .badArg else if s.store.status = .unformatted then .unformatted
      else if 24 ≤ s.store.bad.length then .worn
      else if e.live = true ∧ e.protect.toNat ≠ protect then .protected_
      else if 16384 < length ∨
        length ≠ 0 ∧ (4096 < buf + length ∨ (b.off < buf + length ∧ buf < b.off + 4 * b.words)) then
        .badArg
      else .noSpace) →
    exec (.commitFile v) s = .next ((s.accepted .store b).terminate .store b (.refuse st))) ∧
  (∀ (s : State) (v : Word) (b : Block), s.offered .store 3 4 v b →
    (s.store.status = .ready ∨ s.store.status = .unformatted ∧ s.store.hold = false) →
    16 ≤ s.arg8 b 4 →
    exec (.commitFile v) s = .next ((s.accepted .store b).terminate .store b (.refuse .badArg))) ∧
  (∀ (s : State) (v : Word) (b : Block) (f : FileNo), s.offered .store 4 3 v b →
    s.store.status = .ready → s.arg8 b 4 = f.val → s.arg8 b 5 ≤ 15 → s.store.dir[f].live = true →
    s.store.dir[f].protect.toNat = s.arg8 b 5 →
    exec (.deleteFile v) s =
      .next { s.accepted .store b with store := { s.store with
        status := .busy,
        op := .run { blk := b, abort := false, late := false } (.delete f .arm) } }) ∧
  (∀ (s : State) (v : Word) (b : Block) (f : FileNo) (e : Entry) (st : Status),
    s.offered .store 4 3 v b →
    (s.store.status = .ready ∨ s.store.status = .unformatted ∧ s.store.hold = false) →
    s.arg8 b 4 = f.val → e = s.store.dir[f] →
    (15 < s.arg8 b 5 ∨ s.store.status = .unformatted ∨ e.live = false ∨
      e.protect.toNat ≠ s.arg8 b 5) →
    st = (if 15 < s.arg8 b 5 then .badArg else if s.store.status = .unformatted then .unformatted
      else if e.live = false then .noFile else .protected_) →
    exec (.deleteFile v) s = .next ((s.accepted .store b).terminate .store b (.refuse st))) ∧
  (∀ (s : State) (v : Word) (b : Block), s.offered .store 4 3 v b →
    (s.store.status = .ready ∨ s.store.status = .unformatted ∧ s.store.hold = false) →
    16 ≤ s.arg8 b 4 →
    exec (.deleteFile v) s = .next ((s.accepted .store b).terminate .store b (.refuse .badArg))) ∧
  ∀ (s : State) (v : Word) (b : Block), s.offered .store 7 2 v b → s.store.hold = false →
    (s.store.status = .ready ∨ s.store.status = .unformatted) →
    exec (.formatStore v) s =
      .next { s.accepted .store b with store := { s.store with
        status := .unformatted, verdict := false, free := [], bad := [], live := 0, damagedNow := 0,
        chains := Vector.replicate 16 [],
        op := .run { blk := b, abort := false, late := false } (.format .header) } }

/-- R33, R42, R43, R47, R28: the page events of READ_FILE, VERIFY_FILE and READ_RAW. A page that passes
delivers its bytes (a page before the range is checked by its header alone and delivers none), and the
request goes on, ends OK at its last page, or ends ABORTED and Partial when an abort has marked it, the
count with that page. A header failure, or a link that names no page, ends it LINK_MISMATCH and a payload
failure DATA_CHECK, marked or not, Partial for READ_FILE alone, with the count before that page. -/
def Obligations.PageReads : Prop :=
  (∀ (s t : State) (r : Run) (f : FileNo) (offset length buf k : Nat) (link : Word) (p : PageNo)
    (lo hi last n : Nat),
    s.store.op = .run r (.readFile f offset length buf k link) → link.toNat = p.val →
    last = (offset + length - 1) / 256 → pageFits s.sram p 2 f s.store.dir[f].gen k →
    (k < last → (readHdr s.sram p).next ≠ 0xFFFF) → offset < 256 * (k + 1) →
    payloadPasses s.sram p = true → lo = max offset (256 * k) →
    hi = min (offset + length) (256 * (k + 1)) → n = min length (256 * (k + 1) - offset) →
    t = s.putRam (buf + (lo - offset))
      (Mem.reads s.sram (1024 + 268 * p.val + 10 + (lo - 256 * k)) (hi - lo)) →
    exec .readFilePage s =
      .next (if r.abort then t.endRun r .aborted true n else if k = last then t.endRun r .ok false n
        else t.setJob r (.readFile f offset length buf (k + 1) (readHdr s.sram p).next))) ∧
  (∀ (s : State) (r : Run) (f : FileNo) (offset length buf k : Nat) (link : Word) (p : PageNo),
    s.store.op = .run r (.readFile f offset length buf k link) → link.toNat = p.val →
    pageFits s.sram p 2 f s.store.dir[f].gen k →
    (k < (offset + length - 1) / 256 → (readHdr s.sram p).next ≠ 0xFFFF) → 256 * (k + 1) ≤ offset →
    exec .readFilePage s =
      .next (if r.abort then s.endRun r .aborted true 0
        else s.setJob r (.readFile f offset length buf (k + 1) (readHdr s.sram p).next))) ∧
  (∀ (s : State) (r : Run) (f : FileNo) (offset length buf k : Nat) (link : Word),
    s.store.op = .run r (.readFile f offset length buf k link) →
    (480 ≤ link.toNat ∨ ∃ p : PageNo, link.toNat = p.val ∧
      (¬ pageFits s.sram p 2 f s.store.dir[f].gen k ∨
        k < (offset + length - 1) / 256 ∧ (readHdr s.sram p).next = 0xFFFF)) →
    exec .readFilePage s =
      .next (s.endRun r .linkMismatch true (min length (256 * k - offset)))) ∧
  (∀ (s : State) (r : Run) (f : FileNo) (offset length buf k : Nat) (link : Word) (p : PageNo),
    s.store.op = .run r (.readFile f offset length buf k link) → link.toNat = p.val →
    pageFits s.sram p 2 f s.store.dir[f].gen k →
    (k < (offset + length - 1) / 256 → (readHdr s.sram p).next ≠ 0xFFFF) →
    offset < 256 * (k + 1) → payloadPasses s.sram p = false →
    exec .readFilePage s = .next (s.endRun r .dataCheck true (min length (256 * k - offset)))) ∧
  (∀ (s : State) (r : Run) (f : FileNo) (k : Nat) (link : Word) (p : PageNo),
    s.store.op = .run r (.verify f k link) → link.toNat = p.val →
    pageFits s.sram p 2 f s.store.dir[f].gen k →
    ((readHdr s.sram p).next = 0xFFFF ↔ k + 1 = s.store.dir[f].pageCount.toNat) →
    exec .verifyPage s =
      .next (if payloadPasses s.sram p = false then s.endRun r .dataCheck false k
        else if r.abort then s.endRun r .aborted true (k + 1)
        else if k + 1 = s.store.dir[f].pageCount.toNat then s.endRun r .ok false (k + 1)
        else s.setJob r (.verify f (k + 1) (readHdr s.sram p).next))) ∧
  (∀ (s : State) (r : Run) (f : FileNo) (k : Nat) (link : Word),
    s.store.op = .run r (.verify f k link) →
    (480 ≤ link.toNat ∨ ∃ p : PageNo, link.toNat = p.val ∧
      (¬ pageFits s.sram p 2 f s.store.dir[f].gen k ∨
        ¬ ((readHdr s.sram p).next = 0xFFFF ↔ k + 1 = s.store.dir[f].pageCount.toNat))) →
    exec .verifyPage s = .next (s.endRun r .linkMismatch false k)) ∧
  ∀ (s t : State) (r : Run) (first count buf done : Nat),
    s.store.op = .run r (.readRaw first count buf done) →
    t = s.putRam (buf + 268 * done) (Mem.reads s.sram (1024 + 268 * (first + done)) 268) →
    exec .readRawPage s =
      .next (if r.abort then t.endRun r .aborted true (done + 1)
        else if done + 1 = count then t.endRun r .ok false (done + 1)
        else t.setJob r (.readRaw first count buf (done + 1)))

/-- R35, R36, R37, R48, R3: Staging and Rolling back. The chunk goes on the page at the head of the free
list with a full write; a page that passes verify joins the staged list and the next chunk, or the arming
write, follows; a page that fails goes to the bad-page set with its Bad header and the chunk is staged
again. Without a page, or when an abort has marked the commit, the staged list is rewritten Free in staging
order, each page to the free-list tail or the bad-page set, and the request ends NO_SPACE or ABORTED with
count 0; with nothing staged it ends at once. An unverified record write takes whole or leaves bytes that
fail a check. The payload under a Bad header is log 10; that Rolling back may be entered by an event with or
without a first page is log 14 for an abort and log 15 for an empty free list. -/
def Obligations.Staging : Prop :=
  (∀ (s : State) (r : Run) (c c' : Commit) (i : Nat) (p : PageNo) (rest : List PageNo) (n : Nat),
    s.store.op = .run r (.commit c (.staging i)) → s.store.free = p :: rest →
    n = min 256 (c.length - 256 * i) → c' = { c with staged := c.staged ++ [p] } →
    exec (.stageChunk .pass) s =
      .next { s with
        sram := Mem.writes s.sram (1024 + 268 * p.val)
          (withCheck ([1, byteOf c.file.val, byteOf i, 0] ++ bytes16 c.gen.toNat ++
              bytes16 (match c.staged.getLast? with
                | some q => q.val
                | none => 0xFFFF)) ++
            withCheck (Mem.reads s.port.ram (c.buf + 256 * i) n ++ List.replicate (256 - n) 0)),
        store := { s.store with
          free := rest,
          op := .run r (.commit c' (if r.abort then .rollback c'.staged .aborted
            else if i = 0 then .arm else .staging (i - 1))) } }) ∧
  (∀ (s t : State) (r : Run) (c : Commit) (i : Nat) (p : PageNo) (rest : List PageNo) (n : Nat)
    (dev bad : List Host.Cell),
    s.store.op = .run r (.commit c (.staging i)) → s.store.free = p :: rest →
    n = min 256 (c.length - 256 * i) →
    t = { s with
      sram := Mem.writes s.sram (1024 + 268 * p.val) (written bad (plainHeader 3) ++
        overlay dev 0 (withCheck (Mem.reads s.port.ram (c.buf + 256 * i) n ++
          List.replicate (256 - n) 0))),
      store := { s.store with free := rest, bad := s.store.badAfter p (.fail bad) } } →
    exec (.stageChunk (.fail dev bad)) s =
      .next (if r.abort = true ∧ c.staged = [] then t.endRun r .aborted false 0
        else if r.abort = true then t.setJob r (.commit c (.rollback c.staged .aborted)) else t)) ∧
  (∀ (s : State) (r : Run) (c : Commit) (i : Nat) (v : Verify) (why : Status),
    s.store.op = .run r (.commit c (.staging i)) → s.store.free = [] →
    why = (if r.abort then .aborted else .noSpace) →
    exec (.stageChunk v) s =
      .next (if c.staged = [] then s.endRun r why false 0
        else s.setJob r (.commit c (.rollback c.staged why)))) ∧
  (∀ (s t : State) (r : Run) (c : Commit) (p : PageNo) (ps : List PageNo) (why : Status)
    (v : HeaderVerify),
    (s.store.op = .run r (.commit c (.rollback (p :: ps) why)) ∨
      ∃ i, s.store.op = .run r (.commit c (.staging i)) ∧ c.staged = p :: ps ∧
        (r.abort = true ∨ s.store.free = []) ∧ why = if r.abort then .aborted else .noSpace) →
    t = { s with
      sram := rewritten s.sram p (plainHeader 0) v,
      store := { s.store with free := s.store.freeAfter p v, bad := s.store.badAfter p v } } →
    exec (.rollbackPageFree v) s =
      .next (if ps = [] then t.endRun r why false 0
        else t.setJob r (.commit c (.rollback ps why)))) ∧
  (∀ (s : State) (r : Run) (c : Commit) (i : Nat) (v : HeaderVerify),
    s.store.op = .run r (.commit c (.staging i)) → c.staged = [] ∨ r.abort = false ∧ s.store.free ≠ [] →
    exec (.rollbackPageFree v) s =
      .next (if r.abort = true ∨ s.store.free = [] then
        s.endRun r (if r.abort then .aborted else .noSpace) false 0 else s)) ∧
  ∀ (dev : List Host.Cell) (bs : List Byte),
    written dev bs = bs ∨
      ((bs.length = 6 → passes 4 (written dev bs) = false) ∧
        (bs.length = 10 → passes 8 (written dev bs) = false) ∧
        (bs.length = 32 → passes 30 (written dev bs) = false) ∧
        (written dev bs).length = bs.length ∧
        ∀ k b, (written dev bs)[k]? = some b → (k, b) ∈ dev ∨ bs[k]? = some b)

/-- R38, R6, R7, R13: the finish phase of a commit: the journal armed with the stamp of that event; the
entry Live from its fields, the file in the live-file set, out of the damaged set and with the new chain;
each new page Live in chain order; each old page Free to the free-list tail, or to the bad-page set where
its verify fails; the journal cleared and the request ended OK with the number of new pages. Each unverified
write with whatever of it took (log 9). -/
def Obligations.CommitFinishes : Prop :=
  (∀ (s : State) (r : Run) (c : Commit) (j : Journal) (e : Entry) (dev : List Host.Cell),
    s.store.op = .run r (.commit c .arm) → e = s.store.dir[c.file] →
    j = { kind := .commit, file := c.file,
          newRoot := match c.staged.getLast? with
            | some q => BitVec.ofNat 16 q.val
            | none => 0xFFFF,
          newCount := byteOf c.staged.length, newLength := BitVec.ofNat 16 c.length, newGen := c.gen,
          newProtect := c.protect, day := BitVec.ofNat 16 s.cal.now.day.val,
          second := BitVec.ofNat 32 s.cal.now.second.val, epoch := BitVec.ofNat 16 s.cal.epoch.val,
          oldRoot := if e.live then e.root else 0xFFFF, oldGen := if e.live then e.gen else 1 } →
    exec (.armJournal dev) s =
      .next { s with
        sram := Mem.writes s.sram 16 (written dev j.bytes),
        store := { s.store with
          op := .run r (.commit c (.entry { time := s.cal.now, epoch := s.cal.epoch })) } }) ∧
  (∀ (s : State) (r : Run) (c : Commit) (t : Stamp) (e : Entry) (dev : List Host.Cell),
    s.store.op = .run r (.commit c (.entry t)) →
    e = { live := true, damaged := false, protect := c.protect, length := BitVec.ofNat 16 c.length,
          pageCount := byteOf c.staged.length,
          root := match c.staged.getLast? with
            | some q => BitVec.ofNat 16 q.val
            | none => 0xFFFF,
          gen := c.gen, day := BitVec.ofNat 16 t.time.day.val,
          second := BitVec.ofNat 32 t.time.second.val, epoch := BitVec.ofNat 16 t.epoch.val } →
    exec (.commitEntryWrite dev) s =
      .next { s with
        sram := Mem.writes s.sram (64 + 32 * c.file.val) (written dev e.bytes),
        store := { s.store with
          dir := s.store.dir.set c.file e, live := FileSet.join s.store.live c.file,
          damagedNow := FileSet.leave s.store.damagedNow c.file,
          chains := s.store.chains.set c.file c.staged.reverse,
          op := .run r (.commit c (if c.staged ≠ [] then .live [] c.staged.reverse
            else if c.old = [] then .clear none else .freeOld c.old none)) } }) ∧
  (∀ (s : State) (r : Run) (c : Commit) (done : List PageNo) (p : PageNo) (ps : List PageNo),
    s.store.op = .run r (.commit c (.live done (p :: ps))) →
    exec (.liveRewrite .pass) s =
      .next { s with
        sram := Mem.writes s.sram (1024 + 268 * p.val) { readHdr s.sram p with state := 2 }.bytes,
        store := { s.store with
          op := .run r (.commit c (if ps ≠ [] then .live (done ++ [p]) ps
            else if c.old = [] then .clear none else .freeOld c.old none)) } }) ∧
  (∀ (s : State) (r : Run) (c : Commit) (p : PageNo) (ps : List PageNo) (broken : Option Nat)
    (v : HeaderVerify),
    s.store.op = .run r (.commit c (.freeOld (p :: ps) broken)) →
    exec (.freeOldPage v) s =
      .next { s with
        sram := rewritten s.sram p (plainHeader 0) v,
        store := { s.store with
          free := s.store.freeAfter p v, bad := s.store.badAfter p v,
          op := .run r (.commit c (if ps = [] then .clear broken else .freeOld ps broken)) } }) ∧
  ∀ (s : State) (r : Run) (c : Commit) (dev : List Host.Cell),
    s.store.op = .run r (.commit c (.clear none)) →
    exec (.clearJournal dev) s =
      .next (({ s with
        sram := Mem.writes s.sram 16 (written dev (withCheck (0 :: Mem.reads s.sram 17 29))) } :
          State).endRun r .ok false c.staged.length)

/-- R39: a rewrite to Live that fails verify breaks the chain: the page is retired, the file's chain ends
before it and the pages after it are freed; the entry is then written again with damaged set, the file
counts as damaged now and StoreDamaged is set; the request will end LINK_MISMATCH with the pages before
the break. Each unverified write with whatever of it took (log 9). -/
def Obligations.BrokenCommit : Prop :=
  (∀ (s : State) (r : Run) (c : Commit) (done : List PageNo) (p : PageNo) (ps : List PageNo)
    (bad : List Host.Cell),
    s.store.op = .run r (.commit c (.live done (p :: ps))) →
    exec (.liveRewrite (.fail bad)) s =
      .next { s with
        sram := Mem.writes s.sram (1024 + 268 * p.val) (written bad (plainHeader 3)),
        store := { s.store with
          bad := s.store.badAfter p (.fail bad), chains := s.store.chains.set c.file done,
          op := .run r (.commit c (if ps = [] then .damagedEntry done else .breakFree done ps)) } }) ∧
  (∀ (s : State) (r : Run) (c : Commit) (kept : List PageNo) (p : PageNo) (ps : List PageNo)
    (v : HeaderVerify),
    s.store.op = .run r (.commit c (.breakFree kept (p :: ps))) →
    exec (.breakPageFree v) s =
      .next { s with
        sram := rewritten s.sram p (plainHeader 0) v,
        store := { s.store with
          free := s.store.freeAfter p v, bad := s.store.badAfter p v,
          op := .run r (.commit c
            (if ps = [] then .damagedEntry kept else .breakFree kept ps)) } }) ∧
  (∀ (s : State) (r : Run) (c : Commit) (kept : List PageNo) (e : Entry) (dev : List Host.Cell),
    s.store.op = .run r (.commit c (.damagedEntry kept)) →
    e = { s.store.dir[c.file] with damaged := true } →
    exec (.damagedEntryWrite dev) s =
      .next { s with
        sram := Mem.writes s.sram (64 + 32 * c.file.val) (written dev e.bytes),
        store := { s.store with
          dir := s.store.dir.set c.file e, damagedNow := FileSet.join s.store.damagedNow c.file,
          storeDamaged := true,
          op := .run r (.commit c (if c.old = [] then .clear (some kept.length)
            else .freeOld c.old (some kept.length))) } }) ∧
  ∀ (s : State) (r : Run) (c : Commit) (n : Nat) (dev : List Host.Cell),
    s.store.op = .run r (.commit c (.clear (some n))) →
    exec (.clearJournal dev) s =
      .next (({ s with
        sram := Mem.writes s.sram 16 (written dev (withCheck (0 :: Mem.reads s.sram 17 29))) } :
          State).endRun r .linkMismatch false n)

/-- R40, R41, R6: a delete arms the journal, writes the entry Empty as the file leaves the live-file set and
the damaged set, frees the chain page by page (a page whose verify fails goes to the bad-page set), clears
the journal and sends the purge; the purge reply ends it OK with the number of alarms removed. Each
unverified write with whatever of it took (log 9). -/
def Obligations.DeleteRuns : Prop :=
  (∀ (s : State) (r : Run) (f : FileNo) (j : Journal) (e : Entry) (dev : List Host.Cell),
    s.store.op = .run r (.delete f .arm) → e = s.store.dir[f] →
    j = { kind := .delete, file := f, newRoot := 0xFFFF, newCount := 0, newLength := 0, newGen := e.gen,
          newProtect := 0, day := BitVec.ofNat 16 s.cal.now.day.val,
          second := BitVec.ofNat 32 s.cal.now.second.val, epoch := BitVec.ofNat 16 s.cal.epoch.val,
          oldRoot := e.root, oldGen := e.gen } →
    exec (.armJournal dev) s =
      .next { s with
        sram := Mem.writes s.sram 16 (written dev j.bytes),
        store := { s.store with op := .run r (.delete f .entry) } }) ∧
  (∀ (s : State) (r : Run) (f : FileNo) (dev : List Host.Cell), s.store.op = .run r (.delete f .entry) →
    exec (.deleteEntryClear dev) s =
      .next { s with
        sram := Mem.writes s.sram (64 + 32 * f.val) (written dev
          (withCheck ([0, 0, 0] ++ bytes16 0 ++ [0] ++ bytes16 0xFFFF ++ List.replicate 22 0))),
        store := { s.store with
          dir := s.store.dir.set f Entry.empty, live := FileSet.leave s.store.live f,
          damagedNow := FileSet.leave s.store.damagedNow f, chains := s.store.chains.set f [],
          op := .run r (.delete f
            (if s.store.chains[f] = [] then .clear else .freeOld s.store.chains[f])) } }) ∧
  (∀ (s : State) (r : Run) (f : FileNo) (p : PageNo) (ps : List PageNo) (v : HeaderVerify),
    s.store.op = .run r (.delete f (.freeOld (p :: ps))) →
    exec (.freeOldPage v) s =
      .next { s with
        sram := rewritten s.sram p (plainHeader 0) v,
        store := { s.store with
          free := s.store.freeAfter p v, bad := s.store.badAfter p v,
          op := .run r (.delete f (if ps = [] then .clear else .freeOld ps)) } }) ∧
  (∀ (s : State) (r : Run) (f : FileNo) (dev : List Host.Cell), s.store.op = .run r (.delete f .clear) →
    exec (.clearJournal dev) s =
      .next { s with
        sram := Mem.writes s.sram 16 (written dev (withCheck (0 :: Mem.reads s.sram 17 29))),
        store := { s.store with
          purgeReq := some (.file f), op := .run r (.delete f .purging) } }) ∧
  ∀ (s : State) (r : Run) (f : FileNo) (k : Nat), s.store.op = .run r (.delete f .purging) →
    s.store.purgeReply = some k →
    exec .purgeReply s =
      .next (({ s with store := { s.store with purgeReply := none } } : State).endRun r .ok false k)

/-- R44, R45, R11, R16, R161: a format writes a valid header, a Clear journal, sixteen Empty entries and 480
Free headers, each page that passes verify joining the free list and each that fails the bad-page set; the
last one sends the purge of all files not Live, and the reply makes the store formatted and ends the request
OK with the number of pages that failed, the store Ready, or Quiesced under the hold with the held report.
Each unverified write with whatever of it took (log 9). -/
def Obligations.FormatRuns : Prop :=
  (∀ (s : State) (r : Run) (dev : List Host.Cell), s.store.op = .run r (.format .header) →
    exec (.formatHeaderWrite dev) s =
      .next { s with
        sram := Mem.writes s.sram 0 (written dev (withCheck (bytes16 0x5047 ++ bytes16 480))),
        store := { s.store with op := .run r (.format .journal) } }) ∧
  (∀ (s : State) (r : Run) (dev : List Host.Cell), s.store.op = .run r (.format .journal) →
    exec (.formatJournalWrite dev) s =
      .next { s with
        sram := Mem.writes s.sram 16 (written dev (withCheck (List.replicate 30 0))),
        store := { s.store with op := .run r (.format (.entries 0)) } }) ∧
  (∀ (s : State) (r : Run) (f : FileNo) (dev : List Host.Cell),
    s.store.op = .run r (.format (.entries f)) →
    exec (.formatEntryWrite dev) s =
      .next { s with
        sram := Mem.writes s.sram (64 + 32 * f.val) (written dev
          (withCheck ([0, 0, 0] ++ bytes16 0 ++ [0] ++ bytes16 0xFFFF ++ List.replicate 22 0))),
        store := { s.store with
          dir := s.store.dir.set f Entry.empty,
          op := .run r (.format (if h : f.val + 1 < 16 then .entries ⟨f.val + 1, h⟩
            else .pages 0 0)) } }) ∧
  (∀ (s : State) (r : Run) (p : PageNo) (bad : Nat) (h : p.val + 1 < 480) (v : HeaderVerify),
    s.store.op = .run r (.format (.pages p bad)) →
    exec (.formatPageWrite v) s =
      .next { s with
        sram := rewritten s.sram p (plainHeader 0) v,
        store := { s.store with
          free := s.store.freeAfter p v, bad := s.store.badAfter p v,
          op := .run r (.format (.pages ⟨p.val + 1, h⟩ (match v with
            | .pass => bad
            | .fail _ => bad + 1))) } }) ∧
  (∀ (s : State) (r : Run) (p : PageNo) (bad : Nat) (v : HeaderVerify), p.val = 479 →
    s.store.op = .run r (.format (.pages p bad)) →
    exec (.formatPageWrite v) s =
      .next { s with
        sram := rewritten s.sram p (plainHeader 0) v,
        store := { s.store with
          free := s.store.freeAfter p v, bad := s.store.badAfter p v, purgeReq := some .allNotLive,
          op := .run r (.format (.purging (match v with
            | .pass => bad
            | .fail _ => bad + 1))) } }) ∧
  ∀ (s : State) (r : Run) (bad k : Nat) (t : State), s.store.op = .run r (.format (.purging bad)) →
    s.store.purgeReply = some k →
    t = s.terminate .store r.blk { status := .ok, part := false, late := r.late, count := bad } →
    exec .purgeReply s =
      .next { t with
        store := { s.store with
          verdict := true, purgeReply := none, op := .none,
          status := if s.store.hold then .quiesced else .ready },
        link := { s.link with
          quiesce := s.link.quiesce.reported
            (s.store.hold && decide (s.sound.engine = .held) && s.rumble.hold) } }

/-! ## The recovery scan -/

/-- R18, R4, R1: the check of a record and where it lies. Step 1 with BatteryLost set writes the discarding
header, then clears BatteryLost and goes to step 7 unformatted; step 2 reads the header and goes to step 3
formatted or to step 7 unformatted. The page count in the discarding header is a free value (log 13), what of
its write took is log 9. -/
def Obligations.ScanBegins : Prop :=
  check16 [] = 0xFFFF ∧
  (∀ (bs : List Byte) (b : Byte), check16 (bs ++ [b]) = [7, 6, 5, 4, 3, 2, 1, 0].foldl
    (fun (c : Word) i => if c.msb != b.getLsbD i then (c <<< 1) ^^^ 0x1021 else c <<< 1) (check16 bs)) ∧
  check16 [0x31, 0x32, 0x33, 0x34, 0x35, 0x36, 0x37, 0x38, 0x39] = 0x29B1 ∧
  (∀ bs : List Byte, withCheck bs =
    bs ++ [BitVec.ofNat 8 (check16 bs).toNat, BitVec.ofNat 8 ((check16 bs).toNat / 256)]) ∧
  (∀ (n : Nat) (bs : List Byte), passes n bs = true ↔ (bs.drop n).take 2 =
    [BitVec.ofNat 8 (check16 (bs.take n)).toNat, BitVec.ofNat 8 ((check16 (bs.take n)).toNat / 256)]) ∧
  (∀ (s : State) (n : ScanNotes) (dev : List Host.Cell), s.store.op = .scan n .begin →
    s.batteryLost = true →
    exec (.scanDiscardHeader dev) s =
      .next { s with
        sram := Mem.writes s.sram 0
          (written dev (withCheck (bytes16 0 ++ bytes16 Config.discardPageCount.toNat))),
        store := { s.store with op := .scan n .discarded } }) ∧
  (∀ (s : State) (n : ScanNotes), s.store.op = .scan n .discarded →
    exec .scanClearBatteryLost s =
      .next { s with
        batteryLost := false,
        store := { s.store with verdict := false,
                                op := .scan { n with discard := true } .publish } }) ∧
  (∀ (s : State) (n : ScanNotes), s.store.op = .scan n .begin → s.batteryLost = false →
    passes 4 (Mem.reads s.sram 0 6) = true → Mem.reads s.sram 0 4 = [0x47, 0x50, 0xE0, 0x01] →
    exec .scanHeaderRead s =
      .next { s with store := { s.store with verdict := true, op := .scan n .journal } }) ∧
  ∀ (s : State) (n : ScanNotes), s.store.op = .scan n .begin → s.batteryLost = false →
    (passes 4 (Mem.reads s.sram 0 6) = false ∨ Mem.reads s.sram 0 4 ≠ [0x47, 0x50, 0xE0, 0x01]) →
    exec .scanHeaderRead s =
      .next { s with store := { s.store with verdict := false, op := .scan n .publish } }

/-- R19, R20, R5, R6, R3: step 3. The journal reads Armed with its fields (TABLE 11-10) exactly when its check
passes, its state says Armed and every field is in range (`Journal.inRanges`; a protect above 15, an old
generation of 0 and an old root past 479 among them, log 22), and else Clear; a stored check that differs
from that of the bytes makes it Clear. A journal that reads Clear leads to step 4; an Armed one is rolled
forward:
the entry is written Live from its fields, or Empty for a delete; the old chain is walked from the old root
over the links its pages held, visiting at most 64 pages that are Live, name the file, carry the old
generation and their position as sequence and pass their header check, and each is rewritten Free and joins
no list (R11), or is retired to the bad-page set; a commit's new chain is walked from the new root for the
new page count over Staged and Live pages of the new generation in the same way, and each Staged one is
rewritten Live, or retired and the walk goes on (log 20); the clearing write ends it and the outcome will be
RolledForward. Each unverified write with whatever of it took (log 9). -/
def Obligations.RollForward : Prop :=
  (∀ (m : Mem) (j : Journal), readJournal m = some j ↔
    j.inRanges ∧ passes 30 (Mem.reads m 16 32) = true ∧ ∃ pad : List Byte, Mem.reads m 16 30 =
      [1, (match j.kind with
        | .commit => 0
        | .delete => 1), BitVec.ofNat 8 j.file.val] ++ bytes16 j.newRoot.toNat ++ [j.newCount] ++
        bytes16 j.newLength.toNat ++ bytes16 j.newGen.toNat ++ [j.newProtect] ++ bytes16 j.day.toNat ++
        bytes32 j.second.toNat ++ bytes16 j.epoch.toNat ++ bytes16 j.oldRoot.toNat ++
        bytes16 j.oldGen.toNat ++ pad) ∧
  (∀ (m : Mem) (bs : List Byte) (c : Word), bs.length = 30 → Mem.reads m 16 32 = bs ++ bytes16 c.toNat →
    c ≠ check16 bs → readJournal m = none) ∧
  (∀ (s : State) (n : ScanNotes), s.store.op = .scan n .journal → readJournal s.sram = none →
    exec .scanJournalRead s = .next { s with store := { s.store with op := .scan n (.entries 0) } }) ∧
  (∀ (s : State) (n : ScanNotes) (j : Journal), s.store.op = .scan n .journal →
    readJournal s.sram = some j →
    exec .scanJournalRead s = .next { s with store := { s.store with op := .scan n (.rollEntry j) } }) ∧
  (∀ (s : State) (n : ScanNotes) (j : Journal) (dev : List Host.Cell) (m : Mem),
    s.store.op = .scan n (.rollEntry j) →
    m = Mem.writes s.sram (64 + 32 * j.file.val) (written dev
      (match j.kind with
        | .commit => Entry.bytes
            { live := true, damaged := false, protect := j.newProtect, length := j.newLength,
              pageCount := j.newCount, root := j.newRoot, gen := j.newGen, day := j.day,
              second := j.second, epoch := j.epoch }
        | .delete => Entry.empty.bytes)) →
    exec (.rollForwardEntryWrite dev) s =
      .next { s with
        sram := m, store := { s.store with op := .scan n (rollOldFrom m j 0 j.oldRoot) } }) ∧
  (∀ (s : State) (n : ScanNotes) (j : Journal) (k : Nat) (p : PageNo) (v : HeaderVerify) (m : Mem),
    s.store.op = .scan n (.rollOld j k p) → m = rewritten s.sram p (plainHeader 0) v →
    exec (.rollForwardOldPageFree v) s =
      .next { s with
        sram := m,
        store := { s.store with
          bad := s.store.badAfter p v,
          op := .scan n (rollOldFrom m j (k + 1) (readHdr s.sram p).next) } }) ∧
  (∀ (s : State) (n : ScanNotes) (j : Journal) (k : Nat) (p : PageNo) (v : HeaderVerify) (m : Mem),
    s.store.op = .scan n (.rollLive j k p) →
    m = rewritten s.sram p { readHdr s.sram p with state := 2 }.bytes v →
    exec (.rollForwardLiveRewrite v) s =
      .next { s with
        sram := m,
        store := { s.store with
          bad := s.store.badAfter p v,
          op := .scan n (rollLiveFrom m j (j.newCount.toNat - (k + 1)) (k + 1)
            (readHdr s.sram p).next) } }) ∧
  (∀ (s : State) (n : ScanNotes) (dev : List Host.Cell), s.store.op = .scan n .rollClear →
    exec (.clearJournal dev) s =
      .next { s with
        sram := Mem.writes s.sram 16 (written dev (withCheck (0 :: Mem.reads s.sram 17 29))),
        store := { s.store with op := .scan { n with rolled := true } (.entries 0) } }) ∧
  (∀ (m : Mem) (j : Journal) (k : Nat) (link : Word) (p : PageNo), link.toNat = p.val → k < 64 →
    pageFits m p 2 j.file j.oldGen k → rollOldFrom m j k link = .rollOld j k p) ∧
  (∀ (m : Mem) (j : Journal) (k : Nat) (link : Word),
    (480 ≤ link.toNat ∨ 64 ≤ k ∨
      ∃ p : PageNo, link.toNat = p.val ∧ ¬ pageFits m p 2 j.file j.oldGen k) →
    rollOldFrom m j k link = match j.kind with
      | .commit => rollLiveFrom m j j.newCount.toNat 0 j.newRoot
      | .delete => .rollClear) ∧
  (∀ (m : Mem) (j : Journal) (k : Nat) (link : Word), rollLiveFrom m j 0 k link = .rollClear) ∧
  (∀ (m : Mem) (j : Journal) (left k : Nat) (link : Word) (p : PageNo), link.toNat = p.val →
    pageFits m p 1 j.file j.newGen k → rollLiveFrom m j (left + 1) k link = .rollLive j k p) ∧
  (∀ (m : Mem) (j : Journal) (left k : Nat) (link : Word) (p : PageNo), link.toNat = p.val →
    pageFits m p 2 j.file j.newGen k →
    rollLiveFrom m j (left + 1) k link = rollLiveFrom m j left (k + 1) (readHdr m p).next) ∧
  ∀ (m : Mem) (j : Journal) (left k : Nat) (link : Word),
    (480 ≤ link.toNat ∨ ∃ p : PageNo, link.toNat = p.val ∧ ¬ pageFits m p 1 j.file j.newGen k ∧
      ¬ pageFits m p 2 j.file j.newGen k) →
    rollLiveFrom m j (left + 1) k link = .rollClear

/-- R21, R8, R22, R23, R173: steps 4 to 6. An entry is taken as it stands, its fields as its bytes spell them
(TABLE 11-10), when its check passes and it says Empty, or says Live and is consistent (`Entry.fits`), and
else is rewritten Empty and damaged; a page's header fields and its two checks lie as TABLE 11-11 places them; a
walk claims the page that fits and goes on, ends sound at the last page with End, or ends at a break: a page
that does not fit, is claimed already or is not there, a chain shorter or longer than the entry says; an
undamaged entry is then rewritten damaged. The sweep leaves claimed pages, takes Bad and Free ones, and
rewrites the others Free, to the free list or the bad-page set. Each unverified write with whatever of it
took (log 9); a page retired earlier in this scan whose header fails its check is taken out of the bad-page
set and rewritten (log 31). -/
def Obligations.ScanRepairs : Prop :=
  (∀ (m : Mem) (f : FileNo), entryReadable m f = true ↔
    passes 30 (Mem.reads m (64 + 32 * f.val) 32) = true ∧ (Mem.read m (64 + 32 * f.val) = 0 ∨
      Mem.read m (64 + 32 * f.val) = 1 ∧ (Machine.readEntry m f).fits)) ∧
  (∀ (m : Mem) (f : FileNo) (e : Entry) (a : Nat), e = Machine.readEntry m f → a = 64 + 32 * f.val →
    e.live = decide (Mem.read m a = 1) ∧ e.damaged = (Mem.read m (a + 1)).getLsbD 0 ∧
      e.protect = Mem.read m (a + 2) ∧ bytes16 e.length.toNat = Mem.reads m (a + 3) 2 ∧
      e.pageCount = Mem.read m (a + 5) ∧ bytes16 e.root.toNat = Mem.reads m (a + 6) 2 ∧
      bytes16 e.gen.toNat = Mem.reads m (a + 8) 2 ∧ bytes16 e.day.toNat = Mem.reads m (a + 10) 2 ∧
      bytes32 e.second.toNat = Mem.reads m (a + 12) 4 ∧ bytes16 e.epoch.toNat = Mem.reads m (a + 16) 2) ∧
  (∀ e : Entry, e.bytes = withCheck
    ([BitVec.ofNat 8 e.live.toNat, BitVec.ofNat 8 e.damaged.toNat, e.protect] ++ bytes16 e.length.toNat ++
      [e.pageCount] ++ bytes16 e.root.toNat ++ bytes16 e.gen.toNat ++ bytes16 e.day.toNat ++
      bytes32 e.second.toNat ++ bytes16 e.epoch.toNat ++ List.replicate 12 0)) ∧
  (∀ (m : Mem) (p : PageNo) (a : Nat), a = 1024 + 268 * p.val →
    (readHdr m p).state = Mem.read m a ∧ (readHdr m p).owner = Mem.read m (a + 1) ∧
      (readHdr m p).seq = Mem.read m (a + 2) ∧ bytes16 (readHdr m p).gen.toNat = Mem.reads m (a + 4) 2 ∧
      bytes16 (readHdr m p).next.toNat = Mem.reads m (a + 6) 2 ∧
      hdrPasses m p = passes 8 (Mem.reads m a 10) ∧
      payloadPasses m p = passes 256 (Mem.reads m (a + 10) 258)) ∧
  (∀ (st : Store) (p : PageNo), st.claimed p = true ↔ ∃ f : FileNo, p ∈ st.chains[f]) ∧
  (∀ (s : State) (n : ScanNotes) (f : FileNo) (dev : List Host.Cell) (e : Entry) (st : Store),
    s.store.op = .scan n (.entries f) → entryReadable s.sram f = true →
    e = Machine.readEntry s.sram f → st = { s.store with dir := s.store.dir.set f e } →
    exec (.scanEntryRead dev) s =
      .next { s with store := { st with
        op := .scan (if e.damaged then { n with damaged := FileSet.join n.damaged f } else n)
          (if h : f.val + 1 < 16 then .entries ⟨f.val + 1, h⟩ else st.walkPlace 0) } }) ∧
  (∀ (s : State) (n : ScanNotes) (f : FileNo) (dev : List Host.Cell) (st : Store),
    s.store.op = .scan n (.entries f) → entryReadable s.sram f = false →
    st = { s.store with dir := s.store.dir.set f { Entry.empty with damaged := true } } →
    exec (.scanEntryRead dev) s =
      .next { s with
        sram := Mem.writes s.sram (64 + 32 * f.val) (written dev
          (withCheck ([0, 1, 0] ++ bytes16 0 ++ [0] ++ bytes16 0xFFFF ++ List.replicate 22 0))),
        store := { st with
          op := .scan { n with damaged := FileSet.join n.damaged f }
            (if h : f.val + 1 < 16 then .entries ⟨f.val + 1, h⟩ else st.walkPlace 0) } }) ∧
  (∀ (s : State) (n : ScanNotes) (f : FileNo) (k : Nat) (link : Word) (p : PageNo)
    (dev : List Host.Cell) (st : Store), s.store.op = .scan n (.walk f k link) → link.toNat = p.val →
    pageFits s.sram p 2 f s.store.dir[f].gen k → s.store.claimed p = false →
    (k + 1 < s.store.dir[f].pageCount.toNat ↔ (readHdr s.sram p).next ≠ 0xFFFF) →
    st = { s.store with chains := s.store.chains.set f (s.store.chains[f] ++ [p]) } →
    exec (.scanChainWalk dev) s =
      .next { s with store := { st with
        op := .scan n (if k + 1 < s.store.dir[f].pageCount.toNat then
          .walk f (k + 1) (readHdr s.sram p).next else st.walkPlace (f.val + 1)) } }) ∧
  (∀ (s : State) (n : ScanNotes) (f : FileNo) (k : Nat) (link : Word) (dev : List Host.Cell)
    (chains : Vector (List PageNo) 16) (e : Entry) (st : Store),
    s.store.op = .scan n (.walk f k link) → e = { s.store.dir[f] with damaged := true } →
    ((480 ≤ link.toNat ∨ ∃ p : PageNo, link.toNat = p.val ∧
          (¬ pageFits s.sram p 2 f s.store.dir[f].gen k ∨ s.store.claimed p = true)) ∧
        chains = s.store.chains ∨
      ∃ p : PageNo, link.toNat = p.val ∧ pageFits s.sram p 2 f s.store.dir[f].gen k ∧
        s.store.claimed p = false ∧
        ¬ (k + 1 < s.store.dir[f].pageCount.toNat ↔ (readHdr s.sram p).next ≠ 0xFFFF) ∧
        chains = s.store.chains.set f (s.store.chains[f] ++ [p])) →
    st = { s.store with chains := chains, dir := s.store.dir.set f e } →
    exec (.scanChainWalk dev) s =
      .next { s with
        sram := if s.store.dir[f].damaged then s.sram
          else Mem.writes s.sram (64 + 32 * f.val) (written dev e.bytes),
        store := { st with
          op := .scan { n with damaged := FileSet.join n.damaged f } (st.walkPlace (f.val + 1)) } }) ∧
  (∀ (s : State) (n : ScanNotes) (p : PageNo) (v : HeaderVerify),
    s.store.op = .scan n (.sweep p) → s.store.claimed p = true →
    exec (.scanSweepPage v) s =
      .next { s with store := { s.store with op := .scan n (sweepAfter p) } }) ∧
  (∀ (s : State) (n : ScanNotes) (p : PageNo) (v : HeaderVerify),
    s.store.op = .scan n (.sweep p) → s.store.claimed p = false → hdrPasses s.sram p = true →
    (readHdr s.sram p).state = 0 →
    exec (.scanSweepPage v) s =
      .next { s with store := { s.store with
        free := s.store.free ++ [p], op := .scan n (sweepAfter p) } }) ∧
  (∀ (s : State) (n : ScanNotes) (p : PageNo) (v : HeaderVerify),
    s.store.op = .scan n (.sweep p) → s.store.claimed p = false → hdrPasses s.sram p = true →
    (readHdr s.sram p).state = 3 →
    exec (.scanSweepPage v) s =
      .next { s with store := { s.store with
        bad := if p ∈ s.store.bad then s.store.bad else s.store.bad ++ [p],
        op := .scan n (sweepAfter p) } }) ∧
  (∀ (s : State) (n : ScanNotes) (p : PageNo) (v : HeaderVerify) (kept : List PageNo),
    s.store.op = .scan n (.sweep p) → s.store.claimed p = false → hdrPasses s.sram p = false →
    kept = s.store.bad.filter (fun q => decide (q ≠ p)) →
    exec (.scanSweepPage v) s =
      .next { s with
        sram := rewritten s.sram p (plainHeader 0) v,
        store := { s.store with
          free := s.store.freeAfter p v,
          bad := (match v with
            | .pass => kept
            | .fail _ => kept ++ [p]),
          op := .scan n (sweepAfter p) } }) ∧
  ∀ (s : State) (n : ScanNotes) (p : PageNo) (v : HeaderVerify),
    s.store.op = .scan n (.sweep p) → s.store.claimed p = false → hdrPasses s.sram p = true →
    (readHdr s.sram p).state ≠ 0 → (readHdr s.sram p).state ≠ 3 →
    exec (.scanSweepPage v) s =
      .next { s with
        sram := rewritten s.sram p (plainHeader 0) v,
        store := { s.store with
          free := s.store.freeAfter p v, bad := s.store.badAfter p v,
          op := .scan { n with staged := n.staged || decide ((readHdr s.sram p).state = 1) }
            (sweepAfter p) } }

/-- R24, R25, R27, R13, R15, R16, R161: step 7 publishes the live-file set (empty when unformatted) and
sends the purge of all files not Live; the reply ends the scan: the outcome is recorded, a damaged file sets
StoreDamaged, and the store is Ready, or Quiesced under the hold with the held report, or Unformatted; a
block that has waited then starts, or ends QUIESCED under the hold. -/
def Obligations.ScanEnds : Prop :=
  (∀ (s : State) (n : ScanNotes), s.store.op = .scan n .publish →
    ∃ live, exec .scanPublish s =
      .next { s with store := { s.store with
        live := live, purgeReq := some .allNotLive, op := .scan n .purging } } ∧
      ∀ f : FileNo, live.getLsbD f.val = (s.store.verdict && s.store.dir[f].live)) ∧
  ∀ (s t : State) (n : ScanNotes) (k : Nat) (st : Store), s.store.op = .scan n .purging →
    s.store.purgeReply = some k →
    st = { s.store with
      last := (if s.store.verdict then
          { kind := if n.rolled then .rolledForward else if n.staged then .rolledBack else .clean,
            damaged := n.damaged, discard := n.discard }
        else { kind := .clean, damaged := 0, discard := n.discard }),
      damagedNow := if s.store.verdict then n.damaged else 0,
      storeDamaged := s.store.storeDamaged || (s.store.verdict && decide (n.damaged ≠ 0)),
      op := .none, waiting := none, purgeReply := none,
      status := if s.store.verdict then (if s.store.hold then .quiesced else .ready)
        else .unformatted } →
    t = { s with
      store := st,
      link := { s.link with
        quiesce := s.link.quiesce.reported
          (s.store.hold && decide (s.sound.engine = .held) && s.rumble.hold) } } →
    exec .purgeReply s =
      .next (match s.store.waiting with
        | none => t
        | some b =>
          if s.store.hold then t.terminate .store b (.refuse .quiesced) else t.startStore b)

/-- R145, R26, R47, R48: an abort in Full, by what the engine is doing. A transfer, or a commit in Staging,
is marked. In Scanning a waiting block ends ABORTED, and with none waiting nothing happens. A commit of a
length above 0 before its arming write rolls back; a commit of length 0, one that rolls back for lack of a
page or has passed arming, a delete and a format go on and will say AbortLate. That a commit between its
last chunk and its arming write enters Rolling back at the abort itself is log 14; that ABORTED of a
waiting block has Partial clear and count 0 is log 23. -/
def Obligations.Abort : Prop :=
  (∀ (s : State) (b : Block) (r : Run) (j : Job), s.supplyState = .full →
    s.port.store.hold = .busy b → s.store.op = .run r j →
    ((∃ f offset length buf k link, j = .readFile f offset length buf k link) ∨
      (∃ f k link, j = .verify f k link) ∨
      (∃ first count buf done, j = .readRaw first count buf done) ∨
      ∃ c i, j = .commit c (.staging i)) →
    exec .abortRequest s =
      .next { s with store := { s.store with op := .run { r with abort := true } j } }) ∧
  (∀ (s : State) (b : Block) (n : ScanNotes) (ph : ScanPhase), s.supplyState = .full →
    s.port.store.hold = .busy b → s.store.op = .scan n ph →
    exec .abortRequest s =
      .next (match s.store.waiting with
        | some w => ({ s with store := { s.store with waiting := none } } : State).terminate .store w
            { status := .aborted, part := false, late := false, count := 0 }
        | none => s)) ∧
  (∀ (s : State) (b : Block) (r : Run) (c : Commit), s.supplyState = .full →
    s.port.store.hold = .busy b → s.store.op = .run r (.commit c .arm) → c.length ≠ 0 →
    exec .abortRequest s =
      .next (if c.staged = [] then s.endRun { r with abort := true } .aborted false 0 else
        { s with store := { s.store with
          op := .run { r with abort := true } (.commit c (.rollback c.staged .aborted)) } })) ∧
  (∀ (s : State) (b : Block) (r : Run) (c : Commit) (todo : List PageNo), s.supplyState = .full →
    s.port.store.hold = .busy b → s.store.op = .run r (.commit c (.rollback todo .aborted)) →
    exec .abortRequest s = .next s) ∧
  ∀ (s : State) (b : Block) (r : Run) (j : Job), s.supplyState = .full →
    s.port.store.hold = .busy b → s.store.op = .run r j →
    ((∃ c, j = .commit c .arm ∧ c.length = 0) ∨
      (∃ c todo why, j = .commit c (.rollback todo why) ∧ why ≠ .aborted) ∨
      (∃ c ph, j = .commit c ph ∧ ((∃ t, ph = .entry t) ∨ (∃ done todo, ph = .live done todo) ∨
        (∃ kept todo, ph = .breakFree kept todo) ∨ (∃ kept, ph = .damagedEntry kept) ∨
        (∃ todo broken, ph = .freeOld todo broken) ∨ ∃ broken, ph = .clear broken)) ∨
      (∃ f ph, j = .delete f ph) ∨ ∃ ph, j = .format ph) →
    exec .abortRequest s =
      .next { s with store := { s.store with op := .run { r with late := true } j } }

/-! ## The sound engine -/

/-- R100, R101, R102, R103, R87 to R91: the voice requests. SET_VOICES applies its list up to the first
entry that fails and makes the idle Immediate takes: entry `k` of the list is the four bytes at 4·k from
byte 8 of the block (TABLE 11-5), voice, parameter code and value, and it writes that value under that code
of TABLE 5-4 (`Voice.Written`) to that voice, or fails; COMMIT_VOICES makes the pending Synced takes;
BROADCAST writes every member; SILENCE silences both sets of every voice and empties the note queue. What
SILENCE leaves in the staged set of a voice with a pending write is the model's reading (log 12). -/
def Obligations.VoiceRequests : Prop :=
  (∀ (s : State) (v : Word) (b : Block) (n k : Nat) (ws : List VoiceWrite) (written : Vector Voice 8),
    n = s.arg8 b 4 → s.offered .sound 1 (3 + n) v b → n ≤ 16 → ws = s.voiceWrites (b.off + 8) n →
    applyWrites ws s.sound.voices = (written, k) →
    ∃ vs, exec (.setVoices v) s =
      .next (({ s.accepted .sound b with sound := { s.sound with voices := vs } } : State).terminate
        .sound b (if k = n then .ok n else { status := .badArg, part := true, late := false, count := k })) ∧
      k ≤ n ∧ (∀ i : Fin 8, vs[i] = if written[i].mode = .immediate ∧ written[i].pending = true ∧
        written[i].active.key = false then written[i].take else written[i]) ∧
      (∀ w, ws[k]? = some w → applyWrite w written = none)) ∧
  (∀ (s : State) (a n : Nat), (s.voiceWrites a n).length = n ∧
    ∀ (k : Nat) (w : VoiceWrite), (s.voiceWrites a n)[k]? = some w ↔
      k < n ∧ w.voice = (s.ramByte (a + 4 * k)).toNat ∧ w.param = (s.ramByte (a + 4 * k + 1)).toNat ∧
        w.value = s.ramNat (a + 4 * k + 2) 2) ∧
  (∀ (w : VoiceWrite) (vs xs : Vector Voice 8), applyWrite w vs = some xs ↔
    ∃ (i : Fin 8) (u : Voice), w.voice = i.val ∧ vs[i].Written u w.param w.value ∧ xs = vs.set i u) ∧
  (∀ vs : Vector Voice 8, applyWrites [] vs = (vs, 0)) ∧
  (∀ (w : VoiceWrite) (ws : List VoiceWrite) (vs : Vector Voice 8), applyWrite w vs = none →
    applyWrites (w :: ws) vs = (vs, 0)) ∧
  (∀ (w : VoiceWrite) (ws : List VoiceWrite) (vs xs : Vector Voice 8), applyWrite w vs = some xs →
    applyWrites (w :: ws) vs = ((applyWrites ws xs).1, (applyWrites ws xs).2 + 1)) ∧
  (∀ (s : State) (v : Word) (b : Block), s.offered .sound 2 2 v b →
    ∃ vs, exec (.commitVoices v) s =
      .next (({ s.accepted .sound b with sound := { s.sound with voices := vs } } : State).terminate
        .sound b (.ok (s.sound.voices.toList.filter fun x =>
          decide (x.mode = .synced) && x.pending).length)) ∧
      ∀ i : Fin 8, vs[i] = if s.sound.voices[i].mode = .synced ∧ s.sound.voices[i].pending = true then
        s.sound.voices[i].take else s.sound.voices[i]) ∧
  (∀ (s : State) (v : Word) (b : Block) (level : Fin 128) (x : Voice → Voice),
    s.offered .sound 3 3 v b → s.arg8 b 4 = 5 → s.arg16 b 6 = level.val →
    x = (fun y => { y with staged := { y.staged with level := level }, pending := true }) →
    ∃ vs, exec (.broadcast v) s =
      .next (({ s.accepted .sound b with sound := { s.sound with voices := vs } } : State).terminate
        .sound b (.ok (s.sound.voices.toList.filter fun y => y.member).length)) ∧
      ∀ i : Fin 8, vs[i] = if s.sound.voices[i].member then (x s.sound.voices[i]).idleTake
        else s.sound.voices[i]) ∧
  (∀ (s : State) (v : Word) (b : Block), s.offered .sound 3 3 v b → s.arg8 b 4 = 8 → s.arg16 b 6 = 1 →
    ∃ vs, exec (.broadcast v) s =
      .next (({ s.accepted .sound b with sound := { s.sound with voices := vs } } : State).terminate
        .sound b (.ok (s.sound.voices.toList.filter fun y => y.member).length)) ∧
      ∀ i : Fin 8, vs[i] = if s.sound.voices[i].member then
        ({ s.sound.voices[i] with
          staged := { s.sound.voices[i].staged with key := true },
          pending := true, retrigger := true } : Voice).idleTake else s.sound.voices[i]) ∧
  (∀ (s : State) (v : Word) (b : Block), s.offered .sound 3 3 v b → s.arg8 b 4 = 8 → s.arg16 b 6 = 0 →
    ∃ vs, exec (.broadcast v) s =
      .next (({ s.accepted .sound b with sound := { s.sound with voices := vs } } : State).terminate
        .sound b (.ok (s.sound.voices.toList.filter fun y => y.member).length)) ∧
      ∀ i : Fin 8, vs[i] = if s.sound.voices[i].member then
        ({ s.sound.voices[i] with
          staged := { s.sound.voices[i].staged with key := false },
          pending := true, retrigger := false } : Voice).idleTake else s.sound.voices[i]) ∧
  (∀ y : Voice, y.idleTake =
    if y.mode = .immediate ∧ y.pending = true ∧ y.active.key = false then y.take else y) ∧
  (∀ (s : State) (v : Word) (b : Block), s.offered .sound 1 3 v b → 16 < s.arg8 b 4 →
    3 + s.arg8 b 4 ≤ b.words →
    exec (.setVoices v) s = .next ((s.accepted .sound b).terminate .sound b (.refuse .badArg))) ∧
  (∀ (s : State) (v : Word) (b : Block), s.offered .sound 3 3 v b →
    (s.arg8 b 4 ≠ 5 ∧ s.arg8 b 4 ≠ 8 ∨ s.arg8 b 4 = 5 ∧ 128 ≤ s.arg16 b 6 ∨
      s.arg8 b 4 = 8 ∧ 2 ≤ s.arg16 b 6) →
    exec (.broadcast v) s = .next ((s.accepted .sound b).terminate .sound b (.refuse .badArg))) ∧
  ∀ (s : State) (v : Word) (b : Block), s.offered .sound 4 2 v b →
    ∃ vs, exec (.silence v) s =
      .next (({ s.accepted .sound b with sound := { s.sound with voices := vs, notes := [] } } :
        State).terminate .sound b (.ok 0)) ∧
      ∀ i : Fin 8,
        vs[i].active = { s.sound.voices[i].active with source := .off, key := false, level := 0 } ∧
        vs[i].staged.source = .off ∧ vs[i].staged.key = false ∧ vs[i].staged.level = 0 ∧
        (s.sound.voices[i].pending = false →
          vs[i].staged = { s.sound.voices[i].staged with source := .off, key := false, level := 0 }) ∧
        vs[i].pending = false ∧ vs[i].retrigger = false ∧ vs[i].mode = s.sound.voices[i].mode ∧
        vs[i].member = s.sound.voices[i].member ∧
        vs[i].periodCount = s.sound.voices[i].periodCount ∧
        vs[i].stepCount = s.sound.voices[i].stepCount ∧
        vs[i].waveIndex = s.sound.voices[i].waveIndex ∧ vs[i].noisePos = s.sound.voices[i].noisePos

/-- R88, R87, R86: a take copies the staged set, clears both marks, and resets the phase under the retrigger
mark, else keeps it with the step counter inside the new modulus. A staged write of each of the nine voice
parameters stores its value and sets the pending mark, or fails for a value out of range: source, period,
modulus (which lowers a staged duty above it), duty, wave slot, level, the two pans, key (On sets the
retrigger mark, Off clears it); mode and member are written at once; no other parameter code is valid. -/
def Obligations.StagingAndTaking : Prop :=
  (∀ v : Voice, v.take.active = v.staged ∧ v.take.staged = v.staged ∧ v.take.pending = false ∧
    v.take.retrigger = false ∧ v.take.mode = v.mode ∧ v.take.member = v.member ∧
    (v.retrigger = true → v.take.periodCount = 0 ∧ v.take.stepCount = 0 ∧ v.take.waveIndex = 0 ∧
      v.take.noisePos = 0) ∧
    (v.retrigger = false → v.take.periodCount = v.periodCount ∧ v.take.waveIndex = v.waveIndex ∧
      v.take.noisePos = v.noisePos ∧
      v.take.stepCount = if v.staged.modulus.num ≤ v.stepCount then 0 else v.stepCount)) ∧
  (∀ (v : Voice) (src : Source) (x : Nat),
    (x = 0 ∧ src = .off ∨ x = 1 ∧ src = .square ∨ x = 2 ∧ src = .wave ∨ x = 3 ∧ src = .noise) →
    v.writeParam 0 x = some { v with staged := { v.staged with source := src }, pending := true }) ∧
  (∀ (v : Voice) (m : Modulus), v.writeParam 2 m.num =
    some { v with staged := { v.staged with modulus := m, duty := min v.staged.duty m.num },
                  pending := true }) ∧
  (∀ v : Voice, v.writeParam 8 1 =
    some { v with staged := { v.staged with key := true }, pending := true, retrigger := true }) ∧
  (∀ v : Voice, v.writeParam 8 0 =
    some { v with staged := { v.staged with key := false }, pending := true, retrigger := false }) ∧
  (∀ (v : Voice) (x : Nat), v.writeParam 3 x = if x ≤ v.staged.modulus.num then
    some { v with staged := { v.staged with duty := x }, pending := true } else none) ∧
  (∀ (v : Voice) (x : Nat), v.writeParam 1 x = if 1 ≤ x ∧ x ≤ 4095 then
    some { v with staged := { v.staged with period := x }, pending := true } else none) ∧
  (∀ (v : Voice) (x : Fin 8), v.writeParam 4 x.val =
    some { v with staged := { v.staged with slot := x }, pending := true }) ∧
  (∀ (v : Voice) (x : Fin 128), v.writeParam 5 x.val =
    some { v with staged := { v.staged with level := x }, pending := true }) ∧
  (∀ (v : Voice) (x : Fin 16), v.writeParam 6 x.val =
    some { v with staged := { v.staged with panL := x }, pending := true }) ∧
  (∀ (v : Voice) (x : Fin 16), v.writeParam 7 x.val =
    some { v with staged := { v.staged with panR := x }, pending := true }) ∧
  (∀ v : Voice, v.writeParam 9 1 = some { v with mode := .synced } ∧
    v.writeParam 9 0 = some { v with mode := .immediate } ∧
    v.writeParam 10 1 = some { v with member := true } ∧
    v.writeParam 10 0 = some { v with member := false }) ∧
  ∀ (v : Voice) (param x : Nat),
    (param = 0 ∧ 4 ≤ x ∨ (param = 2 ∧ ∀ m : Modulus, x ≠ m.num) ∨ param = 4 ∧ 8 ≤ x ∨
      param = 5 ∧ 128 ≤ x ∨ (param = 6 ∨ param = 7) ∧ 16 ≤ x ∨
      (param = 8 ∨ param = 9 ∨ param = 10) ∧ 2 ≤ x ∨ 11 ≤ param) →
    v.writeParam param x = none

/-- R104, R117, TABLE 11-8: LOAD_WAVE and LOAD_CUE replace one slot, or give BAD_ARG and change nothing else.
A cue's list is read from the block eight bytes an entry, each stating a note entry with every field that
its action reads in range (`State.noteIs`), or it fails. The count 0 of LOAD_CUE's refusals is the model's
choice (log 32). -/
def Obligations.LoadWaveAndCue : Prop :=
  (∀ (s : State) (x n : Nat) (es : List NoteEntry), s.notesAt x n = some es ↔
    es.length = n ∧ ∀ (k : Nat) (e : NoteEntry), es[k]? = some e → s.noteIs (x + 8 * k) e) ∧
  (∀ (s : State) (v : Word) (b : Block) (slot : Fin 8) (buf : Nat), s.offered .sound 5 3 v b →
    s.arg8 b 4 = slot.val → s.arg16 b 6 = buf → buf + 32 ≤ 4096 →
    (buf + 32 ≤ b.off ∨ b.off + 4 * b.words ≤ buf) →
    ∃ w : Vector Byte 32, exec (.loadWave v) s =
      .next (({ s.accepted .sound b with
          sound := { s.sound with waves := s.sound.waves.set slot (some w) } } : State).terminate .sound b
        (.ok 0)) ∧ ∀ j : Fin 32, w[j] = s.ramByte (buf + j.val)) ∧
  (∀ (s : State) (v : Word) (b : Block), s.offered .sound 5 3 v b →
    (8 ≤ s.arg8 b 4 ∨ 4096 < s.arg16 b 6 + 32 ∨
      (b.off < s.arg16 b 6 + 32 ∧ s.arg16 b 6 < b.off + 4 * b.words)) →
    exec (.loadWave v) s = .next ((s.accepted .sound b).terminate .sound b (.refuse .badArg))) ∧
  (∀ (s : State) (v : Word) (b : Block) (slot : Fin 4) (n : Nat) (es : List NoteEntry),
    n = s.arg8 b 5 → s.offered .sound 10 (3 + 2 * n) v b → s.arg8 b 4 = slot.val → n ≤ 8 →
    s.notesAt (b.off + 8) n = some es →
    exec (.loadCue v) s =
      .next (({ s.accepted .sound b with
          sound := { s.sound with cues := s.sound.cues.set slot es } } : State).terminate .sound b
        (.ok n))) ∧
  ∀ (s : State) (v : Word) (b : Block) (n : Nat), n = s.arg8 b 5 →
    s.offered .sound 10 (3 + 2 * n) v b →
    (4 ≤ s.arg8 b 4 ∨ 8 < n ∨ s.notesAt (b.off + 8) n = none) →
    exec (.loadCue v) s = .next ((s.accepted .sound b).terminate .sound b (.refuse .badArg))

/-- R107, R108, R110, R112, R132: START_SOUND from Stopped and its refusals; STOP_SOUND, which in Running
empties the note queue, enters Muting and sends beat-lost, and elsewhere changes nothing; SET_TEMPO, which
writes the next tempo alone. The beat-lost signal changes nothing in the rumble unit unless the current play
is Beat-paced: that play ends BeatLost, the drive goes to 0 at once, and plays are taken from the head of
the queue, the Beat-paced ones ending BeatLost, up to a Time-paced one, which starts. The count 0 of the
refusals of START_SOUND and SET_TEMPO is the model's choice (log 32). -/
def Obligations.EngineRequests : Prop :=
  (∀ (s : State) (v : Word) (b : Block) (tempo : Nat), s.offered .sound 6 3 v b →
    s.arg16 b 4 = tempo → 256 ≤ tempo → s.sound.engine = .stopped →
    exec (.startSound v) s =
      .next (({ s.accepted .sound b with sound := { s.sound with
        tempo := tempo, nextTempo := tempo, frameCount := 0, beats := 0, gain := 64, fifo := [],
        engine := .running } } : State).terminate .sound b (.ok 0))) ∧
  (∀ (s : State) (v : Word) (b : Block) (st : Status), s.offered .sound 6 3 v b →
    256 ≤ s.arg16 b 4 → s.sound.engine ≠ .stopped →
    st = (if s.sound.engine = .held then .quiesced else .engineRunning) →
    exec (.startSound v) s = .next ((s.accepted .sound b).terminate .sound b (.refuse st))) ∧
  (∀ (s : State) (v : Word) (b : Block), s.offered .sound 6 3 v b → s.arg16 b 4 < 256 →
    exec (.startSound v) s = .next ((s.accepted .sound b).terminate .sound b (.refuse .badArg))) ∧
  (∀ (s : State) (v : Word) (b : Block), s.offered .sound 7 2 v b → s.sound.engine = .running →
    exec (.stopSound v) s =
      .next (({ s.accepted .sound b with
        sound := { s.sound with notes := [], engine := .muting },
        rumble := s.rumble.beatLost } : State).terminate .sound b (.ok 0))) ∧
  (∀ (s : State) (v : Word) (b : Block), s.offered .sound 7 2 v b → s.sound.engine ≠ .running →
    exec (.stopSound v) s = .next ((s.accepted .sound b).terminate .sound b (.ok 0))) ∧
  (∀ (s : State) (v : Word) (b : Block) (tempo : Nat), s.offered .sound 8 3 v b →
    s.arg16 b 4 = tempo → 256 ≤ tempo →
    exec (.setTempo v) s =
      .next (({ s.accepted .sound b with sound := { s.sound with nextTempo := tempo } } :
        State).terminate .sound b (.ok 0))) ∧
  (∀ (s : State) (v : Word) (b : Block), s.offered .sound 8 3 v b → s.arg16 b 4 < 256 →
    exec (.setTempo v) s = .next ((s.accepted .sound b).terminate .sound b (.refuse .badArg))) ∧
  (∀ r : Rumble, (∀ c, r.current = some c → r.beatPaced c.play.pattern = false) → r.beatLost = r) ∧
  (∀ (r : Rumble) (c : Current) (skipped rest : List Play), r.current = some c →
    r.beatPaced c.play.pattern = true → r.outcomes.length ≤ 8 → r.skips false skipped rest →
    r.beatLost = ({ r with duty := 0 } : Rumble).passedOn (endings (c.play :: skipped) .beatLost) rest) ∧
  ∀ (r : Rumble) (slot : Fin 8), r.beatPaced slot = true ↔
    ∃ p, r.patterns[slot] = some p ∧ p.pacing = .beat

/-- R114, R116, R118, R119, TABLE 11-8: a list of note entries is read from the block eight bytes an entry,
each stating its entry with every field that its action reads in range (`State.noteIs`), or it fails; notes
are inserted by due beat, after those due no later; QUEUE_NOTES inserts
as many as fit, or gives BAD_ARG or ENGINE_STOPPED; PLAY_CUE inserts a whole slot, or nothing: BAD_ARG for
a slot above 3 or empty, then ENGINE_STOPPED, then QUEUE_FULL; an alarm's cue request is inserted like a
PLAY_CUE or dropped with the first reason that holds. -/
def Obligations.NotesAndCues : Prop :=
  (∀ (s : State) (x n : Nat) (es : List NoteEntry), s.notesAt x n = some es ↔
    es.length = n ∧ ∀ (k : Nat) (e : NoteEntry), es[k]? = some e → s.noteIs (x + 8 * k) e) ∧
  (∀ (n : Note) (d : Nat) (qs : List Queued),
    dueBeats 0 (insertNote n d qs) =
      ((dueBeats 0 qs).takeWhile fun x => decide (x.2 ≤ d)) ++ (n, d) ::
        ((dueBeats 0 qs).dropWhile fun x => decide (x.2 ≤ d))) ∧
  (∀ (s : State) (v : Word) (b : Block) (n k : Nat) (es : List NoteEntry), n = s.arg8 b 4 →
    s.offered .sound 9 (3 + 2 * n) v b → n ≤ 16 → s.notesAt (b.off + 8) n = some es →
    s.sound.engine = .running → k = min n (64 - s.sound.notes.length) →
    exec (.queueNotes v) s =
      .next (({ s.accepted .sound b with sound := { s.sound with
        notes := (es.take k).foldl (fun qs e => insertNote e.note e.delay qs) s.sound.notes } } :
          State).terminate .sound b
        (if k = n then .ok n else { status := .queueFull, part := false, late := false, count := k }))) ∧
  (∀ (s : State) (v : Word) (b : Block) (n : Nat) (es : List NoteEntry), n = s.arg8 b 4 →
    s.offered .sound 9 (3 + 2 * n) v b → n ≤ 16 → s.notesAt (b.off + 8) n = some es →
    s.sound.engine ≠ .running →
    exec (.queueNotes v) s =
      .next ((s.accepted .sound b).terminate .sound b (.refuse .engineStopped))) ∧
  (∀ (s : State) (v : Word) (b : Block) (n : Nat), n = s.arg8 b 4 →
    s.offered .sound 9 (3 + 2 * n) v b → (16 < n ∨ s.notesAt (b.off + 8) n = none) →
    exec (.queueNotes v) s = .next ((s.accepted .sound b).terminate .sound b (.refuse .badArg))) ∧
  (∀ (s : State) (v : Word) (b : Block) (slot : Fin 4), s.offered .sound 11 3 v b →
    s.arg8 b 4 = slot.val → s.sound.cues[slot] ≠ [] → s.sound.engine = .running →
    s.sound.notes.length + s.sound.cues[slot].length ≤ 64 →
    exec (.playCue v) s =
      .next (({ s.accepted .sound b with sound := { s.sound with
        notes := s.sound.cues[slot].foldl (fun qs e => insertNote e.note e.delay qs) s.sound.notes } } :
          State).terminate .sound b (.ok s.sound.cues[slot].length))) ∧
  (∀ (s : State) (v : Word) (b : Block) (slot : Fin 4) (st : Status), s.offered .sound 11 3 v b →
    s.arg8 b 4 = slot.val →
    (s.sound.cues[slot] = [] ∨ s.sound.engine ≠ .running ∨
      64 < s.sound.notes.length + s.sound.cues[slot].length) →
    st = (if s.sound.cues[slot] = [] then .badArg else if s.sound.engine ≠ .running then .engineStopped
      else .queueFull) →
    exec (.playCue v) s = .next ((s.accepted .sound b).terminate .sound b (.refuse st))) ∧
  (∀ (s : State) (v : Word) (b : Block), s.offered .sound 11 3 v b → 4 ≤ s.arg8 b 4 →
    exec (.playCue v) s = .next ((s.accepted .sound b).terminate .sound b (.refuse .badArg))) ∧
  (∀ (s : State) (slot : Fin 4) (alarm : Fin 32), s.supplyState = .full → s.sound.cues[slot] ≠ [] →
    s.sound.engine = .running → s.sound.notes.length + s.sound.cues[slot].length ≤ 64 →
    exec (.cueRequest slot alarm) s =
      .next { s with sound := { s.sound with
        notes := s.sound.cues[slot].foldl (fun qs e => insertNote e.note e.delay qs)
          s.sound.notes } }) ∧
  ∀ (s : State) (slot : Fin 4) (alarm : Fin 32) (reason : DropReason), s.supplyState = .full →
    (s.sound.cues[slot] = [] ∨ s.sound.engine ≠ .running ∨
      64 < s.sound.notes.length + s.sound.cues[slot].length) →
    reason = (if s.sound.cues[slot] = [] then .emptySlot else if s.sound.engine ≠ .running then .notRunning
      else .queueFull) →
    exec (.cueRequest slot alarm) s =
      .next { s with sound := { s.sound with
        lastDrop := some { alarm := alarm, slot := slot, reason := reason }, cueDropped := true } }

/-- R96, R93, R94, R95, R92, R97, R98, R108: the step output of each source, with the noise sequence and its
recurrence, and the mixed frame; the advance of a voice by one frame; a production event in Running and in
Muting, with the beat event and the ramp's end that it brings (`BeatAndRampEnd` says what they are), and
none while the FIFO is full; a step boundary of one voice, which is the production event that brings the
voice to it and changes nothing where no production event does (that STEP_BOUNDARY as a command of its own is
that whole production event is the model's choice, log 7); a pull; the 32 bits of a frame on SDO, the left
sample first, each from its most significant bit. -/
def Obligations.Frames : Prop :=
  (∀ (g : Nat) (waves : Vector (Option (Vector Byte 32)) 8) (vs : Vector Voice 8),
    (mixFrame g waves vs).left = BitVec.ofInt 16 (max (-32768) (min 32767 (Int.tdiv
      ((vs.toList.map fun v => if v.active.key then
        Int.tdiv (v.stepOutput waves * v.active.level.val * v.active.panL.val) 16 else 0).sum * g) 64))) ∧
    (mixFrame g waves vs).right = BitVec.ofInt 16 (max (-32768) (min 32767 (Int.tdiv
      ((vs.toList.map fun v => if v.active.key then
        Int.tdiv (v.stepOutput waves * v.active.level.val * v.active.panR.val) 16 else 0).sum * g) 64)))) ∧
  (∀ (v : Voice) (waves : Vector (Option (Vector Byte 32)) 8),
    (v.active.source = .off → v.stepOutput waves = 0) ∧
    (v.active.source = .square →
      v.stepOutput waves = if v.stepCount < v.active.duty then 127 else -127) ∧
    (v.active.source = .wave → v.stepOutput waves = match waves[v.active.slot] with
      | some w => w[v.waveIndex].toInt
      | none => 0) ∧
    (v.active.source = .noise →
      v.stepOutput waves = if noiseBit v.noisePos.val then 127 else -127)) ∧
  (∀ n, n < 15 → noiseBit n = true) ∧
  (∀ n, noiseBit (n + 15) = (noiseBit n != noiseBit (n + 1))) ∧
  (∀ v : Voice, v.active.key = false → v.advance = v) ∧
  (∀ v : Voice, v.active.key = true → v.periodCount + 1 < v.active.period →
    v.advance = { v with periodCount := v.periodCount + 1 }) ∧
  (∀ v u : Voice, v.active.key = true → v.active.period ≤ v.periodCount + 1 →
    u = { v with
      periodCount := 0,
      stepCount := if v.active.source = .square then
        (if v.stepCount + 1 < v.active.modulus.num then v.stepCount + 1 else 0) else v.stepCount,
      waveIndex := if v.active.source = .wave then v.waveIndex + 1 else v.waveIndex,
      noisePos := if v.active.source = .noise then v.noisePos + 1 else v.noisePos } →
    v.advance = if v.mode = .immediate ∧ v.pending = true then u.take else u) ∧
  (∀ (s : State) (u : Sound), s.supplyState = .full → s.sound.engine = .running →
    s.sound.fifo.length < 64 →
    u.voices.toList = s.sound.voices.toList.map Voice.advance →
    u = { s.sound with fifo := s.sound.fifo ++ [mixFrame s.sound.gain s.sound.waves s.sound.voices],
                       voices := u.voices, frameCount := s.sound.frameCount + 1 } →
    exec .productionEvent s =
      if s.sound.frameCount + 1 = s.sound.tempo then exec .beatEvent s else .next { s with sound := u }) ∧
  (∀ (s : State) (u : Sound), s.supplyState = .full → s.sound.engine = .muting →
    s.sound.fifo.length < 64 → 1 ≤ s.sound.gain →
    u.voices.toList = s.sound.voices.toList.map Voice.advance →
    u = { s.sound with
      fifo := s.sound.fifo ++ [mixFrame (s.sound.gain - 1) s.sound.waves s.sound.voices],
      voices := u.voices, gain := s.sound.gain - 1 } →
    exec .productionEvent s =
      if s.sound.gain = 1 then exec .rampEnd s else .next { s with sound := u }) ∧
  (∀ s : State, (s.supplyState ≠ .full ∨ s.sound.engine = .stopped ∨ s.sound.engine = .held ∨
    64 ≤ s.sound.fifo.length) → exec .productionEvent s = .next s) ∧
  (∀ (s : State) (i : Fin 8) (v u : Voice), s.supplyState = .full →
    (s.sound.engine = .running ∨ s.sound.engine = .muting) → s.sound.fifo.length < 64 →
    v = s.sound.voices[i] → v.active.key = true → v.active.period ≤ v.periodCount + 1 →
    u = { v with
      periodCount := 0,
      stepCount := if v.active.source = .square then
        (if v.stepCount + 1 < v.active.modulus.num then v.stepCount + 1 else 0) else v.stepCount,
      waveIndex := if v.active.source = .wave then v.waveIndex + 1 else v.waveIndex,
      noisePos := if v.active.source = .noise then v.noisePos + 1 else v.noisePos } →
    exec (.stepBoundary i) s = exec .productionEvent s ∧
    ((s.sound.engine = .running → s.sound.frameCount + 1 ≠ s.sound.tempo) →
      ∃ t, exec (.stepBoundary i) s = .next t ∧
        t.sound.voices[i] = if v.mode = .immediate ∧ v.pending = true then u.take else u)) ∧
  (∀ (s : State) (i : Fin 8), (s.supplyState ≠ .full ∨ s.sound.engine = .stopped ∨ s.sound.engine = .held ∨
    64 ≤ s.sound.fifo.length ∨ s.sound.voices[i].active.key = false ∨
    s.sound.voices[i].periodCount + 1 < s.sound.voices[i].active.period) →
    exec (.stepBoundary i) s = .next s) ∧
  (∀ (s : State) (f : Frame) (fs : List Frame), s.supplyState = .full →
    (s.sound.engine = .running ∨ s.sound.engine = .muting) → s.sound.fifo = f :: fs →
    exec .pullEvent s = .next { s with sound := { s.sound with fifo := fs, sdo := f } }) ∧
  (∀ s : State, s.supplyState = .full →
    (s.sound.engine = .stopped ∨ s.sound.engine = .held ∨ s.sound.fifo = []) →
    exec .pullEvent s =
      .next { s with sound := { s.sound with sdo := { left := 0, right := 0 } } }) ∧
  (∀ (s : State) (k : Fin 32), s.supplyState = .full →
    s.sdoBit k = some (if k.val < 16 then s.sound.sdo.left.getLsbD (15 - k.val)
      else s.sound.sdo.right.getLsbD (31 - k.val))) ∧
  ∀ (s : State) (k : Fin 32), s.supplyState ≠ .full → s.sdoBit k = none

/-- R111, R113, R115, R130, R131, R108, R109, R161: a beat event comes with the production event that takes
the frame counter to the active tempo, and else not: the frame and the advance of that production event, the
counters and the tempo, the due entries applied in queue order and the head's wait lowered, the takes, and the
beat signal to the rumble unit, which counts a Beat-paced current play down and reaches no other; the staged
writes of each note action. The ramp ends with the production event in Muting whose frame carries g of 0, and
else not: in Held under the hold mark, with Done when store and rumble unit are held too, and else in Stopped
with the FIFO emptied. That BEAT_EVENT and RAMP_END as commands of their own are the whole production event
when it is due, and else change nothing, is the model's choice (log 7). -/
def Obligations.BeatAndRampEnd : Prop :=
  (∀ (s : State) (due rest : List Queued) (moved applied : Vector Voice 8), s.supplyState = .full →
    s.sound.engine = .running → s.sound.fifo.length < 64 → s.sound.frameCount + 1 = s.sound.tempo →
    moved.toList = s.sound.voices.toList.map Voice.advance → s.sound.notes = due ++ rest →
    (∀ q ∈ due, q.wait = 0) → (∀ q ∈ rest.head?, q.wait ≠ 0) →
    applied = due.foldl (fun vs q => vs.set q.note.voice (q.note.action.apply vs[q.note.voice])) moved →
    ∃ vs, exec .beatEvent s =
      .next { s with
        sound := { s.sound with
          fifo := s.sound.fifo ++ [mixFrame s.sound.gain s.sound.waves s.sound.voices],
          frameCount := 0, beats := s.sound.beats + 1, tempo := s.sound.nextTempo, voices := vs,
          notes := match rest with
            | [] => []
            | q :: qs => { q with wait := q.wait - 1 } :: qs },
        rumble := s.rumble.tick .beat true } ∧
      ∀ i : Fin 8, vs[i] =
        if applied[i].pending = true ∧ (applied[i].mode = .synced ∨ applied[i].active.key = false) then
          applied[i].take else applied[i]) ∧
  (∀ s : State, (s.supplyState ≠ .full ∨ s.sound.engine ≠ .running ∨ 64 ≤ s.sound.fifo.length ∨
    s.sound.frameCount + 1 ≠ s.sound.tempo) → exec .beatEvent s = .next s) ∧
  (∀ (v : Voice) (period : Nat) (level : Fin 128), (NoteAction.keyOn period level).apply v =
    { v with staged := { v.staged with period := period, level := level, key := true },
             pending := true, retrigger := true }) ∧
  (∀ v : Voice, NoteAction.keyOff.apply v =
    { v with staged := { v.staged with key := false }, pending := true, retrigger := false }) ∧
  (∀ (v : Voice) (level : Fin 128), (NoteAction.setLevel level).apply v =
    { v with staged := { v.staged with level := level }, pending := true }) ∧
  (∀ (v : Voice) (slot : Fin 8), (NoteAction.setWave slot).apply v =
    { v with staged := { v.staged with slot := slot }, pending := true }) ∧
  (∀ r : Rumble, (∀ c, r.current = some c → r.beatPaced c.play.pattern = false) →
    r.tick .beat true = r) ∧
  (∀ (r : Rumble) (c : Current) (p : Pattern), r.current = some c →
    r.patterns[c.play.pattern] = some p → p.pacing = .beat → 2 ≤ c.left →
    r.tick .beat true = { r with current := some { c with left := c.left - 1 } }) ∧
  (∀ (r : Rumble) (c : Current) (p : Pattern) (st : PatStep), r.current = some c →
    r.patterns[c.play.pattern] = some p → p.pacing = .beat → c.left ≤ 1 →
    p.steps[c.step + 1]? = some st →
    r.tick .beat true = { r with current := some { c with step := c.step + 1, left := st.length } }) ∧
  (∀ (r : Rumble) (c : Current) (p : Pattern) (st : PatStep), r.current = some c →
    r.patterns[c.play.pattern] = some p → p.pacing = .beat → c.left ≤ 1 →
    p.steps.length = c.step + 1 → p.steps[0]? = some st →
    (p.times = 0 ∨ min 255 (c.reps + 1) < p.times) → c.reps ≤ 255 →
    r.tick .beat true =
      { r with current := some { c with step := 0, reps := min 255 (c.reps + 1), left := st.length } }) ∧
  (∀ (r : Rumble) (c : Current) (p : Pattern), r.current = some c →
    r.patterns[c.play.pattern] = some p → p.pacing = .beat → c.left ≤ 1 →
    p.steps.length = c.step + 1 → p.times ≠ 0 → p.times ≤ min 255 (c.reps + 1) → c.reps ≤ 255 →
    r.outcomes.length ≤ 8 →
    r.tick .beat true = r.passedOn (endings [c.play] .completed) r.queue) ∧
  (∀ (s : State) (held : Bool) (moved : Vector Voice 8), s.supplyState = .full →
    s.sound.engine = .muting → s.sound.fifo.length < 64 → s.sound.gain ≤ 1 → s.sound.hold = true →
    moved.toList = s.sound.voices.toList.map Voice.advance →
    (held = true ↔ s.rumble.hold = true ∧ (s.store.status = .quiesced ∨
      s.store.status = .unformatted ∧ s.store.hold = true ∧ s.store.op = .none)) →
    exec .rampEnd s =
      .next { s with
        sound := { s.sound with
          gain := 0, engine := .held, voices := moved,
          fifo := s.sound.fifo ++ [mixFrame 0 s.sound.waves s.sound.voices] },
        link := { s.link with quiesce := s.link.quiesce.reported held } }) ∧
  (∀ (s : State) (moved : Vector Voice 8), s.supplyState = .full → s.sound.engine = .muting →
    s.sound.fifo.length < 64 → s.sound.gain ≤ 1 → s.sound.hold = false →
    moved.toList = s.sound.voices.toList.map Voice.advance →
    exec .rampEnd s =
      .next { s with sound := { s.sound with
        gain := 0, engine := .stopped, voices := moved, fifo := [] } }) ∧
  ∀ s : State, (s.supplyState ≠ .full ∨ s.sound.engine ≠ .muting ∨ 64 ≤ s.sound.fifo.length ∨
    2 ≤ s.sound.gain) → exec .rampEnd s = .next s

/-! ## The rumble unit -/

/-- R122, R123, R124, R133: a wrap takes a pending staged set and fixes the duty of the period by the current
step's level under the cap, which is the duty on MDRV in Full, and there is none outside Full; SET_LEVELS
writes the staged set with each duty inside the modulus. -/
def Obligations.DriveAndLevels : Prop :=
  (∀ (r : Rumble) (c : Current) (p : Pattern) (st : PatStep), r.patterns[c.play.pattern] = some p →
    p.steps[c.step]? = some st → r.stepLevel c = st.level) ∧
  (∀ s : State, s.motorDuty = if s.supplyState = .full then s.rumble.duty else 0) ∧
  (∀ (s : State) (act : DriveSet) (level : Level) (duty : Nat), s.supplyState = .full →
    act = (if s.rumble.drivePending then s.rumble.staged else s.rumble.active) →
    level = (match s.rumble.current with
      | some c => (s.rumble.stepLevel c)
      | none => .off) →
    duty = (if s.rumble.state = .playing ∧ s.link.cap ≠ .off then
      (match level, s.link.cap with
        | .off, _ => 0
        | .low, _ => act.low
        | .high, .lowOnly => act.low
        | .full, .lowOnly => act.low
        | .high, _ => act.high
        | .full, _ => act.modulus.num) else 0) →
    exec .driveWrap s =
      .next { s with rumble := { s.rumble with active := act, drivePending := false, duty := duty } }) ∧
  (∀ (s : State) (v : Word) (b : Block) (m : Modulus), s.offered .rumble 1 4 v b →
    s.arg16 b 4 = m.num → s.arg16 b 6 ≤ 256 → s.arg16 b 8 ≤ 256 →
    exec (.setLevels v) s =
      .next (({ s.accepted .rumble b with rumble := { s.rumble with
        staged := { modulus := m, low := min (s.arg16 b 6) m.num, high := min (s.arg16 b 8) m.num },
        drivePending := true } } : State).terminate .rumble b (.ok 0))) ∧
  ∀ (s : State) (v : Word) (b : Block), s.offered .rumble 1 4 v b →
    ((∀ m : Modulus, s.arg16 b 4 ≠ m.num) ∨ 256 < s.arg16 b 6 ∨ 256 < s.arg16 b 8) →
    exec (.setLevels v) s = .next ((s.accepted .rumble b).terminate .rumble b (.refuse .badArg))

/-- R125: LOAD_PATTERN replaces a slot that no play names, an empty step list emptying it; its steps are read
from the block two bytes a step, each stating its level and its length in range (`State.stepIs`, TABLE 11-6),
or it fails; a slot in use gives PATTERN_IN_USE and a field out of range BAD_ARG, each changing nothing else;
at Full entry every slot becomes empty. -/
def Obligations.LoadPattern : Prop :=
  (∀ (s : State) (x n : Nat) (steps : List PatStep), s.stepsAt x n = some steps ↔
    steps.length = n ∧ ∀ (k : Nat) (st : PatStep), steps[k]? = some st → s.stepIs (x + 2 * k) st) ∧
  (∀ (s : State) (v : Word) (b : Block) (slot : Fin 8) (n : Nat) (steps : List PatStep),
    n = s.arg8 b 7 → s.offered .rumble 2 (3 + (n + 1) / 2) v b → s.arg8 b 4 = slot.val →
    s.arg8 b 5 ≤ 1 → s.arg8 b 6 ≤ 15 → n ≤ 16 → s.stepsAt (b.off + 8) n = some steps →
    (∀ c, s.rumble.current = some c → c.play.pattern ≠ slot) →
    (∀ p ∈ s.rumble.queue, p.pattern ≠ slot) →
    exec (.loadPattern v) s =
      .next (({ s.accepted .rumble b with rumble := { s.rumble with
        patterns := s.rumble.patterns.set slot
          (if n = 0 then none else some
            { pacing := if s.arg8 b 5 = 0 then .time else .beat, times := s.arg8 b 6,
              steps := steps }) } } : State).terminate .rumble b (.ok n))) ∧
  (∀ (s : State) (v : Word) (b : Block) (slot : Fin 8) (n : Nat) (steps : List PatStep),
    n = s.arg8 b 7 → s.offered .rumble 2 (3 + (n + 1) / 2) v b → s.arg8 b 4 = slot.val →
    s.arg8 b 5 ≤ 1 → s.arg8 b 6 ≤ 15 → n ≤ 16 → s.stepsAt (b.off + 8) n = some steps →
    ((∃ c, s.rumble.current = some c ∧ c.play.pattern = slot) ∨
      ∃ p ∈ s.rumble.queue, p.pattern = slot) →
    exec (.loadPattern v) s =
      .next ((s.accepted .rumble b).terminate .rumble b (.refuse .patternInUse))) ∧
  (∀ (s : State) (v : Word) (b : Block) (n : Nat), n = s.arg8 b 7 →
    s.offered .rumble 2 (3 + (n + 1) / 2) v b →
    (8 ≤ s.arg8 b 4 ∨ 2 ≤ s.arg8 b 5 ∨ 16 ≤ s.arg8 b 6 ∨ 16 < n ∨
      s.stepsAt (b.off + 8) n = none) →
    exec (.loadPattern v) s = .next ((s.accepted .rumble b).terminate .rumble b (.refuse .badArg))) ∧
  (∀ (s : State) (mv : Nat) (cut : WriteCut), s.supplyState ≠ .full → 2900 < mv →
    ∃ t, exec (.railJudgementChange .vcart mv cut) s = .next t ∧
      ∀ i : Fin 8, t.rumble.patterns[i] = none) ∧
  ∀ (s : State) (cut : WriteCut), s.supplyState = .full →
    ∃ t, exec (.partRestart 1 cut) s = .next t ∧ ∀ i : Fin 8, t.rumble.patterns[i] = none

/-- R128, R129, R130, R138: an arrival, from the console and from an alarm. A PLAY_PATTERN with a pattern
above 7 or a priority above 3 gives BAD_ARG. The checks refuse a console play with a status and the plays in
the queue as its count, and record an alarm play with an outcome. A play that passes starts when none is
current, preempts a current one of lower priority, joins the queue after those of equal or higher priority,
evicts the tail of a full queue that it is above (`Rumble.Placed`), or is refused: QUEUE_FULL, or Dropped.
The outcome list keeps its first 8 records. -/
def Obligations.Plays : Prop :=
  (∀ (s : State) (v : Word) (b : Block), s.offered .rumble 3 3 v b →
    (8 ≤ s.arg8 b 4 ∨ 4 ≤ s.arg8 b 5) →
    exec (.playPattern v) s =
      .next ((s.accepted .rumble b).terminate .rumble b
        { status := .badArg, part := false, late := false, count := s.rumble.queue.length })) ∧
  (∀ (s : State) (v : Word) (b : Block) (slot : Fin 8) (prio : Fin 4) (st : Status),
    s.offered .rumble 3 3 v b → s.arg8 b 4 = slot.val → s.arg8 b 5 = prio.val →
    (s.rumble.trip = true ∨ s.rumble.hold = true ∨ s.link.cap = .off ∨
      s.rumble.patterns[slot] = none ∨
      s.rumble.beatPaced slot = true ∧ s.sound.engine ≠ .running) →
    st = (if s.rumble.trip then .tripped else if s.rumble.hold then .quiesced
      else if s.link.cap = .off then .capped else if s.rumble.patterns[slot] = none then .noPattern
      else .engineStopped) →
    exec (.playPattern v) s =
      .next ((s.accepted .rumble b).terminate .rumble b
        { status := st, part := false, late := false, count := s.rumble.queue.length })) ∧
  (∀ (s : State) (v : Word) (b : Block) (slot : Fin 8) (prio : Fin 4) (p : Pattern) (code : Byte)
    (r : Rumble),
    s.offered .rumble 3 3 v b → s.arg8 b 4 = slot.val → s.arg8 b 5 = prio.val →
    s.rumble.trip = false → s.rumble.hold = false → s.link.cap ≠ .off →
    s.rumble.patterns[slot] = some p → (p.pacing = .beat → s.sound.engine = .running) →
    s.rumble.outcomes.length ≤ 8 →
    s.rumble.Placed { pattern := slot, priority := prio, source := .console } code r →
    exec (.playPattern v) s =
      .next ((({ s.accepted .rumble b with rumble := r } : State).putRam (b.off + 6)
        [code, 0]).terminate .rumble b (.ok r.queue.length))) ∧
  (∀ (s : State) (v : Word) (b : Block) (slot : Fin 8) (prio : Fin 4) (p : Pattern) (c : Current)
    (qs : List Play) (t : Play),
    s.offered .rumble 3 3 v b → s.arg8 b 4 = slot.val → s.arg8 b 5 = prio.val →
    s.rumble.trip = false → s.rumble.hold = false → s.link.cap ≠ .off →
    s.rumble.patterns[slot] = some p → (p.pacing = .beat → s.sound.engine = .running) →
    s.rumble.current = some c → prio ≤ c.play.priority → s.rumble.queue = qs ++ [t] →
    s.rumble.queue.length = 4 → prio ≤ t.priority →
    exec (.playPattern v) s =
      .next ((s.accepted .rumble b).terminate .rumble b
        { status := .queueFull, part := false, late := false, count := 4 })) ∧
  (∀ (s : State) (slot : Fin 8) (prio : Fin 4) (k : OutcomeKind), s.supplyState = .full →
    (s.rumble.trip = true ∨ s.rumble.hold = true ∨ s.link.cap = .off ∨
      s.rumble.patterns[slot] = none ∨
      s.rumble.beatPaced slot = true ∧ s.sound.engine ≠ .running) →
    k = (if s.rumble.trip then .tripped else if s.rumble.hold then .quiesced
      else if s.link.cap = .off then .capped else if s.rumble.patterns[slot] = none then .noPattern
      else .beatLost) → s.rumble.outcomes.length ≤ 8 →
    exec (.playRequest slot prio) s =
      .next { s with rumble := { s.rumble with
        outcomes := (s.rumble.outcomes ++
          endings [{ pattern := slot, priority := prio, source := .alarm }] k).take 8 } }) ∧
  (∀ (s : State) (slot : Fin 8) (prio : Fin 4) (p : Pattern) (code : Byte) (r : Rumble),
    s.supplyState = .full → s.rumble.trip = false → s.rumble.hold = false → s.link.cap ≠ .off →
    s.rumble.patterns[slot] = some p → (p.pacing = .beat → s.sound.engine = .running) →
    s.rumble.outcomes.length ≤ 8 →
    s.rumble.Placed { pattern := slot, priority := prio, source := .alarm } code r →
    exec (.playRequest slot prio) s = .next { s with rumble := r }) ∧
  ∀ (s : State) (slot : Fin 8) (prio : Fin 4) (p : Pattern) (c : Current) (qs : List Play) (t : Play),
    s.supplyState = .full → s.rumble.trip = false → s.rumble.hold = false → s.link.cap ≠ .off →
    s.rumble.patterns[slot] = some p → (p.pacing = .beat → s.sound.engine = .running) →
    s.rumble.outcomes.length ≤ 8 → s.rumble.current = some c → prio ≤ c.play.priority →
    s.rumble.queue = qs ++ [t] → s.rumble.queue.length = 4 → prio ≤ t.priority →
    exec (.playRequest slot prio) s =
      .next { s with rumble := { s.rumble with
        outcomes := (s.rumble.outcomes ++
          endings [{ pattern := slot, priority := prio, source := .alarm }] .dropped).take 8 } }

/-- R130, R131, R138: a unit event lowers the remaining count of a Time-paced current play; at its end the
step, the repetition or the play ends; a completed play leaves the motor to the head of the queue, a
Beat-paced head with the sound engine not Running leaving BeatLost and the next being tried, or to nothing,
with the drive at 0 at once. A Beat-paced play and an idle unit do not see the event. -/
def Obligations.UnitEvents : Prop :=
  (∀ (s : State) (c : Current) (p : Pattern), s.supplyState = .full → s.rumble.current = some c →
    s.rumble.patterns[c.play.pattern] = some p → p.pacing = .time → 2 ≤ c.left →
    exec .unitEvent s =
      .next { s with rumble := { s.rumble with current := some { c with left := c.left - 1 } } }) ∧
  (∀ (s : State) (c : Current) (p : Pattern) (st : PatStep), s.supplyState = .full →
    s.rumble.current = some c → s.rumble.patterns[c.play.pattern] = some p → p.pacing = .time →
    c.left ≤ 1 → p.steps[c.step + 1]? = some st →
    exec .unitEvent s =
      .next { s with rumble := { s.rumble with
        current := some { c with step := c.step + 1, left := st.length } } }) ∧
  (∀ (s : State) (c : Current) (p : Pattern) (st : PatStep), s.supplyState = .full →
    s.rumble.current = some c → s.rumble.patterns[c.play.pattern] = some p → p.pacing = .time →
    c.left ≤ 1 → p.steps.length = c.step + 1 → p.steps[0]? = some st →
    (p.times = 0 ∨ min 255 (c.reps + 1) < p.times) → c.reps ≤ 255 →
    exec .unitEvent s =
      .next { s with rumble := { s.rumble with
        current := some { c with step := 0, reps := min 255 (c.reps + 1), left := st.length } } }) ∧
  (∀ (s : State) (c : Current) (p : Pattern) (skipped rest : List Play), s.supplyState = .full →
    s.rumble.current = some c → s.rumble.patterns[c.play.pattern] = some p → p.pacing = .time →
    c.left ≤ 1 → p.steps.length = c.step + 1 → p.times ≠ 0 → p.times ≤ min 255 (c.reps + 1) →
    c.reps ≤ 255 → s.rumble.outcomes.length ≤ 8 →
    s.rumble.skips (decide (s.sound.engine = .running)) skipped rest →
    exec .unitEvent s =
      .next { s with rumble :=
        s.rumble.passedOn (endings [c.play] .completed ++ endings skipped .beatLost) rest }) ∧
  ∀ s : State, s.supplyState = .full → (∀ c, s.rumble.current = some c →
    s.rumble.beatPaced c.play.pattern = true) → exec .unitEvent s = .next s

/-- R134, R135, R137, R138: a trip ends every play Tripped, if there are any, and stops the drive at once;
under the hold mark it sets the trip mark alone, and with the trip mark set, or outside Full, it changes
nothing in the unit. STOP_RUMBLE ends every play Stopped, or ends OK with count 0 when there is none;
CLEAR_TRIP clears the mark once MSNS is deasserted. Plays end the current one first and then in queue order,
and the outcome list keeps its first 8 records. That TRIP carries the level of MSNS, and that a deassertion
is the same row and changes only that level, is the model's choice (log 25). -/
def Obligations.TripStopAndClear : Prop :=
  (∀ (s : State) (ps : List Play), s.supplyState = .full → s.rumble.trip = false →
    s.rumble.hold = false → s.rumble.outcomes.length ≤ 8 →
    ps = (match s.rumble.current with
      | some c => [c.play]
      | none => []) ++ s.rumble.queue →
    exec (.trip true) s =
      .next { s with
        msns := true,
        rumble := { s.rumble with
          trip := true, current := none, queue := [], duty := 0,
          outcomes := (s.rumble.outcomes ++ endings ps .tripped).take 8 } }) ∧
  (∀ s : State, s.supplyState = .full → s.rumble.trip = false → s.rumble.hold = true →
    exec (.trip true) s =
      .next { s with msns := true, rumble := { s.rumble with trip := true, duty := 0 } }) ∧
  (∀ s : State, (s.supplyState ≠ .full ∨ s.rumble.trip = true) →
    exec (.trip true) s = .next { s with msns := true }) ∧
  (∀ s : State, exec (.trip false) s = .next { s with msns := false }) ∧
  (∀ (s : State) (v : Word) (b : Block) (c : Current), s.offered .rumble 4 2 v b →
    s.rumble.current = some c → s.rumble.outcomes.length ≤ 8 →
    exec (.stopRumble v) s =
      .next (({ s.accepted .rumble b with rumble := { s.rumble with
        current := none, queue := [], duty := 0,
        outcomes := (s.rumble.outcomes ++
          endings (c.play :: s.rumble.queue) .stopped).take 8 } } : State).terminate .rumble b
            (.ok (s.rumble.queue.length + 1)))) ∧
  (∀ (s : State) (v : Word) (b : Block), s.offered .rumble 4 2 v b → s.rumble.current = none →
    s.rumble.queue = [] →
    exec (.stopRumble v) s = .next ((s.accepted .rumble b).terminate .rumble b (.ok 0))) ∧
  (∀ (s : State) (v : Word) (b : Block), s.offered .rumble 5 2 v b → s.rumble.trip = true →
    s.msns = false →
    exec (.clearTrip v) s =
      .next (({ s.accepted .rumble b with rumble := { s.rumble with trip := false } } :
        State).terminate .rumble b (.ok 0))) ∧
  (∀ (s : State) (v : Word) (b : Block), s.offered .rumble 5 2 v b → s.rumble.trip = true →
    s.msns = true →
    exec (.clearTrip v) s = .next ((s.accepted .rumble b).terminate .rumble b (.refuse .tripActive))) ∧
  ∀ (s : State) (v : Word) (b : Block), s.offered .rumble 5 2 v b → s.rumble.trip = false →
    exec (.clearTrip v) s = .next ((s.accepted .rumble b).terminate .rumble b (.ok 0))

/-! ## The console port -/

/-- R143, R144, R145: a nonzero value that names no acceptable block, or that meets a Busy or Pending cell,
sets the Refused mark and nothing else; a zero to a Pending cell makes it Idle, the mark and Exchange RAM
as they stood; a zero to an Idle cell and any write outside Full change nothing. -/
def Obligations.CellWrites : Prop :=
  (∀ (s : State) (c : CellId) (v : Word) (b : Block), s.supplyState = .full →
    (s.cell c).hold = .idle → v ≠ 0 → b = s.blockAt v →
    (b.off % 4 ≠ 0 ∨ b.off = 0 ∨ b.words < 2 ∨ 64 < b.words ∨ 4096 < b.off + 4 * b.words) →
    exec (.refusedCellWrite c v) s = .next (s.setCell c { hold := .idle, refused := true })) ∧
  (∀ (s : State) (c : CellId) (v : Word), s.supplyState = .full → (s.cell c).hold ≠ .idle → v ≠ 0 →
    exec (.refusedCellWrite c v) s =
      .next (s.setCell c { hold := (s.cell c).hold, refused := true })) ∧
  (∀ (s : State) (c : CellId) (b : Block), s.supplyState = .full → (s.cell c).hold = .pending b →
    exec (.acknowledge c) s =
      .next (s.setCell c { hold := .idle, refused := (s.cell c).refused })) ∧
  (∀ (s : State) (c : CellId), s.supplyState = .full → (s.cell c).hold = .idle →
    exec (.acknowledge c) s = .next s) ∧
  ∀ (s : State) (c : CellId) (v : Word), s.supplyState ≠ .full →
    exec (.blockOffer c v) s = .next s ∧ exec (.refusedCellWrite c v) s = .next s ∧
      exec (.acknowledge c) s = .next s

/-- R141, R142, R143, R150, R151, TABLE 8-2: a word written to Exchange RAM is stored low byte first at the even
address and reads back, every other byte unchanged; a write to an address that names nothing changes
nothing; a read of a cell shows the offset of its block, Refused and Pending, part control reads 0 and any
address past it 0xFFFF, and outside Full no read returns a word; a write to notice enable replaces
the twelve enables. Each of the twelve causes is present exactly
while its source is; a read of the notice summary returns the causes present and the top cause, the lowest
rank present and enabled, and a read of notice enable the enables; NTC follows the top cause. That
EXCHANGE_RAM_WRITE carries any address of the window, those of the cell area among them, is the model's
choice (log 26). -/
def Obligations.RamAndNotices : Prop :=
  (∀ s : State, s.supplyState = .full → s.busRead 0x1000 = some (s.cell .store).value ∧
    s.busRead 0x1002 = some (s.cell .calendar).value ∧ s.busRead 0x1004 = some (s.cell .sound).value ∧
    s.busRead 0x1006 = some (s.cell .rumble).value ∧ s.busRead 0x100C = some 0 ∧
    ∀ a : BitVec 13, 0x100E ≤ a.toNat → s.busRead a = some 0xFFFF) ∧
  (∀ (s : State) (a : BitVec 13), s.supplyState ≠ .full → s.busRead a = none) ∧
  (∀ (x : CellReg) (off pend : Nat),
    (match x.hold with
      | .idle => off = 0 ∧ pend = 0
      | .busy b => off = b.off ∧ pend = 0
      | .pending b => off = b.off ∧ pend = 1) →
    x.value = BitVec.ofNat 16 (off + 16384 * x.refused.toNat + 32768 * pend)) ∧
  (∀ (s : State) (a : BitVec 13) (v : Word), s.supplyState = .full → a.toNat < 4096 →
    Memory.wf s.port.ram = true →
    ∃ t, exec (.exchangeRamWrite a v) s = .next t ∧
      t.ramNat (a.toNat / 2 * 2) 2 = v.toNat ∧ t.busRead a = some v ∧
      (∀ x, x ≠ a.toNat / 2 * 2 → x ≠ a.toNat / 2 * 2 + 1 → t.ramByte x = s.ramByte x) ∧
      t = { s with port := { s.port with ram := t.port.ram } }) ∧
  (∀ (s : State) (a : BitVec 13) (v : Word), s.supplyState = .full →
    (a.toNat / 2 * 2 = 0x1008 ∨ 0x100E ≤ a.toNat) → exec (.exchangeRamWrite a v) s = .next s) ∧
  (∀ (s : State) (v : Word), s.supplyState = .full →
    exec (.noticeEnableWrite v) s =
      .next { s with port := { s.port with enable := v.setWidth 12 } }) ∧
  (∀ s : State, (s.causes.getLsbD 0 = true ↔ s.rumble.trip = true) ∧
    (s.causes.getLsbD 1 = true ↔ ∃ b, s.port.store.hold = .pending b) ∧
    (s.causes.getLsbD 2 = true ↔ ∃ b, s.port.calendar.hold = .pending b) ∧
    (s.causes.getLsbD 3 = true ↔ ∃ b, s.port.sound.hold = .pending b) ∧
    (s.causes.getLsbD 4 = true ↔ ∃ b, s.port.rumble.hold = .pending b) ∧
    (s.causes.getLsbD 5 = true ↔ s.cal.fired ≠ []) ∧
    (s.causes.getLsbD 6 = true ↔ s.sound.cueDropped = true) ∧
    (s.causes.getLsbD 7 = true ↔ s.rumble.outcomes ≠ []) ∧
    (s.causes.getLsbD 8 = true ↔ s.rumble.capChanged = true) ∧
    (s.causes.getLsbD 9 = true ↔ s.store.storeDamaged = true) ∧
    (s.causes.getLsbD 10 = true ↔ s.cal.timeLost = true) ∧
    (s.causes.getLsbD 11 = true ↔ ∃ c : CellId, (s.cell c).refused = true)) ∧
  ∀ s : State, s.supplyState = .full →
    s.busRead 0x1008 = some (BitVec.ofNat 16 (s.causes.toNat + 4096 * s.topCause)) ∧
    s.busRead 0x100A = some (s.port.enable.setWidth 16) ∧
    (s.topCause = 0 ↔ ∀ i : Fin 12, ¬ (s.causes.getLsbD i.val = true ∧
      s.port.enable.getLsbD i.val = true)) ∧
    (∀ i : Fin 12, s.topCause = i.val + 1 ↔ (s.causes.getLsbD i.val = true ∧
      s.port.enable.getLsbD i.val = true ∧ ∀ j : Fin 12, j < i →
        ¬ (s.causes.getLsbD j.val = true ∧ s.port.enable.getLsbD j.val = true))) ∧
    s.ntc = some (decide (s.topCause ≠ 0))

/-! ## The standby link -/

/-- R154, R156, R157, R158, R174, TABLE 11-13: start and stop conditions in every target state, the address
byte in Address with the response captured at a read address, the bytes of the four responses, and the bytes
clocked out: those of the captured response in order, and 0xFF past its end. -/
def Obligations.LinkFrames : Prop :=
  (∀ s : State, s.keepOn = true →
    exec .startCondition s = .next { s with link := { s.link with target := .address } }) ∧
  (∀ s : State, s.keepOn = true →
    exec .stopCondition s = .next { s with link := { s.link with target := .idle, selected := none } }) ∧
  (∀ s : State, s.keepOn = true → s.link.target = .address →
    exec (.addressByte 0x58) s =
      .next { s with link := { s.link with target := .command, ack := true } }) ∧
  (∀ (s : State) (bytes : List Byte), s.keepOn = true → s.link.target = .address →
    bytes = (match s.link.selected with
      | some .cal => s.calResponse
      | some .nextDue => s.nextDueResponse
      | some .firedHead => s.firedHeadResponse
      | _ => s.statusResponse) →
    exec (.addressByte 0x59) s =
      .next { s with link := { s.link with target := .read, ack := true, response := bytes } }) ∧
  (∀ (s : State) (x : Byte), s.keepOn = true → s.link.target = .address → x ≠ 0x58 → x ≠ 0x59 →
    exec (.addressByte x) s =
      .next { s with link := { s.link with target := .ignore, ack := false } }) ∧
  (∀ (s : State) (k : Nat), s.link.response.length ≤ k → s.linkByteOut k = 0xFF) ∧
  (∀ (s : State) (k : Nat) (x : Byte), s.link.response[k]? = some x → s.linkByteOut k = x) ∧
  (∀ s : State, s.statusResponse.length = 8 ∧ s.calResponse.length = 10 ∧
    s.nextDueResponse.length = 7 ∧ s.firedHeadResponse.length = 17) ∧
  (∀ s : State, s.calResponse =
    bytes16 s.cal.now.day.val ++ bytes32 s.cal.now.second.val ++
      bytes16 (if s.cal.rollover ≤ s.cal.now.second then s.cal.now.day.val
        else if 0 < s.cal.now.day.val then s.cal.now.day.val - 1 else 0) ++
      bytes16 s.cal.epoch.val) ∧
  (∀ (s : State) (store sound rumble : Byte),
    (s.supplyState = .full →
      store = (match s.store.status with
        | .off => 0
        | .scanning => 1
        | .unformatted => 2
        | .ready => 3
        | .busy => 4
        | .quiesced => 5) ∧
      sound = (match s.sound.engine with
        | .stopped => 1
        | .running => 2
        | .muting => 3
        | .held => 4) ∧
      rumble = (if s.rumble.hold then 4 else if s.rumble.trip then 3
        else if s.rumble.current = none then 1 else 2)) →
    (s.supplyState = .full ∨ s.supplyState = .standby ∧ store = 0 ∧ sound = 0 ∧ rumble = 0) →
    s.statusResponse =
      [if s.supplyState = .full then 0 else 1, store, sound, rumble,
       (match s.link.cap with
        | .full => 0
        | .lowOnly => 1
        | .off => 2),
       (match s.link.quiesce with
        | .none => 0
        | .pending => 1
        | .done => 2),
       BitVec.ofNat 8 s.cal.fired.length,
       BitVec.ofNat 8 (s.cal.wakePending.toNat + 2 * s.cal.overflow.toNat + 4 * s.cal.timeLost.toNat +
         8 * s.supply.cellLow.toNat)]) ∧
  (∀ s : State, s.cal.alarms = [] → s.nextDueResponse = List.replicate 7 0) ∧
  (∀ (s : State) (a : Alarm) (rest : List Alarm), s.cal.alarms = a :: rest →
    s.nextDueResponse = 1 :: (bytes16 a.due.day.val ++ bytes32 a.due.second.val)) ∧
  (∀ s : State, s.cal.fired = [] → s.firedHeadResponse = List.replicate 17 0) ∧
  ∀ (s : State) (f : Fired) (rest : List Fired), s.cal.fired = f :: rest → f.supply ≠ .dead →
    s.firedHeadResponse =
      [1, BitVec.ofNat 8 f.id.val, BitVec.ofNat 8 f.owner.val] ++ bytes16 f.tag.toNat ++
        bytes16 f.due.day.val ++
        [f.missed, if f.supply = .full then 0 else if f.supply = .standby then 1 else 2] ++
        bytes32 f.due.second.val ++
        [BitVec.ofNat 8 (f.delivered.toNat + 2 * f.wake.toNat + 4 * f.rearmed.toNat), 0, 0, 0]

/-- R155, R174: in Command, a read command becomes the selected command and moves the target to Complete;
a byte that names no command, and QUIESCE or RESUME outside Full, is not acknowledged and clears the
selection; in Complete and Ignore a byte is not acknowledged; outside the keep domain's power nothing is
heard. -/
def Obligations.LinkCommands : Prop :=
  (∀ s : State, s.keepOn = true → s.link.target = .command →
    exec .status s = .next { s with link := { s.link with
      target := .complete, ack := true, selected := some .status } } ∧
    exec .cal s = .next { s with link := { s.link with
      target := .complete, ack := true, selected := some .cal } } ∧
    exec .nextDue s = .next { s with link := { s.link with
      target := .complete, ack := true, selected := some .nextDue } } ∧
    exec .firedHead s = .next { s with link := { s.link with
      target := .complete, ack := true, selected := some .firedHead } }) ∧
  (∀ (s : State) (x : Byte), s.keepOn = true → s.link.target = .command →
    x ∉ ([0x01, 0x02, 0x03, 0x04, 0x10, 0x11, 0x12, 0x13] : List Byte) →
    exec (.notAcknowledgedByte x) s =
      .next { s with link := { s.link with target := .ignore, ack := false, selected := none } }) ∧
  (∀ s : State, s.supplyState = .standby → s.link.target = .command →
    exec .quiesce s =
      .next { s with link := { s.link with target := .ignore, ack := false, selected := none } } ∧
    exec .resume s =
      .next { s with link := { s.link with target := .ignore, ack := false, selected := none } }) ∧
  (∀ (s : State) (x : Byte), s.keepOn = true →
    (s.link.target = .complete ∨ s.link.target = .ignore) →
    exec (.notAcknowledgedByte x) s =
      .next { s with link := { s.link with target := .ignore, ack := false } }) ∧
  ∀ (s : State) (x : Byte), s.keepOn = false → exec (.addressByte x) s = .next s ∧
    exec (.notAcknowledgedByte x) s = .next s ∧ exec .startCondition s = .next s

/-- R159, R78: WAK is asserted exactly when the supply is Standby and wake-pending is set, and is high
impedance while the keep domain is unpowered; a WAKE_ACK clears wake-pending at its command byte, in Full
and in Standby; Full entry clears it, and the line is deasserted in Full. -/
def Obligations.WakeLine : Prop :=
  (∀ s : State, s.wak = if s.supplyState = .full then some false
    else if s.supplyState = .standby then some s.cal.wakePending else none) ∧
  (∀ s : State, (s.supplyState = .full ∨ s.supplyState = .standby) → s.link.target = .command →
    exec .wakeAck s =
      .next { s with
        cal := { s.cal with wakePending := false },
        link := { s.link with target := .complete, ack := true, selected := some .wakeAck } }) ∧
  ∀ (s : State) (mv : Nat) (cut : WriteCut), s.supplyState ≠ .full → 2900 < mv →
    ∃ t, exec (.railJudgementChange .vcart mv cut) s = .next t ∧ t.supplyState = .full ∧
      t.cal.wakePending = false ∧ t.wak = some false

/-- R160, R133, R155, R174: SET_CAP. The command byte waits for its argument; an argument that encodes a
cap writes it; a change in Full sets CapChanged and, at Off, ends every play Capped, if there are any, with
the drive at 0; the value already held, and any change in Standby, reach no unit; a byte of 3 or more is not
acknowledged. -/
def Obligations.SetCap : Prop :=
  (∀ s : State, s.keepOn = true → s.link.target = .command →
    exec (.setCap .command) s = .next { s with link := { s.link with
      target := .argument, ack := true, selected := some .setCap } }) ∧
  (∀ (s : State) (x : Byte) (cap : Cap), s.keepOn = true → s.link.target = .argument →
    x = (match cap with
      | .full => 0
      | .lowOnly => 1
      | .off => 2) → (cap = s.link.cap ∨ s.supplyState = .standby) →
    exec (.setCap (.argument x)) s =
      .next { s with link := { s.link with target := .complete, ack := true, cap := cap } }) ∧
  (∀ (s : State) (x : Byte) (cap : Cap), s.supplyState = .full → s.link.target = .argument →
    (x = 0 ∧ cap = .full ∨ x = 1 ∧ cap = .lowOnly) → cap ≠ s.link.cap →
    exec (.setCap (.argument x)) s =
      .next { s with
        link := { s.link with target := .complete, ack := true, cap := cap },
        rumble := { s.rumble with capChanged := true } }) ∧
  (∀ (s : State) (c : Current), s.supplyState = .full → s.link.target = .argument →
    s.link.cap ≠ .off → s.rumble.current = some c → s.rumble.outcomes.length ≤ 8 →
    exec (.setCap (.argument 2)) s =
      .next { s with
        link := { s.link with target := .complete, ack := true, cap := .off },
        rumble := { s.rumble with
          capChanged := true, current := none, queue := [], duty := 0,
          outcomes := (s.rumble.outcomes ++
            endings (c.play :: s.rumble.queue) .capped).take 8 } }) ∧
  (∀ s : State, s.supplyState = .full → s.link.target = .argument → s.link.cap ≠ .off →
    s.rumble.current = none → s.rumble.queue = [] →
    exec (.setCap (.argument 2)) s =
      .next { s with
        link := { s.link with target := .complete, ack := true, cap := .off },
        rumble := { s.rumble with capChanged := true, duty := 0 } }) ∧
  ∀ (s : State) (x : Byte), s.keepOn = true → s.link.target = .argument → 3 ≤ x.toNat →
    exec (.setCap (.argument x)) s =
      .next { s with link := { s.link with target := .ignore, ack := false } }

/-- R161, R162, R16, R109, R136: a QUIESCE from None sets the three holds, in every state of the units: a
Ready store becomes Quiesced and any other keeps its state; the plays, if there are any, end Quiesced and the
drive goes to 0, the current play first and before the beat-lost signal of the engine, so that none ends
BeatLost; a tripped unit has no play and takes the hold alone; the engine goes from Running to Muting with
the queue emptied, from Stopped to Held, and stays in Muting or Held. The quiesce state is Done at once when
all three count as held, else Pending. In Pending or Done a QUIESCE changes nothing; a RESUME releases each
unit and makes the state None. -/
def Obligations.QuiesceAndResume : Prop :=
  (∀ (s : State) (ps : List Play) (st : StoreState) (held : Bool), s.supplyState = .full →
    s.link.target = .command → s.link.quiesce = .none → s.rumble.outcomes.length ≤ 8 →
    (s.rumble.trip = true ∨ s.rumble.hold = true → s.rumble.current = none ∧ s.rumble.queue = []) →
    ps = (match s.rumble.current with
      | some c => [c.play]
      | none => []) ++ s.rumble.queue →
    st = (if s.store.status = .ready then .quiesced else s.store.status) →
    (held = true ↔ (st = .quiesced ∨ st = .unformatted ∧ s.store.op = .none) ∧
      (s.sound.engine = .stopped ∨ s.sound.engine = .held)) →
    exec .quiesce s =
      .next { s with
        link := { s.link with target := .complete, ack := true, selected := some .quiesce,
                              quiesce := if held then .done else .pending },
        store := { s.store with hold := true, status := st },
        sound := (match s.sound.engine with
          | .running => { s.sound with hold := true, notes := [], engine := .muting }
          | .stopped => { s.sound with hold := true, engine := .held }
          | .muting | .held => { s.sound with hold := true }),
        rumble := if s.rumble.hold then s.rumble
          else if s.rumble.trip then { s.rumble with hold := true }
          else { s.rumble with
            hold := true, current := none, queue := [], duty := 0,
            outcomes := (s.rumble.outcomes ++ endings ps .quiesced).take 8 } }) ∧
  (∀ s : State, s.supplyState = .full → s.link.target = .command → s.link.quiesce ≠ .none →
    exec .quiesce s =
      .next { s with link := { s.link with
        target := .complete, ack := true, selected := some .quiesce } }) ∧
  (∀ s : State, s.supplyState = .full → s.link.target = .command → s.sound.engine = .held →
    exec .resume s =
      .next { s with
        link := { s.link with target := .complete, ack := true, selected := some .resume,
                              quiesce := .none },
        store := { s.store with
          hold := false, status := if s.store.status = .quiesced then .ready else s.store.status },
        sound := { s.sound with hold := false, engine := .stopped, fifo := [] },
        rumble := { s.rumble with hold := false } }) ∧
  ∀ s : State, s.supplyState = .full → s.link.target = .command → s.sound.engine ≠ .held →
    exec .resume s =
      .next { s with
        link := { s.link with target := .complete, ack := true, selected := some .resume,
                              quiesce := .none },
        store := { s.store with
          hold := false, status := if s.store.status = .quiesced then .ready else s.store.status },
        sound := { s.sound with hold := false }, rumble := { s.rumble with hold := false } }

/-! ## Laws that every step keeps -/

/-- Exchange RAM and the page array keep their canonical form at every step. -/
def Obligations.MemoriesStayCanonical : Prop :=
  ∀ s t : State, s.memoriesCanonical → step s = .next t → t.memoriesCanonical

/-- R164, R170, R78, R163, R167: the supply law of `State.supplyLawful` is kept at every step; that the
unpowered console domain holds fixed values is the model's choice (log 3). -/
def Obligations.SupplyLawKept : Prop :=
  ∀ s t : State, s.supplyLawful → step s = .next t → t.supplyLawful

/-- R66, R75, R56: the law of the alarm table, the fired list and TimeLost is kept at every step. -/
def Obligations.CalendarLawKept : Prop :=
  ∀ s t : State, s.cal.lawful → step s = .next t → t.cal.lawful

/-- R86, R106, R113, R97, R98, R117: the law of the voices, the note queue, the gain and the FIFO is kept at
every step. -/
def Obligations.SoundLawKept : Prop :=
  ∀ s t : State, s.sound.lawful → step s = .next t → t.sound.lawful

/-- R123, R126, R133, R110, R138: the law of the drive, the plays and the outcome list is kept at every
step; the motor is driven only in Full, Playing and with the cap not Off. -/
def Obligations.RumbleLawKept : Prop :=
  ∀ s t : State, s.rumbleLawful → step s = .next t →
    t.rumbleLawful ∧ (t.motorDuty ≠ 0 →
      t.supplyState = .full ∧ t.rumble.state = .playing ∧ t.link.cap ≠ .off)

/-- R161, R162: the quiesce state is Done exactly while the three units are held under a quiesce, Pending
while one is not, at every step. -/
def Obligations.QuiesceLawKept : Prop :=
  ∀ s t : State, s.quiesceLawful → step s = .next t → t.quiesceLawful

/-- R14: whenever the store is Ready, Busy or Quiesced, each of the 480 page indices is counted exactly
once among the free list, the chains, the operation in flight and the bad-page set. The law of
`State.pagesLawful`, which carries this through every operation and the recovery scan, is kept at every
step. -/
def Obligations.PageAccountingKept : Prop :=
  ∀ s t : State, s.pagesLawful → step s = .next t →
    t.pagesLawful ∧ ((t.store.status = .ready ∨ t.store.status = .busy ∨ t.store.status = .quiesced) →
      ∀ p : PageNo, t.store.pageList.count p = 1)

/-- R83: in Full, once the store has left Scanning and outside a delete's purge and a format, every alarm
names a file in the live-file set; the law of `State.ownersLawful` is kept at every step. -/
def Obligations.AlarmOwnersKept : Prop :=
  ∀ s t : State, s.ownersLawful → step s = .next t →
    t.ownersLawful ∧ (t.supplyState = .full → t.store.op = .none → t.ownersLive)

/-- Right after reset every law holds (TABLE 1-5, 3-5, 5-5, 6-3, 7-6, 8-3; log 1). -/
def Obligations.LawsHoldAtReset : Prop :=
  State.reset.memoriesCanonical ∧ State.reset.supplyLawful ∧ State.reset.cal.lawful ∧
    State.reset.sound.lawful ∧ State.reset.rumbleLawful ∧ State.reset.quiesceLawful ∧
    State.reset.pagesLawful ∧ State.reset.ownersLawful ∧ State.reset.supplyState = .full ∧
    State.reset.pending = []
end

