-- ==== Sys2Proof/Laws/Memory.lean ====
section
/-! SUPPORT. Addressed memory: what a read finds after a write, and that every write keeps the canonical
form. -/

namespace Sys2Proof.Machine

/-! ## The canonical form -/

/-- A list in canonical form from `lo` is in canonical form from every lower address. -/
theorem Mem.wfFrom_mono {lo lo' : Nat} {m : Mem} (h : Mem.wfFrom lo m = true) (hle : lo' ≤ lo) :
    Mem.wfFrom lo' m = true := by
  cases m with
  | nil => rfl
  | cons c m =>
    obtain ⟨a, v⟩ := c
    simp only [Mem.wfFrom, Bool.and_eq_true, decide_eq_true_eq] at h ⊢
    exact ⟨⟨by omega, h.1.2⟩, h.2⟩

/-- Below the lowest listed address every byte reads as unlisted. -/
theorem Mem.read_below {lo : Nat} {m : Mem} (h : Mem.wfFrom lo m = true) {x : Nat} (hx : x < lo) :
    Mem.read m x = Mem.unlisted := by
  induction m generalizing lo with
  | nil => rfl
  | cons c m ih =>
    obtain ⟨a, v⟩ := c
    simp only [Mem.wfFrom, Bool.and_eq_true, decide_eq_true_eq] at h
    have hne : ¬ x = a := by omega
    simp only [Mem.read, if_neg hne]
    exact ih h.2 (by omega)

/-- A write keeps the canonical form. -/
theorem Mem.write_wfFrom {lo : Nat} {m : Mem} (h : Mem.wfFrom lo m = true) {x : Nat} (hx : lo ≤ x)
    (v : Byte) : Mem.wfFrom lo (Mem.write m x v) = true := by
  induction m generalizing lo with
  | nil =>
    unfold Mem.write
    split
    · rfl
    · simp [Mem.wfFrom, *]
  | cons c m ih =>
    obtain ⟨a, w⟩ := c
    have h0 := h
    simp only [Mem.wfFrom, Bool.and_eq_true, decide_eq_true_eq] at h
    obtain ⟨⟨h1, h2⟩, h3⟩ := h
    unfold Mem.write
    split
    · split
      · exact h0
      · simp only [Mem.wfFrom, Bool.and_eq_true, decide_eq_true_eq]
        exact ⟨⟨hx, by assumption⟩, ⟨⟨by omega, h2⟩, h3⟩⟩
    · split
      · split
        · exact Mem.wfFrom_mono h3 (by omega)
        · simp only [Mem.wfFrom, Bool.and_eq_true, decide_eq_true_eq]
          exact ⟨⟨hx, by assumption⟩, by subst_vars; exact h3⟩
      · simp only [Mem.wfFrom, Bool.and_eq_true, decide_eq_true_eq]
        exact ⟨⟨h1, h2⟩, ih h3 (by omega)⟩

/-- A read after a write: the byte written at its address, every other byte as before. -/
theorem Mem.read_write {lo : Nat} {m : Mem} (h : Mem.wfFrom lo m = true) (x : Nat) (v : Byte) (y : Nat) :
    Mem.read (Mem.write m x v) y = if y = x then v else Mem.read m y := by
  induction m generalizing lo with
  | nil =>
    unfold Mem.write
    split
    · next hv => simp only [Mem.read]; split <;> simp [hv]
    · simp [Mem.read]
  | cons c m ih =>
    obtain ⟨a, w⟩ := c
    have h0 := h
    simp only [Mem.wfFrom, Bool.and_eq_true, decide_eq_true_eq] at h
    obtain ⟨⟨h1, h2⟩, h3⟩ := h
    unfold Mem.write
    split
    · next hlt =>
      split
      · next hv =>
        split
        · next hy =>
          subst hy
          have : Mem.wfFrom a ((a, w) :: m) = true := by
            simp only [Mem.wfFrom, Bool.and_eq_true, decide_eq_true_eq]
            exact ⟨⟨Nat.le_refl _, h2⟩, h3⟩
          rw [Mem.read_below this hlt, hv]
        · rfl
      · simp only [Mem.read]
    · split
      · next hnlt heq =>
        subst heq
        split
        · next hv =>
          split
          · next hy => subst hy; rw [Mem.read_below h3 (by omega), hv]
          · next hy => simp only [Mem.read, if_neg hy]
        · next hv => simp only [Mem.read]; split <;> simp_all
      · next hnlt hne =>
        simp only [Mem.read]
        rw [ih h3]
        by_cases hya : y = a
        · subst hya
          have : ¬ y = x := fun e => hne e.symm
          simp [this]
        · simp [hya]

/-- Writing bytes keeps the canonical form. -/
theorem Mem.writes_wfFrom {lo : Nat} {m : Mem} (h : Mem.wfFrom lo m = true) {a : Nat} (ha : lo ≤ a)
    (bs : List Byte) : Mem.wfFrom lo (Mem.writes m a bs) = true := by
  induction bs generalizing m a with
  | nil => exact h
  | cons b bs ih => exact ih (Mem.write_wfFrom h ha b) (by omega)

/-- A read after writing bytes from `a` on: the byte written there, every other byte as before. -/
theorem Mem.read_writes {m : Mem} (h : Memory.wf m = true) (a : Nat) (bs : List Byte) (y : Nat) :
    Mem.read (Mem.writes m a bs) y =
      if a ≤ y ∧ y < a + bs.length then bs.getD (y - a) 0 else Mem.read m y := by
  induction bs generalizing m a with
  | nil =>
    have : ¬ (a ≤ y ∧ y < a + ([] : List Byte).length) := by simp only [List.length_nil]; omega
    simp only [this, if_false, Mem.writes]
  | cons b bs ih =>
    have hw : Memory.wf (Mem.write m a b) = true := Mem.write_wfFrom h (Nat.zero_le a) b
    simp only [Mem.writes, ih hw, Mem.read_write h, List.length_cons]
    by_cases hy : y = a
    · subst hy
      have h1 : ¬ (y + 1 ≤ y ∧ y < y + 1 + bs.length) := by omega
      have h2 : y ≤ y ∧ y < y + (bs.length + 1) := by omega
      rw [if_neg h1, if_pos rfl, if_pos h2, Nat.sub_self, List.getD_cons_zero]
    · by_cases h1 : a + 1 ≤ y ∧ y < a + 1 + bs.length
      · have h2 : a ≤ y ∧ y < a + (bs.length + 1) := by omega
        have h3 : y - a = (y - (a + 1)) + 1 := by omega
        simp only [if_pos h1, if_pos h2]
        rw [h3, List.getD_cons_succ]
      · have h2 : ¬ (a ≤ y ∧ y < a + (bs.length + 1)) := by omega
        simp only [if_neg h1, if_neg h2, if_neg hy]

/-- Writing bytes keeps the canonical form of a whole memory. -/
theorem Memory.writes_wf {m : Mem} (h : Memory.wf m = true) (a : Nat) (bs : List Byte) :
    Memory.wf (Mem.writes m a bs) = true := Mem.writes_wfFrom h (Nat.zero_le a) bs

/-- Reading back the bytes just written. -/
theorem Mem.reads_writes {m : Mem} (h : Memory.wf m = true) (a : Nat) (bs : List Byte) :
    Mem.reads (Mem.writes m a bs) a bs.length = bs := by
  induction bs generalizing m a with
  | nil => rfl
  | cons b bs ih =>
    have hw : Memory.wf (Mem.write m a b) = true := Mem.write_wfFrom h (Nat.zero_le a) b
    simp only [List.length_cons, Mem.reads, Mem.writes, ih hw]
    rw [Mem.read_writes hw]
    have : ¬ (a + 1 ≤ a ∧ a < a + 1 + bs.length) := by omega
    rw [if_neg this, Mem.read_write h, if_pos rfl]

/-- Reading bytes that a write does not touch. -/
theorem Mem.reads_writes_of_disjoint {m : Mem} (h : Memory.wf m = true) (a : Nat) (bs : List Byte)
    (x n : Nat) (hd : x + n ≤ a ∨ a + bs.length ≤ x) :
    Mem.reads (Mem.writes m a bs) x n = Mem.reads m x n := by
  induction n generalizing x with
  | zero => rfl
  | succ n ih =>
    simp only [Mem.reads, Mem.read_writes h]
    have : ¬ (a ≤ x ∧ x < a + bs.length) := by omega
    rw [if_neg this, ih (x + 1) (by omega)]

/-- A read of `n` bytes gives `n` bytes. -/
@[simp] theorem Mem.reads_length (m : Mem) (a n : Nat) : (Mem.reads m a n).length = n := by
  induction n generalizing a with
  | zero => rfl
  | succ n ih => simp [Mem.reads, ih]

end Sys2Proof.Machine
end

