-- ==== Sys2Proof/Laws/State.lean ====
section
/-! SUPPORT. One lemma for each field of the state under each shared update, all true by `rfl`, so that
no proof unfolds a record update. -/

namespace Sys2Proof.Machine

/-! ### withCal -/

section
variable (s : State) (c : Calendar)

@[simp] theorem State.withCal_pending : (s.withCal c).pending = s.pending := rfl
@[simp] theorem State.withCal_supply : (s.withCal c).supply = s.supply := rfl
@[simp] theorem State.withCal_msns : (s.withCal c).msns = s.msns := rfl
@[simp] theorem State.withCal_cal : (s.withCal c).cal = c := rfl
@[simp] theorem State.withCal_batteryLost : (s.withCal c).batteryLost = s.batteryLost := rfl
@[simp] theorem State.withCal_sram : (s.withCal c).sram = s.sram := rfl
@[simp] theorem State.withCal_link : (s.withCal c).link = s.link := rfl
@[simp] theorem State.withCal_port : (s.withCal c).port = s.port := rfl
@[simp] theorem State.withCal_store : (s.withCal c).store = s.store := rfl
@[simp] theorem State.withCal_sound : (s.withCal c).sound = s.sound := rfl
@[simp] theorem State.withCal_rumble : (s.withCal c).rumble = s.rumble := rfl

end

/-! ### withStore -/

section
variable (s : State) (st : Store)

@[simp] theorem State.withStore_pending : (s.withStore st).pending = s.pending := rfl
@[simp] theorem State.withStore_supply : (s.withStore st).supply = s.supply := rfl
@[simp] theorem State.withStore_msns : (s.withStore st).msns = s.msns := rfl
@[simp] theorem State.withStore_cal : (s.withStore st).cal = s.cal := rfl
@[simp] theorem State.withStore_batteryLost : (s.withStore st).batteryLost = s.batteryLost := rfl
@[simp] theorem State.withStore_sram : (s.withStore st).sram = s.sram := rfl
@[simp] theorem State.withStore_link : (s.withStore st).link = s.link := rfl
@[simp] theorem State.withStore_port : (s.withStore st).port = s.port := rfl
@[simp] theorem State.withStore_store : (s.withStore st).store = st := rfl
@[simp] theorem State.withStore_sound : (s.withStore st).sound = s.sound := rfl
@[simp] theorem State.withStore_rumble : (s.withStore st).rumble = s.rumble := rfl

end

/-! ### withSound -/

section
variable (s : State) (so : Sound)

@[simp] theorem State.withSound_pending : (s.withSound so).pending = s.pending := rfl
@[simp] theorem State.withSound_supply : (s.withSound so).supply = s.supply := rfl
@[simp] theorem State.withSound_msns : (s.withSound so).msns = s.msns := rfl
@[simp] theorem State.withSound_cal : (s.withSound so).cal = s.cal := rfl
@[simp] theorem State.withSound_batteryLost : (s.withSound so).batteryLost = s.batteryLost := rfl
@[simp] theorem State.withSound_sram : (s.withSound so).sram = s.sram := rfl
@[simp] theorem State.withSound_link : (s.withSound so).link = s.link := rfl
@[simp] theorem State.withSound_port : (s.withSound so).port = s.port := rfl
@[simp] theorem State.withSound_store : (s.withSound so).store = s.store := rfl
@[simp] theorem State.withSound_sound : (s.withSound so).sound = so := rfl
@[simp] theorem State.withSound_rumble : (s.withSound so).rumble = s.rumble := rfl

end

/-! ### withRumble -/

section
variable (s : State) (r : Rumble)

@[simp] theorem State.withRumble_pending : (s.withRumble r).pending = s.pending := rfl
@[simp] theorem State.withRumble_supply : (s.withRumble r).supply = s.supply := rfl
@[simp] theorem State.withRumble_msns : (s.withRumble r).msns = s.msns := rfl
@[simp] theorem State.withRumble_cal : (s.withRumble r).cal = s.cal := rfl
@[simp] theorem State.withRumble_batteryLost : (s.withRumble r).batteryLost = s.batteryLost := rfl
@[simp] theorem State.withRumble_sram : (s.withRumble r).sram = s.sram := rfl
@[simp] theorem State.withRumble_link : (s.withRumble r).link = s.link := rfl
@[simp] theorem State.withRumble_port : (s.withRumble r).port = s.port := rfl
@[simp] theorem State.withRumble_store : (s.withRumble r).store = s.store := rfl
@[simp] theorem State.withRumble_sound : (s.withRumble r).sound = s.sound := rfl
@[simp] theorem State.withRumble_rumble : (s.withRumble r).rumble = r := rfl

end

/-! ### withLink -/

section
variable (s : State) (l : Link)

@[simp] theorem State.withLink_pending : (s.withLink l).pending = s.pending := rfl
@[simp] theorem State.withLink_supply : (s.withLink l).supply = s.supply := rfl
@[simp] theorem State.withLink_msns : (s.withLink l).msns = s.msns := rfl
@[simp] theorem State.withLink_cal : (s.withLink l).cal = s.cal := rfl
@[simp] theorem State.withLink_batteryLost : (s.withLink l).batteryLost = s.batteryLost := rfl
@[simp] theorem State.withLink_sram : (s.withLink l).sram = s.sram := rfl
@[simp] theorem State.withLink_link : (s.withLink l).link = l := rfl
@[simp] theorem State.withLink_port : (s.withLink l).port = s.port := rfl
@[simp] theorem State.withLink_store : (s.withLink l).store = s.store := rfl
@[simp] theorem State.withLink_sound : (s.withLink l).sound = s.sound := rfl
@[simp] theorem State.withLink_rumble : (s.withLink l).rumble = s.rumble := rfl

end

/-! ### withVoices -/

section
variable (s : State) (vs : Vector Voice 8)

@[simp] theorem State.withVoices_pending : (s.withVoices vs).pending = s.pending := rfl
@[simp] theorem State.withVoices_supply : (s.withVoices vs).supply = s.supply := rfl
@[simp] theorem State.withVoices_msns : (s.withVoices vs).msns = s.msns := rfl
@[simp] theorem State.withVoices_cal : (s.withVoices vs).cal = s.cal := rfl
@[simp] theorem State.withVoices_batteryLost : (s.withVoices vs).batteryLost = s.batteryLost := rfl
@[simp] theorem State.withVoices_sram : (s.withVoices vs).sram = s.sram := rfl
@[simp] theorem State.withVoices_link : (s.withVoices vs).link = s.link := rfl
@[simp] theorem State.withVoices_port : (s.withVoices vs).port = s.port := rfl
@[simp] theorem State.withVoices_store : (s.withVoices vs).store = s.store := rfl
@[simp] theorem State.withVoices_sound : (s.withVoices vs).sound = { s.sound with voices := vs } := rfl
@[simp] theorem State.withVoices_rumble : (s.withVoices vs).rumble = s.rumble := rfl

end

/-! ### setOp -/

section
variable (s : State) (op : Op)

@[simp] theorem State.setOp_pending : (s.setOp op).pending = s.pending := rfl
@[simp] theorem State.setOp_supply : (s.setOp op).supply = s.supply := rfl
@[simp] theorem State.setOp_msns : (s.setOp op).msns = s.msns := rfl
@[simp] theorem State.setOp_cal : (s.setOp op).cal = s.cal := rfl
@[simp] theorem State.setOp_batteryLost : (s.setOp op).batteryLost = s.batteryLost := rfl
@[simp] theorem State.setOp_sram : (s.setOp op).sram = s.sram := rfl
@[simp] theorem State.setOp_link : (s.setOp op).link = s.link := rfl
@[simp] theorem State.setOp_port : (s.setOp op).port = s.port := rfl
@[simp] theorem State.setOp_store : (s.setOp op).store = { s.store with op := op } := rfl
@[simp] theorem State.setOp_sound : (s.setOp op).sound = s.sound := rfl
@[simp] theorem State.setOp_rumble : (s.setOp op).rumble = s.rumble := rfl

end

/-! ### setJob -/

section
variable (s : State) (r : Run) (j : Job)

@[simp] theorem State.setJob_pending : (s.setJob r j).pending = s.pending := rfl
@[simp] theorem State.setJob_supply : (s.setJob r j).supply = s.supply := rfl
@[simp] theorem State.setJob_msns : (s.setJob r j).msns = s.msns := rfl
@[simp] theorem State.setJob_cal : (s.setJob r j).cal = s.cal := rfl
@[simp] theorem State.setJob_batteryLost : (s.setJob r j).batteryLost = s.batteryLost := rfl
@[simp] theorem State.setJob_sram : (s.setJob r j).sram = s.sram := rfl
@[simp] theorem State.setJob_link : (s.setJob r j).link = s.link := rfl
@[simp] theorem State.setJob_port : (s.setJob r j).port = s.port := rfl
@[simp] theorem State.setJob_store : (s.setJob r j).store = { s.store with op := .run r j } := rfl
@[simp] theorem State.setJob_sound : (s.setJob r j).sound = s.sound := rfl
@[simp] theorem State.setJob_rumble : (s.setJob r j).rumble = s.rumble := rfl

end

/-! ### setScan -/

section
variable (s : State) (n : ScanNotes) (ph : ScanPhase)

@[simp] theorem State.setScan_pending : (s.setScan n ph).pending = s.pending := rfl
@[simp] theorem State.setScan_supply : (s.setScan n ph).supply = s.supply := rfl
@[simp] theorem State.setScan_msns : (s.setScan n ph).msns = s.msns := rfl
@[simp] theorem State.setScan_cal : (s.setScan n ph).cal = s.cal := rfl
@[simp] theorem State.setScan_batteryLost : (s.setScan n ph).batteryLost = s.batteryLost := rfl
@[simp] theorem State.setScan_sram : (s.setScan n ph).sram = s.sram := rfl
@[simp] theorem State.setScan_link : (s.setScan n ph).link = s.link := rfl
@[simp] theorem State.setScan_port : (s.setScan n ph).port = s.port := rfl
@[simp] theorem State.setScan_store : (s.setScan n ph).store = { s.store with op := .scan n ph } := rfl
@[simp] theorem State.setScan_sound : (s.setScan n ph).sound = s.sound := rfl
@[simp] theorem State.setScan_rumble : (s.setScan n ph).rumble = s.rumble := rfl

end

/-! ### putRam -/

section
variable (s : State) (a : Nat) (bs : List Byte)

@[simp] theorem State.putRam_pending : (s.putRam a bs).pending = s.pending := rfl
@[simp] theorem State.putRam_supply : (s.putRam a bs).supply = s.supply := rfl
@[simp] theorem State.putRam_msns : (s.putRam a bs).msns = s.msns := rfl
@[simp] theorem State.putRam_cal : (s.putRam a bs).cal = s.cal := rfl
@[simp] theorem State.putRam_batteryLost : (s.putRam a bs).batteryLost = s.batteryLost := rfl
@[simp] theorem State.putRam_sram : (s.putRam a bs).sram = s.sram := rfl
@[simp] theorem State.putRam_link : (s.putRam a bs).link = s.link := rfl
@[simp] theorem State.putRam_port : (s.putRam a bs).port = { s.port with ram := Mem.writes s.port.ram a bs } := rfl
@[simp] theorem State.putRam_store : (s.putRam a bs).store = s.store := rfl
@[simp] theorem State.putRam_sound : (s.putRam a bs).sound = s.sound := rfl
@[simp] theorem State.putRam_rumble : (s.putRam a bs).rumble = s.rumble := rfl

end

/-! ### setCell -/

section
variable (s : State) (c : CellId) (r : CellReg)

@[simp] theorem State.setCell_pending : (s.setCell c r).pending = s.pending := rfl
@[simp] theorem State.setCell_supply : (s.setCell c r).supply = s.supply := rfl
@[simp] theorem State.setCell_msns : (s.setCell c r).msns = s.msns := rfl
@[simp] theorem State.setCell_cal : (s.setCell c r).cal = s.cal := rfl
@[simp] theorem State.setCell_batteryLost : (s.setCell c r).batteryLost = s.batteryLost := rfl
@[simp] theorem State.setCell_sram : (s.setCell c r).sram = s.sram := rfl
@[simp] theorem State.setCell_link : (s.setCell c r).link = s.link := rfl
@[simp] theorem State.setCell_port : (s.setCell c r).port = s.port.setCell c r := rfl
@[simp] theorem State.setCell_store : (s.setCell c r).store = s.store := rfl
@[simp] theorem State.setCell_sound : (s.setCell c r).sound = s.sound := rfl
@[simp] theorem State.setCell_rumble : (s.setCell c r).rumble = s.rumble := rfl

end

/-! ### putArray -/

section
variable (s : State) (w : RecWrite)

@[simp] theorem State.putArray_pending : (s.putArray w).pending = s.pending := rfl
@[simp] theorem State.putArray_supply : (s.putArray w).supply = s.supply := rfl
@[simp] theorem State.putArray_msns : (s.putArray w).msns = s.msns := rfl
@[simp] theorem State.putArray_cal : (s.putArray w).cal = s.cal := rfl
@[simp] theorem State.putArray_batteryLost : (s.putArray w).batteryLost = s.batteryLost := rfl
@[simp] theorem State.putArray_sram : (s.putArray w).sram = Mem.writes s.sram w.base w.bytes := rfl
@[simp] theorem State.putArray_link : (s.putArray w).link = s.link := rfl
@[simp] theorem State.putArray_port : (s.putArray w).port = s.port := rfl
@[simp] theorem State.putArray_store : (s.putArray w).store = s.store := rfl
@[simp] theorem State.putArray_sound : (s.putArray w).sound = s.sound := rfl
@[simp] theorem State.putArray_rumble : (s.putArray w).rumble = s.rumble := rfl

end

/-! ### putRecord -/

section
variable (s : State) (w : RecWrite) (dev : List Host.Cell)

@[simp] theorem State.putRecord_pending : (s.putRecord w dev).pending = s.pending := rfl
@[simp] theorem State.putRecord_supply : (s.putRecord w dev).supply = s.supply := rfl
@[simp] theorem State.putRecord_msns : (s.putRecord w dev).msns = s.msns := rfl
@[simp] theorem State.putRecord_cal : (s.putRecord w dev).cal = s.cal := rfl
@[simp] theorem State.putRecord_batteryLost : (s.putRecord w dev).batteryLost = s.batteryLost := rfl
@[simp] theorem State.putRecord_sram : (s.putRecord w dev).sram = Mem.writes s.sram w.base (written dev w.bytes) := rfl
@[simp] theorem State.putRecord_link : (s.putRecord w dev).link = s.link := rfl
@[simp] theorem State.putRecord_port : (s.putRecord w dev).port = s.port := rfl
@[simp] theorem State.putRecord_store : (s.putRecord w dev).store = s.store := rfl
@[simp] theorem State.putRecord_sound : (s.putRecord w dev).sound = s.sound := rfl
@[simp] theorem State.putRecord_rumble : (s.putRecord w dev).rumble = s.rumble := rfl

end

/-! ### terminate -/

section
variable (s : State) (c : CellId) (b : Block) (a : Answer)

@[simp] theorem State.terminate_pending : (s.terminate c b a).pending = s.pending := rfl
@[simp] theorem State.terminate_supply : (s.terminate c b a).supply = s.supply := rfl
@[simp] theorem State.terminate_msns : (s.terminate c b a).msns = s.msns := rfl
@[simp] theorem State.terminate_cal : (s.terminate c b a).cal = s.cal := rfl
@[simp] theorem State.terminate_batteryLost : (s.terminate c b a).batteryLost = s.batteryLost := rfl
@[simp] theorem State.terminate_sram : (s.terminate c b a).sram = s.sram := rfl
@[simp] theorem State.terminate_link : (s.terminate c b a).link = s.link := rfl
@[simp] theorem State.terminate_store : (s.terminate c b a).store = s.store := rfl
@[simp] theorem State.terminate_sound : (s.terminate c b a).sound = s.sound := rfl
@[simp] theorem State.terminate_rumble : (s.terminate c b a).rumble = s.rumble := rfl

end

/-! ### answerWith -/

section
variable (s : State) (c : CellId) (b : Block) (k : Nat) (fs : List Byte) (a : Answer)

@[simp] theorem State.answerWith_pending : (s.answerWith c b k fs a).pending = s.pending := rfl
@[simp] theorem State.answerWith_supply : (s.answerWith c b k fs a).supply = s.supply := rfl
@[simp] theorem State.answerWith_msns : (s.answerWith c b k fs a).msns = s.msns := rfl
@[simp] theorem State.answerWith_cal : (s.answerWith c b k fs a).cal = s.cal := rfl
@[simp] theorem State.answerWith_batteryLost : (s.answerWith c b k fs a).batteryLost = s.batteryLost := rfl
@[simp] theorem State.answerWith_sram : (s.answerWith c b k fs a).sram = s.sram := rfl
@[simp] theorem State.answerWith_link : (s.answerWith c b k fs a).link = s.link := rfl
@[simp] theorem State.answerWith_store : (s.answerWith c b k fs a).store = s.store := rfl
@[simp] theorem State.answerWith_sound : (s.answerWith c b k fs a).sound = s.sound := rfl
@[simp] theorem State.answerWith_rumble : (s.answerWith c b k fs a).rumble = s.rumble := rfl

end

/-! ### refuseStore -/

section
variable (s : State) (b : Block) (st : Status)

@[simp] theorem State.refuseStore_pending : (s.refuseStore b st).pending = s.pending := rfl
@[simp] theorem State.refuseStore_supply : (s.refuseStore b st).supply = s.supply := rfl
@[simp] theorem State.refuseStore_msns : (s.refuseStore b st).msns = s.msns := rfl
@[simp] theorem State.refuseStore_cal : (s.refuseStore b st).cal = s.cal := rfl
@[simp] theorem State.refuseStore_batteryLost : (s.refuseStore b st).batteryLost = s.batteryLost := rfl
@[simp] theorem State.refuseStore_sram : (s.refuseStore b st).sram = s.sram := rfl
@[simp] theorem State.refuseStore_link : (s.refuseStore b st).link = s.link := rfl
@[simp] theorem State.refuseStore_store : (s.refuseStore b st).store = s.store := rfl
@[simp] theorem State.refuseStore_sound : (s.refuseStore b st).sound = s.sound := rfl
@[simp] theorem State.refuseStore_rumble : (s.refuseStore b st).rumble = s.rumble := rfl

end

/-! ### coldStart -/

section
variable (s : State)

@[simp] theorem State.coldStart_pending : (s.coldStart).pending = s.pending := rfl
@[simp] theorem State.coldStart_supply : (s.coldStart).supply = s.supply.formCellLow := rfl
@[simp] theorem State.coldStart_msns : (s.coldStart).msns = s.msns := rfl
@[simp] theorem State.coldStart_cal : (s.coldStart).cal = .reset := rfl
@[simp] theorem State.coldStart_batteryLost : (s.coldStart).batteryLost = true := rfl
@[simp] theorem State.coldStart_sram : (s.coldStart).sram = [] := rfl
@[simp] theorem State.coldStart_link : (s.coldStart).link = s.link := rfl
@[simp] theorem State.coldStart_port : (s.coldStart).port = s.port := rfl
@[simp] theorem State.coldStart_store : (s.coldStart).store = s.store := rfl
@[simp] theorem State.coldStart_sound : (s.coldStart).sound = s.sound := rfl
@[simp] theorem State.coldStart_rumble : (s.coldStart).rumble = s.rumble := rfl

end

/-! ### keepPowerUp -/

section
variable (s : State)

@[simp] theorem State.keepPowerUp_pending : (s.keepPowerUp).pending = s.pending := rfl
@[simp] theorem State.keepPowerUp_supply : (s.keepPowerUp).supply = s.supply := rfl
@[simp] theorem State.keepPowerUp_msns : (s.keepPowerUp).msns = s.msns := rfl
@[simp] theorem State.keepPowerUp_cal : (s.keepPowerUp).cal = s.cal := rfl
@[simp] theorem State.keepPowerUp_batteryLost : (s.keepPowerUp).batteryLost = s.batteryLost := rfl
@[simp] theorem State.keepPowerUp_sram : (s.keepPowerUp).sram = s.sram := rfl
@[simp] theorem State.keepPowerUp_link : (s.keepPowerUp).link = .reset := rfl
@[simp] theorem State.keepPowerUp_port : (s.keepPowerUp).port = s.port := rfl
@[simp] theorem State.keepPowerUp_store : (s.keepPowerUp).store = s.store := rfl
@[simp] theorem State.keepPowerUp_sound : (s.keepPowerUp).sound = s.sound := rfl
@[simp] theorem State.keepPowerUp_rumble : (s.keepPowerUp).rumble = s.rumble := rfl

end

/-! ### backupEntry -/

section
variable (s : State)

@[simp] theorem State.backupEntry_pending : (s.backupEntry).pending = s.pending := rfl
@[simp] theorem State.backupEntry_supply : (s.backupEntry).supply = s.supply := rfl
@[simp] theorem State.backupEntry_msns : (s.backupEntry).msns = s.msns := rfl
@[simp] theorem State.backupEntry_cal : (s.backupEntry).cal = s.cal := rfl
@[simp] theorem State.backupEntry_batteryLost : (s.backupEntry).batteryLost = s.batteryLost := rfl
@[simp] theorem State.backupEntry_sram : (s.backupEntry).sram = s.sram := rfl
@[simp] theorem State.backupEntry_link : (s.backupEntry).link = .reset := rfl
@[simp] theorem State.backupEntry_port : (s.backupEntry).port = s.port := rfl
@[simp] theorem State.backupEntry_store : (s.backupEntry).store = s.store := rfl
@[simp] theorem State.backupEntry_sound : (s.backupEntry).sound = s.sound := rfl
@[simp] theorem State.backupEntry_rumble : (s.backupEntry).rumble = s.rumble := rfl

end

/-! ### fullEntry -/

section
variable (s : State)

@[simp] theorem State.fullEntry_pending : (s.fullEntry).pending = s.pending := rfl
@[simp] theorem State.fullEntry_supply : (s.fullEntry).supply = s.supply := rfl
@[simp] theorem State.fullEntry_msns : (s.fullEntry).msns = s.msns := rfl
@[simp] theorem State.fullEntry_cal : (s.fullEntry).cal = { s.cal with wakePending := false } := rfl
@[simp] theorem State.fullEntry_batteryLost : (s.fullEntry).batteryLost = s.batteryLost := rfl
@[simp] theorem State.fullEntry_sram : (s.fullEntry).sram = s.sram := rfl
@[simp] theorem State.fullEntry_link : (s.fullEntry).link = { s.link with quiesce := .none } := rfl
@[simp] theorem State.fullEntry_port : (s.fullEntry).port = .reset := rfl
@[simp] theorem State.fullEntry_store : (s.fullEntry).store = .reset := rfl
@[simp] theorem State.fullEntry_sound : (s.fullEntry).sound = .reset := rfl
@[simp] theorem State.fullEntry_rumble : (s.fullEntry).rumble = .atFullEntry s.msns := rfl

end

end Sys2Proof.Machine
end

