-- ==== Sys2Proof/Laws/Ops.lean ====
section
/-! SUPPORT. What each shared operation can do, said once: bounded indices, the command cells, the offer
of a block, arguments of an accepted block, the buffer rules, the held report, and the end of a request. -/

namespace Sys2Proof.Machine

/-! ### Bounded indices and vectors -/

theorem inRange_eq_some {k n : Nat} (h : k < n) : inRange k n = some ⟨k, h⟩ := by
  simp [inRange, h]

theorem inRange_eq_none {k n : Nat} (h : n ≤ k) : inRange k n = none := by
  simp [inRange, Nat.not_lt.mpr h]

theorem inRange_val {n : Nat} {k : Nat} (i : Fin n) (h : k = i.val) : inRange k n = some i := by
  subst h; simp [inRange]

theorem inRange_eq_some_iff {k n : Nat} {i : Fin n} : inRange k n = some i ↔ k = i.val := by
  constructor
  · intro h
    unfold inRange at h
    split at h
    · injection h with h; rw [← h]
    · cases h
  · exact inRange_val i

@[simp] theorem mapVec_getElem {α β : Type} {n : Nat} (f : α → β) (v : Vector α n) (i : Nat)
    (h : i < n) : (mapVec f v)[i] = f v[i] := by
  simp [mapVec]

@[simp] theorem mapVec_toList {α β : Type} {n : Nat} (f : α → β) (v : Vector α n) :
    (mapVec f v).toList = v.toList.map f := by
  simp [mapVec]

/-- Cutting a list to `n` before appending does not change its first `n` elements. -/
theorem take_take_append {α : Type} (n : Nat) (xs ys : List α) :
    (xs.take n ++ ys).take n = (xs ++ ys).take n := by
  rw [List.take_append, List.take_append, List.take_take, Nat.min_self, List.length_take]
  congr 2
  omega

/-! ### Command cells -/

@[simp] theorem Port.cell_setCell (p : Port) (c : CellId) (r : CellReg) : (p.setCell c r).cell c = r := by
  cases c <;> rfl

theorem Port.cell_setCell_of_ne (p : Port) {c c' : CellId} (r : CellReg) (h : c' ≠ c) :
    (p.setCell c r).cell c' = p.cell c' := by
  cases c <;> cases c' <;> first | rfl | exact absurd rfl h

@[simp] theorem Port.setCell_ram (p : Port) (c : CellId) (r : CellReg) : (p.setCell c r).ram = p.ram := by
  cases c <;> rfl

@[simp] theorem Port.setCell_enable (p : Port) (c : CellId) (r : CellReg) :
    (p.setCell c r).enable = p.enable := by
  cases c <;> rfl

@[simp] theorem Port.setCell_setCell (p : Port) (c : CellId) (r r' : CellReg) :
    (p.setCell c r).setCell c r' = p.setCell c r' := by
  cases c <;> rfl

@[simp] theorem State.cell_setCell (s : State) (c : CellId) (r : CellReg) : (s.setCell c r).cell c = r :=
  Port.cell_setCell s.port c r

theorem State.cell_setCell_of_ne (s : State) {c c' : CellId} (r : CellReg) (h : c' ≠ c) :
    (s.setCell c r).cell c' = s.cell c' :=
  Port.cell_setCell_of_ne s.port r h

/-! ### An accepted block -/

section
variable (s : State) (c : CellId) (b : Block)

@[simp] theorem State.accepted_pending : (s.accepted c b).pending = s.pending := rfl
@[simp] theorem State.accepted_supply : (s.accepted c b).supply = s.supply := rfl
@[simp] theorem State.accepted_msns : (s.accepted c b).msns = s.msns := rfl
@[simp] theorem State.accepted_cal : (s.accepted c b).cal = s.cal := rfl
@[simp] theorem State.accepted_batteryLost : (s.accepted c b).batteryLost = s.batteryLost := rfl
@[simp] theorem State.accepted_sram : (s.accepted c b).sram = s.sram := rfl
@[simp] theorem State.accepted_link : (s.accepted c b).link = s.link := rfl
@[simp] theorem State.accepted_store : (s.accepted c b).store = s.store := rfl
@[simp] theorem State.accepted_sound : (s.accepted c b).sound = s.sound := rfl
@[simp] theorem State.accepted_rumble : (s.accepted c b).rumble = s.rumble := rfl
@[simp] theorem State.accepted_ram : (s.accepted c b).port.ram = s.port.ram := Port.setCell_ram _ _ _
@[simp] theorem State.accepted_cell : (s.accepted c b).cell c = { hold := .busy b, refused := false } :=
  State.cell_setCell _ _ _
@[simp] theorem State.accepted_supplyState : (s.accepted c b).supplyState = s.supplyState := rfl
@[simp] theorem State.accepted_beatRunning : (s.accepted c b).beatRunning = s.beatRunning := rfl

@[simp] theorem State.accepted_ramByte (a : Nat) : (s.accepted c b).ramByte a = s.ramByte a := by
  simp [State.ramByte]

@[simp] theorem State.accepted_ramNat (a n : Nat) : (s.accepted c b).ramNat a n = s.ramNat a n := by
  simp [State.ramNat]

@[simp] theorem State.accepted_opcode (b' : Block) : (s.accepted c b).opcode b' = s.opcode b' := by
  simp [State.opcode]

@[simp] theorem State.accepted_arg8 (b' : Block) (k : Nat) : (s.accepted c b).arg8 b' k = s.arg8 b' k := by
  simp [State.arg8]

@[simp] theorem State.accepted_arg16 (b' : Block) (k : Nat) :
    (s.accepted c b).arg16 b' k = s.arg16 b' k := by
  simp [State.arg16]

@[simp] theorem State.accepted_arg32 (b' : Block) (k : Nat) :
    (s.accepted c b).arg32 b' k = s.arg32 b' k := by
  simp [State.arg32]

@[simp] theorem State.accepted_actionAt (a : Nat) : (s.accepted c b).actionAt a = s.actionAt a := by
  simp [State.actionAt]

@[simp] theorem State.accepted_noteAt (a : Nat) : (s.accepted c b).noteAt a = s.noteAt a := by
  simp [State.noteAt]

@[simp] theorem State.accepted_notesAt (a n : Nat) : (s.accepted c b).notesAt a n = s.notesAt a n := by
  induction n generalizing a with
  | zero => rfl
  | succ n ih => simp [State.notesAt, ih]

@[simp] theorem State.accepted_stepsAt (a n : Nat) : (s.accepted c b).stepsAt a n = s.stepsAt a n := by
  induction n generalizing a with
  | zero => rfl
  | succ n ih => simp [State.stepsAt, ih]

@[simp] theorem State.accepted_voiceWrites (a n : Nat) :
    (s.accepted c b).voiceWrites a n = s.voiceWrites a n := by
  induction n generalizing a with
  | zero => rfl
  | succ n ih => simp [State.voiceWrites, ih]

@[simp] theorem State.accepted_samplesAt (a : Nat) : (s.accepted c b).samplesAt a = s.samplesAt a := by
  simp [State.samplesAt]

@[simp] theorem State.accepted_alarmAt (a : Nat) (id : Fin 32) :
    (s.accepted c b).alarmAt a id = s.alarmAt a id := by
  simp [State.alarmAt, State.alarmCueAt, State.alarmRumbleAt]

@[simp] theorem State.accepted_patternArg (b' : Block) :
    (s.accepted c b).patternArg b' = s.patternArg b' := by
  simp [State.patternArg]

end

/-- The general checks of a block that a cell takes, as one Bool. -/
theorem State.canTake.offerable {s : State} {c : CellId} {v : Word} {b : Block} (h : s.canTake c v b) :
    (s.blockAt v).offerable = true := by
  obtain ⟨_, _, _, rfl, h1, h2, h3, h4, h5⟩ := h
  simp [Block.offerable, h1, h2, h3, h4, h5]

/-- R144: a value that a cell can take hands the block to the cell's unit. -/
theorem State.cellWrite_of_canTake {s : State} {c : CellId} {v : Word} {b : Block}
    (h : s.canTake c v b) : s.cellWrite c v = (s.accepted c b).runUnit c b := by
  have ho := h.offerable
  obtain ⟨_, hi, hv, rfl, _⟩ := h
  rw [State.cellWrite, hi]
  simp only [if_neg hv, State.offer, ho, if_true, State.accepted]

theorem State.busCellWrite_of_canTake {s : State} {c : CellId} {v : Word} {b : Block}
    (h : s.canTake c v b) : s.busCellWrite c v = (s.accepted c b).runUnit c b := by
  have hf := h.1
  rw [State.busCellWrite, State.cellWrite_of_canTake h]
  simp [State.consoleOn, hf]

/-- A named request whose block is offered hands the block to the cell's unit. -/
theorem State.namedOffer_of_offered {s : State} {c : CellId} {op need : Nat} {v : Word} {b : Block}
    (h : s.offered c op need v b) : s.namedOffer c op v = (s.accepted c b).runUnit c b := by
  obtain ⟨ht, hop, _⟩ := h
  have ho := ht.offerable
  rw [State.namedOffer, State.cellWrite_of_canTake ht]
  obtain ⟨hf, hi, hv, rfl, _⟩ := ht
  rw [State.offersRequest, decide_eq_true hv]
  simp [State.consoleOn, hf, hi, ho, hop]

/-- Outside the offer of its block a command named after a request changes nothing (log 5, log 8). -/
theorem State.namedOffer_eq_self {s : State} {c : CellId} {op : Nat} {v : Word}
    (h : s.offersRequest c op v = false) : s.namedOffer c op v = s := by
  simp [State.namedOffer, h]

/-! ### The buffer rules (R149) -/

theorem Block.bufferOk_iff (b : Block) (buf len : Nat) : b.bufferOk buf len = true ↔
    len = 0 ∨ (buf + len ≤ 4096 ∧ (buf + len ≤ b.off ∨ b.off + 4 * b.words ≤ buf)) := by
  simp [Block.bufferOk]

theorem Block.bufferOk_eq_false_iff (b : Block) (buf len : Nat) : b.bufferOk buf len = false ↔
    len ≠ 0 ∧ (4096 < buf + len ∨ (b.off < buf + len ∧ buf < b.off + 4 * b.words)) := by
  rw [← Bool.not_eq_true, Block.bufferOk_iff]
  omega

/-! ### The held report (R161) -/

theorem State.settleQuiesce_of_ne {s : State} (h : s.link.quiesce ≠ .pending) : s.settleQuiesce = s := by
  simp [State.settleQuiesce, h]

/-- The held report changes the quiesce state alone, and only from Pending to Done. -/
theorem State.settleQuiesce_cases (s : State) :
    s.settleQuiesce = s ∨ (s.link.quiesce = .pending ∧ s.allHeld = true ∧
      s.settleQuiesce = { s with link := { s.link with quiesce := .done } }) := by
  by_cases h : s.link.quiesce = .pending ∧ s.allHeld = true
  · exact .inr ⟨h.1, h.2, by simp [State.settleQuiesce, h]⟩
  · exact .inl (by simp [State.settleQuiesce, h])

/-- The held report as one equation. -/
theorem State.settleQuiesce_eq (s : State) : s.settleQuiesce =
    { s with link := { s.link with quiesce := s.link.quiesce.reported s.allHeld } } := by
  unfold State.settleQuiesce Quiesce.reported
  split <;> rfl

section
variable (s : State)

@[simp] theorem State.settleQuiesce_pending : s.settleQuiesce.pending = s.pending := by
  unfold State.settleQuiesce; split <;> rfl
@[simp] theorem State.settleQuiesce_supply : s.settleQuiesce.supply = s.supply := by
  unfold State.settleQuiesce; split <;> rfl
@[simp] theorem State.settleQuiesce_msns : s.settleQuiesce.msns = s.msns := by
  unfold State.settleQuiesce; split <;> rfl
@[simp] theorem State.settleQuiesce_cal : s.settleQuiesce.cal = s.cal := by
  unfold State.settleQuiesce; split <;> rfl
@[simp] theorem State.settleQuiesce_batteryLost : s.settleQuiesce.batteryLost = s.batteryLost := by
  unfold State.settleQuiesce; split <;> rfl
@[simp] theorem State.settleQuiesce_sram : s.settleQuiesce.sram = s.sram := by
  unfold State.settleQuiesce; split <;> rfl
@[simp] theorem State.settleQuiesce_port : s.settleQuiesce.port = s.port := by
  unfold State.settleQuiesce; split <;> rfl
@[simp] theorem State.settleQuiesce_store : s.settleQuiesce.store = s.store := by
  unfold State.settleQuiesce; split <;> rfl
@[simp] theorem State.settleQuiesce_sound : s.settleQuiesce.sound = s.sound := by
  unfold State.settleQuiesce; split <;> rfl
@[simp] theorem State.settleQuiesce_rumble : s.settleQuiesce.rumble = s.rumble := by
  unfold State.settleQuiesce; split <;> rfl
@[simp] theorem State.settleQuiesce_target : s.settleQuiesce.link.target = s.link.target := by
  unfold State.settleQuiesce; split <;> rfl
@[simp] theorem State.settleQuiesce_selected : s.settleQuiesce.link.selected = s.link.selected := by
  unfold State.settleQuiesce; split <;> rfl
@[simp] theorem State.settleQuiesce_cap : s.settleQuiesce.link.cap = s.link.cap := by
  unfold State.settleQuiesce; split <;> rfl

end

/-! ### The end of a store request (R28) -/

section
variable (s : State) (r : Run) (st : Status) (part : Bool) (count : Nat)

@[simp] theorem State.endRun_pending : (s.endRun r st part count).pending = s.pending := by
  simp [State.endRun]
@[simp] theorem State.endRun_supply : (s.endRun r st part count).supply = s.supply := by
  simp [State.endRun]
@[simp] theorem State.endRun_msns : (s.endRun r st part count).msns = s.msns := by simp [State.endRun]
@[simp] theorem State.endRun_cal : (s.endRun r st part count).cal = s.cal := by simp [State.endRun]
@[simp] theorem State.endRun_batteryLost : (s.endRun r st part count).batteryLost = s.batteryLost := by
  simp [State.endRun]
@[simp] theorem State.endRun_sram : (s.endRun r st part count).sram = s.sram := by simp [State.endRun]
@[simp] theorem State.endRun_sound : (s.endRun r st part count).sound = s.sound := by
  simp [State.endRun]
@[simp] theorem State.endRun_rumble : (s.endRun r st part count).rumble = s.rumble := by
  simp [State.endRun]
@[simp] theorem State.endRun_cap : (s.endRun r st part count).link.cap = s.link.cap := by
  simp [State.endRun]
@[simp] theorem State.endRun_store : (s.endRun r st part count).store =
    { s.store with op := .none, status := s.store.rest } := by
  simp [State.endRun]

end

/-! ### What a page write leaves (R3, R11) -/

/-- A full-record write with nothing left untaken stores the record. -/
@[simp] theorem overlay_nil (k : Nat) (bs : List Byte) : overlay [] k bs = bs := by
  induction bs generalizing k with
  | nil => rfl
  | cons b bs ih => simp [overlay, ih]

@[simp] theorem overlay_length (dev : List Host.Cell) (k : Nat) (bs : List Byte) :
    (overlay dev k bs).length = bs.length := by
  induction bs generalizing k with
  | nil => rfl
  | cons b bs ih => simp [overlay, ih]

/-- A byte at a position is the one that the outcome names there, or the one written. -/
theorem overlay_getElem? (dev : List Host.Cell) (k j : Nat) (bs : List Byte) :
    (overlay dev k bs)[j]? = bs[j]?.map fun b => (dev.lookup (k + j)).getD b := by
  induction bs generalizing k j with
  | nil => rfl
  | cons b bs ih =>
    cases j with
    | zero => rfl
    | succ j =>
      rw [overlay, List.getElem?_cons_succ, List.getElem?_cons_succ, ih]
      rw [show k + 1 + j = k + (j + 1) by omega]

/-- A mixture is as long as the record it overwrites. -/
@[simp] theorem mixBytes_length (mask : List Bool) (old new : List Byte) :
    (mixBytes mask old new).length = old.length := by
  fun_induction mixBytes mask old new <;> simp_all

@[simp] theorem written_nil (bs : List Byte) : written [] bs = bs := by
  rw [written, overlay_nil, ite_self]

@[simp] theorem written_length (dev : List Host.Cell) (bs : List Byte) :
    (written dev bs).length = bs.length := by
  rw [written]; split
  · rfl
  · exact overlay_length _ _ _

/-- R3: the write took whole, or what it left fails its check. -/
theorem written_cases (dev : List Host.Cell) (bs : List Byte) :
    written dev bs = bs ∨
      (written dev bs = overlay dev 0 bs ∧ recordPasses (written dev bs) = false) := by
  rw [written]; split
  · exact .inl rfl
  · rename_i h; exact .inr ⟨rfl, by simpa using h⟩

theorem Store.retire_of_notMem (st : Store) {p : PageNo} (h : p ∉ st.bad) :
    st.retire p = { st with bad := st.bad ++ [p] } := by
  simp [Store.retire, h]

end Sys2Proof.Machine
end

