-- ==== Sys2Proof/Laws/Calendar.lean ====
section
/-! SUPPORT. The calendar unit: the order of calendar times, insertion into the alarm table, and all that
one application of the firing rule can do. -/

namespace Sys2Proof.Machine

/-! ### The order of calendar times -/

theorem CalTime.later_iff (a b : CalTime) : a.later b = true ↔ b.pos < a.pos := by
  simp only [CalTime.later, CalTime.pos, Bool.or_eq_true, Bool.and_eq_true, decide_eq_true_eq]
  have ha := a.second.isLt
  have hb := b.second.isLt
  rw [Fin.lt_def, Fin.ext_iff, Fin.lt_def]
  omega

theorem CalTime.later_eq_false_iff (a b : CalTime) : a.later b = false ↔ a.pos ≤ b.pos := by
  rw [← Bool.not_eq_true, CalTime.later_iff]; omega

theorem CalTime.pos_lt (a : CalTime) : a.pos < 65536 * 86400 := by
  have := a.day.isLt
  have := a.second.isLt
  unfold CalTime.pos; omega

theorem CalTime.ofPos_pos {p : Nat} {t : CalTime} (h : CalTime.ofPos p = some t) : t.pos = p := by
  unfold CalTime.ofPos at h
  split at h
  · injection h with h
    subst h
    have := Nat.div_add_mod p 86400
    simp only [CalTime.pos]; omega
  · cases h

/-- R73: a next due time is later than now. -/
theorem nextDue_later {a : Alarm} {now d : CalTime} (hl : a.due.later now = false)
    (h : nextDue a now = some d) : d.later now = true := by
  unfold nextDue at h
  split at h
  · cases h
  next he =>
    rw [CalTime.later_iff, CalTime.ofPos_pos h]
    have hp := (CalTime.later_eq_false_iff _ _).1 hl
    have hI : 0 < 60 * a.every.toNat := by
      have : a.every.toNat ≠ 0 := fun h => he (BitVec.eq_of_toNat_eq (by simpa using h))
      omega
    generalize 60 * a.every.toNat = I at hI
    unfold intervalsPassed
    have hd := Nat.div_add_mod (now.pos - a.due.pos) I
    have hm := Nat.mod_lt (now.pos - a.due.pos) hI
    have e : ((now.pos - a.due.pos) / I + 1) * I = I * ((now.pos - a.due.pos) / I) + I := by
      rw [Nat.add_mul, Nat.one_mul, Nat.mul_comm]
    rw [e]; omega

/-! ### The alarm table (R66) -/

/-- The table is in order of due time. -/
def alarmsSorted (as : List Alarm) : Prop := as.Pairwise fun a b => a.due.later b.due = false

theorem insertAlarm_perm (a : Alarm) (as : List Alarm) : (insertAlarm a as).Perm (a :: as) := by
  induction as with
  | nil => exact .refl _
  | cons x xs ih =>
    unfold insertAlarm
    split
    · exact .refl _
    · exact (List.Perm.cons x ih).trans (.swap a x xs)

theorem mem_insertAlarm {a b : Alarm} {as : List Alarm} : b ∈ insertAlarm a as ↔ b = a ∨ b ∈ as := by
  rw [(insertAlarm_perm a as).mem_iff, List.mem_cons]

theorem insertAlarm_length (a : Alarm) (as : List Alarm) :
    (insertAlarm a as).length = as.length + 1 := by
  rw [(insertAlarm_perm a as).length_eq, List.length_cons]

theorem insertAlarm_sorted {a : Alarm} {as : List Alarm} (h : alarmsSorted as) :
    alarmsSorted (insertAlarm a as) := by
  induction as with
  | nil => exact List.pairwise_singleton _ _
  | cons x xs ih =>
    obtain ⟨hx, hxs⟩ := List.pairwise_cons.1 h
    unfold insertAlarm
    split
    next hl =>
      refine List.pairwise_cons.2 ⟨?_, h⟩
      intro y hy
      have h1 := (CalTime.later_iff _ _).1 hl
      rcases List.mem_cons.1 hy with e | e
      · subst e; rw [CalTime.later_eq_false_iff]; omega
      · have := (CalTime.later_eq_false_iff _ _).1 (hx y e)
        rw [CalTime.later_eq_false_iff]; omega
    next hl =>
      refine List.pairwise_cons.2 ⟨?_, ih hxs⟩
      intro y hy
      rcases mem_insertAlarm.1 hy with e | e
      · subst e; simpa using hl
      · exact hx y e

/-- R66: an insertion places the entry after every entry due no later. -/
theorem insertAlarm_eq_placed (a : Alarm) (as : List Alarm) : insertAlarm a as = placed a as := by
  induction as with
  | nil => rfl
  | cons x xs ih =>
    unfold insertAlarm placed
    split
    next hl => simp [hl]
    next hl => rw [ih]; simp [hl, placed]

/-- An entry due later than `now` goes behind every entry due by `now`. -/
theorem dueBy_insertAlarm {a : Alarm} {now : CalTime} {as : List Alarm} (ha : a.due.later now = true) :
    insertAlarm a as = dueBy as now ++ insertAlarm a (as.drop (dueBy as now).length) ∧
      dueBy (insertAlarm a as) now = dueBy as now := by
  induction as with
  | nil => exact ⟨rfl, by simp [dueBy, insertAlarm, ha]⟩
  | cons x xs ih =>
    by_cases hx : x.due.later now = true
    · have e : dueBy (x :: xs) now = [] := by simp [dueBy, hx]
      have e' : dueBy (insertAlarm a (x :: xs)) now = [] := by
        unfold insertAlarm; split <;> simp [dueBy, hx, ha]
      exact ⟨by simp [e], by rw [e, e']⟩
    · obtain ⟨h1, h2⟩ := ih
      have hx' : x.due.later now = false := by simpa using hx
      have hxa : x.due.later a.due = false := by
        have := (CalTime.later_iff _ _).1 ha
        have := (CalTime.later_eq_false_iff _ _).1 hx'
        rw [CalTime.later_eq_false_iff]; omega
      have ei : insertAlarm a (x :: xs) = x :: insertAlarm a xs := by simp [insertAlarm, hxa]
      have ed : ∀ ys, dueBy (x :: ys) now = x :: dueBy ys now := by
        intro ys; simp [dueBy, hx']
      refine ⟨?_, ?_⟩
      · rw [ei, ed, h1, List.length_cons, List.drop_succ_cons]
        rw [← h1]
        exact congrArg (x :: ·) h1
      · rw [ei, ed, ed, h2]

/-! ### Firing (R72 to R77) -/

theorem Calendar.addFired_fired (c : Calendar) (f : Fired) (h : c.fired.length ≤ 16) :
    (c.addFired f).fired = (c.fired ++ [f]).take 16 := by
  unfold Calendar.addFired
  split
  · rw [List.take_of_length_le]; simp; omega
  · have : c.fired.length = 16 := by omega
    rw [List.take_append_of_le_length (by omega), List.take_of_length_le (by omega)]

theorem Calendar.addFired_overflow (c : Calendar) (f : Fired) (h : c.fired.length ≤ 16) :
    (c.addFired f).overflow = (c.overflow || decide (16 < c.fired.length + 1)) := by
  unfold Calendar.addFired
  split
  next hl =>
    have : decide (16 < c.fired.length + 1) = false := decide_eq_false (by omega)
    rw [this, Bool.or_false]
  next hl =>
    have : decide (16 < c.fired.length + 1) = true := decide_eq_true (by omega)
    rw [this, Bool.or_true]

/-- The fields that appending a fired record leaves. -/
theorem Calendar.addFired_rest (c : Calendar) (f : Fired) :
    (c.addFired f).osc = c.osc ∧ (c.addFired f).settle = c.settle ∧
      (c.addFired f).prescaler = c.prescaler ∧ (c.addFired f).now = c.now ∧
      (c.addFired f).timeLost = c.timeLost ∧ (c.addFired f).epoch = c.epoch ∧
      (c.addFired f).rollover = c.rollover ∧ (c.addFired f).alarms = c.alarms ∧
      (c.addFired f).wakePending = c.wakePending := by
  unfold Calendar.addFired; split <;> exact ⟨rfl, rfl, rfl, rfl, rfl, rfl, rfl, rfl, rfl⟩

/-- Delivering an alarm's actions touches the sound engine and the rumble unit alone. -/
theorem State.deliver_rest (s : State) (a : Alarm) :
    ∃ so ru, s.deliver a = { s with sound := so, rumble := ru } := by
  unfold State.deliver
  cases a.cue <;> cases a.rumble <;> exact ⟨_, _, rfl⟩

/-- Delivering keeps everything but the sound engine and the rumble unit, which it reads with the cap. -/
theorem State.deliver_congr {s t : State} (a : Alarm) (hso : s.sound = t.sound)
    (hru : s.rumble = t.rumble) (hli : s.link = t.link) :
    (s.deliver a).sound = (t.deliver a).sound ∧ (s.deliver a).rumble = (t.deliver a).rumble := by
  unfold State.deliver State.cueRequest State.playRequest State.withSound State.withRumble
    State.beatRunning
  cases a.cue <;> cases a.rumble <;> simp [hso, hru, hli]

/-- R76: in Full the actions of an entry as commands are what its firing hands on. -/
theorem State.commands_actions (s : State) (hs : s.supplyState = .full) (a : Alarm) (l : List Instr) :
    s.commands (a.actions ++ l) = (s.deliver a).commands l := by
  have hon : s.consoleOn = true := by simp [State.consoleOn, hs]
  unfold Alarm.actions State.deliver
  cases hc : a.cue with
  | none =>
    cases hr : a.rumble with
    | none => rfl
    | some p =>
      simp only [List.nil_append, List.cons_append, State.commands, exec, execPlayRequest, hon, if_true,
        goesOn]
  | some slot =>
    have hon' : (s.cueRequest slot a.id).consoleOn = true := hon
    cases hr : a.rumble with
    | none =>
      simp only [List.nil_append, List.append_nil, List.cons_append, State.commands, exec,
        execCueRequest, hon, if_true, goesOn]
    | some p =>
      simp only [List.nil_append, List.cons_append, State.commands, exec, execCueRequest,
        execPlayRequest, hon, hon', if_true, goesOn]

/-- What the actions of entries leave in the sound engine and the rumble unit depends on those two and on
the link alone. -/
theorem State.commands_congr (due : List Alarm) {s t : State} (hs : s.supplyState = .full)
    (ht : t.supplyState = .full) (hso : s.sound = t.sound) (hru : s.rumble = t.rumble)
    (hli : s.link = t.link) :
    (s.commands (due.flatMap Alarm.actions)).sound = (t.commands (due.flatMap Alarm.actions)).sound ∧
      (s.commands (due.flatMap Alarm.actions)).rumble =
        (t.commands (due.flatMap Alarm.actions)).rumble := by
  induction due generalizing s t with
  | nil => exact ⟨hso, hru⟩
  | cons a as ih =>
    rw [List.flatMap_cons, State.commands_actions s hs, State.commands_actions t ht]
    obtain ⟨h1, h2⟩ := State.deliver_congr a hso hru hli
    obtain ⟨so, ru, e⟩ := State.deliver_rest s a
    obtain ⟨so', ru', e'⟩ := State.deliver_rest t a
    exact ih (by rw [e]; exact hs) (by rw [e']; exact ht) h1 h2 (by rw [e, e']; exact hli)

/-- One firing, field by field. -/
theorem State.fire_eq (s : State) (a : Alarm) (rest : List Alarm) : ∃ so ru,
    s.fire a rest = { s with
      cal := ((s.cal.rearm a rest).addFired (firedRecord a s.cal.now s.supplyState)).raiseWake
        (decide (s.supplyState ≠ .full) && a.wake),
      sound := so, rumble := ru } ∧
    (s.supplyState ≠ .full → so = s.sound ∧ ru = s.rumble) ∧
    (s.supplyState = .full → so = (s.deliver a).sound ∧ ru = (s.deliver a).rumble) := by
  unfold State.fire
  by_cases h : s.supplyState = .full
  · obtain ⟨so, ru, e⟩ := State.deliver_rest
      (s.withCal ((s.cal.rearm a rest).addFired (firedRecord a s.cal.now s.supplyState))) a
    have hd := State.deliver_congr (s := s)
      (t := s.withCal ((s.cal.rearm a rest).addFired (firedRecord a s.cal.now s.supplyState))) a rfl rfl rfl
    rw [e] at hd
    refine ⟨so, ru, ?_, fun hn => absurd h hn, fun _ => ⟨hd.1.symm, hd.2.symm⟩⟩
    simp only [h, if_true]
    rw [h] at e
    simp only [e]
    simp [State.withCal, Calendar.raiseWake]
  · exact ⟨s.sound, s.rumble, by simp [h, State.withCal], fun _ => ⟨rfl, rfl⟩, fun hf => absurd hf h⟩

/-- What one application of the firing rule leaves, with the number of records it formed. -/
structure Fires (s : State) (now : CalTime) (st : SupplyState) (r : State × Nat) : Prop where
  count : r.2 = (dueBy s.cal.alarms now).length
  frame : ∃ c so ru, r.1 = { s with cal := c, sound := so, rumble := ru } ∧
    (st ≠ .full ∨ dueBy s.cal.alarms now = [] → so = s.sound ∧ ru = s.rumble)
  clock : r.1.cal.now = now
  prescaler : r.1.cal.prescaler = s.cal.prescaler
  timeLost : r.1.cal.timeLost = s.cal.timeLost
  osc : r.1.cal.osc = s.cal.osc
  settle : r.1.cal.settle = s.cal.settle
  epoch : r.1.cal.epoch = s.cal.epoch
  rollover : r.1.cal.rollover = s.cal.rollover
  fired : r.1.cal.fired =
    (s.cal.fired ++ (dueBy s.cal.alarms now).map fun a => firedRecord a now st).take 16
  overflow : r.1.cal.overflow = (s.cal.overflow ||
    decide (16 < s.cal.fired.length + (dueBy s.cal.alarms now).length))
  wakePending : r.1.cal.wakePending = (s.cal.wakePending ||
    (decide (st ≠ .full) && (dueBy s.cal.alarms now).any fun a => a.wake))
  later : ∀ a ∈ r.1.cal.alarms, a.due.later now = true
  sorted : alarmsSorted r.1.cal.alarms
  alarms : r.1.cal.alarms.Perm (s.cal.alarms.drop (dueBy s.cal.alarms now).length ++
    (dueBy s.cal.alarms now).filterMap fun x => (nextDue x now).map fun d => { x with due := d })
  table : r.1.cal.alarms =
    takenBack (dueBy s.cal.alarms now) now (s.cal.alarms.drop (dueBy s.cal.alarms now).length)
  handed : st = .full →
    r.1.sound = (s.commands ((dueBy s.cal.alarms now).flatMap Alarm.actions)).sound ∧
      r.1.rumble = (s.commands ((dueBy s.cal.alarms now).flatMap Alarm.actions)).rumble

/-- With no entry due nothing fires. -/
theorem Fires.none {s : State} {now : CalTime} {st : SupplyState} (hnow : s.cal.now = now)
    (hs : alarmsSorted s.cal.alarms) (hf : s.cal.fired.length ≤ 16) (hd : dueBy s.cal.alarms now = []) :
    Fires s now st (s, 0) := by
  have hov : decide (16 < s.cal.fired.length + 0) = false := by simp; omega
  refine { count := by rw [hd]; rfl, frame := ⟨s.cal, s.sound, s.rumble, rfl, fun _ => ⟨rfl, rfl⟩⟩,
           clock := hnow, prescaler := rfl, timeLost := rfl, osc := rfl, settle := rfl, epoch := rfl,
           rollover := rfl, fired := ?_, overflow := ?_, wakePending := ?_, later := ?_, sorted := hs,
           alarms := ?_, table := by rw [hd]; rfl, handed := fun _ => by rw [hd]; exact ⟨rfl, rfl⟩ }
  · rw [hd]; simp [List.take_of_length_le hf]
  · rw [hd]; simp only [List.length_nil, hov, Bool.or_false]
  · rw [hd]; simp
  · cases hl : s.cal.alarms with
    | nil => intro a ha; cases ha
    | cons x xs =>
      have hx : x.due.later now = true := by
        rw [hl] at hd
        simpa [dueBy, List.takeWhile_cons] using hd
      rw [hl] at hs
      obtain ⟨hxs, _⟩ := List.pairwise_cons.1 hs
      intro a ha
      rcases List.mem_cons.1 ha with e | e
      · exact e ▸ hx
      · have h1 := (CalTime.later_eq_false_iff _ _).1 (hxs a e)
        have h2 := (CalTime.later_iff _ _).1 hx
        rw [CalTime.later_iff]; omega
  · rw [hd]; simp

/-- The table after the head has fired, in parts. -/
theorem rearm_spec {c : Calendar} {a : Alarm} {rest : List Alarm} {now : CalTime} (hnow : c.now = now)
    (ha : a.due.later now = false) (hrest : alarmsSorted rest) :
    alarmsSorted (c.rearm a rest).alarms ∧
      dueBy (c.rearm a rest).alarms now = dueBy rest now ∧
      (c.rearm a rest).alarms.drop (dueBy rest now).length =
        takenBack [a] now (rest.drop (dueBy rest now).length) := by
  simp only [Calendar.rearm, hnow, takenBack, List.foldl_cons, List.foldl_nil]
  cases hnd : nextDue a now with
  | none => exact ⟨hrest, rfl, rfl⟩
  | some d =>
    have hdl := nextDue_later ha hnd
    obtain ⟨h1, h2⟩ := dueBy_insertAlarm (a := { a with due := d }) (as := rest) hdl
    refine ⟨insertAlarm_sorted hrest, h2, ?_⟩
    show List.drop _ (insertAlarm _ rest) = placed _ _
    rw [h1, List.drop_left, insertAlarm_eq_placed]

/-- The entries of a table that has taken one entry back, in any order. -/
theorem takenBack_singleton_perm (a : Alarm) (now : CalTime) (as : List Alarm) :
    (takenBack [a] now as).Perm
      (as ++ ((nextDue a now).map fun d => { a with due := d }).toList) := by
  simp only [takenBack, List.foldl_cons, List.foldl_nil]
  cases nextDue a now with
  | none => simp
  | some d =>
    show (placed _ _).Perm _
    rw [← insertAlarm_eq_placed]
    exact (insertAlarm_perm _ _).trans (List.perm_append_singleton _ _).symm

/-- Everything that firing the due heads of a table in order can do, for a bound that reaches them all. -/
theorem State.fireDue_spec (n : Nat) (s : State) (now : CalTime) (st : SupplyState)
    (hnow : s.cal.now = now) (hst : s.supplyState = st) (hs : alarmsSorted s.cal.alarms)
    (hf : s.cal.fired.length ≤ 16) (hn : (dueBy s.cal.alarms now).length ≤ n) :
    Fires s now st (State.fireDue n s) := by
  induction n generalizing s with
  | zero => exact Fires.none hnow hs hf (List.length_eq_zero_iff.1 (Nat.le_zero.1 hn))
  | succ n ih =>
    cases hl : s.cal.alarms with
    | nil =>
      have : State.fireDue (n + 1) s = (s, 0) := by simp [State.fireDue, hl]
      rw [this]; exact Fires.none hnow hs hf (by simp [hl, dueBy])
    | cons a rest =>
      by_cases ha : a.due.later now = true
      · have : State.fireDue (n + 1) s = (s, 0) := by simp [State.fireDue, hl, hnow, ha]
        rw [this]; exact Fires.none hnow hs hf (by simp [hl, dueBy, ha])
      · have ha' : a.due.later now = false := by simpa using ha
        have hdue : dueBy (a :: rest) now = a :: dueBy rest now := by simp [dueBy, ha']
        obtain ⟨so1, ru1, e1, hru1, hfull1⟩ := State.fire_eq s a rest
        rw [hl] at hs
        obtain ⟨_, hrest⟩ := List.pairwise_cons.1 hs
        obtain ⟨hsort, hdb, htab⟩ := rearm_spec (c := s.cal) hnow ha' hrest
        have hperm := takenBack_singleton_perm a now (rest.drop (dueBy rest now).length)
        rw [← htab] at hperm
        have hc := Calendar.addFired_rest (s.cal.rearm a rest) (firedRecord a s.cal.now s.supplyState)
        have hfired := Calendar.addFired_fired (s.cal.rearm a rest)
          (firedRecord a s.cal.now s.supplyState) hf
        have hover := Calendar.addFired_overflow (s.cal.rearm a rest)
          (firedRecord a s.cal.now s.supplyState) hf
        obtain ⟨c1, c2, c3, c4, c5, c6, c7, c8, c9⟩ := hc
        generalize hC : (s.cal.rearm a rest).addFired (firedRecord a s.cal.now s.supplyState) = C at *
        have hal : (s.fire a rest).cal.alarms = (s.cal.rearm a rest).alarms := by rw [e1]; exact c8
        have hfl : (s.fire a rest).cal.fired = C.fired := by rw [e1]; rfl
        have hlen : C.fired.length = min 16 (s.cal.fired.length + 1) := by
          rw [hfired]; simp [Calendar.rearm]
        have F := ih (s.fire a rest) (by rw [e1]; exact c4.trans hnow) (by rw [e1]; exact hst)
          (by rw [hal]; exact hsort) (by rw [hfl, hlen]; omega)
          (by
            rw [hal, hdb]
            rw [hl, hdue, List.length_cons] at hn
            omega)
        have hstep : State.fireDue (n + 1) s =
            ((State.fireDue n (s.fire a rest)).1, (State.fireDue n (s.fire a rest)).2 + 1) := by
          simp [State.fireDue, hl, hnow, ha']
        rw [hstep]
        obtain ⟨cc, so, ru, e2, hru2⟩ := F.frame
        have hdue' : dueBy s.cal.alarms now = a :: dueBy rest now := by rw [hl, hdue]
        have hdb' : dueBy (s.fire a rest).cal.alarms now = dueBy rest now := by rw [hal, hdb]
        refine { count := ?_, frame := ⟨cc, so, ru, ?_, ?_⟩, clock := F.clock, prescaler := ?_,
                 timeLost := ?_, osc := ?_, settle := ?_, epoch := ?_, rollover := ?_, fired := ?_,
                 overflow := ?_, wakePending := ?_, later := F.later, sorted := F.sorted,
                 alarms := ?_, table := ?_, handed := ?_ }
        · show _ + 1 = _
          rw [F.count, hdb', hdue', List.length_cons]
        · show (State.fireDue n (s.fire a rest)).1 = _
          rw [e2, e1]
        · intro h
          rcases h with h | h
          · have h2 := hru2 (.inl h)
            have h1 := hru1 (hst ▸ h)
            rw [h2.1, h2.2, e1]
            exact h1
          · rw [hdue'] at h; cases h
        · rw [F.prescaler, e1]; exact c3
        · rw [F.timeLost, e1]; exact c5
        · rw [F.osc, e1]; exact c1
        · rw [F.settle, e1]; exact c2
        · rw [F.epoch, e1]; exact c6
        · rw [F.rollover, e1]; exact c7
        · rw [F.fired, hfl, hfired, hdb', hdue', hnow, hst]
          show List.take 16 (List.take 16 (s.cal.fired ++ [firedRecord a now st]) ++ _) = _
          rw [take_take_append, List.append_assoc]
          rfl
        · rw [F.overflow, hfl, hlen, hdb', hdue', e1]
          show (C.overflow || _) = _
          rw [hover]
          show (s.cal.overflow || decide (16 < s.cal.fired.length + 1) || _) = _
          rw [List.length_cons, Bool.or_assoc]
          congr 1
          rw [← Bool.decide_or]
          congr 1
          apply propext; omega
        · rw [F.wakePending, hdb', hdue', e1]
          show (C.wakePending || (decide (s.supplyState ≠ .full) && a.wake) || _) = _
          rw [c9, hst, List.any_cons, Bool.and_or_distrib_left, Bool.or_assoc]
          rfl
        · refine F.alarms.trans ?_
          rw [hdb', hdue', hal, hl]
          show ((s.cal.rearm a rest).alarms.drop _ ++ _).Perm (rest.drop _ ++ _)
          refine (hperm.append_right _).trans ?_
          rw [List.append_assoc, List.filterMap_cons]
          refine List.Perm.append_left _ ?_
          cases nextDue a now <;> exact .refl _
        · rw [F.table, hdb', hdue', hal, hl]
          show takenBack _ now ((s.cal.rearm a rest).alarms.drop _) = takenBack (a :: _) now (rest.drop _)
          rw [htab]
          rfl
        · intro hfull
          have hs' : s.supplyState = .full := hst.trans hfull
          obtain ⟨f1, f2⟩ := hfull1 hs'
          obtain ⟨so', ru', ed⟩ := State.deliver_rest s a
          have hc := State.commands_congr (dueBy rest now) (s := s.fire a rest) (t := s.deliver a)
            (by rw [e1]; exact hs') (by rw [ed]; exact hs') (by rw [e1]; exact f1) (by rw [e1]; exact f2)
            (by rw [e1, ed])
          have hh := F.handed hfull
          rw [hdb'] at hh
          rw [hdue', List.flatMap_cons, State.commands_actions s hs']
          exact ⟨hh.1.trans hc.1, hh.2.trans hc.2⟩

/-- R72: one application of the firing rule. -/
theorem State.applyFiring_spec (s : State) (hs : alarmsSorted s.cal.alarms)
    (hf : s.cal.fired.length ≤ 16) : Fires s s.cal.now s.supplyState s.applyFiring :=
  State.fireDue_spec _ s _ _ rfl rfl hs hf (List.takeWhile_prefix _).length_le

end Sys2Proof.Machine
end

