-- ==== Sys2Proof/Laws/Effects.lean ====
section
/-! SUPPORT. What a command can do, said once: `Effect s t` lists every way in which a command can take
the part from `s` to `t`, with the conditions under which it does. A law that every effect keeps is kept
by every command and by every step. -/

namespace Sys2Proof.Machine

/-- The events of the store engine (the write, page, scan and format commands), each at its place. -/
inductive StoreEvent (s : State) : State → Prop where
  | readFilePage {r : Run} {f : FileNo} {offset length buf k : Nat} {link : Word}
      (h : s.store.op = .run r (.readFile f offset length buf k link)) :
      StoreEvent s (s.readFilePage r f offset length buf k link)
  | verifyPage {r : Run} {f : FileNo} {k : Nat} {link : Word} (h : s.store.op = .run r (.verify f k link)) :
      StoreEvent s (s.verifyPage r f k link)
  | readRawPage {r : Run} {first count buf done : Nat}
      (h : s.store.op = .run r (.readRaw first count buf done)) :
      StoreEvent s (s.readRawPage r first count buf done)
  | stageChunk {r : Run} {c : Commit} {i : Nat} (v : Verify) (h : s.store.op = .run r (.commit c (.staging i))) :
      StoreEvent s (s.stageChunk r c i v)
  | rollback {r : Run} {c : Commit} {todo : List PageNo} {why : Status} (v : HeaderVerify)
      (h : s.store.op = .run r (.commit c (.rollback todo why))) :
      StoreEvent s (s.rollbackPage r c todo why v)
  | rollbackFirst {r : Run} {c : Commit} {i : Nat} (v : HeaderVerify)
      (h : s.store.op = .run r (.commit c (.staging i))) (hr : r.abort = true ∨ s.store.free = []) :
      StoreEvent s (s.rollbackPage r c c.staged r.rollbackWhy v)
  | armCommit {r : Run} {c : Commit} (dev : List Host.Cell) (h : s.store.op = .run r (.commit c .arm)) :
      StoreEvent s (s.armCommit r c dev)
  | armDelete {r : Run} {f : FileNo} (dev : List Host.Cell) (h : s.store.op = .run r (.delete f .arm)) :
      StoreEvent s (s.armDelete r f dev)
  | commitEntry {r : Run} {c : Commit} {t : Stamp} (dev : List Host.Cell)
      (h : s.store.op = .run r (.commit c (.entry t))) : StoreEvent s (s.commitEntry r c t dev)
  | liveRewrite {r : Run} {c : Commit} {done todo : List PageNo} (v : HeaderVerify)
      (h : s.store.op = .run r (.commit c (.live done todo))) : StoreEvent s (s.liveRewrite r c done todo v)
  | breakFree {r : Run} {c : Commit} {kept todo : List PageNo} (v : HeaderVerify)
      (h : s.store.op = .run r (.commit c (.breakFree kept todo))) :
      StoreEvent s (s.breakFree r c kept todo v)
  | damagedEntry {r : Run} {c : Commit} {kept : List PageNo} (dev : List Host.Cell)
      (h : s.store.op = .run r (.commit c (.damagedEntry kept))) :
      StoreEvent s (s.damagedEntry r c kept dev)
  | freeOldCommit {r : Run} {c : Commit} {todo : List PageNo} {broken : Option Nat} (v : HeaderVerify)
      (h : s.store.op = .run r (.commit c (.freeOld todo broken))) :
      StoreEvent s (s.freeOldCommit r c todo broken v)
  | freeOldDelete {r : Run} {f : FileNo} {todo : List PageNo} (v : HeaderVerify)
      (h : s.store.op = .run r (.delete f (.freeOld todo))) : StoreEvent s (s.freeOldDelete r f todo v)
  | clearCommit {r : Run} {c : Commit} {broken : Option Nat} (dev : List Host.Cell)
      (h : s.store.op = .run r (.commit c (.clear broken))) : StoreEvent s (s.clearCommit r c broken dev)
  | clearDelete {r : Run} {f : FileNo} (dev : List Host.Cell) (h : s.store.op = .run r (.delete f .clear)) :
      StoreEvent s (s.clearDelete r f dev)
  | deleteEntry {r : Run} {f : FileNo} (dev : List Host.Cell) (h : s.store.op = .run r (.delete f .entry)) :
      StoreEvent s (s.deleteEntry r f dev)
  | formatHeader {r : Run} (dev : List Host.Cell) (h : s.store.op = .run r (.format .header)) :
      StoreEvent s (s.formatHeader r dev)
  | formatJournal {r : Run} (dev : List Host.Cell) (h : s.store.op = .run r (.format .journal)) :
      StoreEvent s (s.formatJournalWrite r dev)
  | formatEntry {r : Run} {f : FileNo} (dev : List Host.Cell) (h : s.store.op = .run r (.format (.entries f))) :
      StoreEvent s (s.formatEntry r f dev)
  | formatPage {r : Run} {p : PageNo} {bad : Nat} (v : HeaderVerify)
      (h : s.store.op = .run r (.format (.pages p bad))) : StoreEvent s (s.formatPage r p bad v)
  | discardHeader {n : ScanNotes} (dev : List Host.Cell) (h : s.store.op = .scan n .begin)
      (hb : s.batteryLost = true) : StoreEvent s ((s.putRecord discardHeader dev).setScan n .discarded)
  | clearBatteryLost {n : ScanNotes} (h : s.store.op = .scan n .discarded) :
      StoreEvent s (({ s with batteryLost := false, store := { s.store with verdict := false } } :
        State).setScan { n with discard := true } .publish)
  | headerRead {n : ScanNotes} (h : s.store.op = .scan n .begin) (hb : s.batteryLost = false) :
      StoreEvent s ((s.withStore { s.store with verdict := headerValid s.sram }).setScan n
        (if headerValid s.sram then .journal else .publish))
  | journalClear {n : ScanNotes} (h : s.store.op = .scan n .journal) (hj : readJournal s.sram = none) :
      StoreEvent s (s.setScan n (.entries 0))
  | journalArmed {n : ScanNotes} {j : Journal} (h : s.store.op = .scan n .journal)
      (hj : readJournal s.sram = some j) : StoreEvent s (s.setScan n (.rollEntry j))
  | rollEntry {n : ScanNotes} {j : Journal} (dev : List Host.Cell)
      (h : s.store.op = .scan n (.rollEntry j)) : StoreEvent s (s.rollEntry n j dev)
  | rollOld {n : ScanNotes} {j : Journal} {k : Nat} {p : PageNo} (v : HeaderVerify)
      (h : s.store.op = .scan n (.rollOld j k p)) : StoreEvent s (s.rollOld n j k p v)
  | rollLive {n : ScanNotes} {j : Journal} {k : Nat} {p : PageNo} (v : HeaderVerify)
      (h : s.store.op = .scan n (.rollLive j k p)) : StoreEvent s (s.rollLive n j k p v)
  | rollClear {n : ScanNotes} (dev : List Host.Cell) (h : s.store.op = .scan n .rollClear) :
      StoreEvent s (s.rollClear n dev)
  | scanEntry {n : ScanNotes} {f : FileNo} (dev : List Host.Cell) (h : s.store.op = .scan n (.entries f)) :
      StoreEvent s (s.scanEntry n f dev)
  | scanWalk {n : ScanNotes} {f : FileNo} {k : Nat} {link : Word} (dev : List Host.Cell)
      (h : s.store.op = .scan n (.walk f k link)) : StoreEvent s (s.scanWalk n f k link dev)
  | sweep {n : ScanNotes} {p : PageNo} (v : HeaderVerify) (h : s.store.op = .scan n (.sweep p)) :
      StoreEvent s (s.sweep n p v)
  | publish {n : ScanNotes} (h : s.store.op = .scan n .publish) : StoreEvent s (s.publish n)

/-- Everything that a command can do. -/
inductive Effect (s : State) : State → Prop where
  | same : Effect s s
  | rail (rail : Rail) (mv : Nat) (cut : WriteCut) : Effect s (s.setRail rail mv cut)
  | restart (cut : WriteCut) (h : s.supplyState = .full) : Effect s (s.restart cut)
  | crystal (h : s.supplyState ≠ .dead) : Effect s s.crystalEdge
  | detector (h : s.supplyState ≠ .dead) : Effect s (s.withCal s.cal.stop)
  | settled (h : s.supplyState ≠ .dead) (ho : s.cal.osc = .settling) : Effect s (s.withCal s.cal.settled)
  | second (h : s.supplyState ≠ .dead) (ho : s.cal.osc = .running) : Effect s s.secondEvent
  | cue (slot : Fin 4) (alarm : Fin 32) (h : s.supplyState = .full) : Effect s (s.cueRequest slot alarm)
  | play (p : RumbleRef) (h : s.supplyState = .full) : Effect s (s.playRequest p)
  | purge : Effect s s.purge
  | purgeReplied : Effect s s.purgeReplied
  | store {t : State} (h : StoreEvent s t) : Effect s t
  | produce (h : s.supplyState = .full) (hp : s.sound.canProduce = true) : Effect s s.produce
  | pull (h : s.supplyState = .full) : Effect s (s.withSound s.sound.pull)
  | wrap (h : s.supplyState = .full) : Effect s (s.withRumble (s.rumble.wrap s.link.cap))
  | unit (h : s.supplyState = .full) : Effect s (s.withRumble (s.rumble.tick .time s.beatRunning))
  | motorLevel (level : Bool) : Effect s { s with msns := level }
  | trip (h : s.supplyState = .full) : Effect s (({ s with msns := true } : State).withRumble s.rumble.tripNow)
  | enable (v : Word) (h : s.supplyState = .full) : Effect s (s.writeEnable v)
  | ram (a : Nat) (v : Word) (h : s.supplyState = .full) : Effect s (s.putRam a (bytes16 v.toNat))
  | take {c : CellId} {v : Word} {b : Block} (h : s.canTake c v b) : Effect s ((s.accepted c b).runUnit c b)
  | refused (c : CellId) (h : s.supplyState = .full) : Effect s (s.markRefused c)
  | acknowledged (c : CellId) {b : Block} (h : s.supplyState = .full) (hp : (s.cell c).hold = .pending b) :
      Effect s (s.setCell c { s.cell c with hold := .idle })
  | abort {b : Block} (h : s.supplyState = .full) (hb : (s.cell .store).hold = .busy b) :
      Effect s s.abortStore
  | start (h : s.keepOn = true) : Effect s (s.withLink s.link.start)
  | stop (h : s.keepOn = true) : Effect s (s.withLink s.link.stop)
  | wire (b : Byte) (h : s.keepOn = true) : Effect s (s.linkByte b)

/-! ### The production events that the inner rows name -/

theorem Sound.stepDue_iff {so : Sound} {v : Fin 8} : so.stepDue v = true ↔
    so.canProduce = true ∧ so.voices[v].active.key = true ∧
      so.voices[v].active.period ≤ so.voices[v].periodCount + 1 := by
  simp [Sound.stepDue, and_assoc]

theorem Sound.beatDue_iff {so : Sound} : so.beatDue = true ↔
    so.canProduce = true ∧ so.engine = .running ∧ so.frameCount + 1 = so.tempo := by
  simp [Sound.beatDue, and_assoc]

theorem Sound.rampDue_iff {so : Sound} : so.rampDue = true ↔
    so.canProduce = true ∧ so.engine = .muting ∧ so.frameGain = 0 := by
  simp [Sound.rampDue, and_assoc]

/-! ### Every command is one of the effects -/

theorem consoleOn_iff (s : State) : s.consoleOn = true ↔ s.supplyState = .full := by
  simp [State.consoleOn]

theorem cellOn_iff (s : State) : s.cellOn = true ↔ s.supplyState ≠ .dead := by simp [State.cellOn]

theorem State.canTake_of_offerable {s : State} {c : CellId} {v : Word} (hf : s.supplyState = .full)
    (hi : (s.cell c).hold = .idle) (hv : v ≠ 0) (ho : (s.blockAt v).offerable = true) :
    s.canTake c v (s.blockAt v) := by
  simp only [Block.offerable, Bool.and_eq_true, decide_eq_true_eq] at ho
  exact ⟨hf, hi, hv, rfl, ho.1.1.1.1, ho.1.1.1.2, ho.1.1.2, ho.1.2, ho.2⟩

theorem Effect.ofCellWrite {s : State} (hf : s.supplyState = .full) (c : CellId) (v : Word) :
    Effect s (s.cellWrite c v) := by
  unfold State.cellWrite
  split
  · rename_i hi
    split
    · exact .same
    · rename_i hv
      unfold State.offer
      by_cases ho : (s.blockAt v).offerable = true
      · simp only [ho, if_true]
        exact .take (State.canTake_of_offerable hf hi hv ho)
      · simp only [ho]
        exact .refused c hf
  · rename_i b hb
    split
    · cases c
      · exact .abort hf hb
      all_goals exact .same
    · exact .refused c hf
  · rename_i b hp
    split
    · exact .acknowledged c hf hp
    · exact .refused c hf

theorem Effect.ofBusCellWrite (s : State) (c : CellId) (v : Word) : Effect s (s.busCellWrite c v) := by
  unfold State.busCellWrite
  split
  · rename_i h; exact .ofCellWrite ((consoleOn_iff s).1 h) c v
  · exact .same

theorem Effect.ofNamedOffer (s : State) (c : CellId) (op : Nat) (v : Word) :
    Effect s (s.namedOffer c op v) := by
  unfold State.namedOffer
  split
  · rename_i h
    simp only [State.offersRequest, Bool.and_eq_true] at h
    exact .ofCellWrite ((consoleOn_iff s).1 h.1.1.1.1) c v
  · exact .same

theorem Effect.ofBusWrite {s : State} (hf : s.supplyState = .full) (a : BitVec 13) (v : Word) :
    Effect s (s.busWrite a v) := by
  unfold State.busWrite
  repeat' split
  · exact .ram _ v hf
  · exact .ofCellWrite hf _ v
  · exact .ofCellWrite hf _ v
  · exact .ofCellWrite hf _ v
  · exact .ofCellWrite hf _ v
  · exact .enable v hf
  · unfold State.writePartControl
    split
    · exact .restart _ hf
    · exact .same
  · exact .same

theorem Effect.ofWireByte (s : State) (b : Byte) : Effect s (s.wireByte b) := by
  unfold State.wireByte
  split
  · rename_i h; exact .wire b h
  · exact .same

theorem exists_of_goesOn {s t : State} (h : Effect s t) :
    ∃ t', goesOn t = .next t' ∧ Effect s t' := ⟨t, rfl, h⟩

/-- Every command answers a next state, and it is one of the effects. -/
theorem exec_effect (i : Instr) (s : State) : ∃ t, exec i s = .next t ∧ Effect s t := by
  cases i <;> simp only [exec]
  case railJudgementChange rail mv cut => exact exists_of_goesOn (.rail rail mv cut)
  case cellLowChange mv => exact exists_of_goesOn (.rail .vcell mv ⟨.nextEvent, .old⟩)
  case crystalEdge =>
    unfold execCrystalEdge
    split
    · rename_i h; exact exists_of_goesOn (.crystal ((cellOn_iff s).1 h))
    · exact exists_of_goesOn .same
  case detectorWindowExpiry =>
    unfold execDetectorWindowExpiry
    split
    · rename_i h; exact exists_of_goesOn (.detector ((cellOn_iff s).1 h))
    · exact exists_of_goesOn .same
  case settlingComplete =>
    unfold execSettlingComplete
    split
    · rename_i h; exact exists_of_goesOn (.settled ((cellOn_iff s).1 h.1) h.2.1)
    · exact exists_of_goesOn .same
  case secondEvent =>
    unfold execSecondEvent
    split
    · rename_i h; exact exists_of_goesOn (.second ((cellOn_iff s).1 h.1) h.2.1)
    · exact exists_of_goesOn .same
  case cueRequest slot alarm =>
    unfold execCueRequest
    split
    · rename_i h; exact exists_of_goesOn (.cue slot alarm ((consoleOn_iff s).1 h))
    · exact exists_of_goesOn .same
  case playRequest pattern priority =>
    unfold execPlayRequest
    split
    · rename_i h; exact exists_of_goesOn (.play _ ((consoleOn_iff s).1 h))
    · exact exists_of_goesOn .same
  case purgeRequest => exact exists_of_goesOn .purge
  case purgeReply => exact exists_of_goesOn .purgeReplied
  case readFilePage =>
    unfold execReadFilePage
    split
    · rename_i h; exact exists_of_goesOn (.store (.readFilePage h))
    · exact exists_of_goesOn .same
  case verifyPage =>
    unfold execVerifyPage
    split
    · rename_i h; exact exists_of_goesOn (.store (.verifyPage h))
    · exact exists_of_goesOn .same
  case readRawPage =>
    unfold execReadRawPage
    split
    · rename_i h; exact exists_of_goesOn (.store (.readRawPage h))
    · exact exists_of_goesOn .same
  case stageChunk v =>
    unfold execStageChunk
    split
    · rename_i h; exact exists_of_goesOn (.store (.stageChunk v h))
    · exact exists_of_goesOn .same
  case rollbackPageFree v =>
    unfold execRollbackPageFree
    split
    · rename_i h; exact exists_of_goesOn (.store (.rollback v h))
    · rename_i h
      split
      · rename_i hr; exact exists_of_goesOn (.store (.rollbackFirst v h hr))
      · exact exists_of_goesOn .same
    · exact exists_of_goesOn .same
  case armJournal dev =>
    unfold execArmJournal
    split
    · rename_i h; exact exists_of_goesOn (.store (.armCommit dev h))
    · rename_i h; exact exists_of_goesOn (.store (.armDelete dev h))
    · exact exists_of_goesOn .same
  case commitEntryWrite dev =>
    unfold execCommitEntryWrite
    split
    · rename_i h; exact exists_of_goesOn (.store (.commitEntry dev h))
    · exact exists_of_goesOn .same
  case liveRewrite v =>
    unfold execLiveRewrite
    split
    · rename_i h; exact exists_of_goesOn (.store (.liveRewrite v h))
    · exact exists_of_goesOn .same
  case breakPageFree v =>
    unfold execBreakPageFree
    split
    · rename_i h; exact exists_of_goesOn (.store (.breakFree v h))
    · exact exists_of_goesOn .same
  case damagedEntryWrite dev =>
    unfold execDamagedEntryWrite
    split
    · rename_i h; exact exists_of_goesOn (.store (.damagedEntry dev h))
    · exact exists_of_goesOn .same
  case freeOldPage v =>
    unfold execFreeOldPage
    split
    · rename_i h; exact exists_of_goesOn (.store (.freeOldCommit v h))
    · rename_i h; exact exists_of_goesOn (.store (.freeOldDelete v h))
    · exact exists_of_goesOn .same
  case clearJournal dev =>
    unfold execClearJournal
    split
    · rename_i h; exact exists_of_goesOn (.store (.clearCommit dev h))
    · rename_i h; exact exists_of_goesOn (.store (.clearDelete dev h))
    · rename_i h; exact exists_of_goesOn (.store (.rollClear dev h))
    · exact exists_of_goesOn .same
  case deleteEntryClear dev =>
    unfold execDeleteEntryClear
    split
    · rename_i h; exact exists_of_goesOn (.store (.deleteEntry dev h))
    · exact exists_of_goesOn .same
  case formatHeaderWrite dev =>
    unfold execFormatHeaderWrite
    split
    · rename_i h; exact exists_of_goesOn (.store (.formatHeader dev h))
    · exact exists_of_goesOn .same
  case formatJournalWrite dev =>
    unfold execFormatJournalWrite
    split
    · rename_i h; exact exists_of_goesOn (.store (.formatJournal dev h))
    · exact exists_of_goesOn .same
  case formatEntryWrite dev =>
    unfold execFormatEntryWrite
    split
    · rename_i h; exact exists_of_goesOn (.store (.formatEntry dev h))
    · exact exists_of_goesOn .same
  case formatPageWrite v =>
    unfold execFormatPageWrite
    split
    · rename_i h; exact exists_of_goesOn (.store (.formatPage v h))
    · exact exists_of_goesOn .same
  case scanDiscardHeader dev =>
    unfold execScanDiscardHeader
    split
    · rename_i h
      split
      · rename_i hb; exact exists_of_goesOn (.store (.discardHeader dev h hb))
      · exact exists_of_goesOn .same
    · exact exists_of_goesOn .same
  case scanClearBatteryLost =>
    unfold execScanClearBatteryLost
    split
    · rename_i h; exact exists_of_goesOn (.store (.clearBatteryLost h))
    · exact exists_of_goesOn .same
  case scanHeaderRead =>
    unfold execScanHeaderRead
    split
    · rename_i h
      split
      · exact exists_of_goesOn .same
      · rename_i hb; exact exists_of_goesOn (.store (.headerRead h (by simpa using hb)))
    · exact exists_of_goesOn .same
  case scanJournalRead =>
    unfold execScanJournalRead
    split
    · rename_i h
      split
      · rename_i hj; exact exists_of_goesOn (.store (.journalClear h hj))
      · rename_i hj; exact exists_of_goesOn (.store (.journalArmed h hj))
    · exact exists_of_goesOn .same
  case rollForwardEntryWrite dev =>
    unfold execRollForwardEntryWrite
    split
    · rename_i h; exact exists_of_goesOn (.store (.rollEntry dev h))
    · exact exists_of_goesOn .same
  case rollForwardOldPageFree v =>
    unfold execRollForwardOldPageFree
    split
    · rename_i h; exact exists_of_goesOn (.store (.rollOld v h))
    · exact exists_of_goesOn .same
  case rollForwardLiveRewrite v =>
    unfold execRollForwardLiveRewrite
    split
    · rename_i h; exact exists_of_goesOn (.store (.rollLive v h))
    · exact exists_of_goesOn .same
  case scanEntryRead dev =>
    unfold execScanEntryRead
    split
    · rename_i h; exact exists_of_goesOn (.store (.scanEntry dev h))
    · exact exists_of_goesOn .same
  case scanChainWalk dev =>
    unfold execScanChainWalk
    split
    · rename_i h; exact exists_of_goesOn (.store (.scanWalk dev h))
    · exact exists_of_goesOn .same
  case scanSweepPage v =>
    unfold execScanSweepPage
    split
    · rename_i h; exact exists_of_goesOn (.store (.sweep v h))
    · exact exists_of_goesOn .same
  case scanPublish =>
    unfold execScanPublish
    split
    · rename_i h; exact exists_of_goesOn (.store (.publish h))
    · exact exists_of_goesOn .same
  case productionEvent =>
    unfold execProductionEvent
    split
    · rename_i h; exact exists_of_goesOn (.produce ((consoleOn_iff s).1 h.1) h.2)
    · exact exists_of_goesOn .same
  case stepBoundary v =>
    unfold execStepBoundary
    split
    · rename_i h; exact exists_of_goesOn (.produce ((consoleOn_iff s).1 h.1) (Sound.stepDue_iff.1 h.2).1)
    · exact exists_of_goesOn .same
  case beatEvent =>
    unfold execBeatEvent
    split
    · rename_i h; exact exists_of_goesOn (.produce ((consoleOn_iff s).1 h.1) (Sound.beatDue_iff.1 h.2).1)
    · exact exists_of_goesOn .same
  case rampEnd =>
    unfold execRampEnd
    split
    · rename_i h; exact exists_of_goesOn (.produce ((consoleOn_iff s).1 h.1) (Sound.rampDue_iff.1 h.2).1)
    · exact exists_of_goesOn .same
  case pullEvent =>
    unfold execPullEvent
    split
    · rename_i h; exact exists_of_goesOn (.pull ((consoleOn_iff s).1 h))
    · exact exists_of_goesOn .same
  case driveWrap =>
    unfold execDriveWrap
    split
    · rename_i h; exact exists_of_goesOn (.wrap ((consoleOn_iff s).1 h))
    · exact exists_of_goesOn .same
  case unitEvent =>
    unfold execUnitEvent
    split
    · rename_i h; exact exists_of_goesOn (.unit ((consoleOn_iff s).1 h))
    · exact exists_of_goesOn .same
  case trip level =>
    simp only [execTrip]
    split
    · rename_i h
      obtain ⟨rfl, h⟩ := h
      exact exists_of_goesOn (.trip ((consoleOn_iff s).1 h))
    · exact exists_of_goesOn (.motorLevel level)
  case noticeEnableWrite v =>
    unfold execNoticeEnableWrite
    split
    · rename_i h; exact exists_of_goesOn (.enable v ((consoleOn_iff s).1 h))
    · exact exists_of_goesOn .same
  case partRestart v cut =>
    unfold execPartRestart State.writePartControl
    split
    · rename_i h
      split
      · exact exists_of_goesOn (.restart cut ((consoleOn_iff s).1 h))
      · exact exists_of_goesOn .same
    · exact exists_of_goesOn .same
  case exchangeRamWrite a v =>
    unfold execExchangeRamWrite
    split
    · rename_i h; exact exists_of_goesOn (.ofBusWrite ((consoleOn_iff s).1 h) a v)
    · exact exists_of_goesOn .same
  case startCondition =>
    unfold execStartCondition
    split
    · rename_i h; exact exists_of_goesOn (.start h)
    · exact exists_of_goesOn .same
  case stopCondition =>
    unfold execStopCondition
    split
    · rename_i h; exact exists_of_goesOn (.stop h)
    · exact exists_of_goesOn .same
  all_goals first
    | exact exists_of_goesOn (.ofWireByte s _)
    | exact exists_of_goesOn (.ofBusCellWrite s _ _)
    | exact exists_of_goesOn (.ofNamedOffer s _ _ _)

/-- A law of the state, not of the queue, that every effect keeps is kept at every step. -/
theorem step_keeps {L : State → Prop} (queue : ∀ s cs, L s → L { s with pending := cs })
    (keeps : ∀ s t, L s → Effect s t → L t) {s t : State} (hs : L s) (h : step s = .next t) : L t := by
  unfold step at h
  split at h
  · injection h with h; exact h ▸ hs
  · rename_i c cs hp
    obtain ⟨t', ht', he⟩ := exec_effect c { s with pending := cs }
    rw [ht'] at h
    injection h with h
    exact h ▸ keeps _ _ (queue s cs hs) he

end Sys2Proof.Machine
end

