-- ==== Sys2Proof/Laws/Frame.lean ====
section
/-! SUPPORT. What the events are made of: every event of the store engine is a chain of writes of the
engine, the port and the page array, every request of another cell a chain of writes of its units; and the
frames that follow. -/

namespace Sys2Proof.Machine

/-! ### The store engine -/

/-- The writes that the events of the store engine are made of. -/
inductive StoreMoves (s : State) : State → Prop where
  | refl : StoreMoves s s
  | withStore {t : State} (st : Store) (h : StoreMoves s t) : StoreMoves s (t.withStore st)
  | putArray {t : State} (w : RecWrite) (h : StoreMoves s t) : StoreMoves s (t.putArray w)
  | putRam {t : State} (a : Nat) (bs : List Byte) (h : StoreMoves s t) : StoreMoves s (t.putRam a bs)
  | setCell {t : State} (c : CellId) (r : CellReg) (h : StoreMoves s t) : StoreMoves s (t.setCell c r)
  | settleQuiesce {t : State} (h : StoreMoves s t) : StoreMoves s t.settleQuiesce
  | clearLost {t : State} (h : StoreMoves s t) : StoreMoves s { t with batteryLost := false }

namespace StoreMoves

variable {s t : State}

theorem setOp (op : Op) (h : StoreMoves s t) : StoreMoves s (t.setOp op) := h.withStore _

theorem setJob (r : Run) (j : Job) (h : StoreMoves s t) : StoreMoves s (t.setJob r j) := h.withStore _

theorem setScan (n : ScanNotes) (ph : ScanPhase) (h : StoreMoves s t) : StoreMoves s (t.setScan n ph) :=
  h.withStore _

theorem putRecord (w : RecWrite) (dev : List Host.Cell) (h : StoreMoves s t) :
    StoreMoves s (t.putRecord w dev) := h.putArray _

theorem terminate (c : CellId) (b : Block) (a : Answer) (h : StoreMoves s t) :
    StoreMoves s (t.terminate c b a) := (h.putRam _ _).setCell _ _

theorem answerWith (c : CellId) (b : Block) (k : Nat) (bs : List Byte) (a : Answer)
    (h : StoreMoves s t) : StoreMoves s (t.answerWith c b k bs a) := (h.putRam _ _).terminate _ _ _

theorem endRun (r : Run) (st : Status) (part : Bool) (n : Nat) (h : StoreMoves s t) :
    StoreMoves s (t.endRun r st part n) := ((h.terminate _ _ _).withStore _).settleQuiesce

theorem rewrite (p : PageNo) (hd : PageHdr) (v : HeaderVerify) (h : StoreMoves s t) :
    StoreMoves s (t.rewrite p hd v) := by
  cases v
  · exact h.putArray _
  · exact (h.putRecord _ _).withStore _

theorem freePage (p : PageNo) (v : HeaderVerify) (h : StoreMoves s t) : StoreMoves s (t.freePage p v) := by
  cases v
  · exact (h.rewrite p (.plain .free) .pass).withStore _
  · rename_i bad; exact h.rewrite p (.plain .free) (.fail bad)

theorem afterPage (r : Run) (last : Bool) (n : Nat) (j : Job) (h : StoreMoves s t) :
    StoreMoves s (t.afterPage r last n j) := by
  unfold State.afterPage
  repeat' split
  · exact h.endRun _ _ _ _
  · exact h.endRun _ _ _ _
  · exact h.setJob _ _

theorem enterRollback (r : Run) (c : Commit) (why : Status) (h : StoreMoves s t) :
    StoreMoves s (t.enterRollback r c why) := by
  unfold State.enterRollback
  split
  · exact h.endRun _ _ _ _
  · exact h.setJob _ _

theorem startRun (b : Block) (j : Job) (h : StoreMoves s t) : StoreMoves s (t.startRun b j) :=
  h.withStore _

/-- Every event of the store engine is made of these writes. -/
theorem ofEvent {s t : State} (h : StoreEvent s t) : StoreMoves s t := by
  have hr : StoreMoves s s := .refl
  cases h with
  | readFilePage h =>
    unfold State.readFilePage
    dsimp only
    repeat' split
    · exact hr.endRun _ _ _ _
    · exact hr.endRun _ _ _ _
    · exact hr.afterPage _ _ _ _
    · exact hr.endRun _ _ _ _
    · exact (hr.putRam _ _).afterPage _ _ _ _
  | verifyPage h =>
    unfold State.verifyPage
    dsimp only
    repeat' split
    · exact hr.endRun _ _ _ _
    · exact hr.endRun _ _ _ _
    · exact hr.endRun _ _ _ _
    · exact hr.afterPage _ _ _ _
  | readRawPage h => exact (hr.putRam _ _).afterPage _ _ _ _
  | stageChunk v h =>
    unfold State.stageChunk
    split
    · exact hr.enterRollback _ _ _
    · split
      · unfold State.afterStage
        repeat' split
        · exact ((hr.putArray _).withStore _).enterRollback _ _ _
        · exact ((hr.putArray _).withStore _).setJob _ _
        · exact ((hr.putArray _).withStore _).setJob _ _
      · unfold State.afterRetire
        split
        · exact ((hr.putArray _).withStore _).enterRollback _ _ _
        · exact ((hr.putArray _).withStore _).setJob _ _
  | rollback v h =>
    unfold State.rollbackPage
    split
    · exact hr.endRun _ _ _ _
    · exact (hr.freePage _ _).endRun _ _ _ _
    · exact (hr.freePage _ _).setJob _ _
  | rollbackFirst v h =>
    unfold State.rollbackPage
    split
    · exact hr.endRun _ _ _ _
    · exact (hr.freePage _ _).endRun _ _ _ _
    · exact (hr.freePage _ _).setJob _ _
  | armCommit dev h => exact (hr.putRecord _ _).setJob _ _
  | armDelete dev h => exact (hr.putRecord _ _).setJob _ _
  | commitEntry dev h => exact ((hr.putRecord _ _).withStore _).setJob _ _
  | liveRewrite v h =>
    unfold State.liveRewrite
    split
    · exact hr.setJob _ _
    · dsimp only
      split
      · exact (hr.rewrite _ _ _).setJob _ _
      · exact ((hr.rewrite _ _ _).withStore _).setJob _ _
  | breakFree v h =>
    unfold State.breakFree
    split
    · exact hr.setJob _ _
    · exact (hr.freePage _ _).setJob _ _
  | damagedEntry dev h => exact ((hr.putRecord _ _).withStore _).setJob _ _
  | freeOldCommit v h =>
    unfold State.freeOldCommit
    split
    · exact hr.setJob _ _
    · exact (hr.freePage _ _).setJob _ _
  | freeOldDelete v h =>
    unfold State.freeOldDelete
    split
    · exact hr.setJob _ _
    · exact (hr.freePage _ _).setJob _ _
  | clearCommit dev h =>
    unfold State.clearCommit
    split
    · exact (hr.putRecord _ _).endRun _ _ _ _
    · exact (hr.putRecord _ _).endRun _ _ _ _
  | clearDelete dev h => exact ((hr.putRecord _ _).setJob _ _).withStore _
  | deleteEntry dev h => exact ((hr.putRecord _ _).withStore _).setJob _ _
  | formatHeader dev h => exact (hr.putRecord _ _).setJob _ _
  | formatJournal dev h => exact (hr.putRecord _ _).setJob _ _
  | formatEntry dev h => exact ((hr.putRecord _ _).withStore _).setJob _ _
  | formatPage v h =>
    unfold State.formatPage
    dsimp only
    split
    · exact (hr.freePage _ _).setJob _ _
    · exact ((hr.freePage _ _).setJob _ _).withStore _
  | discardHeader dev h hb => exact (hr.putRecord _ _).setScan _ _
  | clearBatteryLost h => exact ((hr.clearLost).withStore _).setScan _ _
  | headerRead h hb => exact (hr.withStore _).setScan _ _
  | journalClear h hj => exact hr.setScan _ _
  | journalArmed h hj => exact hr.setScan _ _
  | rollEntry dev h => exact (hr.putRecord _ _).setScan _ _
  | rollOld v h => exact (hr.rewrite _ _ _).setScan _ _
  | rollLive v h => exact (hr.rewrite _ _ _).setScan _ _
  | rollClear dev h => exact (hr.putRecord _ _).setScan _ _
  | scanEntry dev h =>
    unfold State.scanEntry
    split
    · exact (hr.withStore _).setScan _ _
    · exact ((hr.putRecord _ _).withStore _).setScan _ _
  | scanWalk dev h =>
    unfold State.scanWalk
    dsimp only
    split
    · exact (hr.withStore _).setScan _ _
    · exact (hr.withStore _).setScan _ _
    · unfold State.markDamaged
      dsimp only
      split
      · exact (hr.withStore _).setScan _ _
      · exact (((hr.withStore _).putRecord _ _).withStore _).setScan _ _
  | sweep v h =>
    unfold State.sweep State.afterSweep
    dsimp only
    repeat' split
    all_goals first
      | exact hr.setScan _ _
      | exact ((hr.withStore _).freePage _ _).setScan _ _
      | exact (hr.freePage _ _).setScan _ _
      | exact (hr.withStore _).setScan _ _
  | publish h => exact (hr.withStore _).setScan _ _

theorem refuseStore (b : Block) (st : Status) (h : StoreMoves s t) :
    StoreMoves s (t.refuseStore b st) := h.terminate _ _ _

/-- A store request that starts is made of these writes. -/
theorem startStore (b : Block) (h : StoreMoves s t) : StoreMoves s (t.startStore b) := by
  unfold State.startStore State.storeRequest
  repeat' split
  · exact h.refuseStore _ _
  · exact h.refuseStore _ _
  · exact h.refuseStore _ _
  · unfold State.readEntryReq
    dsimp only
    repeat' split
    all_goals first
      | with_reducible exact h.refuseStore _ _
      | with_reducible exact h.answerWith _ _ _ _ _
  · unfold State.readFileReq
    dsimp only
    repeat' split
    all_goals first
      | with_reducible exact h.refuseStore _ _
      | with_reducible exact h.terminate _ _ _
      | with_reducible exact h.startRun _ _
  · unfold State.commitReq
    dsimp only
    split
    · exact h.refuseStore _ _
    · repeat' split
      all_goals first
        | with_reducible exact h.refuseStore _ _
        | with_reducible exact h.startRun _ _
  · unfold State.deleteReq
    dsimp only
    repeat' split
    all_goals first
      | with_reducible exact h.refuseStore _ _
      | with_reducible exact h.startRun _ _
  · unfold State.verifyReq
    dsimp only
    repeat' split
    all_goals first
      | with_reducible exact h.refuseStore _ _
      | with_reducible exact h.terminate _ _ _
      | with_reducible exact h.startRun _ _
  · unfold State.readRawReq
    dsimp only
    repeat' split
    all_goals first
      | with_reducible exact h.refuseStore _ _
      | with_reducible exact h.startRun _ _
  · exact h.withStore _
  · exact (h.withStore _).answerWith _ _ _ _ _

/-- A block handed to the store engine is made of these writes. -/
theorem runStore (b : Block) (h : StoreMoves s t) : StoreMoves s (t.runStore b) := by
  unfold State.runStore
  split
  · exact h.withStore _
  · exact h.startStore b

/-- The end of the recovery scan is made of these writes. -/
theorem scanEnd (n : ScanNotes) (h : StoreMoves s t) : StoreMoves s (t.scanEnd n) := by
  unfold State.scanEnd
  dsimp only
  repeat' split
  · exact (h.withStore _).settleQuiesce
  · exact (h.withStore _).settleQuiesce.refuseStore _ _
  · exact (h.withStore _).settleQuiesce.startStore _

/-- A purge reply is made of these writes. -/
theorem purgeReplied (h : StoreMoves s t) : StoreMoves s t.purgeReplied := by
  unfold State.purgeReplied
  repeat' split
  · exact h
  · exact h.scanEnd _
  · exact (h.withStore _).endRun _ _ _ _
  · exact (h.withStore _).endRun _ _ _ _
  · exact h

/-- An abort request is made of these writes. -/
theorem abortStore (h : StoreMoves s t) : StoreMoves s t.abortStore := by
  unfold State.abortStore State.abortCommit
  repeat' split
  all_goals first
    | with_reducible exact h
    | with_reducible exact (h.withStore _).terminate _ _ _
    | with_reducible exact h.setJob _ _
    | with_reducible exact h.enterRollback _ _ _

end StoreMoves

/-- What an event of the store engine leaves alone: everything outside the engine, the port, the page
array, BatteryLost, and the step of the quiesce state from Pending to Done when all units are held. -/
structure StoreFrame (s t : State) : Prop where
  pending : t.pending = s.pending
  supply : t.supply = s.supply
  msns : t.msns = s.msns
  cal : t.cal = s.cal
  sound : t.sound = s.sound
  rumble : t.rumble = s.rumble
  enable : t.port.enable = s.port.enable
  link : t.link = s.link ∨
    (s.link.quiesce = .pending ∧ t.link = { s.link with quiesce := .done })

namespace StoreFrame

theorem ofMoves {s t : State} (h : StoreMoves s t) : StoreFrame s t := by
  induction h with
  | refl => exact ⟨rfl, rfl, rfl, rfl, rfl, rfl, rfl, .inl rfl⟩
  | withStore st h ih =>
    exact ⟨ih.pending, ih.supply, ih.msns, ih.cal, ih.sound, ih.rumble, ih.enable, ih.link⟩
  | putArray w h ih =>
    exact ⟨ih.pending, ih.supply, ih.msns, ih.cal, ih.sound, ih.rumble, ih.enable, ih.link⟩
  | putRam a bs h ih =>
    exact ⟨ih.pending, ih.supply, ih.msns, ih.cal, ih.sound, ih.rumble, ih.enable, ih.link⟩
  | clearLost h ih =>
    exact ⟨ih.pending, ih.supply, ih.msns, ih.cal, ih.sound, ih.rumble, ih.enable, ih.link⟩
  | @setCell t c r h ih =>
    exact ⟨ih.pending, ih.supply, ih.msns, ih.cal, ih.sound, ih.rumble,
      (Port.setCell_enable t.port c r).trans ih.enable, ih.link⟩
  | @settleQuiesce t h ih =>
    refine ⟨?_, ?_, ?_, ?_, ?_, ?_, ?_, ?_⟩
    · simp [ih.pending]
    · simp [ih.supply]
    · simp [ih.msns]
    · simp [ih.cal]
    · simp [ih.sound]
    · simp [ih.rumble]
    · simp [ih.enable]
    · rcases State.settleQuiesce_cases t with e | ⟨hp, _, e⟩
      · rw [e]; exact ih.link
      · rw [e]
        rcases ih.link with e' | ⟨_, e'⟩
        · exact .inr ⟨e' ▸ hp, by rw [e']⟩
        · rw [e'] at hp; cases hp

/-- Every event of the store engine keeps to the frame. -/
theorem ofEvent {s t : State} (h : StoreEvent s t) : StoreFrame s t := ofMoves (.ofEvent h)

end StoreFrame

/-! ### The other three cells -/

/-- The writes that the requests of the other three cells, the firing rule and the signals between the
units are made of. -/
inductive CellMoves (s : State) : State → Prop where
  | refl : CellMoves s s
  | withCal {t : State} (c : Calendar) (h : CellMoves s t) : CellMoves s (t.withCal c)
  | withSound {t : State} (so : Sound) (h : CellMoves s t) : CellMoves s (t.withSound so)
  | withRumble {t : State} (r : Rumble) (h : CellMoves s t) : CellMoves s (t.withRumble r)
  | putRam {t : State} (a : Nat) (bs : List Byte) (h : CellMoves s t) : CellMoves s (t.putRam a bs)
  | setCell {t : State} {c : CellId} (r : CellReg) (h : CellMoves s t)
      (hc : c ≠ .store := by decide) : CellMoves s (t.setCell c r)

namespace CellMoves

variable {s t : State}

theorem terminate {c : CellId} (b : Block) (a : Answer) (h : CellMoves s t)
    (hc : c ≠ .store := by decide) : CellMoves s (t.terminate c b a) := (h.putRam _ _).setCell _ hc

theorem answerWith {c : CellId} (b : Block) (k : Nat) (bs : List Byte) (a : Answer) (h : CellMoves s t)
    (hc : c ≠ .store := by decide) : CellMoves s (t.answerWith c b k bs a) :=
  (h.putRam _ _).terminate _ _ hc

theorem fire (a : Alarm) (rest : List Alarm) (h : CellMoves s t) : CellMoves s (t.fire a rest) := by
  unfold State.fire State.deliver State.cueRequest State.playRequest
  dsimp only
  repeat' split
  all_goals first
    | with_reducible exact (((h.withCal _).withSound _).withRumble _)
    | with_reducible exact ((h.withCal _).withSound _)
    | with_reducible exact ((h.withCal _).withRumble _)
    | with_reducible exact (h.withCal _)
    | with_reducible exact (h.withCal _).withCal _

theorem fireDue (n : Nat) (h : CellMoves s t) : CellMoves s (t.fireDue n).1 := by
  induction n generalizing t with
  | zero => exact h
  | succ n ih =>
    unfold State.fireDue
    split
    · exact h
    · split
      · exact h
      · exact ih (h.fire _ _)

theorem applyFiring (h : CellMoves s t) : CellMoves s t.applyFiring.1 := h.fireDue _

theorem secondEvent (h : CellMoves s t) : CellMoves s t.secondEvent := (h.withCal _).applyFiring

theorem beatLostSignal (h : CellMoves s t) : CellMoves s t.beatLostSignal := h.withRumble _

theorem runCalendar (b : Block) (h : CellMoves s t) : CellMoves s (t.runCalendar b) := by
  unfold State.runCalendar State.calendarRequest State.readCalendar State.setCalendar State.setRollover
    State.addAlarm State.removeAlarm State.listAlarms State.takeFired
  dsimp only
  repeat' split
  all_goals first
    | with_reducible exact h.terminate _ _
    | with_reducible exact h.answerWith _ _ _ _
    | with_reducible exact (h.withCal _).terminate _ _
    | with_reducible exact (h.withCal _).answerWith _ _ _ _
    | with_reducible exact (h.putRam _ _).terminate _ _
    | with_reducible exact ((h.withCal _).putRam _ _).answerWith _ _ _ _
    | with_reducible exact ((h.withCal _).applyFiring).terminate _ _

theorem runSound (b : Block) (h : CellMoves s t) : CellMoves s (t.runSound b) := by
  unfold State.runSound State.soundRequest State.setVoices State.commitVoices State.broadcast
    State.silence State.loadWave State.startSound State.stopSound State.stopNow State.setTempo
    State.queueNotes State.loadCue State.playCue State.readSoundStatus State.withVoices
  dsimp only
  repeat' split
  all_goals first
    | with_reducible exact h.terminate _ _
    | with_reducible exact (h.withSound _).terminate _ _
    | with_reducible exact (h.withSound _).answerWith _ _ _ _
    | with_reducible exact (h.withSound _).beatLostSignal.terminate _ _

theorem runRumble (b : Block) (h : CellMoves s t) : CellMoves s (t.runRumble b) := by
  unfold State.runRumble State.rumbleRequest State.setLevels State.loadPattern State.playPattern
    State.stopRumble State.clearTrip State.readRumbleStatus
  dsimp only
  repeat' split
  all_goals first
    | with_reducible exact h.terminate _ _
    | with_reducible exact (h.withRumble _).terminate _ _
    | with_reducible exact (h.withRumble _).answerWith _ _ _ _

end CellMoves

/-- What a request of the calendar, sound or rumble cell leaves alone. -/
structure CellFrame (s t : State) : Prop where
  pending : t.pending = s.pending
  supply : t.supply = s.supply
  msns : t.msns = s.msns
  batteryLost : t.batteryLost = s.batteryLost
  sram : t.sram = s.sram
  link : t.link = s.link
  store : t.store = s.store
  storeCell : t.port.store = s.port.store
  enable : t.port.enable = s.port.enable

theorem CellFrame.ofMoves {s t : State} (h : CellMoves s t) : CellFrame s t := by
  induction h with
  | refl => exact ⟨rfl, rfl, rfl, rfl, rfl, rfl, rfl, rfl, rfl⟩
  | withCal _ h ih | withSound _ h ih | withRumble _ h ih | putRam _ _ h ih =>
    exact ⟨ih.pending, ih.supply, ih.msns, ih.batteryLost, ih.sram, ih.link, ih.store, ih.storeCell,
      ih.enable⟩
  | @setCell t c r h hc ih =>
    cases c
    · exact absurd rfl hc
    all_goals
      exact ⟨ih.pending, ih.supply, ih.msns, ih.batteryLost, ih.sram, ih.link, ih.store, ih.storeCell,
        ih.enable⟩

end Sys2Proof.Machine
end

