-- ==== Sys2Proof/Laws/Sound.lean ====
section
/-! SUPPORT. The sound engine, said once: what each operation on a voice keeps of its law, what an insertion
does to the note queue and its due beats, what a beat takes from it, the entries that a list of writes
applies, and the noise sequence. -/

namespace Sys2Proof.Machine

/-! ### Voices (R86 to R92, R100, R103, R115) -/

theorem Modulus.num_pos (m : Modulus) : 0 < m.num := by cases m <;> decide

theorem Modulus.ofNum_num (m : Modulus) : Modulus.ofNum m.num = some m := by cases m <;> rfl

namespace Voice

variable {v : Voice}

theorem take_lawful (h : v.lawful) : v.take.lawful := by
  obtain ⟨h1, h2, h3, h4, h5, h6⟩ := h
  unfold Voice.take
  dsimp only
  split
  · exact ⟨h2, h2, by show 0 ≤ 4095; omega, Modulus.num_pos _, fun _ => rfl, nofun⟩
  next hr =>
    refine ⟨h2, h2, h3, ?_, fun _ => rfl, fun h => absurd h hr⟩
    show (if v.stepCount < v.staged.modulus.num then v.stepCount else 0) < v.staged.modulus.num
    split
    · assumption
    · exact Modulus.num_pos _

theorem idleTake_lawful (h : v.lawful) : v.idleTake.lawful := by
  unfold Voice.idleTake
  split
  · exact take_lawful h
  · exact h

theorem syncTake_lawful (h : v.lawful) : v.syncTake.lawful := by
  unfold Voice.syncTake
  split
  · exact take_lawful h
  · exact h

theorem stage_lawful (h : v.lawful) {f : VoiceSet → VoiceSet} (hf : (f v.staged).lawful)
    (hk : (f v.staged).key = v.staged.key) : (v.stage f).lawful := by
  obtain ⟨h1, _, h3, h4, _, h6⟩ := h
  exact ⟨h1, hf, h3, h4, nofun, fun hr => ⟨rfl, hk.trans (h6 hr).2⟩⟩

theorem stageKey_lawful (h : v.lawful) (on : Bool) : (v.stageKey on).lawful := by
  obtain ⟨h1, h2, h3, h4, _, _⟩ := h
  exact ⟨h1, h2, h3, h4, nofun, fun hr => ⟨rfl, hr⟩⟩

theorem boundary_lawful (h1 : v.active.lawful) (h2 : v.staged.lawful)
    (h4 : v.stepCount < v.active.modulus.num) (h5 : v.pending = false → v.staged = v.active)
    (h6 : v.retrigger = true → v.pending = true ∧ v.staged.key = true) : v.boundary.lawful := by
  have key : (({ v with periodCount := 0 } : Voice).advancePhase).lawful := by
    unfold Voice.advancePhase
    split
    · refine ⟨h1, h2, by show 0 ≤ 4095; omega, ?_, h5, h6⟩
      show (if _ then _ else _) < _
      split
      · assumption
      · exact Modulus.num_pos _
    · exact ⟨h1, h2, by show 0 ≤ 4095; omega, h4, h5, h6⟩
    · exact ⟨h1, h2, by show 0 ≤ 4095; omega, h4, h5, h6⟩
    · exact ⟨h1, h2, by show 0 ≤ 4095; omega, h4, h5, h6⟩
  unfold Voice.boundary
  dsimp only
  split
  · exact take_lawful key
  · exact key

theorem advance_lawful (h : v.lawful) : v.advance.lawful := by
  obtain ⟨h1, h2, h3, h4, h5, h6⟩ := id h
  unfold Voice.advance
  split
  · dsimp only
    split
    · exact boundary_lawful h1 h2 h4 h5 h6
    · refine ⟨h1, h2, ?_, h4, h5, h6⟩
      have := h1.2.1
      show v.periodCount + 1 ≤ 4095
      omega
  · exact h

theorem apply_lawful (h : v.lawful) {a : NoteAction} (ha : a.lawful) : (a.apply v).lawful := by
  cases a with
  | keyOn p l =>
    exact stageKey_lawful (stage_lawful
      (stage_lawful h (f := fun q => { q with period := p }) ⟨ha.1, ha.2, h.2.1.2.2⟩ rfl)
      ⟨ha.1, ha.2, h.2.1.2.2⟩ rfl) _
  | keyOff => exact stageKey_lawful h _
  | setLevel l => exact stage_lawful h h.2.1 rfl
  | setWave l => exact stage_lawful h h.2.1 rfl

theorem silence_lawful (h : v.lawful) : v.silence.lawful := by
  obtain ⟨h1, h2, h3, h4, h5, _⟩ := h
  unfold Voice.silence
  refine ⟨h1, ?_, h3, h4, fun _ => ?_, nofun⟩
  · show VoiceSet.lawful (if _ then _ else _)
    split
    · exact h1
    · exact h2
  · show (if _ then _ else _) = _
    split
    · rfl
    next hp => rw [h5 (by simpa using hp)]

/-- R100: a parameter write that passes keeps the law. -/
theorem writeParam_lawful {w : Voice} (h : v.lawful) {param value : Nat}
    (hw : v.writeParam param value = some w) : w.lawful := by
  obtain ⟨hs1, hs2, hs3⟩ := h.2.1
  unfold Voice.writeParam at hw
  split at hw
  · split at hw <;> first
      | (injection hw with hw; subst hw; exact stage_lawful h h.2.1 rfl)
      | cases hw
  · split at hw
    next hp => injection hw with hw; subst hw; exact stage_lawful h ⟨hp.1, hp.2, hs3⟩ rfl
    · cases hw
  · rw [Option.map_eq_some_iff] at hw
    obtain ⟨m, _, hw⟩ := hw
    subst hw
    exact stage_lawful h ⟨hs1, hs2, Nat.min_le_right _ _⟩ rfl
  · split at hw
    next hp => injection hw with hw; subst hw; exact stage_lawful h ⟨hs1, hs2, hp⟩ rfl
    · cases hw
  · rw [Option.map_eq_some_iff] at hw; obtain ⟨m, _, hw⟩ := hw; subst hw; exact stage_lawful h h.2.1 rfl
  · rw [Option.map_eq_some_iff] at hw; obtain ⟨m, _, hw⟩ := hw; subst hw; exact stage_lawful h h.2.1 rfl
  · rw [Option.map_eq_some_iff] at hw; obtain ⟨m, _, hw⟩ := hw; subst hw; exact stage_lawful h h.2.1 rfl
  · rw [Option.map_eq_some_iff] at hw; obtain ⟨m, _, hw⟩ := hw; subst hw; exact stage_lawful h h.2.1 rfl
  · split at hw <;> first
      | (injection hw with hw; subst hw; exact stageKey_lawful h _)
      | cases hw
  · split at hw <;> first
      | (injection hw with hw; subst hw; exact h)
      | cases hw
  · split at hw <;> first
      | (injection hw with hw; subst hw; exact h)
      | cases hw
  · cases hw

end Voice

/-- R100: the writes applied are a prefix of the list, up to the first that fails. -/
theorem applyWrites_spec (ws : List VoiceWrite) (vs : Vector Voice 8) :
    (applyWrites ws vs).2 ≤ ws.length ∧
      ∀ w, ws[(applyWrites ws vs).2]? = some w → applyWrite w (applyWrites ws vs).1 = none := by
  induction ws generalizing vs with
  | nil => exact ⟨Nat.le_refl _, nofun⟩
  | cons w ws ih =>
    unfold applyWrites
    split
    next vs' _ =>
      obtain ⟨h1, h2⟩ := ih vs'
      exact ⟨by simp only [List.length_cons]; omega, fun x hx => h2 x (by simpa using hx)⟩
    next hn =>
      refine ⟨Nat.zero_le _, fun x hx => ?_⟩
      have : w = x := by simpa using hx
      exact this ▸ hn

theorem State.voiceWrites_length (s : State) (a n : Nat) : (s.voiceWrites a n).length = n := by
  induction n generalizing a with
  | zero => rfl
  | succ n ih => simp [State.voiceWrites, ih]

/-! ### The note queue (R113, R114) -/

theorem insertNote_length (n : Note) (d : Nat) (qs : List Queued) :
    (insertNote n d qs).length = qs.length + 1 := by
  induction qs generalizing d with
  | nil => rfl
  | cons q qs ih =>
    unfold insertNote
    split
    · simp [ih]
    · simp

theorem insertNotes_length (es : List NoteEntry) (qs : List Queued) :
    (insertNotes es qs).length = qs.length + es.length := by
  induction es generalizing qs with
  | nil => rfl
  | cons e es ih =>
    show (insertNotes es (insertNote e.note e.delay qs)).length = _
    rw [ih, insertNote_length, List.length_cons]
    omega

/-- An insertion places the note by due beat, after those due no later, and leaves every other due beat
as it was. -/
theorem dueBeats_insertNote (n : Note) (qs : List Queued) (d base : Nat) :
    dueBeats base (insertNote n d qs) =
      ((dueBeats base qs).takeWhile fun x => decide (x.2 ≤ base + d)) ++ (n, base + d) ::
        ((dueBeats base qs).dropWhile fun x => decide (x.2 ≤ base + d)) := by
  induction qs generalizing d base with
  | nil => rfl
  | cons q qs ih =>
    unfold insertNote
    by_cases h : q.wait ≤ d
    · have e : base + q.wait + (d - q.wait) = base + d := by omega
      simp only [h, if_true, dueBeats, ih, e]
      rw [List.takeWhile_cons_of_pos (by simp; omega), List.dropWhile_cons_of_pos (by simp; omega)]
      rfl
    · have e : base + d + (q.wait - d) = base + q.wait := by omega
      simp only [h, if_false, dueBeats, e]
      rw [List.takeWhile_cons_of_neg (by simp; omega), List.dropWhile_cons_of_neg (by simp; omega)]
      rfl

/-- R113: a beat applies the entries due at it in queue order and lowers the next wait. -/
theorem beatNotes_append (due rest : List Queued) (vs : Vector Voice 8) (hd : ∀ q ∈ due, q.wait = 0)
    (hr : ∀ q ∈ rest.head?, q.wait ≠ 0) :
    beatNotes (due ++ rest) vs =
      ((match rest with
        | [] => []
        | q :: qs => { q with wait := q.wait - 1 } :: qs),
       due.foldl (fun vs q => vs.set q.note.voice (q.note.action.apply vs[q.note.voice])) vs) := by
  induction due generalizing vs with
  | nil =>
    cases rest with
    | nil => rfl
    | cons q qs =>
      have := hr q rfl
      simp [beatNotes, this]
  | cons d ds ih =>
    have h0 := hd d List.mem_cons_self
    simp only [List.cons_append, beatNotes, h0, if_true]
    rw [ih _ fun q hq => hd q (List.mem_cons_of_mem _ hq)]
    rfl

/-- Notes in range, with waits that fit a byte. -/
def notesLawful (ns : List Queued) : Prop := ∀ q ∈ ns, q.note.action.lawful ∧ q.wait ≤ 255

theorem insertNote_lawful {n : Note} (hn : n.action.lawful) {qs : List Queued} {d : Nat} (hd : d ≤ 255)
    (h : notesLawful qs) : notesLawful (insertNote n d qs) := by
  induction qs generalizing d with
  | nil =>
    intro q hq
    simp [insertNote] at hq
    subst hq; exact ⟨hn, hd⟩
  | cons q qs ih =>
    have hq := h q List.mem_cons_self
    have hqs : notesLawful qs := fun x hx => h x (List.mem_cons_of_mem _ hx)
    unfold insertNote
    split
    · intro x hx
      rcases List.mem_cons.1 hx with e | e
      · exact e ▸ hq
      · exact ih (by omega) hqs x e
    · intro x hx
      rcases List.mem_cons.1 hx with e | e
      · subst e; exact ⟨hn, hd⟩
      · rcases List.mem_cons.1 e with e | e
        · subst e; exact ⟨hq.1, by show q.wait - d ≤ 255; omega⟩
        · exact hqs x e

theorem insertNotes_lawful {es : List NoteEntry} {qs : List Queued}
    (he : ∀ e ∈ es, e.note.action.lawful ∧ e.delay ≤ 255) (h : notesLawful qs) :
    notesLawful (insertNotes es qs) := by
  induction es generalizing qs with
  | nil => exact h
  | cons e es ih =>
    have h0 := he e List.mem_cons_self
    exact ih (fun x hx => he x (List.mem_cons_of_mem _ hx)) (insertNote_lawful h0.1 h0.2 h)

theorem beatNotes_lawful {qs : List Queued} {vs : Vector Voice 8} (h : notesLawful qs)
    (hv : ∀ v ∈ vs.toList, v.lawful) : notesLawful (beatNotes qs vs).1 ∧
      (∀ v ∈ (beatNotes qs vs).2.toList, v.lawful) ∧ (beatNotes qs vs).1.length ≤ qs.length := by
  induction qs generalizing vs with
  | nil => exact ⟨h, hv, Nat.le_refl _⟩
  | cons q qs ih =>
    have hq := h q List.mem_cons_self
    have hqs : notesLawful qs := fun x hx => h x (List.mem_cons_of_mem _ hx)
    unfold beatNotes
    split
    · have hvs : ∀ v ∈ (applyNote q.note vs).toList, v.lawful := by
        intro w hw
        rw [Vector.mem_toList_iff] at hw
        rcases Vector.mem_or_eq_of_mem_set hw with e | e
        · exact hv w (by simpa using e)
        · exact e ▸ Voice.apply_lawful (hv _ (by simp)) hq.1
      obtain ⟨a, b, c⟩ := ih hqs hvs
      exact ⟨a, b, by simp; omega⟩
    · refine ⟨fun x hx => ?_, hv, by simp⟩
      rcases List.mem_cons.1 hx with e | e
      · subst e; exact ⟨hq.1, by show q.wait - 1 ≤ 255; omega⟩
      · exact hqs x e

/-- R116: a note list that passes holds notes in range, one for each entry. -/
theorem State.notesAt_lawful {s : State} {a n : Nat} {es : List NoteEntry} (h : s.notesAt a n = some es) :
    (∀ e ∈ es, e.note.action.lawful ∧ e.delay ≤ 255) ∧ es.length = n := by
  have action : ∀ {a act}, s.actionAt a = some act → act.lawful := by
    intro a act h
    unfold State.actionAt at h
    split at h
    · split at h
      · dsimp only at h
        split at h
        next hp => injection h with h; subst h; exact hp
        · cases h
      · cases h
    · injection h with h; subst h; trivial
    · rw [Option.map_eq_some_iff] at h; obtain ⟨m, _, h⟩ := h; subst h; trivial
    · rw [Option.map_eq_some_iff] at h; obtain ⟨m, _, h⟩ := h; subst h; trivial
    · cases h
  induction n generalizing a es with
  | zero => simp [State.notesAt] at h; subst h; exact ⟨nofun, rfl⟩
  | succ n ih =>
    unfold State.notesAt at h
    split at h
    next e es' h1 h2 =>
      injection h with h
      subst h
      obtain ⟨i1, i2⟩ := ih h2
      refine ⟨fun x hx => ?_, by simp [i2]⟩
      rcases List.mem_cons.1 hx with ex | ex
      · subst ex
        unfold State.noteAt at h1
        split at h1
        next ha _ =>
          injection h1 with h1
          subst h1
          refine ⟨action ha, ?_⟩
          have := (s.ramByte (a + 2)).isLt
          show (s.ramByte (a + 2)).toNat ≤ 255
          omega
        · cases h1
      · exact i1 x ex
    · cases h

/-- R96: the limit as a minimum and a maximum. -/
theorem limit16_eq (x : Int) : limit16 x = max (-32768) (min 32767 x) := by
  unfold limit16; omega

/-! ### The noise sequence (R95) -/

/-- R95: the register shifts: each stage moves on, and the newest is the exclusive OR of the two oldest. -/
theorem noiseRegister_succ_getLsbD (n k : Nat) (h : k < 15) :
    (noiseRegister (n + 1)).getLsbD k =
      if k = 14 then noiseBit n != (noiseRegister n).getLsbD 1 else (noiseRegister n).getLsbD (k + 1) := by
  unfold noiseBit
  rw [noiseRegister]
  generalize noiseRegister n = r
  by_cases hk : k = 14
  · subst hk
    cases h : r.getLsbD 0 != r.getLsbD 1 <;> simp
  · have h2 : (0x4000#15).getLsbD k = false := by
      have : k < 14 := by omega
      revert k; decide
    cases h : r.getLsbD 0 != r.getLsbD 1 <;> simp [hk, h2, Nat.add_comm]

/-- R95: a stage holds the sequence bit that leaves that many advances later. -/
theorem noiseRegister_getLsbD (n k : Nat) (h : k < 15) : (noiseRegister n).getLsbD k = noiseBit (n + k) := by
  induction k generalizing n with
  | zero => rfl
  | succ k ih =>
    have e := noiseRegister_succ_getLsbD n k (by omega)
    rw [if_neg (by omega)] at e
    rw [← e, ih (n + 1) (by omega), Nat.add_right_comm, Nat.add_assoc]

/-- R95: the sequence starts with fifteen ones. -/
theorem noiseBit_start (n : Nat) (h : n < 15) : noiseBit n = true := by
  have e := noiseRegister_getLsbD 0 n h
  rw [Nat.zero_add] at e
  rw [← e]; revert n; decide

/-- R95: each later bit is the exclusive OR of the bits fifteen and fourteen places before it. -/
theorem noiseBit_recurrence (n : Nat) : noiseBit (n + 15) = (noiseBit n != noiseBit (n + 1)) := by
  have e := noiseRegister_succ_getLsbD n 14 (by omega)
  rw [if_pos rfl, noiseRegister_getLsbD n 1 (by omega), noiseRegister_getLsbD (n + 1) 14 (by omega)] at e
  rw [← e, Nat.add_right_comm, Nat.add_assoc]

end Sys2Proof.Machine
end

