-- ==== Sys2Proof/Laws/Operands.lean ====
section
/-! SUPPORT. What the readers of operand bytes give, one lemma a reader: an alarm (TABLE 11-7), note entries
(TABLE 11-8), pattern steps (TABLE 11-6), and the list of a SET_VOICES (TABLE 11-5, TABLE 5-4). -/

namespace Sys2Proof.Machine

/-! ### Numbers of two and four bytes -/

theorem State.ramNat_two (s : State) (a : Nat) :
    s.ramNat a 2 = (s.ramByte a).toNat + 256 * (s.ramByte (a + 1)).toNat := by
  simp only [State.ramNat, State.ramByte, Mem.reads, natOf]; omega

theorem State.ramNat_four (s : State) (a : Nat) :
    s.ramNat a 4 = (s.ramByte a).toNat + 256 * (s.ramByte (a + 1)).toNat +
      65536 * (s.ramByte (a + 2)).toNat + 16777216 * (s.ramByte (a + 3)).toNat := by
  simp only [State.ramNat, State.ramByte, Mem.reads, natOf, Nat.add_assoc, Nat.reduceAdd]; omega

theorem State.ramNat_two_lt (s : State) (a : Nat) : s.ramNat a 2 < 65536 := by
  rw [State.ramNat_two]; omega

/-- A two-byte field as a word is the number that its bytes spell. -/
theorem State.wordAt_eq_iff (s : State) (a : Nat) (w : Word) :
    wordOf (Mem.reads s.port.ram a 2) = w ↔ s.ramNat a 2 = w.toNat := by
  have h : (wordOf (Mem.reads s.port.ram a 2)).toNat = s.ramNat a 2 :=
    (BitVec.toNat_ofNat _ _).trans (Nat.mod_eq_of_lt (s.ramNat_two_lt a))
  rw [← h]; exact BitVec.toNat_inj.symm

/-! ### Alarms -/

theorem State.alarmCueAt_eq_some_iff (s : State) (a : Nat) (cue : Option (Fin 4)) :
    s.alarmCueAt a = some cue ↔ match cue with
      | none => (s.ramByte (a + 12)).getLsbD 1 = false
      | some k => (s.ramByte (a + 12)).getLsbD 1 = true ∧ (s.ramByte (a + 13)).toNat = k.val := by
  unfold State.alarmCueAt
  cases h : (s.ramByte (a + 12)).getLsbD 1 <;> cases cue <;> simp [inRange_eq_some_iff]

theorem State.alarmRumbleAt_eq_some_iff (s : State) (a : Nat) (rumble : Option RumbleRef) :
    s.alarmRumbleAt a = some rumble ↔ match rumble with
      | none => (s.ramByte (a + 12)).getLsbD 2 = false
      | some r => (s.ramByte (a + 12)).getLsbD 2 = true ∧ (s.ramByte (a + 14)).toNat = r.pattern.val ∧
          (s.ramByte (a + 15)).toNat = r.priority.val := by
  unfold State.alarmRumbleAt
  cases h : (s.ramByte (a + 12)).getLsbD 2
  · cases rumble <;> simp
  · cases hp : inRange (s.ramByte (a + 14)).toNat 8 <;> cases hq : inRange (s.ramByte (a + 15)).toNat 4
    all_goals (cases rumble <;> simp [← inRange_eq_some_iff, hp, hq])
    rename_i p q r
    cases r; simp

/-- TABLE 11-7, R68 check 1: an alarm is read exactly when its bytes state it. -/
theorem State.alarmAt_eq_some_iff (s : State) (x : Nat) (id : Fin 32) (a : Alarm) :
    s.alarmAt x id = some a ↔ a.id = id ∧ s.alarmIs x a := by
  obtain ⟨aid, owner, ⟨day, second⟩, every, wake, cue, rumble, tag⟩ := a
  have key : s.alarmAt x id = some ⟨aid, owner, ⟨day, second⟩, every, wake, cue, rumble, tag⟩ ↔
      aid = id ∧ inRange (s.ramByte (x + 1)).toNat 16 = some owner ∧
        Fin.ofNat 65536 (s.ramNat (x + 2) 2) = day ∧ inRange (s.ramNat (x + 4) 4) 86400 = some second ∧
        wordOf (Mem.reads s.port.ram (x + 8) 2) = every ∧
        wordOf (Mem.reads s.port.ram (x + 10) 2) = tag ∧ (s.ramByte (x + 12)).getLsbD 0 = wake ∧
        s.alarmCueAt x = some cue ∧ s.alarmRumbleAt x = some rumble := by
    unfold State.alarmAt
    cases inRange (s.ramByte (x + 1)).toNat 16 <;> cases inRange (s.ramNat (x + 4) 4) 86400 <;>
      cases s.alarmCueAt x <;> cases s.alarmRumbleAt x <;> simp
    constructor
    · rintro ⟨h1, h2, ⟨h3, h4⟩, h5, h6, h7, h8, h9⟩; exact ⟨h1.symm, h2, h3, h4, h5, h9, h6, h7, h8⟩
    · rintro ⟨h1, h2, h3, h4, h5, h9, h6, h7, h8⟩; exact ⟨h1.symm, h2, ⟨h3, h4⟩, h5, h6, h7, h8, h9⟩
  have hd : Fin.ofNat 65536 (s.ramNat (x + 2) 2) = day ↔ s.ramNat (x + 2) 2 = day.val := by
    rw [Fin.ext_iff, Fin.val_ofNat, Nat.mod_eq_of_lt (s.ramNat_two_lt (x + 2))]
  rw [key, inRange_eq_some_iff, inRange_eq_some_iff, hd, State.wordAt_eq_iff, State.wordAt_eq_iff,
    State.alarmCueAt_eq_some_iff, State.alarmRumbleAt_eq_some_iff]
  exact Iff.rfl

/-! ### Note entries -/

/-- TABLE 11-8, R116 check 2: a note entry is read exactly when its bytes state it. -/
theorem State.noteAt_eq_some_iff (s : State) (x : Nat) (e : NoteEntry) :
    s.noteAt x = some e ↔ s.noteIs x e := by
  obtain ⟨⟨voice, act⟩, delay⟩ := e
  have code (n : Nat) (h : n < 256) : (s.ramByte x).toNat = n ↔ s.ramByte x = BitVec.ofNat 8 n := by
    rw [← BitVec.toNat_inj, BitVec.toNat_ofNat, Nat.mod_eq_of_lt (show n < 2 ^ 8 from h)]
  have ha : s.actionAt x = some act ↔ match act with
      | .keyOn period level => s.ramByte x = 0 ∧ (s.ramByte (x + 3)).toNat = level.val ∧
          s.ramNat (x + 4) 2 = period ∧ 1 ≤ period ∧ period ≤ 4095
      | .keyOff => s.ramByte x = 1
      | .setLevel level => s.ramByte x = 2 ∧ (s.ramByte (x + 3)).toNat = level.val
      | .setWave slot => s.ramByte x = 3 ∧ (s.ramByte (x + 6)).toNat = slot.val := by
    have h0 := code 0 (by decide); have h1 := code 1 (by decide)
    have h2 := code 2 (by decide); have h3 := code 3 (by decide)
    unfold State.actionAt
    simp only [← inRange_eq_some_iff]
    split
    · rename_i h; rw [h0] at h
      cases hl : inRange (s.ramByte (x + 3)).toNat 128
      · cases act <;> simp [h]
      · simp only
        split <;> cases act <;> simp_all <;> omega
    · rename_i h; rw [h1] at h
      cases act <;> simp [h]
    · rename_i h; rw [h2] at h
      cases hl : inRange (s.ramByte (x + 3)).toNat 128 <;> cases act <;> simp [h]
    · rename_i h; rw [h3] at h
      cases hl : inRange (s.ramByte (x + 6)).toNat 8 <;> cases act <;> simp [h]
    · rename_i h0' h1' h2' h3'
      rw [h0] at h0'; rw [h1] at h1'; rw [h2] at h2'; rw [h3] at h3'
      cases act <;> simp_all
  have key : s.noteAt x = some ⟨⟨voice, act⟩, delay⟩ ↔ inRange (s.ramByte (x + 1)).toNat 8 = some voice ∧
      (s.ramByte (x + 2)).toNat = delay ∧ s.actionAt x = some act := by
    unfold State.noteAt
    cases s.actionAt x <;> cases inRange (s.ramByte (x + 1)).toNat 8 <;> simp
    constructor
    · rintro ⟨⟨h1, h2⟩, h3⟩; exact ⟨h1, h3, h2⟩
    · rintro ⟨h1, h3, h2⟩; exact ⟨⟨h1, h2⟩, h3⟩
  rw [key, inRange_eq_some_iff, ha]
  exact Iff.rfl

/-- A list of note entries is read exactly when each eight bytes state the entry in its place. -/
theorem State.notesAt_eq_some_iff (s : State) (x n : Nat) (es : List NoteEntry) :
    s.notesAt x n = some es ↔
      es.length = n ∧ ∀ (k : Nat) (e : NoteEntry), es[k]? = some e → s.noteIs (x + 8 * k) e := by
  induction n generalizing x es with
  | zero => cases es <;> simp [State.notesAt]
  | succ n ih =>
    simp only [← State.noteAt_eq_some_iff] at ih ⊢
    cases es with
    | nil => unfold State.notesAt; split <;> simp
    | cons e es =>
      have hsplit : (∀ (k : Nat) (d : NoteEntry), (e :: es)[k]? = some d → s.noteAt (x + 8 * k) = some d) ↔
          s.noteAt x = some e ∧ ∀ (k : Nat) (d : NoteEntry), es[k]? = some d →
            s.noteAt (x + 8 + 8 * k) = some d := by
        constructor
        · intro h
          refine ⟨by simpa using h 0 e rfl, fun k d hk => ?_⟩
          have := h (k + 1) d (by simpa using hk)
          rwa [show x + 8 * (k + 1) = x + 8 + 8 * k by omega] at this
        · rintro ⟨h0, h⟩ k d hk
          cases k with
          | zero => injection hk with hk; subst hk; simpa using h0
          | succ k =>
            rw [show x + 8 * (k + 1) = x + 8 + 8 * k by omega]
            exact h k d (by simpa using hk)
      rw [hsplit, List.length_cons, Nat.add_right_cancel_iff, and_left_comm, ← ih]
      rw [State.notesAt]
      cases s.noteAt x <;> cases State.notesAt s (x + 8) n <;> simp

/-! ### Pattern steps -/

theorem Level.ofNum_eq_some_iff (b : Byte) (l : Level) : Level.ofNum b.toNat = some l ↔ b = match l with
    | .off => 0
    | .low => 1
    | .high => 2
    | .full => 3 := by
  have code (n : Nat) (h : n < 256) : b.toNat = n ↔ b = BitVec.ofNat 8 n := by
    rw [← BitVec.toNat_inj, BitVec.toNat_ofNat, Nat.mod_eq_of_lt (show n < 2 ^ 8 from h)]
  have h0 := code 0 (by decide); have h1 := code 1 (by decide)
  have h2 := code 2 (by decide); have h3 := code 3 (by decide)
  unfold Level.ofNum
  split
  · rename_i h; rw [h0] at h; cases l <;> simp [h]
  · rename_i h; rw [h1] at h; cases l <;> simp [h]
  · rename_i h; rw [h2] at h; cases l <;> simp [h]
  · rename_i h; rw [h3] at h; cases l <;> simp [h]
  · rename_i h0' h1' h2' h3'
    rw [h0] at h0'; rw [h1] at h1'; rw [h2] at h2'; rw [h3] at h3'
    cases l <;> simp_all

/-- R125: a list of steps is read exactly when each two bytes state the step in its place. -/
theorem State.stepsAt_eq_some_iff (s : State) (x n : Nat) (steps : List PatStep) :
    s.stepsAt x n = some steps ↔
      steps.length = n ∧ ∀ (k : Nat) (st : PatStep), steps[k]? = some st → s.stepIs (x + 2 * k) st := by
  induction n generalizing x steps with
  | zero => cases steps <;> simp [State.stepsAt]
  | succ n ih =>
    cases steps with
    | nil => unfold State.stepsAt; repeat' split <;> simp
    | cons st sts =>
      have hsplit : (∀ (k : Nat) (d : PatStep), (st :: sts)[k]? = some d → s.stepIs (x + 2 * k) d) ↔
          s.stepIs x st ∧ ∀ (k : Nat) (d : PatStep), sts[k]? = some d → s.stepIs (x + 2 + 2 * k) d := by
        constructor
        · intro h
          refine ⟨by simpa using h 0 st rfl, fun k d hk => ?_⟩
          have := h (k + 1) d (by simpa using hk)
          rwa [show x + 2 * (k + 1) = x + 2 + 2 * k by omega] at this
        · rintro ⟨h0, h⟩ k d hk
          cases k with
          | zero => injection hk with hk; subst hk; simpa using h0
          | succ k =>
            rw [show x + 2 * (k + 1) = x + 2 + 2 * k by omega]
            exact h k d (by simpa using hk)
      rw [hsplit, List.length_cons, Nat.add_right_cancel_iff, and_left_comm, ← ih]
      have hst : s.stepIs x st ↔ Level.ofNum (s.ramByte x).toNat = some st.level ∧
          (s.ramByte (x + 1)).toNat = st.length ∧ st.length ≠ 0 := by
        rw [Level.ofNum_eq_some_iff]; exact Iff.rfl
      rw [hst, State.stepsAt]
      obtain ⟨l, len⟩ := st
      cases Level.ofNum (s.ramByte x).toNat <;> cases State.stepsAt s (x + 2) n <;> simp
      constructor
      · rintro ⟨h1, ⟨h2, h3⟩, h4⟩; exact ⟨⟨h2, h3, fun h => h1 (by rw [h3, h])⟩, h4⟩
      · rintro ⟨⟨h2, h3, h1⟩, h4⟩; exact ⟨fun h => h1 (by rw [← h3, h]), ⟨h2, h3⟩, h4⟩

/-! ### Voice writes -/

theorem Modulus.ofNum_eq_some_iff (n : Nat) (m : Modulus) : Modulus.ofNum n = some m ↔ n = m.num := by
  unfold Modulus.ofNum
  repeat' split
  all_goals cases m <;> simp_all [Modulus.num]

/-- TABLE 5-4, R87: a parameter write gives a voice exactly where the code and the value are valid. -/
theorem Voice.writeParam_eq_some_iff (v u : Voice) (param value : Nat) :
    v.writeParam param value = some u ↔ v.Written u param value := by
  constructor
  · intro h
    unfold Voice.writeParam at h
    split at h
    · refine Or.inl ?_
      split at h
      all_goals first
        | (simp at h; done)
        | (injection h with h; subst h
           first
           | exact ⟨.off, rfl, rfl, rfl⟩
           | exact ⟨.square, rfl, rfl, rfl⟩
           | exact ⟨.wave, rfl, rfl, rfl⟩
           | exact ⟨.noise, rfl, rfl, rfl⟩)
    · refine Or.inr (.inl ?_)
      split at h
      · rename_i hv
        injection h with h; subst h; exact ⟨rfl, hv.1, hv.2, rfl⟩
      · cases h
    · refine Or.inr (.inr (.inl ?_))
      obtain ⟨m, hm, rfl⟩ := Option.map_eq_some_iff.1 h
      have hv := (Modulus.ofNum_eq_some_iff value m).1 hm
      subst hv; exact ⟨m, rfl, rfl, rfl⟩
    · refine Or.inr (.inr (.inr (.inl ?_)))
      split at h
      · rename_i hv
        injection h with h; subst h; exact ⟨rfl, hv, rfl⟩
      · cases h
    · refine Or.inr (.inr (.inr (.inr (.inl ?_))))
      obtain ⟨i, hi, rfl⟩ := Option.map_eq_some_iff.1 h
      exact ⟨i, rfl, inRange_eq_some_iff.1 hi, rfl⟩
    · refine Or.inr (.inr (.inr (.inr (.inr (.inl ?_)))))
      obtain ⟨i, hi, rfl⟩ := Option.map_eq_some_iff.1 h
      exact ⟨i, rfl, inRange_eq_some_iff.1 hi, rfl⟩
    · refine Or.inr (.inr (.inr (.inr (.inr (.inr (.inl ?_))))))
      obtain ⟨i, hi, rfl⟩ := Option.map_eq_some_iff.1 h
      exact ⟨i, inRange_eq_some_iff.1 hi, .inl ⟨rfl, rfl⟩⟩
    · refine Or.inr (.inr (.inr (.inr (.inr (.inr (.inl ?_))))))
      obtain ⟨i, hi, rfl⟩ := Option.map_eq_some_iff.1 h
      exact ⟨i, inRange_eq_some_iff.1 hi, .inr ⟨rfl, rfl⟩⟩
    all_goals
      first
      | (simp at h; done)
      | (refine Or.inr (.inr (.inr (.inr (.inr (.inr (.inr ?_))))))
         split at h
         all_goals first
           | (simp at h; done)
           | (injection h with h; subst h
              first
              | exact ⟨false, rfl, .inl ⟨rfl, rfl⟩⟩
              | exact ⟨true, rfl, .inl ⟨rfl, rfl⟩⟩
              | exact ⟨false, rfl, .inr (.inl ⟨rfl, rfl⟩)⟩
              | exact ⟨true, rfl, .inr (.inl ⟨rfl, rfl⟩)⟩
              | exact ⟨false, rfl, .inr (.inr ⟨rfl, rfl⟩)⟩
              | exact ⟨true, rfl, .inr (.inr ⟨rfl, rfl⟩)⟩))
  · rintro (⟨src, rfl, rfl, rfl⟩ | ⟨rfl, h1, h2, rfl⟩ | ⟨m, rfl, rfl, rfl⟩ | ⟨rfl, h, rfl⟩ |
      ⟨i, rfl, rfl, rfl⟩ | ⟨i, rfl, rfl, rfl⟩ | ⟨i, rfl, ⟨rfl, rfl⟩ | ⟨rfl, rfl⟩⟩ |
      ⟨on, rfl, ⟨rfl, rfl⟩ | ⟨rfl, rfl⟩ | ⟨rfl, rfl⟩⟩)
    · cases src <;> rfl
    · simp [Voice.writeParam, h1, h2, Voice.stage]
    · simp [Voice.writeParam, (Modulus.ofNum_eq_some_iff _ m).2, Voice.stage, VoiceSet.withModulus]
    · simp [Voice.writeParam, h, Voice.stage]
    · simp [Voice.writeParam, inRange_val i rfl, Voice.stage]
    · simp [Voice.writeParam, inRange_val i rfl, Voice.stage]
    · simp [Voice.writeParam, inRange_val i rfl, Voice.stage]
    · simp [Voice.writeParam, inRange_val i rfl, Voice.stage]
    all_goals cases on <;> rfl

/-- TABLE 11-5: the entries of a SET_VOICES list, four bytes each. -/
theorem State.voiceWrites_getElem? (s : State) (a n k : Nat) : (s.voiceWrites a n)[k]? =
    if k < n then some { voice := (s.ramByte (a + 4 * k)).toNat,
                         param := (s.ramByte (a + 4 * k + 1)).toNat,
                         value := s.ramNat (a + 4 * k + 2) 2 } else none := by
  induction n generalizing a k with
  | zero => simp [State.voiceWrites]
  | succ n ih =>
    cases k with
    | zero => simp [State.voiceWrites]
    | succ k =>
      rw [State.voiceWrites, List.getElem?_cons_succ, ih, show a + 4 + 4 * k = a + 4 * (k + 1) by omega]
      simp

/-- R100: one entry writes its value under its parameter code to its voice, or fails. -/
theorem applyWrite_eq_some_iff (w : VoiceWrite) (vs xs : Vector Voice 8) : applyWrite w vs = some xs ↔
    ∃ (i : Fin 8) (u : Voice), w.voice = i.val ∧ vs[i].Written u w.param w.value ∧ xs = vs.set i u := by
  unfold applyWrite
  simp only [← inRange_eq_some_iff, ← Voice.writeParam_eq_some_iff]
  cases inRange w.voice 8 with
  | none => simp
  | some i =>
    constructor
    · intro h
      obtain ⟨u, hu, rfl⟩ := Option.map_eq_some_iff.1 h
      exact ⟨i, u, rfl, hu, rfl⟩
    · rintro ⟨j, u, hj, hu, rfl⟩
      injection hj with hj; subst hj
      exact Option.map_eq_some_iff.2 ⟨u, hu, rfl⟩

end Sys2Proof.Machine
end

