-- ==== Sys2Proof/Laws/PageArray.lean ====
section
/-! SUPPORT. What the readers of page array records give: fields of two and four bytes, a journal (R5) and a
directory entry (R8) by their bytes (TABLE 11-10). -/

namespace Sys2Proof.Machine

/-! ### Fields -/

/-- A word is spelled by its two bytes. -/
theorem wordOf_bytes16 (w : Word) : wordOf (bytes16 w.toNat) = w := by
  apply BitVec.eq_of_toNat_eq
  have := w.isLt
  simp only [wordOf, bytes16, byteOf, natOf, BitVec.toNat_ofNat]; omega

/-- Two bytes are those of the word that they spell. -/
theorem bytes16_wordOf (b c : Byte) : bytes16 (wordOf [b, c]).toNat = [b, c] := by
  have := b.isLt; have := c.isLt
  have hb : (BitVec.ofNat 8 (b.toNat + 256 * c.toNat) : Byte) = b := by
    apply BitVec.eq_of_toNat_eq; rw [BitVec.toNat_ofNat]; omega
  have hc : (BitVec.ofNat 8 ((b.toNat + 256 * c.toNat) / 256) : Byte) = c := by
    apply BitVec.eq_of_toNat_eq; rw [BitVec.toNat_ofNat]; omega
  have hn : (wordOf [b, c]).toNat = b.toNat + 256 * c.toNat := by
    simp only [wordOf, natOf, BitVec.toNat_ofNat]; omega
  rw [hn]; simp only [bytes16, byteOf, hb, hc]

/-- A number of 32 bits is spelled by its four bytes. -/
theorem natOf_bytes32 (x : BitVec 32) : BitVec.ofNat 32 (natOf (bytes32 x.toNat)) = x := by
  apply BitVec.eq_of_toNat_eq
  have := x.isLt
  simp only [bytes32, byteOf, natOf, BitVec.toNat_ofNat]; omega

/-- Four bytes are those of the number that they spell. -/
theorem bytes32_natOf (b c d e : Byte) :
    bytes32 (BitVec.ofNat 32 (natOf [b, c, d, e])).toNat = [b, c, d, e] := by
  have := b.isLt; have := c.isLt; have := d.isLt; have := e.isLt
  have hn : (BitVec.ofNat 32 (natOf [b, c, d, e])).toNat =
      b.toNat + 256 * c.toNat + 65536 * d.toNat + 16777216 * e.toNat := by
    simp only [natOf, BitVec.toNat_ofNat]; omega
  rw [hn]
  simp only [bytes32, byteOf]
  congr 1
  · apply BitVec.eq_of_toNat_eq; rw [BitVec.toNat_ofNat]; omega
  congr 1
  · apply BitVec.eq_of_toNat_eq; rw [BitVec.toNat_ofNat]; omega
  congr 1
  · apply BitVec.eq_of_toNat_eq; rw [BitVec.toNat_ofNat]; omega
  congr 1
  · apply BitVec.eq_of_toNat_eq; rw [BitVec.toNat_ofNat]; omega

/-- A two-byte field of the page array holds the bytes of its word. -/
theorem bytes16_wordAt (m : Mem) (a : Nat) :
    bytes16 (wordOf (Mem.reads m a 2)).toNat = Mem.reads m a 2 := bytes16_wordOf _ _

/-- A four-byte field of the page array holds the bytes of its number. -/
theorem bytes32_longAt (m : Mem) (a : Nat) :
    bytes32 (BitVec.ofNat 32 (natOf (Mem.reads m a 4))).toNat = Mem.reads m a 4 := bytes32_natOf _ _ _ _

theorem linkValid_iff (w : Word) : linkValid w = true ↔ w = 0xFFFF ∨ w.toNat < 480 := by
  unfold linkValid linkEnd
  rw [Bool.or_eq_true, decide_eq_true_iff, decide_eq_true_iff]

/-! ### Directory entries -/

theorem Entry.consistent_iff (e : Entry) : e.consistent = true ↔ e.fits := by
  unfold Entry.consistent Entry.fits pagesFor linkEnd
  by_cases h : e.pageCount = 0 <;> simp [h, and_assoc]

/-- R8: an entry is taken as it stands exactly when its check passes and it says Empty, or says Live and is
consistent. -/
theorem entryReadable_iff (m : Mem) (f : FileNo) : entryReadable m f = true ↔
    passes 30 (Mem.reads m (64 + 32 * f.val) 32) = true ∧ (Mem.read m (64 + 32 * f.val) = 0 ∨
      Mem.read m (64 + 32 * f.val) = 1 ∧ (readEntry m f).fits) := by
  unfold entryReadable entryBase
  rw [Bool.and_eq_true, Bool.or_eq_true, Bool.and_eq_true, decide_eq_true_iff, decide_eq_true_iff,
    Entry.consistent_iff]

/-! ### The journal -/

/-- R5: the journal reads Armed exactly when its check passes, its state says Armed, and its fields lie in
their ranges. -/
theorem readJournal_eq_some_iff (m : Mem) (j : Journal) : readJournal m = some j ↔
    j.inRanges ∧ passes 30 (Mem.reads m 16 32) = true ∧ ∃ pad : List Byte, Mem.reads m 16 30 =
      [1, (match j.kind with
        | .commit => 0
        | .delete => 1), BitVec.ofNat 8 j.file.val] ++ bytes16 j.newRoot.toNat ++ [j.newCount] ++
        bytes16 j.newLength.toNat ++ bytes16 j.newGen.toNat ++ [j.newProtect] ++ bytes16 j.day.toNat ++
        bytes32 j.second.toNat ++ bytes16 j.epoch.toNat ++ bytes16 j.oldRoot.toNat ++
        bytes16 j.oldGen.toNat ++ pad := by
  constructor
  · intro h
    unfold readJournal journalBase JournalKind.ofCode at h
    dsimp only at h
    split at h
    · rename_i kind file hk hf
      have hf := inRange_eq_some_iff.1 hf
      split at h
      · rename_i hc
        injection h with h; subst h
        obtain ⟨h1, h2, h3, h4, h5, h6, h7, h8, h9, h10⟩ := hc
        refine ⟨⟨(linkValid_iff _).1 h3, h4, h5, h6, h7, h8, (linkValid_iff _).1 h9, h10⟩, h1,
          Mem.reads m 39 7, ?_⟩
        have hk' : kind.code = Mem.read m 17 := by
          split at hk
          · rename_i h0; injection hk with hk; subst hk; exact h0.symm
          · split at hk
            · rename_i h1; injection hk with hk; subst hk; exact h1.symm
            · cases hk
        have hf' : BitVec.ofNat 8 file.val = Mem.read m 18 := by
          apply BitVec.eq_of_toNat_eq
          rw [BitVec.toNat_ofNat, ← hf]; exact Nat.mod_eq_of_lt (Mem.read m 18).isLt
        show Mem.reads m 16 30 = [1, kind.code, BitVec.ofNat 8 file.val] ++ _ ++ _ ++ _ ++ _ ++ _ ++ _ ++ _ ++
          _ ++ _ ++ _ ++ _
        rw [hk', hf', ← h2]
        simp only [bytes16_wordAt, bytes32_longAt]
        rfl
      · cases h
    · cases h
  · rintro ⟨⟨h3, h4, h5, h6, h7, h8, h9, h10⟩, h1, pad, h⟩
    obtain ⟨kind, file, newRoot, newCount, newLength, newGen, newProtect, day, second, epoch, oldRoot,
      oldGen⟩ := j
    simp only [Mem.reads, bytes16, bytes32, List.cons_append, List.nil_append, List.cons.injEq] at h
    obtain ⟨b0, b1, b2, b3, b4, b5, b6, b7, b8, b9, b10, b11, b12, b13, b14, b15, b16, b17, b18, b19, b20,
      b21, b22, -⟩ := h
    have word {a : Nat} {w : Word} (h0 : Mem.read m a = byteOf w.toNat)
        (h1 : Mem.read m (a + 1) = byteOf (w.toNat / 256)) : wordOf (Mem.reads m a 2) = w := by
      rw [← wordOf_bytes16 w]; simp only [Mem.reads, bytes16, h0, h1]
    have hs : BitVec.ofNat 32 (natOf (Mem.reads m 29 4)) = second := by
      rw [← natOf_bytes32 second]; simp only [Mem.reads, bytes32, b13, b14, b15, b16]
    have hk : JournalKind.ofCode (Mem.read m 17) = some kind := by rw [b1]; cases kind <;> rfl
    have hf : inRange (Mem.read m 18).toNat 16 = some file := by
      apply inRange_val
      rw [b2, BitVec.toNat_ofNat]; omega
    unfold readJournal journalBase
    simp only [hk, hf, word b3 b4, b5, word b6 b7, word b8 b9, b10, word b11 b12, hs, word b17 b18,
      word b19 b20, word b21 b22]
    exact if_pos ⟨h1, b0, (linkValid_iff _).2 h3, h4, h5, h6, h7, h8, (linkValid_iff _).2 h9, h10⟩

end Sys2Proof.Machine
end

