-- ==== Sys2Proof/WellFormed.lean ====
section
/-! DEFINITION. The checks on a command's operands: a cell write that is named as a nonzero write is
nonzero, an outcome of an array write names bytes of the record written, a plain bus write does not
name one of the cells that have rows of their own. -/

namespace Sys2Proof

/-- Bytes of a record's deviations lie inside a record of `n` bytes. -/
def devWithin (n : Nat) (dev : List Host.Cell) : Bool := dev.all fun c => decide (c.1 < n)

/-- A write cut short mixes at most the 268 bytes of the longest record, and a Bad header cut short its ten
(TABLE 11-11). -/
def WriteRemains.wf : WriteRemains → Bool
  | .old | .new => true
  | .torn mask => decide (mask.length ≤ 268)
  | .badHeader dev mask => devWithin 268 dev && decide (mask.length ≤ 10)

/-- Either write may be the one in progress. -/
def WriteCut.wf (cut : WriteCut) : Bool := cut.remains.wf

/-- The deviations of a Bad header lie in its ten bytes (R9, log 10). -/
def HeaderVerify.wf : HeaderVerify → Bool
  | .pass => true
  | .fail bad => devWithin 10 bad

/-- The deviations of a failed full write lie in the payload of 256 bytes and its check, those of its Bad
header in the header (R9, log 10). -/
def Verify.wf : Verify → Bool
  | .pass => true
  | .fail dev bad => devWithin 258 dev && devWithin 10 bad

/-- A value written to a cell to offer a block is nonzero (R144). -/
def offerWf (v : Word) : Bool := decide (v ≠ 0)

/-- The word addresses of the cells whose writes are rows of their own (TABLE 11-12). -/
def isCellAddress (a : BitVec 13) : Bool :=
  decide (0x1000 ≤ a.toNat ∧ a.toNat < 0x100E ∧ a.toNat / 2 ≠ 0x804)

/-- The well-formed commands. -/
def Instr.wf : Instr → Bool
  | .railJudgementChange _ _ cut => cut.wf
  | .partRestart _ cut => cut.wf
  | .stageChunk r => r.wf
  | .rollbackPageFree r | .liveRewrite r | .breakPageFree r | .freeOldPage r | .formatPageWrite r
  | .rollForwardOldPageFree r | .rollForwardLiveRewrite r | .scanSweepPage r => r.wf
  | .formatHeaderWrite dev | .scanDiscardHeader dev => devWithin 6 dev
  | .armJournal dev | .commitEntryWrite dev | .damagedEntryWrite dev | .clearJournal dev
  | .deleteEntryClear dev | .formatJournalWrite dev | .formatEntryWrite dev
  | .rollForwardEntryWrite dev | .scanEntryRead dev | .scanChainWalk dev => devWithin 32 dev
  | .readCalendar v | .setCalendar v | .setRollover v | .addAlarm v | .removeAlarm v | .listAlarms v
  | .takeFired v | .readEntry v | .readFile v | .commitFile v | .deleteFile v | .verifyFile v
  | .readRaw v | .formatStore v | .readStoreStatus v | .setVoices v | .commitVoices v | .broadcast v
  | .silence v | .loadWave v | .startSound v | .stopSound v | .setTempo v | .queueNotes v | .loadCue v
  | .playCue v | .readSoundStatus v | .setLevels v | .loadPattern v | .playPattern v | .stopRumble v
  | .clearTrip v | .readRumbleStatus v => offerWf v
  | .blockOffer _ v | .refusedCellWrite _ v => offerWf v
  | .exchangeRamWrite a _ => !isCellAddress a
  | .cellLowChange _ | .crystalEdge | .detectorWindowExpiry | .settlingComplete | .secondEvent
  | .cueRequest _ _ | .playRequest _ _ | .purgeRequest | .purgeReply | .readFilePage
  | .verifyPage | .readRawPage | .scanClearBatteryLost | .scanHeaderRead | .scanJournalRead | .scanPublish
  | .productionEvent | .stepBoundary _ | .beatEvent | .rampEnd | .pullEvent | .driveWrap | .unitEvent
  | .trip _ | .abortRequest | .acknowledge _ | .noticeEnableWrite _ | .status | .cal | .nextDue
  | .firedHead | .wakeAck | .setCap _ | .quiesce | .resume | .startCondition | .stopCondition
  | .addressByte _ | .notAcknowledgedByte _ => true

end Sys2Proof
end

