-- ==== Sys2Proof/Laws/PerInstr.lean ====
section
/-! SUPPORT. The family Operands: of every command, what its well-formedness says of its operands, and that
no word of the table spells it. -/

namespace Sys2Proof

/-- The value that a command writes to a cell to offer a block. -/
def Instr.offer : Instr → Option Word
  | .readCalendar v | .setCalendar v | .setRollover v | .addAlarm v | .removeAlarm v
  | .listAlarms v | .takeFired v | .readEntry v | .readFile v | .commitFile v | .deleteFile v
  | .verifyFile v | .readRaw v | .formatStore v | .readStoreStatus v | .setVoices v
  | .commitVoices v | .broadcast v | .silence v | .loadWave v | .startSound v | .stopSound v
  | .setTempo v | .queueNotes v | .loadCue v | .playCue v | .readSoundStatus v | .setLevels v
  | .loadPattern v | .playPattern v | .stopRumble v | .clearTrip v | .readRumbleStatus v
  | .blockOffer _ v | .refusedCellWrite _ v => some v
  | _ => none

/-- The bytes that a command says did not take its record write. -/
def Instr.deviations : Instr → List Host.Cell
  | .stageChunk (.fail dev bad) => dev ++ bad
  | .rollbackPageFree (.fail bad) | .liveRewrite (.fail bad) | .breakPageFree (.fail bad)
  | .freeOldPage (.fail bad) | .formatPageWrite (.fail bad) | .rollForwardOldPageFree (.fail bad)
  | .rollForwardLiveRewrite (.fail bad) | .scanSweepPage (.fail bad) => bad
  | .armJournal dev | .commitEntryWrite dev | .damagedEntryWrite dev | .clearJournal dev
  | .deleteEntryClear dev | .formatHeaderWrite dev | .formatJournalWrite dev
  | .formatEntryWrite dev | .scanDiscardHeader dev | .rollForwardEntryWrite dev
  | .scanEntryRead dev | .scanChainWalk dev => dev
  | _ => []

namespace Laws.Operands

/-- A well-formed command offers no zero, its outcome names no byte past the 258 of a payload with its
check, and no word of the table spells it. -/
def Statement (i : Instr) : Prop :=
  (i.wf = true → (∀ v, i.offer = some v → v ≠ 0) ∧ ∀ d ∈ i.deviations, d.1 < 258) ∧
    ∀ nbits w, decodeTableWord nbits w ≠ some i

theorem of_offer {i : Instr} (v : Word) (ho : i.offer = some v) (hd : i.deviations = [])
    (hw : i.wf = offerWf v) : Statement i := by
  refine ⟨fun h => ⟨fun w hv => ?_, fun d h' => (by rw [hd] at h'; cases h')⟩, nofun⟩
  rw [hw] at h
  rw [ho] at hv
  injection hv with e
  exact e ▸ of_decide_eq_true h

theorem of_devWithin {i : Instr} (n : Nat) (dev : List Host.Cell) (hn : n ≤ 258) (ho : i.offer = none)
    (hd : i.deviations = dev) (hw : i.wf = devWithin n dev) : Statement i := by
  refine ⟨fun h => ⟨fun w hv => (by rw [ho] at hv; cases hv), fun d h' => ?_⟩, nofun⟩
  rw [hw] at h
  rw [hd] at h'
  have := of_decide_eq_true (List.all_eq_true.1 h d h')
  omega

theorem of_plain {i : Instr} (ho : i.offer = none) (hd : i.deviations = []) : Statement i :=
  ⟨fun _ => ⟨fun w hv => (by rw [ho] at hv; cases hv), fun d h' => (by rw [hd] at h'; cases h')⟩, nofun⟩

theorem railJudgementChange (rail : Rail) (mv : Nat) (cut : WriteCut) : Statement (.railJudgementChange rail mv cut) :=
  of_plain rfl rfl
theorem cellLowChange (mv : Nat) : Statement (.cellLowChange mv) := of_plain rfl rfl
theorem crystalEdge : Statement .crystalEdge := of_plain rfl rfl
theorem detectorWindowExpiry : Statement .detectorWindowExpiry := of_plain rfl rfl
theorem settlingComplete : Statement .settlingComplete := of_plain rfl rfl
theorem secondEvent : Statement .secondEvent := of_plain rfl rfl
theorem cueRequest (slot : Fin 4) (alarm : Fin 32) : Statement (.cueRequest slot alarm) :=
  of_plain rfl rfl
theorem playRequest (pattern : Fin 8) (priority : Fin 4) : Statement (.playRequest pattern priority) :=
  of_plain rfl rfl
theorem purgeRequest : Statement .purgeRequest := of_plain rfl rfl
theorem purgeReply : Statement .purgeReply := of_plain rfl rfl
theorem readCalendar (v : Word) : Statement (.readCalendar v) := of_offer v rfl rfl rfl
theorem setCalendar (v : Word) : Statement (.setCalendar v) := of_offer v rfl rfl rfl
theorem setRollover (v : Word) : Statement (.setRollover v) := of_offer v rfl rfl rfl
theorem addAlarm (v : Word) : Statement (.addAlarm v) := of_offer v rfl rfl rfl
theorem removeAlarm (v : Word) : Statement (.removeAlarm v) := of_offer v rfl rfl rfl
theorem listAlarms (v : Word) : Statement (.listAlarms v) := of_offer v rfl rfl rfl
theorem takeFired (v : Word) : Statement (.takeFired v) := of_offer v rfl rfl rfl
theorem readEntry (v : Word) : Statement (.readEntry v) := of_offer v rfl rfl rfl
theorem readFile (v : Word) : Statement (.readFile v) := of_offer v rfl rfl rfl
theorem readFilePage : Statement .readFilePage := of_plain rfl rfl
theorem commitFile (v : Word) : Statement (.commitFile v) := of_offer v rfl rfl rfl
theorem stageChunk (r : Verify) : Statement (.stageChunk r) := by
  cases r with
  | pass => exact of_plain rfl rfl
  | fail dev bad =>
    refine ⟨fun h => ⟨nofun, fun d h' => ?_⟩, nofun⟩
    obtain ⟨h1, h2⟩ := Bool.and_eq_true_iff.1 h
    rcases List.mem_append.1 h' with h' | h'
    · exact of_decide_eq_true (List.all_eq_true.1 h1 d h')
    · have := of_decide_eq_true (List.all_eq_true.1 h2 d h')
      omega
theorem rollbackPageFree (v : HeaderVerify) : Statement (.rollbackPageFree v) := by
  cases v with
  | pass => exact of_plain rfl rfl
  | fail bad => exact of_devWithin 10 bad (by decide) rfl rfl rfl
theorem armJournal (dev : List Host.Cell) : Statement (.armJournal dev) :=
  of_devWithin 32 dev (by decide) rfl rfl rfl
theorem commitEntryWrite (dev : List Host.Cell) : Statement (.commitEntryWrite dev) :=
  of_devWithin 32 dev (by decide) rfl rfl rfl
theorem liveRewrite (v : HeaderVerify) : Statement (.liveRewrite v) := by
  cases v with
  | pass => exact of_plain rfl rfl
  | fail bad => exact of_devWithin 10 bad (by decide) rfl rfl rfl
theorem breakPageFree (v : HeaderVerify) : Statement (.breakPageFree v) := by
  cases v with
  | pass => exact of_plain rfl rfl
  | fail bad => exact of_devWithin 10 bad (by decide) rfl rfl rfl
theorem damagedEntryWrite (dev : List Host.Cell) : Statement (.damagedEntryWrite dev) :=
  of_devWithin 32 dev (by decide) rfl rfl rfl
theorem freeOldPage (v : HeaderVerify) : Statement (.freeOldPage v) := by
  cases v with
  | pass => exact of_plain rfl rfl
  | fail bad => exact of_devWithin 10 bad (by decide) rfl rfl rfl
theorem clearJournal (dev : List Host.Cell) : Statement (.clearJournal dev) :=
  of_devWithin 32 dev (by decide) rfl rfl rfl
theorem deleteFile (v : Word) : Statement (.deleteFile v) := of_offer v rfl rfl rfl
theorem deleteEntryClear (dev : List Host.Cell) : Statement (.deleteEntryClear dev) :=
  of_devWithin 32 dev (by decide) rfl rfl rfl
theorem verifyFile (v : Word) : Statement (.verifyFile v) := of_offer v rfl rfl rfl
theorem verifyPage : Statement .verifyPage := of_plain rfl rfl
theorem readRaw (v : Word) : Statement (.readRaw v) := of_offer v rfl rfl rfl
theorem readRawPage : Statement .readRawPage := of_plain rfl rfl
theorem formatStore (v : Word) : Statement (.formatStore v) := of_offer v rfl rfl rfl
theorem formatHeaderWrite (dev : List Host.Cell) : Statement (.formatHeaderWrite dev) :=
  of_devWithin 6 dev (by decide) rfl rfl rfl
theorem formatJournalWrite (dev : List Host.Cell) : Statement (.formatJournalWrite dev) :=
  of_devWithin 32 dev (by decide) rfl rfl rfl
theorem formatEntryWrite (dev : List Host.Cell) : Statement (.formatEntryWrite dev) :=
  of_devWithin 32 dev (by decide) rfl rfl rfl
theorem formatPageWrite (v : HeaderVerify) : Statement (.formatPageWrite v) := by
  cases v with
  | pass => exact of_plain rfl rfl
  | fail bad => exact of_devWithin 10 bad (by decide) rfl rfl rfl
theorem readStoreStatus (v : Word) : Statement (.readStoreStatus v) := of_offer v rfl rfl rfl
theorem scanDiscardHeader (dev : List Host.Cell) : Statement (.scanDiscardHeader dev) :=
  of_devWithin 6 dev (by decide) rfl rfl rfl
theorem scanClearBatteryLost : Statement .scanClearBatteryLost := of_plain rfl rfl
theorem scanHeaderRead : Statement .scanHeaderRead := of_plain rfl rfl
theorem scanJournalRead : Statement .scanJournalRead := of_plain rfl rfl
theorem rollForwardEntryWrite (dev : List Host.Cell) : Statement (.rollForwardEntryWrite dev) :=
  of_devWithin 32 dev (by decide) rfl rfl rfl
theorem rollForwardOldPageFree (v : HeaderVerify) : Statement (.rollForwardOldPageFree v) := by
  cases v with
  | pass => exact of_plain rfl rfl
  | fail bad => exact of_devWithin 10 bad (by decide) rfl rfl rfl
theorem rollForwardLiveRewrite (v : HeaderVerify) : Statement (.rollForwardLiveRewrite v) := by
  cases v with
  | pass => exact of_plain rfl rfl
  | fail bad => exact of_devWithin 10 bad (by decide) rfl rfl rfl
theorem scanEntryRead (dev : List Host.Cell) : Statement (.scanEntryRead dev) :=
  of_devWithin 32 dev (by decide) rfl rfl rfl
theorem scanChainWalk (dev : List Host.Cell) : Statement (.scanChainWalk dev) :=
  of_devWithin 32 dev (by decide) rfl rfl rfl
theorem scanSweepPage (v : HeaderVerify) : Statement (.scanSweepPage v) := by
  cases v with
  | pass => exact of_plain rfl rfl
  | fail bad => exact of_devWithin 10 bad (by decide) rfl rfl rfl
theorem scanPublish : Statement .scanPublish := of_plain rfl rfl
theorem productionEvent : Statement .productionEvent := of_plain rfl rfl
theorem stepBoundary (voice : Fin 8) : Statement (.stepBoundary voice) := of_plain rfl rfl
theorem beatEvent : Statement .beatEvent := of_plain rfl rfl
theorem rampEnd : Statement .rampEnd := of_plain rfl rfl
theorem pullEvent : Statement .pullEvent := of_plain rfl rfl
theorem setVoices (v : Word) : Statement (.setVoices v) := of_offer v rfl rfl rfl
theorem commitVoices (v : Word) : Statement (.commitVoices v) := of_offer v rfl rfl rfl
theorem broadcast (v : Word) : Statement (.broadcast v) := of_offer v rfl rfl rfl
theorem silence (v : Word) : Statement (.silence v) := of_offer v rfl rfl rfl
theorem loadWave (v : Word) : Statement (.loadWave v) := of_offer v rfl rfl rfl
theorem startSound (v : Word) : Statement (.startSound v) := of_offer v rfl rfl rfl
theorem stopSound (v : Word) : Statement (.stopSound v) := of_offer v rfl rfl rfl
theorem setTempo (v : Word) : Statement (.setTempo v) := of_offer v rfl rfl rfl
theorem queueNotes (v : Word) : Statement (.queueNotes v) := of_offer v rfl rfl rfl
theorem loadCue (v : Word) : Statement (.loadCue v) := of_offer v rfl rfl rfl
theorem playCue (v : Word) : Statement (.playCue v) := of_offer v rfl rfl rfl
theorem readSoundStatus (v : Word) : Statement (.readSoundStatus v) := of_offer v rfl rfl rfl
theorem driveWrap : Statement .driveWrap := of_plain rfl rfl
theorem unitEvent : Statement .unitEvent := of_plain rfl rfl
theorem trip (asserted : Bool) : Statement (.trip asserted) := of_plain rfl rfl
theorem setLevels (v : Word) : Statement (.setLevels v) := of_offer v rfl rfl rfl
theorem loadPattern (v : Word) : Statement (.loadPattern v) := of_offer v rfl rfl rfl
theorem playPattern (v : Word) : Statement (.playPattern v) := of_offer v rfl rfl rfl
theorem stopRumble (v : Word) : Statement (.stopRumble v) := of_offer v rfl rfl rfl
theorem clearTrip (v : Word) : Statement (.clearTrip v) := of_offer v rfl rfl rfl
theorem readRumbleStatus (v : Word) : Statement (.readRumbleStatus v) := of_offer v rfl rfl rfl
theorem blockOffer (cell : CellId) (v : Word) : Statement (.blockOffer cell v) := of_offer v rfl rfl rfl
theorem abortRequest : Statement .abortRequest := of_plain rfl rfl
theorem acknowledge (cell : CellId) : Statement (.acknowledge cell) := of_plain rfl rfl
theorem refusedCellWrite (cell : CellId) (v : Word) : Statement (.refusedCellWrite cell v) :=
  of_offer v rfl rfl rfl
theorem noticeEnableWrite (v : Word) : Statement (.noticeEnableWrite v) := of_plain rfl rfl
theorem partRestart (v : Word) (cut : WriteCut) : Statement (.partRestart v cut) := of_plain rfl rfl
theorem exchangeRamWrite (addr : BitVec 13) (v : Word) : Statement (.exchangeRamWrite addr v) :=
  of_plain rfl rfl
theorem status : Statement .status := of_plain rfl rfl
theorem cal : Statement .cal := of_plain rfl rfl
theorem nextDue : Statement .nextDue := of_plain rfl rfl
theorem firedHead : Statement .firedHead := of_plain rfl rfl
theorem wakeAck : Statement .wakeAck := of_plain rfl rfl
theorem setCap (b : CapByte) : Statement (.setCap b) := of_plain rfl rfl
theorem quiesce : Statement .quiesce := of_plain rfl rfl
theorem resume : Statement .resume := of_plain rfl rfl
theorem startCondition : Statement .startCondition := of_plain rfl rfl
theorem stopCondition : Statement .stopCondition := of_plain rfl rfl
theorem addressByte (b : Byte) : Statement (.addressByte b) := of_plain rfl rfl
theorem notAcknowledgedByte (b : Byte) : Statement (.notAcknowledgedByte b) := of_plain rfl rfl

end Laws.Operands

end Sys2Proof
end

