-- ==== Sys2Proof/Laws/Rumble.lean ====
section
/-! SUPPORT. The rumble unit, said once: the outcome list, the end of every play, the checks of an
arrival, the place of a play in the queue, and the law that each operation of the unit keeps. -/

namespace Sys2Proof.Machine

/-! ### Outcomes and the end of plays (R133, R138) -/

theorem Rumble.record_of_lt (r : Rumble) (p : Play) (k : OutcomeKind) (h : r.outcomes.length < 8) :
    r.record p k = { r with outcomes := r.outcomes ++ endings [p] k } := by
  simp [Rumble.record, h, endings]

/-- A record changes the outcome list alone, which keeps its bound. -/
theorem Rumble.record_cases (r : Rumble) (p : Play) (k : OutcomeKind) : ∃ o,
    r.record p k = { r with outcomes := o } ∧ (r.outcomes.length ≤ 8 → o.length ≤ 8) := by
  unfold Rumble.record
  split
  · exact ⟨_, rfl, fun _ => by simp; omega⟩
  · exact ⟨r.outcomes, rfl, id⟩

/-- The records of several plays: the first 8 places of the list are kept. -/
theorem Rumble.recordAll_eq (k : OutcomeKind) (ps : List Play) (r : Rumble) (h : r.outcomes.length ≤ 8) :
    r.recordAll ps k = { r with outcomes := (r.outcomes ++ endings ps k).take 8 } := by
  induction ps generalizing r with
  | nil => simp [Rumble.recordAll, endings, List.take_of_length_le h]
  | cons p ps ih =>
    have e : r.recordAll (p :: ps) k = (r.record p k).recordAll ps k := rfl
    rw [e]
    by_cases hl : r.outcomes.length < 8
    · rw [Rumble.record_of_lt r p k hl, ih _ (by simp [endings]; omega)]
      simp [endings]
    · have h8 : r.outcomes.length = 8 := by omega
      have hr : r.record p k = r := by simp [Rumble.record, hl]
      have full : ∀ l, (r.outcomes ++ l).take 8 = r.outcomes := fun l => by
        rw [List.take_append_of_le_length (by omega), List.take_of_length_le (by omega)]
      rw [hr, ih _ h]
      simp only [full]

/-- Every play present ends with one outcome, and the drive stops. -/
theorem Rumble.endAll_eq_plays (r : Rumble) (k : OutcomeKind) (h : r.outcomes.length ≤ 8) : r.endAll k =
    { r with current := none, queue := [], duty := 0,
             outcomes := (r.outcomes ++ endings r.plays k).take 8 } := by
  rw [Rumble.endAll, Rumble.recordAll_eq k _ r h, Rumble.idleDrive]

/-- With no play present only the drive changes. -/
theorem Rumble.endAll_of_idle (r : Rumble) (k : OutcomeKind) (hc : r.current = none) (hq : r.queue = []) :
    r.endAll k = { r with duty := 0 } := by
  simp [Rumble.endAll, Rumble.plays, Rumble.recordAll, Rumble.idleDrive, hc, hq]

/-- The beat-lost signal reaches no unit without a current play. -/
theorem Rumble.beatLost_of_none (r : Rumble) (h : r.current = none) : r.beatLost = r := by
  simp only [Rumble.beatLost, h]

/-- Every play ends with one outcome, the current first and then the queue in order. -/
theorem Rumble.endAll_eq (r : Rumble) (k : OutcomeKind) (c : Current) (hc : r.current = some c)
    (h : r.outcomes.length ≤ 8) : r.endAll k =
      { r with current := none, queue := [], duty := 0,
               outcomes := (r.outcomes ++ endings (c.play :: r.queue) k).take 8 } := by
  simp [Rumble.endAll, Rumble.recordAll_eq k _ r h, Rumble.plays, hc, Rumble.idleDrive]

/-- Records made one after another are those of one list. -/
theorem Rumble.record_eq (r : Rumble) (p : Play) (k : OutcomeKind) (h : r.outcomes.length ≤ 8) :
    r.record p k = { r with outcomes := (r.outcomes ++ endings [p] k).take 8 } :=
  Rumble.recordAll_eq k [p] r h

theorem Rumble.firstLength_eq (r : Rumble) (slot : Fin 8) : r.stepLength slot 0 = r.firstLength slot := rfl

/-- Records made before the plays are taken stand first. -/
theorem Rumble.passedOn_after (r : Rumble) (l l' : List OutcomeRec) (rest : List Play) :
    ({ r with outcomes := (r.outcomes ++ l).take 8 } : Rumble).passedOn l' rest =
      r.passedOn (l ++ l') rest := by
  have e : ((r.outcomes ++ l).take 8 ++ l').take 8 = (r.outcomes ++ (l ++ l')).take 8 := by
    rw [take_take_append, List.append_assoc]
  cases rest <;> (simp only [Rumble.passedOn, e]; try rfl)

/-- R131: the heads that cannot start leave BeatLost, and the next one starts, or none is left. -/
theorem Rumble.takeFrom_eq (running : Bool) (rest skipped : List Play) (r : Rumble)
    (ho : r.outcomes.length ≤ 8)
    (hs : ∀ q ∈ skipped, r.beatPaced q.pattern = true ∧ running = false)
    (hr : ∀ q ∈ rest.head?, r.beatPaced q.pattern = false ∨ running = true) :
    Rumble.takeFrom running (skipped ++ rest) r = r.passedOn (endings skipped .beatLost) rest := by
  induction skipped generalizing r with
  | nil =>
    have e : (r.outcomes ++ endings [] .beatLost).take 8 = r.outcomes := by
      simp [endings, List.take_of_length_le ho]
    cases rest with
    | nil => rw [Rumble.passedOn, e]; rfl
    | cons q qs =>
      have hq : (r.beatPaced q.pattern && !running) = false := by
        rcases hr q rfl with h | h <;> simp [h]
      rw [List.nil_append, Rumble.takeFrom, hq, Rumble.passedOn, e]
      rfl
  | cons p ps ih =>
    obtain ⟨hp, hn⟩ := hs p List.mem_cons_self
    have hr' := Rumble.record_eq r p .beatLost ho
    rw [List.cons_append, Rumble.takeFrom, hp, hn]
    simp only [Bool.not_false, Bool.and_self, if_true]
    rw [hr', ← hn, ih]
    · exact Rumble.passedOn_after r _ _ rest
    · exact List.length_take_le _ _
    · exact fun q hq => hs q (List.mem_cons_of_mem _ hq)
    · exact hr

/-- R131: the end of the current play. -/
theorem Rumble.endCurrent_eq {r : Rumble} {running : Bool} {skipped rest : List Play} (p : Play)
    (k : OutcomeKind) (ho : r.outcomes.length ≤ 8) (h : r.skips running skipped rest) :
    r.endCurrent running p k =
      r.passedOn (endings [p] k ++ endings skipped .beatLost) rest := by
  obtain ⟨hq, hs, hr⟩ := h
  have ht := Rumble.takeFrom_eq running rest skipped
    { r with outcomes := (r.outcomes ++ endings [p] k).take 8 } (List.length_take_le _ _) hs hr
  rw [← hq] at ht
  rw [Rumble.endCurrent, Rumble.record_eq r p k ho, ht, Rumble.passedOn_after]

/-! ### State, slots, arrivals, the queue (R126, R128, R129) -/

theorem Rumble.state_playing_iff (r : Rumble) :
    r.state = .playing ↔ r.current ≠ none ∧ r.hold = false ∧ r.trip = false := by
  unfold Rumble.state
  cases r.hold <;> cases r.trip <;> cases r.current <;> simp

theorem State.beatRunning_iff (s : State) : s.beatRunning = true ↔ s.sound.engine = .running := by
  simp [State.beatRunning]

theorem State.beatRunning_eq_false_iff (s : State) :
    s.beatRunning = false ↔ s.sound.engine ≠ .running := by simp [State.beatRunning]

theorem Rumble.stepLength_eq {r : Rumble} {slot : Fin 8} {p : Pattern} {i : Nat} {st : PatStep}
    (h : r.patterns[slot] = some p) (hs : p.steps[i]? = some st) : r.stepLength slot i = st.length := by
  have hp : r.patternOf slot = some p := h
  simp [Rumble.stepLength, hp, hs]

theorem Rumble.inUse_iff (r : Rumble) (slot : Fin 8) : r.inUse slot = true ↔
    (∃ c, r.current = some c ∧ c.play.pattern = slot) ∨ ∃ p ∈ r.queue, p.pattern = slot := by
  unfold Rumble.inUse Rumble.plays
  cases r.current <;> simp

/-- The checks pass for a loaded slot whose pacing the engine can serve. -/
theorem Rumble.arrivalCheck_eq_none {r : Rumble} {cap : Cap} {running : Bool} {slot : Fin 8}
    {p : Pattern} (h1 : r.trip = false) (h2 : r.hold = false) (h3 : cap ≠ .off)
    (h4 : r.patterns[slot] = some p) (h5 : p.pacing = .beat → running = true) :
    r.arrivalCheck cap running slot = none := by
  have hp : r.patternOf slot = some p := h4
  have hb : (r.beatPaced slot && !running) = false := by
    simp only [Rumble.beatPaced, hp]
    cases hpc : p.pacing
    · rfl
    · simp [h5 hpc]
  unfold Rumble.arrivalCheck
  rw [hb, hp]
  simp [h1, h2, h3]

theorem mem_insertPlay (p q : Play) (l : List Play) : q ∈ insertPlay p l ↔ q = p ∨ q ∈ l := by
  induction l with
  | nil => simp [insertPlay]
  | cons x xs ih =>
    unfold insertPlay
    split
    · simp
    · rw [List.mem_cons, ih, List.mem_cons]
      constructor <;> (intro h; rcases h with h | h | h <;> simp [h])

theorem insertPlay_length (p : Play) (l : List Play) : (insertPlay p l).length = l.length + 1 := by
  induction l with
  | nil => rfl
  | cons x xs ih =>
    unfold insertPlay
    split
    · simp
    · simp [ih]

/-- A play joins after those of equal or higher priority. -/
theorem insertPlay_append (p : Play) (high low : List Play) (h1 : ∀ q ∈ high, p.priority ≤ q.priority)
    (h2 : ∀ q ∈ low.head?, q.priority < p.priority) :
    insertPlay p (high ++ low) = high ++ p :: low := by
  induction high with
  | nil =>
    cases low with
    | nil => rfl
    | cons q qs => have := h2 q rfl; simp [insertPlay, this]
  | cons q qs ih =>
    have := h1 q List.mem_cons_self
    simp only [List.cons_append, insertPlay, if_neg (Fin.not_lt.mpr this)]
    rw [ih fun x hx => h1 x (List.mem_cons_of_mem _ hx)]

theorem insertPlay_sorted (p : Play) (l : List Play)
    (h : l.Pairwise fun a b => b.priority ≤ a.priority) :
    (insertPlay p l).Pairwise fun a b => b.priority ≤ a.priority := by
  induction l with
  | nil => exact List.pairwise_singleton _ _
  | cons x xs ih =>
    obtain ⟨h1, h2⟩ := List.pairwise_cons.1 h
    unfold insertPlay
    split
    next hx =>
      refine List.pairwise_cons.2 ⟨fun b hb => ?_, h⟩
      rcases List.mem_cons.1 hb with e | e
      · exact e ▸ Fin.le_of_lt hx
      · exact Fin.le_trans (h1 b e) (Fin.le_of_lt hx)
    next hx =>
      refine List.pairwise_cons.2 ⟨fun b hb => ?_, ih h2⟩
      rcases (mem_insertPlay p b xs).1 hb with e | e
      · exact e ▸ Fin.not_lt.1 hx
      · exact h1 b e

/-- R129: where a play is placed, as `Rumble.Placed` says. -/
theorem Rumble.Placed.eq {r r' : Rumble} {x : Play} {code : Byte} (h : r.Placed x code r')
    (ho : r.outcomes.length ≤ 8) : ∃ a, r.place x = (r', a) ∧
      ((a = .started ∧ code = 0) ∨ (a = .queued ∧ code = 1)) := by
  cases h with
  | starts hc => exact ⟨.started, by rw [Rumble.place, hc]; rfl, .inl ⟨rfl, rfl⟩⟩
  | preempts c hc hp =>
    refine ⟨.started, ?_, .inl ⟨rfl, rfl⟩⟩
    rw [Rumble.place, hc]
    simp only [hp, if_true]
    rw [Rumble.record_eq r c.play .preempted ho]
    rfl
  | queues c high low hc hp hq h1 h2 hl =>
    refine ⟨.queued, ?_, .inr ⟨rfl, rfl⟩⟩
    rw [Rumble.place, hc]
    simp only [Fin.not_lt.2 hp, if_false, hl, if_true]
    rw [hq, insertPlay_append x high low h1 h2]
  | evicts c high low t hc hp hq h1 h2 ht hl =>
    refine ⟨.queued, ?_, .inr ⟨rfl, rfl⟩⟩
    have hg : r.queue.getLast? = some t := by rw [hq]; simp
    have hd : r.queue.dropLast = high ++ low := by rw [hq]; simp
    rw [Rumble.place, hc]
    simp only [Fin.not_lt.2 hp, if_false, hl, Nat.lt_irrefl, hg, ht, if_true]
    rw [hd, insertPlay_append x high low h1 h2, Rumble.record_eq r t .evicted ho]
    simp only [hc]

/-- R129 step 5: a full queue whose tail the play is not above. -/
theorem Rumble.place_refused {r : Rumble} {x : Play} {c : Current} {qs : List Play} {t : Play}
    (hc : r.current = some c) (hp : x.priority ≤ c.play.priority) (hq : r.queue = qs ++ [t])
    (hl : r.queue.length = 4) (ht : x.priority ≤ t.priority) :
    r.place x = (r, .refused .queueFull .dropped) := by
  have hg : r.queue.getLast? = some t := by rw [hq]; simp
  rw [Rumble.place, hc]
  simp only [Fin.not_lt.2 hp, if_false, hl, Nat.lt_irrefl, hg, Fin.not_lt.2 ht]

/-! ### The law of the unit, kept by each operation -/

/-- The settings, the slots and the outcome list. -/
structure Rumble.SettingsLawful (r : Rumble) : Prop where
  active : r.active.lawful
  staged : r.staged.lawful
  patterns : ∀ i : Fin 8, ∀ p, r.patternOf i = some p → p.lawful
  outcomes : r.outcomes.length ≤ 8

/-- The queue of plays. -/
structure Rumble.QueueLawful (r : Rumble) : Prop where
  loaded : ∀ p ∈ r.queue, (r.patternOf p.pattern).isSome = true
  length : r.queue.length ≤ 4
  sorted : r.queue.Pairwise fun a b => b.priority ≤ a.priority

/-- The law of the unit while `running` says whether beats come and `P` what a play present implies. -/
structure Rumble.LawfulUnder (r : Rumble) (running : Bool) (P : Prop) : Prop where
  settings : r.SettingsLawful
  queue : r.QueueLawful
  duty : r.duty ≤ r.active.modulus.num
  current : ∀ c, r.current = some c → r.currentLawful running c
  present : r.queue ≠ [] → r.current ≠ none
  idle : (r.trip = true ∨ r.hold = true) → r.current = none
  on : r.current ≠ none → P
  driven : r.duty ≠ 0 → P ∧ r.current ≠ none ∧ r.hold = false ∧ r.trip = false

/-- The law of the unit within the part is this law under the supply and the cap. -/
theorem State.rumbleLawful_iff (s : State) : s.rumbleLawful ↔
    s.rumble.LawfulUnder s.beatRunning (s.supplyState = .full ∧ s.link.cap ≠ .off) := by
  unfold State.rumbleLawful Rumble.lawful
  rw [Rumble.state_playing_iff]
  constructor
  · rintro ⟨⟨h1, h2, h3, h4, h5, h6, h7, h8, h9, h10, h11⟩, h12, h13⟩
    exact ⟨⟨h1, h2, h4, h11⟩, ⟨h6, h7, h8⟩, h3, h5, h9, h10, h12,
      fun h => ⟨⟨(h13 h).1, (h13 h).2.2⟩, (h13 h).2.1⟩⟩
  · rintro ⟨⟨h1, h2, h4, h11⟩, ⟨h6, h7, h8⟩, h3, h5, h9, h10, h12, h13⟩
    exact ⟨⟨h1, h2, h3, h4, h5, h6, h7, h8, h9, h10, h11⟩, h12,
      fun h => ⟨(h13 h).1.1, (h13 h).2, (h13 h).1.2⟩⟩

namespace Rumble

variable {r : Rumble} {running : Bool} {P : Prop}

theorem SettingsLawful.withOutcomes (h : r.SettingsLawful) {o : List OutcomeRec} (ho : o.length ≤ 8) :
    SettingsLawful { r with outcomes := o } := ⟨h.active, h.staged, h.patterns, ho⟩

theorem LawfulUnder.free (h : r.LawfulUnder running P) (hc : r.current ≠ none) :
    r.trip = false ∧ r.hold = false := by
  have := h.idle
  cases ht : r.trip <;> cases hh : r.hold <;> simp_all

/-- With no play present the law does not depend on the engine, the supply or the cap. -/
theorem LawfulUnder.ofIdle (h : r.LawfulUnder running P) (hc : r.current = none) (running' : Bool)
    (P' : Prop) : r.LawfulUnder running' P' :=
  ⟨h.settings, h.queue, h.duty, (fun c e => by rw [hc] at e; cases e), h.present, h.idle,
    fun hx => absurd hc hx, fun hx => absurd hc (h.driven hx).2.1⟩

theorem LawfulUnder.mono {P' : Prop} (h : r.LawfulUnder running P) (hp : P → P') :
    r.LawfulUnder running P' :=
  ⟨h.settings, h.queue, h.duty, h.current, h.present, h.idle, fun hx => hp (h.on hx),
    fun hx => ⟨hp (h.driven hx).1, (h.driven hx).2⟩⟩

/-- A start of the engine keeps the law. -/
theorem LawfulUnder.started (h : r.LawfulUnder running P) : r.LawfulUnder true P :=
  ⟨h.settings, h.queue, h.duty,
    fun c e => ⟨(h.current c e).1, (h.current c e).2.1, (h.current c e).2.2.1, (h.current c e).2.2.2.1,
      fun _ => rfl⟩,
    h.present, h.idle, h.on, h.driven⟩

theorem idleDrive_lawful (h : r.SettingsLawful) : r.idleDrive.LawfulUnder running P :=
  ⟨⟨h.active, h.staged, h.patterns, h.outcomes⟩,
    ⟨nofun, by simp [Rumble.idleDrive], by simp [Rumble.idleDrive]⟩, Nat.zero_le _, nofun,
    by simp [Rumble.idleDrive], fun _ => rfl, by simp [Rumble.idleDrive], by simp [Rumble.idleDrive]⟩

theorem recordAll_cases (k : OutcomeKind) (ps : List Play) (r : Rumble) : ∃ o,
    r.recordAll ps k = { r with outcomes := o } ∧ (r.outcomes.length ≤ 8 → o.length ≤ 8) := by
  induction ps generalizing r with
  | nil => exact ⟨_, rfl, id⟩
  | cons p ps ih =>
    obtain ⟨o, h, ho⟩ := Rumble.record_cases r p k
    obtain ⟨o', h', ho'⟩ := ih (r.record p k)
    refine ⟨o', ?_, fun hh => ho' (by rw [h]; exact ho hh)⟩
    show (r.record p k).recordAll ps k = _
    rw [h', h]

theorem endAll_lawful (h : r.SettingsLawful) (k : OutcomeKind) : (r.endAll k).LawfulUnder running P := by
  obtain ⟨o, e, ho⟩ := recordAll_cases k r.plays r
  unfold Rumble.endAll
  rw [e]
  exact idleDrive_lawful (h.withOutcomes (ho h.outcomes))

theorem stepLength_lawful (h : r.SettingsLawful) {slot : Fin 8} {i : Nat} {p : Pattern}
    (hp : r.patternOf slot = some p) (hi : i < p.steps.length) :
    1 ≤ r.stepLength slot i ∧ r.stepLength slot i ≤ 255 := by
  have := (h.patterns _ _ hp).2.2.2 p.steps[i] (List.getElem_mem hi)
  simp only [Rumble.stepLength, hp, List.getElem?_eq_getElem hi]
  exact this

/-- R130: a start keeps the law. -/
theorem start_lawful (hb : r.SettingsLawful) (hq : r.QueueLawful) (hd : r.duty ≤ r.active.modulus.num)
    {p : Play} (hl : (r.patternOf p.pattern).isSome = true)
    (hbp : r.beatPaced p.pattern = true → running = true) (ht : r.trip = false) (hh : r.hold = false)
    (hP : P) : (r.start p).LawfulUnder running P := by
  obtain ⟨pt, hpt⟩ := Option.isSome_iff_exists.1 hl
  have h1 := (hb.patterns _ _ hpt).2.1
  have hs := stepLength_lawful hb hpt (i := 0) (by omega)
  refine ⟨⟨hb.active, hb.staged, hb.patterns, hb.outcomes⟩, ⟨hq.loaded, hq.length, hq.sorted⟩, hd,
    fun c hc => ?_, fun _ => by simp [Rumble.start], fun h => ?_, fun _ => hP,
    fun _ => ⟨hP, by simp [Rumble.start], hh, ht⟩⟩
  · have : c = { play := p, step := 0, reps := 0, left := r.stepLength p.pattern 0 } := by
      simp only [Rumble.start] at hc; injection hc with hc; exact hc.symm
    subst this
    exact ⟨⟨pt, hpt, by show 0 < _; omega⟩, hs.1, hs.2, by show 0 ≤ 255; omega, hbp⟩
  · rcases h with h | h
    · have : r.trip = true := h; simp [ht] at this
    · have : r.hold = true := h; simp [hh] at this

/-- R131: taking from a lawful queue keeps the law. -/
theorem takeFrom_lawful (hP : P) (qs : List Play) (r : Rumble) (hb : r.SettingsLawful)
    (hd : r.duty ≤ r.active.modulus.num) (ht : r.trip = false) (hh : r.hold = false)
    (h1 : ∀ p ∈ qs, (r.patternOf p.pattern).isSome = true) (h2 : qs.length ≤ 4)
    (h3 : qs.Pairwise fun a b => b.priority ≤ a.priority) :
    (Rumble.takeFrom running qs r).LawfulUnder running P := by
  induction qs generalizing r with
  | nil => exact idleDrive_lawful hb
  | cons p ps ih =>
    have h2' : ps.length ≤ 4 := by simp at h2; omega
    have h3' := (List.pairwise_cons.1 h3).2
    unfold Rumble.takeFrom
    split
    · obtain ⟨o, e, ho⟩ := Rumble.record_cases r p .beatLost
      rw [e]
      exact ih _ (hb.withOutcomes (ho hb.outcomes)) hd ht hh
        (fun q hq => h1 q (List.mem_cons_of_mem _ hq)) h2' h3'
    next hn =>
      refine start_lawful (r := { r with queue := ps }) ⟨hb.active, hb.staged, hb.patterns, hb.outcomes⟩
        ⟨fun q hq => h1 q (List.mem_cons_of_mem _ hq), h2', h3'⟩ hd (h1 p List.mem_cons_self)
        (fun hb' => ?_) ht hh hP
      have hb'' : r.beatPaced p.pattern = true := hb'
      rw [hb''] at hn
      simpa using hn

theorem endCurrent_lawful (hb : r.SettingsLawful) (hq : r.QueueLawful) (running : Bool) (hP : P)
    (hd : r.duty ≤ r.active.modulus.num) (ht : r.trip = false) (hh : r.hold = false) (p : Play)
    (k : OutcomeKind) : (r.endCurrent running p k).LawfulUnder running P := by
  unfold Rumble.endCurrent
  obtain ⟨o, e, ho⟩ := Rumble.record_cases r p k
  rw [e]
  exact takeFrom_lawful hP _ _ (hb.withOutcomes (ho hb.outcomes)) hd ht hh hq.loaded hq.length hq.sorted

/-- R130: a unit or a beat keeps the law. -/
theorem tick_lawful (h : r.LawfulUnder running P) (pacing : Pacing) :
    (r.tick pacing running).LawfulUnder running P := by
  unfold Rumble.tick
  split
  next c hc =>
    have hn : r.current ≠ none := by simp [hc]
    have ⟨ht, hh⟩ := h.free hn
    split
    next p hp =>
      split
      · obtain ⟨⟨p', hp', hst⟩, hl1, hl2, hr, hbp⟩ := h.current c hc
        have : p' = p := by rw [hp] at hp'; injection hp' with e; exact e.symm
        subst this
        have upd : ∀ c' : Current, r.currentLawful running c' →
            LawfulUnder { r with current := some c' } running P := fun c' hc' =>
          ⟨⟨h.settings.active, h.settings.staged, h.settings.patterns, h.settings.outcomes⟩,
            ⟨h.queue.loaded, h.queue.length, h.queue.sorted⟩, h.duty,
            fun c'' e => by have : c' = c'' := by simpa using e
                            exact this ▸ hc',
            fun _ => by simp, fun hx => by simp [ht, hh] at hx, fun _ => h.on hn,
            fun _ => ⟨h.on hn, by simp, hh, ht⟩⟩
        unfold Rumble.countDown
        repeat' split
        · exact upd _ ⟨⟨p', hp, hst⟩, by show 1 ≤ c.left - 1; omega, by show c.left - 1 ≤ 255; omega,
            hr, hbp⟩
        next hs =>
          have := stepLength_lawful h.settings hp hs
          exact upd _ ⟨⟨p', hp, hs⟩, this.1, this.2, hr, hbp⟩
        · have h0 : 0 < p'.steps.length := by omega
          have := stepLength_lawful h.settings hp h0
          refine upd _ ⟨⟨p', hp, h0⟩, this.1, this.2, ?_, hbp⟩
          show repsAfter c.reps ≤ 255
          unfold repsAfter; split <;> omega
        · exact endCurrent_lawful h.settings h.queue running (h.on hn) h.duty ht hh _ _
      · exact h
    · exact h
  · exact h

/-- R132: the beat-lost signal leaves no Beat-paced play current. -/
theorem beatLost_lawful (h : r.LawfulUnder running P) : r.beatLost.LawfulUnder false P := by
  unfold Rumble.beatLost
  split
  next c hc =>
    have hn : r.current ≠ none := by simp [hc]
    have ⟨ht, hh⟩ := h.free hn
    split
    · exact endCurrent_lawful (r := { r with duty := 0 })
        ⟨h.settings.active, h.settings.staged, h.settings.patterns, h.settings.outcomes⟩
        ⟨h.queue.loaded, h.queue.length, h.queue.sorted⟩ false (h.on hn) (Nat.zero_le _) ht hh _ _
    next hb =>
      refine ⟨h.settings, h.queue, h.duty, fun c' e => ?_, h.present, h.idle, h.on, h.driven⟩
      have hcc : c' = c := by rw [hc] at e; injection e with e; exact e.symm
      subst hcc
      obtain ⟨h1, h2, h3, h4, _⟩ := h.current c' hc
      exact ⟨h1, h2, h3, h4, fun hx => absurd hx hb⟩
  next hc => exact h.ofIdle hc _ _

/-- R128, R129: an arrival keeps the law. -/
theorem arrive_lawful (h : r.LawfulUnder running P) {cap : Cap} (hP : cap ≠ .off → P) (p : Play) :
    (r.arrive cap running p).1.LawfulUnder running P := by
  unfold Rumble.arrive
  split
  · exact h
  next hn =>
    unfold Rumble.arrivalCheck at hn
    split at hn; cases hn
    split at hn; cases hn
    split at hn; cases hn
    split at hn; cases hn
    split at hn; cases hn
    rename_i ht hh hc hl hb
    have ht : r.trip = false := by simpa using ht
    have hh : r.hold = false := by simpa using hh
    have hl : (r.patternOf p.pattern).isSome = true := by
      cases e : r.patternOf p.pattern <;> simp_all
    have hb : r.beatPaced p.pattern = true → running = true := by
      intro hx; rw [hx] at hb; simpa using hb
    have hP := hP hc
    unfold Rumble.place
    split
    · exact start_lawful h.settings h.queue h.duty hl hb ht hh hP
    next c hcur =>
      have hcn : r.current ≠ none := by simp [hcur]
      have mem : ∀ l : List Play, (∀ q ∈ l, q ∈ r.queue) → ∀ q ∈ insertPlay p l,
          (r.patternOf q.pattern).isSome = true := fun l sub q hq => by
        rcases (mem_insertPlay _ _ _).1 hq with e | e
        · exact e ▸ hl
        · exact h.queue.loaded q (sub q e)
      split
      · obtain ⟨o, e, ho⟩ := Rumble.record_cases r c.play .preempted
        dsimp only
        rw [e]
        exact start_lawful (h.settings.withOutcomes (ho h.settings.outcomes))
          ⟨h.queue.loaded, h.queue.length, h.queue.sorted⟩ h.duty hl hb ht hh hP
      · split
        next hlen =>
          exact ⟨⟨h.settings.active, h.settings.staged, h.settings.patterns, h.settings.outcomes⟩,
            ⟨mem _ fun _ hq => hq,
              by show (insertPlay p r.queue).length ≤ 4; rw [insertPlay_length]; omega,
              insertPlay_sorted _ _ h.queue.sorted⟩,
            h.duty, h.current, fun _ => hcn, h.idle, h.on, h.driven⟩
        · split
          · split
            next t _ _ =>
              obtain ⟨o, e, ho⟩ := Rumble.record_cases r t .evicted
              dsimp only
              rw [e]
              refine ⟨⟨h.settings.active, h.settings.staged, h.settings.patterns, ho h.settings.outcomes⟩,
                ⟨mem _ fun q hq => (List.dropLast_sublist _).subset hq, ?_,
                  insertPlay_sorted _ _ (h.queue.sorted.sublist (List.dropLast_sublist _))⟩,
                h.duty, h.current, fun _ => hcn, h.idle, h.on, h.driven⟩
              show (insertPlay p r.queue.dropLast).length ≤ 4
              rw [insertPlay_length, List.length_dropLast]
              have := h.queue.length; omega
            · exact h
          · exact h

/-- R128: an alarm's play keeps the law. -/
theorem alarmPlay_lawful (h : r.LawfulUnder running P) {cap : Cap} (hP : cap ≠ .off → P) (p : Play) :
    (r.alarmPlay cap running p).LawfulUnder running P := by
  have := arrive_lawful h hP p
  unfold Rumble.alarmPlay
  split
  next r' st k e =>
    rw [e] at this
    obtain ⟨o, e', ho⟩ := Rumble.record_cases r' p k
    rw [e']
    exact ⟨this.settings.withOutcomes (ho this.settings.outcomes),
      ⟨this.queue.loaded, this.queue.length, this.queue.sorted⟩, this.duty, this.current, this.present,
      this.idle, this.on, this.driven⟩
  next e => rw [e] at this; exact this

theorem duty_le {d : DriveSet} (h : d.lawful) (l : Level) : d.duty l ≤ d.modulus.num := by
  cases l
  · exact Nat.zero_le _
  · exact h.1
  · exact h.2
  · exact Nat.le_refl _

/-- R122: a wrap keeps the law. -/
theorem wrap_lawful (h : r.LawfulUnder running P) (cap : Cap) : (r.wrap cap).LawfulUnder running P := by
  have h1 : LawfulUnder { (if r.drivePending then { r with active := r.staged, drivePending := false }
      else r) with duty := 0 } running P := by
    split
    · exact ⟨⟨h.settings.staged, h.settings.staged, h.settings.patterns, h.settings.outcomes⟩,
        ⟨h.queue.loaded, h.queue.length, h.queue.sorted⟩, Nat.zero_le _, h.current, h.present, h.idle,
        h.on, fun hx => absurd rfl hx⟩
    · exact ⟨⟨h.settings.active, h.settings.staged, h.settings.patterns, h.settings.outcomes⟩,
        ⟨h.queue.loaded, h.queue.length, h.queue.sorted⟩, Nat.zero_le _, h.current, h.present, h.idle,
        h.on, fun hx => absurd rfl hx⟩
  unfold Rumble.wrap
  dsimp only
  generalize (if r.drivePending then { r with active := r.staged, drivePending := false } else r) = u at *
  refine ⟨⟨h1.settings.active, h1.settings.staged, h1.settings.patterns, h1.settings.outcomes⟩,
    ⟨h1.queue.loaded, h1.queue.length, h1.queue.sorted⟩, ?_, h1.current, h1.present, h1.idle, h1.on,
    fun hx => ?_⟩
  · show u.wrapDuty cap ≤ u.active.modulus.num
    unfold Rumble.wrapDuty
    repeat' split
    · exact Nat.zero_le _
    · exact duty_le h1.settings.active _
    · exact Nat.zero_le _
  · have hx : u.wrapDuty cap ≠ 0 := hx
    unfold Rumble.wrapDuty at hx
    split at hx
    · exact absurd rfl hx
    · split at hx
      next c hc =>
        have hcn : u.current ≠ none := by simp [hc]
        have := h1.free hcn
        exact ⟨h1.on hcn, hcn, this.2, this.1⟩
      · exact absurd rfl hx

/-- R134: a trip keeps the law. -/
theorem tripNow_lawful (h : r.LawfulUnder running P) : r.tripNow.LawfulUnder running P := by
  unfold Rumble.tripNow
  split
  · exact h
  · split
    next hh =>
      exact ⟨⟨h.settings.active, h.settings.staged, h.settings.patterns, h.settings.outcomes⟩,
        ⟨h.queue.loaded, h.queue.length, h.queue.sorted⟩, Nat.zero_le _, h.current, h.present,
        fun _ => h.idle (.inr hh), h.on, fun hx => absurd rfl hx⟩
    · have h1 := endAll_lawful (running := running) (P := P) h.settings .tripped
      have hc : (r.endAll .tripped).current = none := rfl
      have hd : (r.endAll .tripped).duty = 0 := rfl
      exact ⟨⟨h1.settings.active, h1.settings.staged, h1.settings.patterns, h1.settings.outcomes⟩,
        ⟨h1.queue.loaded, h1.queue.length, h1.queue.sorted⟩, h1.duty, h1.current, h1.present,
        fun _ => hc, h1.on, fun hx => absurd hd hx⟩

/-- R136: a quiesce request keeps the law and leaves no play current. -/
theorem quiesce_lawful (h : r.LawfulUnder running P) :
    r.quiesce.LawfulUnder running P ∧ r.quiesce.current = none := by
  unfold Rumble.quiesce
  split
  next hh => exact ⟨h, h.idle (.inr hh)⟩
  · split
    next ht =>
      have hc := h.idle (.inl ht)
      exact ⟨⟨⟨h.settings.active, h.settings.staged, h.settings.patterns, h.settings.outcomes⟩,
        ⟨h.queue.loaded, h.queue.length, h.queue.sorted⟩, h.duty, h.current, h.present, fun _ => hc,
        h.on, fun hx => absurd hc (h.driven hx).2.1⟩, hc⟩
    · have h1 := endAll_lawful (running := running) (P := P) h.settings .quiesced
      have hc : (r.endAll .quiesced).current = none := rfl
      have hd : (r.endAll .quiesced).duty = 0 := rfl
      exact ⟨⟨⟨h1.settings.active, h1.settings.staged, h1.settings.patterns, h1.settings.outcomes⟩,
        ⟨h1.queue.loaded, h1.queue.length, h1.queue.sorted⟩, h1.duty, h1.current, h1.present,
        fun _ => hc, h1.on, fun hx => absurd hd hx⟩, hc⟩

/-- R136: a resume request keeps the law. -/
theorem resume_lawful (h : r.LawfulUnder running P) : r.resume.LawfulUnder running P :=
  ⟨⟨h.settings.active, h.settings.staged, h.settings.patterns, h.settings.outcomes⟩,
    ⟨h.queue.loaded, h.queue.length, h.queue.sorted⟩, h.duty, h.current, h.present,
    fun hx => h.idle (by rcases hx with hx | hx
                         · exact .inl hx
                         · cases hx),
    h.on, fun hx => ⟨(h.driven hx).1, (h.driven hx).2.1, rfl, (h.driven hx).2.2.2⟩⟩

theorem reset_lawful : Rumble.reset.LawfulUnder running P := by
  have hb : Rumble.reset.SettingsLawful :=
    ⟨⟨by decide, by decide⟩, ⟨by decide, by decide⟩, fun i p h => by
      have : (Vector.replicate 8 (none : Option Pattern))[i] = some p := h
      simp at this, by decide⟩
  exact idleDrive_lawful (r := .reset) hb

end Rumble

end Sys2Proof.Machine
end

