-- ==== Sys2Proof/Laws/Store.lean ====
section
/-! SUPPORT. The page array and the store engine, said once: the bytes of plain headers and of the Empty
entry, a page rewritten, retired or recalled, a page that fits a chain, the places a roll-forward and the
walks can lead to, and the live-file set of a directory. -/

namespace Sys2Proof.Machine

/-! ### Records (R7, R9) -/

theorem plainFree_bytes : (PageHdr.plain .free).bytes = plainHeader 0 := rfl

theorem plainBad_bytes : (PageHdr.plain .bad).bytes = plainHeader 3 := rfl

theorem Entry.empty_bytes : Entry.empty.bytes =
    withCheck ([0, 0, 0] ++ bytes16 0 ++ [0] ++ bytes16 0xFFFF ++ List.replicate 22 0) := rfl

/-! ### A page rewritten (R3, R11, R12) -/

/-- An unverified record write stores what took of it. -/
theorem State.putRecord_eq (s : State) (w : RecWrite) (dev : List Host.Cell) :
    s.putRecord w dev = { s with sram := Mem.writes s.sram w.base (written dev w.bytes) } := rfl

theorem Store.retire_eq (st : Store) (p : PageNo) (bad : List Host.Cell) :
    st.retire p = { st with bad := st.badAfter p (.fail bad) } := by
  unfold Store.retire Store.badAfter
  split <;> rfl

/-- A header rewrite with its verify: the array, and the bad-page set. -/
theorem State.rewrite_eq (s : State) (p : PageNo) (h : PageHdr) (v : HeaderVerify) :
    s.rewrite p h v = { s with
      sram := rewritten s.sram p h.bytes v, store := { s.store with bad := s.store.badAfter p v } } := by
  cases v with
  | pass => rfl
  | fail bad =>
    rw [State.rewrite, Store.retire_eq s.store p bad, State.putRecord_eq]
    simp only [State.withStore, hdrWrite, pageBase, plainBad_bytes, rewritten]

/-- A page rewritten Free: the array, the free list and the bad-page set. -/
theorem State.freePage_eq (s : State) (p : PageNo) (v : HeaderVerify) :
    s.freePage p v = { s with
      sram := rewritten s.sram p (plainHeader 0) v,
      store := { s.store with free := s.store.freeAfter p v, bad := s.store.badAfter p v } } := by
  rw [State.freePage, State.rewrite_eq, plainFree_bytes]
  cases v <;> rfl

/-- A page outside the bad-page set is not there to be recalled. -/
theorem Store.recall_of_notMem (st : Store) (p : PageNo) (h : p ∉ st.bad) : st.recall p = st := by
  have e : st.bad.filter (fun q => decide (q ≠ p)) = st.bad :=
    List.filter_eq_self.2 fun q hq => decide_eq_true fun e => h (e ▸ hq)
  rw [Store.recall, e]

/-! ### Links and pages of a chain (R22, R33, R173) -/

theorem linkPage_of_val {w : Word} {p : PageNo} (h : w.toNat = p.val) : linkPage w = some p :=
  inRange_val p h

/-- A walk's conditions for a Live page are those of `pageFits`. -/
theorem walkOk_iff_pageFits (m : Mem) (p : PageNo) (f : FileNo) (gen : Word) (k : Nat) :
    walkOk m p [.live] f gen k = true ↔ pageFits m p 2 f gen k := by
  simp only [walkOk, pageFits, List.any_cons, List.any_nil, Bool.or_false, Bool.and_eq_true,
    decide_eq_true_eq, PageState.code, linkValid, linkEnd, Bool.or_eq_true]
  constructor
  · rintro ⟨⟨⟨⟨⟨a, b⟩, c⟩, d⟩, e⟩, g⟩
    exact ⟨(of_decide_eq_true a).symm, b, d, c, e, g.imp of_decide_eq_true id⟩
  · rintro ⟨a, b, d, c, e, g⟩
    exact ⟨⟨⟨⟨⟨decide_eq_true a.symm, b⟩, c⟩, d⟩, e⟩, g.imp decide_eq_true id⟩

theorem walkOk_eq_false_iff (m : Mem) (p : PageNo) (f : FileNo) (gen : Word) (k : Nat) :
    walkOk m p [.live] f gen k = false ↔ ¬ pageFits m p 2 f gen k := by
  rw [← walkOk_iff_pageFits]; simp

theorem State.claims_of_fits {s : State} {f : FileNo} {k : Nat} {link : Word} {p : PageNo}
    (hl : link.toNat = p.val) (hfit : pageFits s.sram p 2 f s.store.dir[f].gen k)
    (hc : s.store.claimed p = false) : s.claims f k link = some p := by
  simp only [State.claims, linkPage_of_val hl, (walkOk_iff_pageFits _ _ _ _ _).2 hfit, hc]; simp

/-! ### The places of a roll-forward (R19, R20) -/

/-- The new chain's walk leads to a Staged page further on, or to the clearing write. -/
theorem rollLiveFrom_cases (m : Mem) (j : Journal) (n k : Nat) (link : Word) :
    (∃ i q, k ≤ i ∧ i < k + n ∧ rollLiveFrom m j n k link = .rollLive j i q) ∨
      rollLiveFrom m j n k link = .rollClear := by
  induction n generalizing k link with
  | zero => exact .inr rfl
  | succ n ih =>
    unfold rollLiveFrom
    split
    · exact .inr rfl
    · split
      · split
        · exact .inl ⟨k, _, Nat.le_refl _, by omega, rfl⟩
        · rcases ih (k + 1) (readHdr m _).next with ⟨i, q, h1, h2, e⟩ | e
          · exact .inl ⟨i, q, by omega, by omega, e⟩
          · exact .inr e
      · exact .inr rfl

/-- The old chain's walk leads to its next page, to the new chain of a commit, or to the clearing write. -/
theorem rollOldFrom_cases (m : Mem) (j : Journal) (k : Nat) (link : Word) :
    (∃ q, rollOldFrom m j k link = .rollOld j k q) ∨
      (∃ i q, j.kind = .commit ∧ rollOldFrom m j k link = .rollLive j i q) ∨
        rollOldFrom m j k link = .rollClear := by
  have ha : (∃ i q, j.kind = .commit ∧ afterRollOld m j = .rollLive j i q) ∨
      afterRollOld m j = .rollClear := by
    unfold afterRollOld
    cases j.kind with
    | commit =>
      rcases rollLiveFrom_cases m j j.newCount.toNat 0 j.newRoot with ⟨i, q, _, _, e⟩ | e
      · exact .inl ⟨i, q, rfl, e⟩
      · exact .inr e
    | delete => exact .inr rfl
  unfold rollOldFrom
  split
  · exact .inr ha
  · split
    · exact .inl ⟨_, rfl⟩
    · exact .inr ha

/-- The walk's conditions for a Staged page. -/
theorem walkOk_staged_iff (m : Mem) (p : PageNo) (f : FileNo) (gen : Word) (k : Nat) :
    walkOk m p [.staged] f gen k = true ↔ pageFits m p 1 f gen k := by
  simp only [walkOk, pageFits, List.any_cons, List.any_nil, Bool.or_false, Bool.and_eq_true,
    decide_eq_true_eq, PageState.code, linkValid, linkEnd, Bool.or_eq_true]
  constructor
  · rintro ⟨⟨⟨⟨⟨a, b⟩, c⟩, d⟩, e⟩, g⟩
    exact ⟨(of_decide_eq_true a).symm, b, d, c, e, g.imp of_decide_eq_true id⟩
  · rintro ⟨a, b, d, c, e, g⟩
    exact ⟨⟨⟨⟨⟨decide_eq_true a.symm, b⟩, c⟩, d⟩, e⟩, g.imp decide_eq_true id⟩

/-- The walk's conditions with either state are those of one or the other. -/
theorem walkOk_pair (m : Mem) (p : PageNo) (a b : PageState) (f : FileNo) (gen : Word) (k : Nat) :
    walkOk m p [a, b] f gen k = (walkOk m p [a] f gen k || walkOk m p [b] f gen k) := by
  simp only [walkOk, List.any_cons, List.any_nil, Bool.or_false]
  generalize decide ((a.code) = (readHdr m p).state) = x
  generalize decide ((b.code) = (readHdr m p).state) = y
  cases x <;> cases y <;> simp

/-! ### The places of steps 5 and 6 (R22, R23) -/

/-- The first Live entry with pages from a file number up is the first of the files not before it. -/
theorem firstWalk_eq (st : Store) (lo : Nat) :
    firstWalk st ((List.finRange 16).drop lo) = st.walkPlace lo := by
  have scan : ∀ l : List FileNo, firstWalk st l =
      match l.find? fun g => st.dir[g].live && decide (st.dir[g].pageCount ≠ 0) with
      | some g => .walk g 0 st.dir[g].root
      | none => .sweep 0 := by
    intro l
    induction l with
    | nil => rfl
    | cons f fs ih =>
      rw [firstWalk, List.find?_cons, ih]
      by_cases h : st.dir[f].live = true ∧ st.dir[f].pageCount ≠ 0
      · rw [if_pos h]
        have : (st.dir[f].live && decide (st.dir[f].pageCount ≠ 0)) = true := by
          rw [h.1, Bool.true_and, decide_eq_true h.2]
        rw [this]
      · rw [if_neg h]
        have : (st.dir[f].live && decide (st.dir[f].pageCount ≠ 0)) = false := by
          simpa [Bool.and_eq_true] using h
        rw [this]
  have skip : ((List.finRange 16).find? fun g =>
        decide (lo ≤ g.val) && st.dir[g].live && decide (st.dir[g].pageCount ≠ 0)) =
      ((List.finRange 16).drop lo).find? fun g =>
        st.dir[g].live && decide (st.dir[g].pageCount ≠ 0) := by
    conv => lhs; rw [← List.take_append_drop lo (List.finRange 16)]
    rw [List.find?_append]
    have before : ((List.finRange 16).take lo).find? (fun g =>
        decide (lo ≤ g.val) && st.dir[g].live && decide (st.dir[g].pageCount ≠ 0)) = none := by
      rw [List.find?_eq_none]
      intro g hg
      obtain ⟨i, hi, e⟩ := List.mem_take_iff_getElem.1 hg
      have : g.val < lo := by
        rw [← e]; simp at hi ⊢; omega
      simp [Nat.not_le.mpr this]
    rw [before, Option.none_or]
    have after : ∀ g ∈ (List.finRange 16).drop lo, lo ≤ g.val := by
      intro g hg
      obtain ⟨i, hi, e⟩ := List.mem_drop_iff_getElem.1 hg
      rw [← e]; simp
    revert after
    generalize (List.finRange 16).drop lo = l
    intro after
    induction l with
    | nil => rfl
    | cons g gs ih =>
      rw [List.find?_cons, List.find?_cons, ih fun x hx => after x (List.mem_cons_of_mem _ hx)]
      simp only [decide_eq_true (after g List.mem_cons_self), Bool.true_and]
  rw [scan, Store.walkPlace, skip]
  generalize List.find? _ _ = r
  cases r <;> rfl

/-! ### File sets (R13, R24) -/

theorem FileSet.join_getLsbD (x : FileSet) (a f : FileNo) :
    (FileSet.join x a).getLsbD f.val = (x.getLsbD f.val || decide (f = a)) := by
  simp only [FileSet.join, BitVec.getLsbD_or, BitVec.getLsbD_shiftLeft]
  have := f.isLt
  have := a.isLt
  by_cases h : f = a
  · subst h; simp
  · have h' : f.val ≠ a.val := fun e => h (Fin.ext e)
    simp [h]
    intro h1 h2
    omega

/-- R24: the live-file set holds the files whose entries are Live. -/
theorem Store.liveFiles_getLsbD (st : Store) (f : FileNo) :
    st.liveFiles.getLsbD f.val = st.dir[f].live := by
  have fold : ∀ (l : List FileNo) (x : FileSet),
      (l.foldl (fun x f => if st.dir[f].live then FileSet.join x f else x) x).getLsbD f.val =
        (x.getLsbD f.val || (decide (f ∈ l) && st.dir[f].live)) := by
    intro l
    induction l with
    | nil => intro x; simp
    | cons a as ih =>
      intro x
      rw [List.foldl_cons, ih]
      by_cases h : f = a
      · subst h
        cases hl : st.dir[f].live <;> simp_all [FileSet.join_getLsbD]
      · have hn : (f ∈ a :: as) = (f ∈ as) := by simp [h]
        simp only [hn]
        split
        · rw [FileSet.join_getLsbD]; simp [h]
        · rfl
  have := fold (List.finRange 16) 0
  simpa [Store.liveFiles] using this

/-! ### A write cut short (R3) -/

/-- A write cut short changes the page array alone. -/
theorem State.cutWrite_frame (s : State) (cut : WriteCut) :
    s.cutWrite cut = { s with sram := (s.cutWrite cut).sram } := by
  unfold State.cutWrite; split <;> rfl

/-- Which write is in progress does not depend on the rails. -/
theorem State.writeInProgress_withSupply (s : State) (p : Supply) (w : WriteInProgress) :
    ({ s with supply := p } : State).writeInProgress w = s.writeInProgress w := by
  cases w <;> rfl

@[simp] theorem State.mayRollBack_iff (s : State) (r : Run) :
    s.mayRollBack r ↔ r.abort = true ∨ s.store.free = [] := Iff.rfl

/-- The rewrite to Free of a commit's first staged page is in progress only in a Staging that may be left. -/
theorem State.firstRollbackWrite_eq_some {s : State} {w : RecWrite} (h : s.firstRollbackWrite = some w) :
    ∃ (r : Run) (c : Commit) (i : Nat) (p : PageNo) (ps : List PageNo),
      s.store.op = .run r (.commit c (.staging i)) ∧ s.mayRollBack r ∧ c.staged = p :: ps ∧
        w = hdrWrite p (.plain .free) := by
  unfold State.firstRollbackWrite at h
  split at h
  · next r c i ho =>
    split at h
    · next hm =>
      cases hc : c.staged with
      | nil => simp [State.commitWrite, hc] at h
      | cons p ps =>
        simp only [State.commitWrite, hc, List.head?_cons, Option.map_some, Option.some.injEq] at h
        exact ⟨r, c, i, p, ps, ho, hm, hc, h.symm⟩
    · cases h
  · cases h

end Sys2Proof.Machine
end

