-- ==== Sys2Proof/Tests/Slice0.lean ====
section
/-! SUPPORT. Tests: ill-formed commands, worked values of the spec, and for every statement with hypotheses
a state and operands that meet them, clause by clause. -/

namespace Sys2Proof.Tests

set_option Elab.async false

open Sys2Proof Sys2Proof.Machine

/-! ## Ill-formed commands, one for each check -/

theorem test_wf_offer_zero : (Instr.readCalendar 0).wf = false ∧ (Instr.readCalendar 16).wf = true := by
  decide
theorem test_wf_cell_write_zero : (Instr.blockOffer .store 0).wf = false := by decide
theorem test_wf_torn_mask :
    (Instr.partRestart 1 ⟨.nextEvent, .torn (List.replicate 269 true)⟩).wf = false ∧
      (Instr.partRestart 1 ⟨.firstRollback, .torn (List.replicate 268 true)⟩).wf = true := by decide +kernel
theorem test_wf_rail_torn_mask :
    (Instr.railJudgementChange .vcart 0 ⟨.nextEvent, .torn (List.replicate 269 true)⟩).wf = false := by
  decide +kernel
theorem test_wf_bad_header_cut : (Instr.partRestart 1 ⟨.nextEvent, .badHeader [(268, 0)] []⟩).wf = false ∧
    (Instr.partRestart 1 ⟨.firstRollback, .badHeader [] (List.replicate 11 true)⟩).wf = false ∧
    (Instr.partRestart 1 ⟨.nextEvent, .badHeader [(267, 0)] (List.replicate 10 true)⟩).wf = true := by decide
theorem test_bad_header_cut_short :
    WriteRemains.content (.badHeader [(0, 7)] [true, false]) (List.replicate 10 0)
      (PageHdr.plain .free).bytes =
      3 :: (PageHdr.plain .free).bytes.drop 1 := by decide +kernel
theorem test_wf_verify : (Instr.stageChunk (.fail [(258, 0)] [])).wf = false ∧
    (Instr.stageChunk (.fail [] [(10, 0)])).wf = false ∧
    (Instr.stageChunk (.fail [(257, 0)] [(9, 0)])).wf = true := by decide
theorem test_wf_header_verify : (Instr.scanSweepPage (.fail [(10, 0)])).wf = false ∧
    (Instr.scanSweepPage (.fail [(9, 0)])).wf = true := by decide
theorem test_wf_header_deviation : (Instr.formatHeaderWrite [(6, 0)]).wf = false ∧
    (Instr.formatHeaderWrite [(5, 0)]).wf = true := by decide
theorem test_wf_record_deviation : (Instr.armJournal [(32, 0)]).wf = false ∧
    (Instr.armJournal [(31, 0)]).wf = true := by decide
theorem test_wf_ram_cell_address : (Instr.exchangeRamWrite 0x1000 0).wf = false ∧
    (Instr.exchangeRamWrite 0x100D 0).wf = false ∧ (Instr.exchangeRamWrite 0x0FFF 0).wf = true ∧
    (Instr.exchangeRamWrite 0x1008 0).wf = true := by decide

/-! ## Worked values of the spec -/

/-- R1: the check over the nine characters 1 to 9. -/
theorem test_check16 : check16 [0x31, 0x32, 0x33, 0x34, 0x35, 0x36, 0x37, 0x38, 0x39] = 0x29B1 := by
  decide +kernel
theorem test_valid_header : headerValid (Mem.writes [] 0 validHeader.bytes) = true ∧
    headerValid [] = false := by decide +kernel
theorem test_no_word_decodes : decodeTableWord 16 0 = none := rfl

/-- TABLE 3-3. -/
theorem test_game_days : gameDayOf 14400 100 86399 = 100 ∧ gameDayOf 14400 101 0 = 100 ∧
    gameDayOf 14400 101 14399 = 100 ∧ gameDayOf 14400 101 14400 = 101 ∧ gameDayOf 14400 0 3600 = 0 ∧
    gameDayOf 14400 0 14400 = 0 ∧ gameDayOf 14400 1 3600 = 0 := by decide

/-- An alarm of the example in spec/04, 4.8. -/
def tAlarm (id : Fin 32) (owner : FileNo) (day : Fin 65536) (second : Fin 86400) (every : Word) : Alarm :=
  { id := id, owner := owner, due := ⟨day, second⟩, every := every, wake := false, cue := none,
    rumble := none, tag := 0 }

/-- A part in Full with the store Ready and no file. -/
def tFull : State :=
  { State.reset with store := { Store.reset with status := .ready, op := .none, verdict := true } }

/-- The example's part right after its SET_CALENDAR took the time. -/
def tSet : State :=
  { tFull with cal := { Calendar.reset with
      now := ⟨503, 30000⟩, fired := List.replicate 14
        { id := 9, owner := 0, tag := 0, due := ⟨0, 0⟩, missed := 0, supply := .full, delivered := true,
          wake := false, rearmed := false },
      alarms := [tAlarm 0 1 500 36000 1440, tAlarm 1 1 501 0 0, tAlarm 3 3 502 10000 60,
        tAlarm 2 3 510 0 0] } }

/-- TABLE 4-4 and TABLE 4-5: the firings of the example. -/
theorem test_firing_example :
    tSet.applyFiring.2 = 3 ∧
    (tSet.applyFiring.1.cal.alarms.map fun a => (a.id.val, a.due.day.val, a.due.second.val)) =
      [(3, 503, 31600), (0, 503, 36000), (2, 510, 0)] ∧
    ((tSet.applyFiring.1.cal.fired.drop 14).map fun f => (f.id.val, f.missed.toNat, f.rearmed)) =
      [(0, 2, true), (1, 0, false)] ∧
    tSet.applyFiring.1.cal.overflow = true := by decide +kernel

/-- A voice with its key On, at step 0 of a source. -/
def tVoice (src : Source) (duty : Nat) (level : Fin 128) (l r : Fin 16) (noise : Fin 32767) : Voice :=
  { Voice.reset with
    active := { VoiceSet.reset with
      source := src, duty := duty, level := level, panL := l, panR := r, key := true },
    noisePos := noise }

/-- TABLE 5-7: the mixed frame of the example, and of eight loud voices. -/
theorem test_mixed_frame :
    (mixFrame 64 ((Vector.replicate 8 none).set 0 (some (Vector.replicate 32 0xC0)))
      (#v[tVoice .square 16 100 15 8 0, .reset, .reset, tVoice .wave 0 127 10 15 0, .reset,
        tVoice .noise 0 60 15 15 15, .reset, .reset])) =
        { left := BitVec.ofInt 16 (-317), right := BitVec.ofInt 16 (-8413) } ∧
      mixFrame 64 (Vector.replicate 8 none) (Vector.replicate 8 (tVoice .square 16 127 15 15 0)) =
        { left := 32767, right := 32767 } := by decide +kernel

/-! ## Hypotheses that are met: one theorem for each statement, its parts in the order of the clauses -/

/-- A request block of `words` words at offset 16 of Exchange RAM, its arguments from position 4 on. -/
def tReq (s : State) (op words : Byte) (args : List Byte) : State :=
  { s with port := { s.port with ram := Mem.writes [] 16 ([op, words, 0, 0] ++ args) } }

/-- The block at offset 16. -/
def tBlock (words : Nat) : Block := { off := 16, words := words }

/-- The part with judgements of the three rails. -/
def tRails (vcart vkeep vcell : Bool) : State :=
  { State.reset with supply :=
      { vcart := ⟨if vcart then 3000 else 0, vcart⟩, vkeep := ⟨if vkeep then 3000 else 0, vkeep⟩,
        vcell := ⟨if vcell then 3000 else 0, vcell⟩, cellLow := !vcell } }

/-- The part with the calendar unit at a time, in an oscillator state, with alarms. -/
def tCal (osc : Osc) (now : CalTime) (alarms : List Alarm) : State :=
  { tFull with cal := { Calendar.reset with osc := osc, now := now, alarms := alarms } }

theorem witness_StepTakesTheFrontCommand :
    ({ State.reset with pending := [.crystalEdge] } : State).pending = [.crystalEdge] ∧
      State.reset.pending = [] := ⟨rfl, rfl⟩

theorem witness_TerminationRecord : Memory.wf State.reset.port.ram = true ∧ 2 ≤ 2 ∧
    4088 + 4 * 2 ≤ 4096 ∧ (Answer.ok 65535).count ≤ 65535 := by decide

theorem witness_RailJudgements : (tRails false false false).supply.lawful ∧
    (tRails false false false).supplyState = .dead := by
  unfold Supply.lawful RailState.agrees; decide

theorem witness_FullEntryAndPartRestart : (tRails false true false).supplyState = .standby ∧ 2900 < 2901 ∧
    (tRails false false true).supplyState = .backup ∧ (tRails false false false).supplyState = .dead ∧
    State.reset.supplyState = .full ∧ (0 : Word) ≠ 1 := by decide

/-- A commit of file 2 with one page staged, over an old chain of one page. -/
def tCommit : Commit :=
  { file := 2, buf := 0x100, length := 300, protect := 0, gen := 1, staged := [7], old := [9] }

/-- The run of the block at offset 16. -/
def tRun : Run := { blk := tBlock 4, abort := false, late := false }

/-- A part in Full whose store engine is at a place of an operation. -/
def tOp (status : StoreState) (op : Op) : State :=
  { tFull with store := { tFull.store with status := status, op := op },
               port := { tFull.port with store := { hold := .busy (tBlock 4), refused := false } } }

theorem witness_SupplyLossStopsTheConsoleDomain : (tRails true true true).supplyState = .full ∧
    (tRails true true true).supply.vkeep.good = true ∧ 2699 < 2700 ∧
    (tRails true false true).supplyState = .full ∧ (tRails true false true).supply.vkeep.good = false ∧
    (tRails true false true).supply.vcell.good = true ∧
    ({ tRails true true true with store := tFull.store } : State).nextWrite = none ∧
    ({ tRails true true true with store := (tOp .busy (.run tRun (.commit tCommit .arm))).store } :
      State).nextWrite.isSome = true ∧
    ({ tFull with store := { tFull.store with free := [5], op := .run tRun (.commit tCommit (.staging 1)) } } :
      State).writeInProgress .firstRollback = none ∧
    (tOp .busy (.run tRun (.commit tCommit (.staging 1)))).writeInProgress .firstRollback =
      some { base := 1024 + 268 * 7, bytes := plainHeader 0 } ∧
    (tOp .busy (.run { tRun with abort := true } (.commit { tCommit with staged := [] } (.staging 0)))
      ).writeInProgress .firstRollback = none := by decide +kernel

theorem witness_ColdStartKeepPowerAndCellLow :
    (tRails false false false).supplyState = .dead ∧ 2000 ≤ 2000 ∧
    (tRails false false true).supplyState = .backup ∧ 2600 < 2601 ∧
    (tRails false true true).supplyState = .standby ∧ (tRails false true true).supply.vcell.good = true ∧
    2399 < 2400 ∧
    (tRails true false false).supplyState = .full ∧ (tRails true false false).supply.vkeep.good = false ∧
    (tRails true false false).supply.vcell.good = false ∧ (tRails false true false).supplyState = .standby ∧
    (tRails false true false).supply.vcell.good = false ∧ 1999 < 2000 ∧
    (tRails true false true).supplyState ≠ .dead ∧
    (tRails true false true).supply.vcell.good = decide (2000 ≤ 2499) ∧
    (tRails true false true).supply.vcell.good = decide (2000 ≤ 2000) ∧
    (tRails true false false).supply.vcell.good = decide (2000 ≤ 1999) := by decide

/-- The part one cycle before a second event, at a time, with alarms. -/
def tTick (now : CalTime) (alarms : List Alarm) : State :=
  let s := tCal .running now alarms
  { s with cal := { s.cal with prescaler := 32767 } }

theorem witness_CountingPath :
    (tCal .stopped ⟨0, 0⟩ []).supplyState ≠ .dead ∧ (tCal .stopped ⟨0, 0⟩ []).cal.osc = .stopped ∧
    (tCal .settling ⟨0, 0⟩ []).cal.settle.val + 1 < 2048 ∧ (tCal .settling ⟨0, 0⟩ []).cal.osc = .settling ∧
    ({ Calendar.reset with osc := .settling, settle := 2047 } : Calendar).settle.val + 1 = 2048 ∧
    (tCal .running ⟨0, 0⟩ []).cal.osc = .running ∧
    (tCal .running ⟨0, 0⟩ []).cal.prescaler.val + 1 < 32768 ∧ (tTick ⟨0, 0⟩ []).supplyState ≠ .dead ∧
    (tTick ⟨0, 0⟩ []).cal.osc = .running ∧ (tTick ⟨0, 0⟩ []).cal.prescaler.val = 32767 ∧
    (tCal .settling ⟨0, 0⟩ []).cal.settle.val ≠ 2047 ∧
    ({ Calendar.reset with osc := .settling, settle := 2047 } : Calendar).settle.val = 2047 ∧
    (tCal .running ⟨0, 0⟩ []).cal.prescaler.val ≠ 32767 ∧
    (tTick ⟨0, 86398⟩ []).cal.now.second.val + 1 < 86400 ∧
    (∀ a ∈ (tTick ⟨0, 86398⟩ [tAlarm 0 1 1 0 0]).cal.alarms.head?, a.due.later ⟨0, 86399⟩ = true) ∧
    (tTick ⟨65534, 86399⟩ []).cal.now.day.val + 1 < 65536 ∧
    (tTick ⟨65534, 86399⟩ []).cal.now.second.val = 86399 ∧
    (∀ a ∈ (tTick ⟨0, 86399⟩ [tAlarm 0 1 1 1 0]).cal.alarms.head?, a.due.later ⟨1, 0⟩ = true) ∧
    (tTick ⟨65535, 86399⟩ []).cal.now.day.val = 65535 ∧
    (tTick ⟨65535, 86399⟩ []).cal.now.second.val = 86399 := by decide

theorem witness_FiringRule :
    (tTick ⟨500, 35999⟩ [tAlarm 0 1 500 36000 1440, tAlarm 1 1 501 0 0]).supplyState = .full ∧
    (tTick ⟨500, 35999⟩ [tAlarm 0 1 500 36000 1440, tAlarm 1 1 501 0 0]).cal.osc = .running ∧
    (tTick ⟨500, 35999⟩ [tAlarm 0 1 500 36000 1440, tAlarm 1 1 501 0 0]).cal.prescaler.val = 32767 ∧
    (tTick ⟨500, 35999⟩ [tAlarm 0 1 500 36000 1440, tAlarm 1 1 501 0 0]).cal.lawful ∧
    dueBy [tAlarm 0 1 500 36000 1440, tAlarm 1 1 501 0 0] ⟨500, 36000⟩ = [tAlarm 0 1 500 36000 1440] ∧
    (tRails false true true).supplyState ≠ .full ∧ (tRails false true true).supplyState ≠ .dead := by
  unfold Calendar.lawful; decide

theorem witness_RepeatArithmetic :
    (tAlarm 0 1 500 36000 1440).every ≠ 0 ∧ (tAlarm 0 1 500 36000 1440).due.later ⟨503, 30000⟩ = false ∧
    (tAlarm 0 1 65535 86399 1).due.later ⟨65535, 86399⟩ = false ∧
    5662310399 < (tAlarm 0 1 65535 86399 1).due.pos + 1 * (60 * (tAlarm 0 1 65535 86399 1).every.toNat) ∧
    (tAlarm 1 1 501 0 0).every = 0 := by decide

theorem witness_SetCalendar :
    (tReq tFull 2 4 ([0, 0, 0, 0] ++ bytes32 86400)).offered .calendar 2 4 16 (tBlock 4) ∧
    86400 ≤ (tReq tFull 2 4 ([0, 0, 0, 0] ++ bytes32 86400)).arg32 (tBlock 4) 8 ∧
    (tReq tFull 2 4 ([0, 0, 0, 0] ++ bytes32 86399)).offered .calendar 2 4 16 (tBlock 4) ∧
    (tReq tFull 2 4 ([0, 0, 0, 0] ++ bytes32 86399)).arg32 (tBlock 4) 8 = (86399 : Fin 86400).val ∧
    tFull.cal.lawful := by
  repeat' apply And.intro
  all_goals decide +kernel

theorem witness_RolloverAndReadCalendar :
    (tReq tFull 3 3 (bytes32 86399)).offered .calendar 3 3 16 (tBlock 3) ∧
    (tReq tFull 3 3 (bytes32 86399)).arg32 (tBlock 3) 4 = (86399 : Fin 86400).val ∧
    (tReq tFull 3 3 (bytes32 86400)).offered .calendar 3 3 16 (tBlock 3) ∧
    86400 ≤ (tReq tFull 3 3 (bytes32 86400)).arg32 (tBlock 3) 4 ∧
    (tReq tFull 1 6 []).offered .calendar 1 6 16 (tBlock 6) := by
  repeat' apply And.intro
  all_goals decide +kernel

/-- An ADD_ALARM for file 2, due at day 0 and a second, in a part where file 2 may be Live. -/
def tAdd (live : Bool) (second : Nat) (alarms : List Alarm) : State :=
  let s := tReq (tCal .running ⟨0, 5⟩ alarms) 4 6 ([0, 2, 0, 0] ++ bytes32 second)
  { s with store := { s.store with live := if live then 4 else 0 } }

theorem witness_AddAlarm :
    (tAdd true 86400 []).offered .calendar 4 6 16 (tBlock 6) ∧ (tAdd true 86400 []).alarmAt 20 0 = none ∧
    (tAdd false 6 []).offered .calendar 4 6 16 (tBlock 6) ∧
    (tAdd false 6 []).alarmAt 20 0 = some (tAlarm 0 2 0 6 0) ∧
    (tAdd false 6 []).store.live.getLsbD 2 = false ∧ (tAdd true 6 []).store.live.getLsbD 2 = true ∧
    (tAdd true 5 []).alarmAt 20 0 = some (tAlarm 0 2 0 5 0) ∧
    (tAlarm 0 2 0 5 0).due.later ⟨0, 5⟩ = false ∧ (tAlarm 0 2 0 6 0).due.later ⟨0, 5⟩ = true ∧
    32 ≤ (tAdd true 6 ((List.finRange 32).map fun i => tAlarm i 2 1 0 0)).cal.alarms.length ∧
    (tAdd true 6 ((List.finRange 31).map fun i => tAlarm (Fin.ofNat 32 i.val) 2 1 0 0)).cal.alarms.length
      < 32 ∧
    (∀ x ∈ [tAlarm 0 2 1 0 0, tAlarm 2 2 1 0 0], x.id ≠ 1) ∧
    (∀ j : Fin 32, j < 1 → ∃ x ∈ [tAlarm 0 2 1 0 0, tAlarm 2 2 1 0 0], x.id = j) := by
  repeat' apply And.intro
  all_goals decide +kernel

theorem witness_RemoveAndListAlarms :
    (tReq tFull 5 3 [32, 15]).offered .calendar 5 3 16 (tBlock 3) ∧
    32 ≤ (tReq tFull 5 3 [32, 15]).arg8 (tBlock 3) 4 ∧ 16 ≤ (tReq tFull 5 3 [31, 16]).arg8 (tBlock 3) 5 ∧
    (tReq tFull 5 3 [31, 15]).arg8 (tBlock 3) 4 < 32 ∧ (tReq tFull 5 3 [31, 15]).arg8 (tBlock 3) 5 < 16 ∧
    (∀ a ∈ [tAlarm 31 14 1 0 0],
      ¬ (a.id.val = (tReq tFull 5 3 [31, 15]).arg8 (tBlock 3) 4 ∧
        a.owner.val = (tReq tFull 5 3 [31, 15]).arg8 (tBlock 3) 5)) ∧
    (tAlarm 31 15 1 0 0).id.val = (tReq tFull 5 3 [31, 15]).arg8 (tBlock 3) 4 ∧
    (tAlarm 31 15 1 0 0).owner.val = (tReq tFull 5 3 [31, 15]).arg8 (tBlock 3) 5 ∧
    (tReq tFull 6 3 (bytes16 3584)).offered .calendar 6 3 16 (tBlock 3) ∧
    (tReq tFull 6 3 (bytes16 3584)).arg16 (tBlock 3) 4 + 512 ≤ 4096 ∧
    16 + 4 * 3 ≤ (tReq tFull 6 3 (bytes16 28)).arg16 (tBlock 3) 4 ∧
    4096 < (tReq tFull 6 3 (bytes16 3585)).arg16 (tBlock 3) 4 + 512 ∧
    (tReq tFull 6 3 (bytes16 27)).arg16 (tBlock 3) 4 < 16 + 4 * 3 := by
  repeat' apply And.intro
  all_goals decide +kernel

theorem witness_TakeFired :
    (tReq tFull 7 4 (bytes16 32 ++ [0])).offered .calendar 7 4 16 (tBlock 4) ∧
    (tReq tFull 7 4 (bytes16 32 ++ [0])).arg8 (tBlock 4) 6 = 0 ∧
    16 < (tReq tFull 7 4 (bytes16 32 ++ [17])).arg8 (tBlock 4) 6 ∧
    4096 < (tReq tFull 7 4 (bytes16 4081 ++ [1])).arg16 (tBlock 4) 4 + 1 * 16 ∧
    (tReq tFull 7 4 (bytes16 3840 ++ [16])).offered .calendar 7 4 16 (tBlock 4) ∧
    16 = (tReq tFull 7 4 (bytes16 3840 ++ [16])).arg8 (tBlock 4) 6 ∧
    (tReq tFull 7 4 (bytes16 3840 ++ [16])).arg16 (tBlock 4) 4 + 16 * 16 ≤ 4096 ∧
    (tReq tFull 7 4 (bytes16 0 ++ [1])).arg16 (tBlock 4) 4 + 1 * 16 ≤ 16 := by
  repeat' apply And.intro
  all_goals decide +kernel

theorem witness_Purge :
    ({ tFull.store with purgeReq := some (.file 2) } : Store).purgeReq = some (.file 2) ∧
    ({ tFull.store with purgeReq := some .allNotLive } : Store).purgeReq = some .allNotLive ∧
    tFull.store.purgeReq = none := ⟨rfl, rfl, rfl⟩

/-! ### The save store -/

/-- A part whose store is held: Quiesced, or Unformatted with the hold. -/
def tHeld (status : StoreState) : State :=
  { tFull with store := { tFull.store with status := status, hold := true } }

theorem witness_GeneralChecks :
    (tReq tFull 0 2 []).canTake .store 16 (tBlock 2) ∧ (tReq tFull 9 64 []).canTake .store 16 (tBlock 64) ∧
    tFull.store.status ≠ .scanning ∧ (tReq tFull 0 2 []).opcode (tBlock 2) = 0 ∧
    8 < (tReq tFull 9 64 []).opcode (tBlock 64) ∧
    (tReq tFull 7 2 []).canTake .store 16 (tBlock 2) ∧
    (tReq tFull 1 8 []).canTake .store 16 (tBlock 8) ∧ (tBlock 8).words < 9 ∧
    (tReq tFull 8 5 []).canTake .store 16 (tBlock 5) ∧ (tBlock 5).words < 6 ∧
    (tReq (tHeld .quiesced) 2 4 []).canTake .store 16 (tBlock 4) ∧
    (tReq (tHeld .unformatted) 7 2 []).canTake .store 16 (tBlock 2) ∧
    (tHeld .unformatted).store.hold = true ∧ (tHeld .unformatted).store.op = .none ∧
    (tReq State.reset 1 9 []).canTake .store 16 (tBlock 9) ∧ State.reset.store.status = .scanning ∧
    (tReq tFull 8 2 []).canTake .calendar 16 (tBlock 2) ∧ 7 < (tReq tFull 8 2 []).opcode (tBlock 2) ∧
    (tReq tFull 1 5 []).canTake .calendar 16 (tBlock 5) ∧ (tBlock 5).words < 6 ∧
    (tReq tFull 13 2 []).canTake .sound 16 (tBlock 2) ∧ 12 < (tReq tFull 13 2 []).opcode (tBlock 2) ∧
    (tReq tFull 1 2 [0]).canTake .sound 16 (tBlock 2) ∧
    (tBlock 2).words < 3 + (tReq tFull 1 2 [0]).arg8 (tBlock 2) 4 ∧
    (tReq tFull 7 2 []).canTake .rumble 16 (tBlock 2) ∧ 6 < (tReq tFull 7 2 []).opcode (tBlock 2) ∧
    (tReq tFull 6 14 []).canTake .rumble 16 (tBlock 14) ∧ (tBlock 14).words < 15 := by
  repeat' apply And.intro
  all_goals decide +kernel

/-- An entry of 300 bytes on two pages. -/
def tEntry : Entry :=
  { Entry.empty with live := true, length := 300, pageCount := 2, root := 8, gen := 1 }

/-- A part in a store state where file 2 is Live with an entry, and a free list of some pages. -/
def tLive (status : StoreState) (e : Entry) (free bad : List PageNo) : State :=
  { tFull with store := { tFull.store with
      status := status, dir := tFull.store.dir.set 2 e, live := 4, free := free, bad := bad } }

theorem witness_ReadEntry :
    (tReq (tLive .ready tEntry [] []) 1 9 [2]).offered .store 1 9 16 (tBlock 9) ∧
    (tReq (tLive .ready tEntry [] []) 1 9 [2]).store.status = .ready ∧
    (tReq (tHeld .quiesced) 1 9 [2]).store.status = .quiesced ∧
    (tReq (tLive .ready tEntry [] []) 1 9 [2]).arg8 (tBlock 9) 4 = (2 : FileNo).val ∧
    (tLive .ready tEntry [] []).store.dir[(2 : FileNo)].live = true ∧
    16 ≤ (tReq tFull 1 9 [16]).arg8 (tBlock 9) 4 ∧
    (tReq (tHeld .unformatted) 1 9 [15]).offered .store 1 9 16 (tBlock 9) ∧
    (tReq (tHeld .unformatted) 1 9 [15]).arg8 (tBlock 9) 4 < 16 ∧
    tFull.store.dir[(2 : FileNo)].live = false := by
  repeat' apply And.intro
  all_goals decide +kernel

theorem witness_StatusReads : (tReq tFull 8 6 []).offered .store 8 6 16 (tBlock 6) ∧
    (tReq tFull 12 6 []).offered .sound 12 6 16 (tBlock 6) ∧
    (tReq tFull 6 15 []).offered .rumble 6 15 16 (tBlock 15) := by
  repeat' apply And.intro
  all_goals decide +kernel

/-- A READ_FILE of file 2. -/
def tRead (offset length buf : Nat) : State :=
  tReq (tLive .ready tEntry [] []) 2 4 ([2, 0] ++ bytes16 offset ++ bytes16 length ++ bytes16 buf)

/-- A part with the store Unformatted. -/
def tUnf : State := { tFull with store := { tFull.store with status := .unformatted } }

/-- A READ_RAW. -/
def tRaw (s : State) (first : Nat) (count : Byte) (buf : Nat) : State :=
  tReq s 6 4 (bytes16 first ++ [count, 0] ++ bytes16 buf)

theorem witness_TransfersStart :
    (tRead 100 200 3896).offered .store 2 4 16 (tBlock 4) ∧ (tRead 100 200 3896).store.status = .ready ∧
    (tRead 100 200 3896).arg16 (tBlock 4) 6 = 100 ∧ (tRead 100 200 3896).arg16 (tBlock 4) 8 = 200 ∧
    (tRead 100 200 3896).arg16 (tBlock 4) 10 = 3896 ∧ 100 + 200 ≤ tEntry.length.toNat ∧
    3896 + 200 ≤ 4096 ∧ 16 + 4 * 4 ≤ 3896 ∧
    (tRead 300 0 0).offered .store 2 4 16 (tBlock 4) ∧ (tRead 300 0 0).arg16 (tBlock 4) 8 = 0 ∧
    (tRead 300 0 0).arg16 (tBlock 4) 6 ≤ tEntry.length.toNat ∧
    (tRead 16385 1 0).offered .store 2 4 16 (tBlock 4) ∧ 16384 < (tRead 16385 1 0).arg16 (tBlock 4) 6 ∧
    16384 < (tRead 0 16385 0).arg16 (tBlock 4) 8 ∧ tUnf.store.status = .unformatted ∧
    tUnf.store.hold = false ∧ Entry.empty.live = false ∧ tEntry.length.toNat < 100 + 201 ∧
    4096 < (tRead 100 200 3897).arg16 (tBlock 4) 10 + 200 ∧
    16 < 16 + (tRead 0 1 16).arg16 (tBlock 4) 8 ∧ (tRead 0 1 31).arg16 (tBlock 4) 10 < 16 + 4 * 4 ∧
    (tReq tFull 2 4 [16]).offered .store 2 4 16 (tBlock 4) ∧ 16 ≤ (tReq tFull 2 4 [16]).arg8 (tBlock 4) 4 ∧
    (tReq (tLive .ready tEntry [] []) 5 3 [2]).offered .store 5 3 16 (tBlock 3) ∧ tEntry.pageCount ≠ 0 ∧
    Entry.empty.pageCount = 0 ∧ (tReq tUnf 5 3 [2]).offered .store 5 3 16 (tBlock 3) ∧
    (tReq tFull 5 3 [16]).offered .store 5 3 16 (tBlock 3) ∧ 16 ≤ (tReq tFull 5 3 [16]).arg8 (tBlock 3) 4 ∧
    (tRaw tFull 465 15 32).offered .store 6 4 16 (tBlock 4) ∧ tFull.store.hold = false ∧
    (tRaw tUnf 465 15 32).offered .store 6 4 16 (tBlock 4) ∧
    (tRaw tFull 465 15 32).arg16 (tBlock 4) 4 = 465 ∧ (tRaw tFull 465 15 32).arg8 (tBlock 4) 6 = 15 ∧
    (tRaw tFull 465 15 32).arg16 (tBlock 4) 8 = 32 ∧ 465 + 15 ≤ 480 ∧ 32 + 268 * 15 ≤ 4096 ∧
    (tRaw tFull 480 1 32).offered .store 6 4 16 (tBlock 4) ∧
    479 < (tRaw tFull 480 1 32).arg16 (tBlock 4) 4 ∧ (tRaw tFull 0 0 32).arg8 (tBlock 4) 6 = 0 ∧
    15 < (tRaw tFull 0 16 32).arg8 (tBlock 4) 6 ∧ 480 < (tRaw tFull 466 15 32).arg16 (tBlock 4) 4 + 15 ∧
    4096 < (tRaw tFull 0 15 77).arg16 (tBlock 4) 8 + 268 * 15 ∧
    (tRaw tFull 0 1 31).arg16 (tBlock 4) 8 < 16 + 4 * 4 ∧ 16 < 31 + 268 * 1 := by
  repeat' apply And.intro
  all_goals decide +kernel

/-- A COMMIT_FILE of file 2 with protect 0. -/
def tCom (e : Entry) (free bad : List PageNo) (protect : Byte) (length buf : Nat) : State :=
  tReq (tLive .ready e free bad) 3 4 ([2, protect] ++ bytes16 length ++ bytes16 buf)

theorem witness_ChangesStart :
    (tCom tEntry [5, 6] [] 0 512 3584).offered .store 3 4 16 (tBlock 4) ∧
    (tCom tEntry [5, 6] [] 0 512 3584).arg16 (tBlock 4) 6 = 512 ∧
    (tCom tEntry [5, 6] [] 0 512 3584).arg16 (tBlock 4) 8 = 3584 ∧ 3584 + 512 ≤ 4096 ∧
    (512 + 255) / 256 ≤ [5, 6].length ∧ tEntry.protect.toNat = 0 ∧
    (tCom tEntry [] [] 0 0 0).offered .store 3 4 16 (tBlock 4) ∧
    (tCom tEntry [] [] 0 0 0).arg16 (tBlock 4) 6 = 0 ∧
    15 < (tCom tEntry [] [] 16 0 0).arg8 (tBlock 4) 5 ∧
    (tReq tUnf 3 4 [2]).offered .store 3 4 16 (tBlock 4) ∧ tUnf.store.status = .unformatted ∧
    24 ≤ (tCom tEntry [] ((List.finRange 24).map fun i => Fin.ofNat 480 i.val) 0 0 0).store.bad.length ∧
    tEntry.protect.toNat ≠ (tCom tEntry [] [] 15 0 0).arg8 (tBlock 4) 5 ∧
    16384 < (tCom tEntry [] [] 0 16385 0).arg16 (tBlock 4) 6 ∧
    4096 < (tCom tEntry [] [] 0 512 3585).arg16 (tBlock 4) 8 + 512 ∧
    (tCom tEntry [] [] 0 512 31).arg16 (tBlock 4) 8 < 16 + 4 * 4 ∧ 16 < 31 + 512 ∧
    (tCom Entry.empty [5] [] 0 512 3584).offered .store 3 4 16 (tBlock 4) ∧
    (tCom Entry.empty [5] [] 0 512 3584).store.dir[(2 : FileNo)].live = false ∧
    (tCom Entry.empty [5] [] 0 512 3584).store.free.length < (512 + 255) / 256 ∧
    (tReq tFull 3 4 [16]).offered .store 3 4 16 (tBlock 4) ∧ 16 ≤ (tReq tFull 3 4 [16]).arg8 (tBlock 4) 4 ∧
    (tReq (tLive .ready tEntry [] []) 4 3 [2, 0]).offered .store 4 3 16 (tBlock 3) ∧
    (tReq (tLive .ready tEntry [] []) 4 3 [2, 0]).arg8 (tBlock 3) 5 = tEntry.protect.toNat ∧
    15 < (tReq tFull 4 3 [2, 16]).arg8 (tBlock 3) 5 ∧ tFull.store.dir[(2 : FileNo)].live = false ∧
    tEntry.protect.toNat ≠ (tReq (tLive .ready tEntry [] []) 4 3 [2, 1]).arg8 (tBlock 3) 5 ∧
    (tReq tFull 4 3 [16]).offered .store 4 3 16 (tBlock 3) ∧ 16 ≤ (tReq tFull 4 3 [16]).arg8 (tBlock 3) 4 ∧
    (tReq tFull 7 2 []).offered .store 7 2 16 (tBlock 2) ∧ (tReq tUnf 7 2 []).store.hold = false := by
  repeat' apply And.intro
  all_goals decide +kernel

/-- A page array that holds one page of file 2 at index 8, its payload FF FF and zeros, of which the check
is 0, and the low check byte as stored. -/
def tPage (state : PageState) (seq : Byte) (next : Word) (check : Byte) : Mem :=
  Mem.writes [] (pageBase 8)
    ((PageHdr.bytes { state := state.code, owner := 2, seq := seq, gen := 1, next := next }) ++
      [0xFF, 0xFF] ++ List.replicate 254 0 ++ [check])

theorem crc_zeros (n : Nat) : (List.replicate n (0 : Byte)).foldl crcByte 0 = 0 := by
  induction n with
  | zero => rfl
  | succ n ih =>
    rw [List.replicate_succ, List.foldl_cons, show crcByte 0 0 = 0 by decide]
    exact ih

theorem check_of_payload {bs : List Byte} (h : bs.take 256 = [0xFF, 0xFF] ++ List.replicate 254 0) :
    passes 256 bs = decide ((bs.drop 256).take 2 = [0, 0]) := by
  rw [passes, h, check16, List.foldl_append,
    show ([0xFF, 0xFF] : List Byte).foldl crcByte 0xFFFF = 0 by decide +kernel, crc_zeros]
  rfl

/-- The payload check passes with the check byte 0 and fails with another. -/
theorem test_payload_check (check : Byte) (h : check = 0 ∨ check = 1) :
    payloadPasses (tPage .live 0 9 check) 8 = decide (check = 0) := by
  rw [payloadPasses, check_of_payload (by rcases h with h | h <;> subst h <;> decide +kernel)]
  rcases h with h | h <;> subst h <;> decide +kernel

/-- File 2 is being read or walked over that page. -/
def tOver (m : Mem) (e : Entry) (op : Op) : State :=
  { tLive .busy e [] [] with
    sram := m, store := { (tLive .busy e [] []).store with op := op } }

/-- The payloads' checks: `test_payload_check`. -/
theorem witness_PageReads :
    (tOver (tPage .live 0 9 0) tEntry (.run tRun (.readFile 2 100 200 512 0 8))).store.op =
      .run tRun (.readFile 2 100 200 512 0 8) ∧
    (tOver [] tEntry (.run tRun (.readRaw 465 15 32 14))).store.op = .run tRun (.readRaw 465 15 32 14) ∧
    (tOver [] tEntry (.run tRun (.verify 2 0 8))).store.op = .run tRun (.verify 2 0 8) ∧
    (8 : Word).toNat = (8 : PageNo).val ∧ 480 ≤ (480 : Word).toNat ∧ (1 : Nat) = (100 + 200 - 1) / 256 ∧
    100 < 256 * (0 + 1) ∧ 256 * (0 + 1) ≤ 256 ∧ 0 < (256 + 44 - 1) / 256 ∧
    pageFits (tPage .live 0 9 0) 8 2 2 tEntry.gen 0 ∧ (readHdr (tPage .live 0 9 0) 8).next ≠ 0xFFFF ∧
    pageFits (tPage .live 1 0xFFFF 0) 8 2 2 tEntry.gen 1 ∧
    ¬ pageFits (tPage .staged 0 9 0) 8 2 2 tEntry.gen 0 ∧
    (readHdr (tPage .live 0 0xFFFF 0) 8).next = 0xFFFF ∧
    pageFits (tPage .live 0 9 1) 8 2 2 tEntry.gen 0 ∧
    ((readHdr (tPage .live 1 0xFFFF 0) 8).next = 0xFFFF ↔ 1 + 1 = tEntry.pageCount.toNat) ∧
    ((readHdr (tPage .live 0 9 0) 8).next = 0xFFFF ↔ 0 + 1 = tEntry.pageCount.toNat) ∧
    ¬ ((readHdr (tPage .live 1 9 0) 8).next = 0xFFFF ↔ 1 + 1 = tEntry.pageCount.toNat) := by
  repeat' apply And.intro
  all_goals first | decide +kernel | (unfold pageFits; decide +kernel)

/-- The store engine at a place of the commit of file 2, with a free list. -/
def tAt (free : List PageNo) (ph : CommitPhase) : State :=
  { tOp .busy (.run tRun (.commit tCommit ph)) with
    store := { tFull.store with status := .busy, free := free, op := .run tRun (.commit tCommit ph) } }

theorem witness_Staging :
    (tAt [5] (.staging 1)).store.op = .run tRun (.commit tCommit (.staging 1)) ∧
    (tAt [5] (.staging 1)).store.free = [5] ∧ (tAt [] (.staging 1)).store.free = [] ∧
    tCommit.staged ≠ [] ∧ ({ tCommit with staged := [] } : Commit).staged = [] ∧
    ({ tRun with abort := true } : Run).abort = true ∧ tRun.abort = false ∧
    (tAt [] (.rollback [7, 6] .noSpace)).store.op =
      .run tRun (.commit tCommit (.rollback [7, 6] .noSpace)) ∧
    (tAt [] (.rollback [7] .aborted)).store.op = .run tRun (.commit tCommit (.rollback [7] .aborted)) ∧
    tCommit.staged = [7] := by
  decide +kernel

theorem witness_CommitFinishes :
    (tAt [] .arm).store.op = .run tRun (.commit tCommit .arm) ∧
    (tAt [] (.entry ⟨⟨0, 0⟩, 0⟩)).store.op = .run tRun (.commit tCommit (.entry ⟨⟨0, 0⟩, 0⟩)) ∧
    tCommit.staged ≠ [] ∧
    (tAt [] (.live [] [7, 6])).store.op = .run tRun (.commit tCommit (.live [] [7, 6])) ∧
    (tAt [] (.freeOld [9, 10] none)).store.op = .run tRun (.commit tCommit (.freeOld [9, 10] none)) ∧
    (tAt [] (.clear none)).store.op = .run tRun (.commit tCommit (.clear none)) := by
  decide +kernel

theorem witness_BrokenCommit :
    (tAt [] (.live [] [7, 6])).store.op = .run tRun (.commit tCommit (.live [] [7, 6])) ∧
    (tAt [] (.breakFree [] [6])).store.op = .run tRun (.commit tCommit (.breakFree [] [6])) ∧
    (tAt [] (.damagedEntry [])).store.op = .run tRun (.commit tCommit (.damagedEntry [])) ∧
    (tAt [] (.clear (some 0))).store.op = .run tRun (.commit tCommit (.clear (some 0))) := by
  decide +kernel

/-- The store engine at a place of the delete of file 2, with a purge reply or none. -/
def tDel (ph : DeletePhase) (reply : Option Nat) : State :=
  { tFull with store := { tFull.store with
      status := .busy, op := .run tRun (.delete 2 ph), purgeReply := reply } }

theorem witness_DeleteRuns :
    (tDel .arm none).store.op = .run tRun (.delete 2 .arm) ∧
    (tDel .entry none).store.op = .run tRun (.delete 2 .entry) ∧
    (tDel (.freeOld [8]) none).store.op = .run tRun (.delete 2 (.freeOld [8])) ∧
    (tDel .clear none).store.op = .run tRun (.delete 2 .clear) ∧
    (tDel .purging (some 32)).store.op = .run tRun (.delete 2 .purging) ∧
    (tDel .purging (some 32)).store.purgeReply = some 32 := by decide +kernel

/-- The store engine at a place of a format, with a purge reply or none. -/
def tFor (ph : FormatPhase) (reply : Option Nat) : State :=
  { tFull with store := { tFull.store with
      status := .unformatted, op := .run tRun (.format ph), purgeReply := reply } }

theorem witness_FormatRuns :
    (tFor .header none).store.op = .run tRun (.format .header) ∧
    (tFor .journal none).store.op = .run tRun (.format .journal) ∧
    (tFor (.entries 15) none).store.op = .run tRun (.format (.entries 15)) ∧
    (tFor (.pages 478 0) none).store.op = .run tRun (.format (.pages 478 0)) ∧ (478 : PageNo).val + 1 < 480 ∧
    (tFor (.pages 479 0) none).store.op = .run tRun (.format (.pages 479 0)) ∧ (479 : PageNo).val = 479 ∧
    (tFor (.purging 3) (some 0)).store.op = .run tRun (.format (.purging 3)) ∧
    (tFor (.purging 3) (some 0)).store.purgeReply = some 0 := by decide +kernel

/-! ### The recovery scan -/

/-- The scan's notes at its start. -/
def tNotes : ScanNotes := { rolled := false, staged := false, damaged := 0, discard := false }

/-- The scan at a place, over a page array. -/
def tScan (ph : ScanPhase) (m : Mem) : State :=
  { State.reset with
    sram := m, batteryLost := false, store := { Store.reset with op := .scan tNotes ph } }

theorem witness_ScanBegins :
    State.reset.store.op = .scan tNotes .begin ∧ State.reset.batteryLost = true ∧
    (tScan .discarded []).store.op = .scan tNotes .discarded ∧
    (tScan .begin (Mem.writes [] 0 validHeader.bytes)).batteryLost = false ∧
    passes 4 (Mem.reads (Mem.writes [] 0 validHeader.bytes) 0 6) = true ∧
    Mem.reads (Mem.writes [] 0 validHeader.bytes) 0 4 = [0x47, 0x50, 0xE0, 0x01] ∧
    passes 4 (Mem.reads [] 0 6) = false ∧ Mem.reads [] 0 4 ≠ [0x47, 0x50, 0xE0, 0x01] := by decide +kernel

/-- A journal of a commit of file 2. -/
def tJournal : Journal :=
  { kind := .commit, file := 2, newRoot := 8, newCount := 2, newLength := 300, newGen := 1, newProtect := 0,
    day := 0, second := 0, epoch := 0, oldRoot := 0xFFFF, oldGen := 1 }

theorem witness_RollForward :
    (tScan .journal []).store.op = .scan tNotes .journal ∧ readJournal [] = none ∧
    readJournal (Mem.writes [] 16 tJournal.bytes) = some tJournal ∧
    (tJournal.bytes.take 30).length = 30 ∧ (0 : Word) ≠ check16 (tJournal.bytes.take 30) ∧
    Mem.reads (Mem.writes [] 16 (tJournal.bytes.take 30 ++ bytes16 0)) 16 32 =
      tJournal.bytes.take 30 ++ bytes16 (0 : Word).toNat ∧
    readJournal (Mem.writes [] 16 { tJournal with newCount := 65 }.bytes) = none ∧
    (tScan (.rollEntry tJournal) []).store.op = .scan tNotes (.rollEntry tJournal) ∧
    (tScan (.rollOld tJournal 63 9) []).store.op = .scan tNotes (.rollOld tJournal 63 9) ∧
    (tScan (.rollLive tJournal 0 8) []).store.op = .scan tNotes (.rollLive tJournal 0 8) ∧
    (tScan .rollClear []).store.op = .scan tNotes .rollClear ∧
    (8 : Word).toNat = (8 : PageNo).val ∧ 63 < 64 ∧ 480 ≤ (480 : Word).toNat ∧
    pageFits (tPage .live 63 9 0) 8 2 tJournal.file tJournal.oldGen 63 ∧
    ¬ pageFits (tPage .live 62 9 0) 8 2 tJournal.file tJournal.oldGen 63 ∧
    pageFits (tPage .staged 0 9 0) 8 1 tJournal.file tJournal.newGen 0 ∧
    pageFits (tPage .live 0 9 0) 8 2 tJournal.file tJournal.newGen 0 ∧
    ¬ pageFits (tPage .live 0 9 0) 8 1 tJournal.file tJournal.newGen 0 ∧
    ¬ pageFits (tPage .free 0 9 0) 8 1 tJournal.file tJournal.newGen 0 ∧
    ¬ pageFits (tPage .free 0 9 0) 8 2 tJournal.file tJournal.newGen 0 := by
  repeat' apply And.intro
  all_goals first | decide +kernel | (unfold pageFits; decide +kernel)

/-- The scan at a place, file 2 Live and not damaged, over a page array. -/
def tWalk (ph : ScanPhase) (m : Mem) : State :=
  let s := tScan ph m
  { s with store := { s.store with dir := s.store.dir.set 2 tEntry } }

theorem witness_ScanRepairs :
    (tScan (.entries 14) []).store.op = .scan tNotes (.entries 14) ∧
    entryReadable (Mem.writes [] (entryBase 14) Entry.empty.bytes) 14 = true ∧
    entryReadable [] 14 = false ∧
    (tWalk (.walk 2 0 8) (tPage .live 0 9 0)).store.op = .scan tNotes (.walk 2 0 8) ∧
    pageFits (tPage .live 0 9 0) 8 2 2 tEntry.gen 0 ∧
    (tWalk (.walk 2 0 8) (tPage .live 0 9 0)).store.claimed 8 = false ∧
    (0 + 1 < tEntry.pageCount.toNat ↔ (readHdr (tPage .live 0 9 0) 8).next ≠ 0xFFFF) ∧
    pageFits (tPage .live 1 0xFFFF 0) 8 2 2 tEntry.gen 1 ∧
    (1 + 1 < tEntry.pageCount.toNat ↔ (readHdr (tPage .live 1 0xFFFF 0) 8).next ≠ 0xFFFF) ∧
    480 ≤ (480 : Word).toNat ∧ ¬ pageFits (tPage .bad 0 9 0) 8 2 2 tEntry.gen 0 ∧
    pageFits (tPage .live 1 9 0) 8 2 2 tEntry.gen 1 ∧
    ¬ (1 + 1 < tEntry.pageCount.toNat ↔ (readHdr (tPage .live 1 9 0) 8).next ≠ 0xFFFF) ∧
    pageFits (tPage .live 0 0xFFFF 0) 8 2 2 tEntry.gen 0 ∧
    ¬ (0 + 1 < tEntry.pageCount.toNat ↔ (readHdr (tPage .live 0 0xFFFF 0) 8).next ≠ 0xFFFF) ∧
    ({ tFull.store with chains := tFull.store.chains.set 2 [478] } : Store).claimed 478 = true ∧
    (tScan (.sweep 479) []).store.op = .scan tNotes (.sweep 479) ∧ tFull.store.claimed 479 = false ∧
    hdrPasses (tPage .free 0 9 0) 8 = true ∧ (readHdr (tPage .free 0 9 0) 8).state = 0 ∧
    hdrPasses (tPage .bad 0 9 0) 8 = true ∧ (readHdr (tPage .bad 0 9 0) 8).state = 3 ∧
    hdrPasses [] 8 = false ∧ hdrPasses (tPage .staged 0 9 0) 8 = true ∧
    (readHdr (tPage .staged 0 9 0) 8).state ≠ 0 ∧
    (readHdr (tPage .staged 0 9 0) 8).state ≠ 3 := by
  repeat' apply And.intro
  all_goals first | decide +kernel | (unfold pageFits; decide +kernel)

theorem witness_ScanEnds :
    (tScan .publish []).store.op = .scan tNotes .publish ∧
    ({ (tScan .purging []).store with purgeReply := some 0 } : Store).op = .scan tNotes .purging ∧
    ({ (tScan .purging []).store with purgeReply := some 0 } : Store).purgeReply = some 0 := by
  decide +kernel

theorem witness_Abort :
    (tOp .busy (.run tRun (.readFile 2 0 1 512 0 8))).supplyState = .full ∧
    (tOp .busy (.run tRun (.readFile 2 0 1 512 0 8))).port.store.hold = .busy (tBlock 4) ∧
    (tOp .busy (.run tRun (.verify 2 0 8))).store.op = .run tRun (.verify 2 0 8) ∧
    (tOp .busy (.run tRun (.readRaw 0 1 512 0))).store.op = .run tRun (.readRaw 0 1 512 0) ∧
    (tAt [5] (.staging 0)).store.op = .run tRun (.commit tCommit (.staging 0)) ∧
    (tOp .scanning (.scan tNotes .begin)).supplyState = .full ∧
    (tOp .scanning (.scan tNotes .begin)).store.op = .scan tNotes .begin ∧
    (tOp .scanning (.scan tNotes .begin)).port.store.hold = .busy (tBlock 4) ∧
    (tAt [] .arm).supplyState = .full ∧ (tAt [] .arm).port.store.hold = .busy (tBlock 4) ∧
    (tAt [] .arm).store.op = .run tRun (.commit tCommit .arm) ∧ tCommit.length ≠ 0 ∧
    (tAt [] (.rollback [7] .aborted)).store.op = .run tRun (.commit tCommit (.rollback [7] .aborted)) ∧
    ({ tCommit with length := 0 } : Commit).length = 0 ∧ Status.noSpace ≠ .aborted ∧
    (tAt [] (.entry ⟨⟨0, 0⟩, 0⟩)).store.op = .run tRun (.commit tCommit (.entry ⟨⟨0, 0⟩, 0⟩)) ∧
    (tOp .busy (.run tRun (.delete 2 .purging))).store.op = .run tRun (.delete 2 .purging) ∧
    (tOp .unformatted (.run tRun (.format .header))).store.op = .run tRun (.format .header) := by
  decide +kernel

/-! ### The sound engine -/

/-- A part in Full with the sound engine in a state, some notes queued, and a cue in slot 0. -/
def tSound (engine : EngineState) (notes : List Queued) (cue : List NoteEntry) : State :=
  { tFull with sound := { Sound.reset with
      engine := engine, notes := notes, cues := Sound.reset.cues.set 0 cue } }

/-- A note of voice 0 that keys it off, with a wait. -/
def tNote (wait : Nat) : Queued := { note := { voice := 0, action := .keyOff }, wait := wait }

/-- A cue of one such note. -/
def tCue : List NoteEntry := [{ note := { voice := 0, action := .keyOff }, delay := 255 }]

theorem witness_VoiceRequests :
    0 = (tReq tFull 1 3 [0]).arg8 (tBlock 3) 4 ∧
    (tReq tFull 1 3 [0]).offered .sound 1 (3 + 0) 16 (tBlock 3) ∧
    16 = (tReq tFull 1 19 [16]).arg8 (tBlock 19) 4 ∧
    (tReq tFull 1 19 [16]).offered .sound 1 (3 + 16) 16 (tBlock 19) ∧
    (tReq tFull 1 4 [1, 0, 0, 0, 7, 5, 127, 0]).voiceWrites 24 1 = [⟨7, 5, 127⟩] ∧
    (applyWrite ⟨7, 5, 127⟩ Sound.reset.voices).isSome = true ∧
    applyWrite ⟨7, 5, 128⟩ Sound.reset.voices = none ∧ applyWrite ⟨8, 5, 127⟩ Sound.reset.voices = none ∧
    (tReq tFull 2 2 []).offered .sound 2 2 16 (tBlock 2) ∧
    (tReq tFull 3 3 ([5, 0] ++ bytes16 127)).offered .sound 3 3 16 (tBlock 3) ∧
    (tReq tFull 3 3 ([5, 0] ++ bytes16 127)).arg8 (tBlock 3) 4 = 5 ∧
    (tReq tFull 3 3 ([5, 0] ++ bytes16 127)).arg16 (tBlock 3) 6 = (127 : Fin 128).val ∧
    (tReq tFull 3 3 ([8, 0] ++ bytes16 1)).arg8 (tBlock 3) 4 = 8 ∧
    (tReq tFull 3 3 ([8, 0] ++ bytes16 1)).arg16 (tBlock 3) 6 = 1 ∧
    (tReq tFull 3 3 ([8, 0] ++ bytes16 0)).offered .sound 3 3 16 (tBlock 3) ∧
    (tReq tFull 3 3 ([8, 0] ++ bytes16 0)).arg16 (tBlock 3) 6 = 0 ∧
    (tReq tFull 1 20 [17]).offered .sound 1 3 16 (tBlock 20) ∧
    16 < (tReq tFull 1 20 [17]).arg8 (tBlock 20) 4 ∧
    3 + (tReq tFull 1 20 [17]).arg8 (tBlock 20) 4 ≤ (tBlock 20).words ∧
    (tReq tFull 3 3 ([6, 0] ++ bytes16 1)).arg8 (tBlock 3) 4 ≠ 5 ∧
    (tReq tFull 3 3 ([6, 0] ++ bytes16 1)).arg8 (tBlock 3) 4 ≠ 8 ∧
    128 ≤ (tReq tFull 3 3 ([5, 0] ++ bytes16 128)).arg16 (tBlock 3) 6 ∧
    2 ≤ (tReq tFull 3 3 ([8, 0] ++ bytes16 2)).arg16 (tBlock 3) 6 ∧
    (tReq tFull 4 2 []).offered .sound 4 2 16 (tBlock 2) := by
  repeat' apply And.intro
  all_goals decide +kernel

/-- The values at the ends of the ranges are given by the statement's own clauses. -/
theorem witness_StagingAndTaking : ({ Voice.reset with retrigger := true } : Voice).retrigger = true ∧
    Voice.reset.retrigger = false ∧ (∀ m : Modulus, (128 : Nat) ≠ m.num) := by
  refine ⟨rfl, rfl, ?_⟩
  intro m; cases m <;> decide

theorem witness_LoadWaveAndCue :
    (tReq tFull 5 3 ([7, 0] ++ bytes16 4064)).offered .sound 5 3 16 (tBlock 3) ∧
    (tReq tFull 5 3 ([7, 0] ++ bytes16 4064)).arg8 (tBlock 3) 4 = (7 : Fin 8).val ∧
    (tReq tFull 5 3 ([7, 0] ++ bytes16 4064)).arg16 (tBlock 3) 6 = 4064 ∧ 4064 + 32 ≤ 4096 ∧
    8 ≤ (tReq tFull 5 3 ([8, 0] ++ bytes16 4064)).arg8 (tBlock 3) 4 ∧
    4096 < (tReq tFull 5 3 ([0, 0] ++ bytes16 4065)).arg16 (tBlock 3) 6 + 32 ∧
    (tReq tFull 5 3 ([0, 0] ++ bytes16 27)).arg16 (tBlock 3) 6 < 16 + 4 * 3 ∧
    0 = (tReq tFull 10 3 [3, 0]).arg8 (tBlock 3) 5 ∧
    (tReq tFull 10 3 [3, 0]).offered .sound 10 (3 + 2 * 0) 16 (tBlock 3) ∧
    (tReq tFull 10 3 [3, 0]).notesAt 24 0 = some [] ∧
    1 = (tReq tFull 10 5 [3, 1, 0, 0, 1, 0, 255]).arg8 (tBlock 5) 5 ∧
    (tReq tFull 10 5 [3, 1, 0, 0, 1, 0, 255]).offered .sound 10 (3 + 2 * 1) 16 (tBlock 5) ∧
    (tReq tFull 10 5 [3, 1, 0, 0, 1, 0, 255]).notesAt 24 1 = some tCue ∧
    4 ≤ (tReq tFull 10 3 [4, 0]).arg8 (tBlock 3) 4 ∧
    (tReq tFull 10 21 [3, 9]).offered .sound 10 (3 + 2 * 9) 16 (tBlock 21) ∧
    8 < (tReq tFull 10 21 [3, 9]).arg8 (tBlock 21) 5 ∧
    (tReq tFull 10 5 [3, 1, 0, 0, 4]).notesAt 24 1 = none := by
  repeat' apply And.intro
  all_goals decide +kernel

/-- A pattern of one step of two units. -/
def tPattern (pacing : Pacing) : Pattern := { pacing := pacing, times := 1, steps := [⟨.high, 2⟩] }

/-- A play of slot 0. -/
def tPlay (prio : Fin 4) : Play := { pattern := 0, priority := prio, source := .console }

/-- A part in Full with slot 0 loaded, a play current or not, and a play queue. -/
def tRum (pacing : Pacing) (current : Option Current) (queue : List Play) : State :=
  { tFull with rumble := { Rumble.reset with
      patterns := Rumble.reset.patterns.set 0 (some (tPattern pacing)), current := current,
      queue := queue } }

/-- A current play of slot 0 with priority 2. -/
def tCur (left : Nat) : Current := { play := tPlay 2, step := 0, reps := 0, left := left }

theorem witness_EngineRequests :
    (tReq tFull 6 3 (bytes16 256)).offered .sound 6 3 16 (tBlock 3) ∧
    (tReq tFull 6 3 (bytes16 256)).arg16 (tBlock 3) 4 = 256 ∧ tFull.sound.engine = .stopped ∧
    (tReq (tSound .held [] []) 6 3 (bytes16 65535)).offered .sound 6 3 16 (tBlock 3) ∧
    256 ≤ (tReq (tSound .held [] []) 6 3 (bytes16 65535)).arg16 (tBlock 3) 4 ∧
    (tSound .held [] []).sound.engine ≠ .stopped ∧
    (tReq tFull 6 3 (bytes16 255)).arg16 (tBlock 3) 4 < 256 ∧
    (tReq (tSound .running [] []) 7 2 []).offered .sound 7 2 16 (tBlock 2) ∧
    (tSound .running [] []).sound.engine = .running ∧ (tSound .muting [] []).sound.engine ≠ .running ∧
    (tReq tFull 8 3 (bytes16 256)).offered .sound 8 3 16 (tBlock 3) ∧
    (tReq tFull 8 3 (bytes16 255)).offered .sound 8 3 16 (tBlock 3) ∧
    (tRum .time (some (tCur 2)) []).rumble.beatPaced (tCur 2).play.pattern = false ∧
    (tRum .beat (some (tCur 2)) [tPlay 1]).rumble.current = some (tCur 2) ∧
    (tRum .beat (some (tCur 2)) [tPlay 1]).rumble.beatPaced (tCur 2).play.pattern = true ∧
    (tRum .beat (some (tCur 2)) [tPlay 1]).rumble.outcomes.length ≤ 8 ∧
    (tRum .beat (some (tCur 2)) [tPlay 1]).rumble.skips false [tPlay 1] [] := by
  repeat' apply And.intro
  all_goals decide +kernel

theorem witness_NotesAndCues :
    1 = (tReq (tSound .running [] []) 9 5 [1, 0, 0, 0, 1, 0, 255]).arg8 (tBlock 5) 4 ∧
    (tReq (tSound .running [] []) 9 5 [1, 0, 0, 0, 1, 0, 255]).offered .sound 9 (3 + 2 * 1) 16 (tBlock 5) ∧
    (tReq (tSound .running [] []) 9 5 [1, 0, 0, 0, 1, 0, 255]).notesAt 24 1 = some tCue ∧
    0 = min 1 (64 - (tSound .running (List.replicate 64 (tNote 0)) []).sound.notes.length) ∧
    1 = min 1 (64 - (tSound .running (List.replicate 63 (tNote 0)) []).sound.notes.length) ∧
    (tSound .stopped [] []).sound.engine ≠ .running ∧
    (tReq tFull 9 37 [17]).offered .sound 9 (3 + 2 * 17) 16 (tBlock 37) ∧
    17 = (tReq tFull 9 37 [17]).arg8 (tBlock 37) 4 ∧ (tReq tFull 9 5 [1, 0, 0, 0, 4]).notesAt 24 1 = none ∧
    (tReq (tSound .running [] tCue) 11 3 [4]).offered .sound 11 3 16 (tBlock 3) ∧
    4 ≤ (tReq (tSound .running [] tCue) 11 3 [4]).arg8 (tBlock 3) 4 ∧
    (tReq (tSound .running [] tCue) 11 3 [0]).offered .sound 11 3 16 (tBlock 3) ∧
    (tReq (tSound .running [] tCue) 11 3 [0]).arg8 (tBlock 3) 4 = (0 : Fin 4).val ∧
    (tSound .running (List.replicate 63 (tNote 0)) tCue).sound.cues[(0 : Fin 4)] ≠ [] ∧
    (tSound .running (List.replicate 63 (tNote 0)) tCue).sound.notes.length + tCue.length ≤ 64 ∧
    (tSound .running [] tCue).supplyState = .full ∧ (tSound .running [] []).sound.cues[(0 : Fin 4)] = [] ∧
    64 < (tSound .running (List.replicate 64 (tNote 0)) tCue).sound.notes.length + tCue.length := by
  repeat' apply And.intro
  all_goals decide +kernel

/-- A part in Full whose engine is in a state, at a frame count and a gain, with voice 0 one frame before a
step boundary. -/
def tFrame (engine : EngineState) (count gain : Nat) (hold : Bool) : State :=
  { tFull with sound := { Sound.reset with
      engine := engine, frameCount := count, gain := gain, hold := hold,
      voices := Sound.reset.voices.set 0 (tVoice .square 32 0 0 0 0) } }

theorem witness_Frames :
    (tFrame .running 4094 64 false).supplyState = .full ∧
    (tFrame .running 4094 64 false).sound.engine = .running ∧
    (tFrame .running 4094 64 false).sound.fifo.length < 64 ∧
    (mapVec Voice.advance (tFrame .running 0 64 false).sound.voices).toList =
      (tFrame .running 0 64 false).sound.voices.toList.map Voice.advance ∧
    (tFrame .running 4095 64 false).sound.frameCount + 1 = (tFrame .running 4095 64 false).sound.tempo ∧
    (tFrame .running 4094 64 false).sound.frameCount + 1 ≠ (tFrame .running 4094 64 false).sound.tempo ∧
    (tFrame .muting 0 1 false).sound.engine = .muting ∧ 1 ≤ (tFrame .muting 0 1 false).sound.gain ∧
    (tRails false true true).supplyState ≠ .full ∧
    64 ≤ ({ Sound.reset with fifo := List.replicate 64 .zero } : Sound).fifo.length ∧
    (tVoice .wave 0 0 0 0 0).active.key = true ∧ Voice.reset.active.key = false ∧
    (tFrame .muting 0 1 false).sound.voices[(0 : Fin 8)].active.key = true ∧
    (tFrame .muting 0 1 false).sound.voices[(0 : Fin 8)].active.period ≤
      (tFrame .muting 0 1 false).sound.voices[(0 : Fin 8)].periodCount + 1 ∧
    (tFrame .muting 0 1 false).sound.voices[(1 : Fin 8)].active.key = false ∧
    0 + 1 < ({ VoiceSet.reset with period := 2 } : VoiceSet).period ∧
    ({ Sound.reset with fifo := [.zero] } : Sound).fifo = .zero :: [] := by decide +kernel

theorem witness_BeatAndRampEnd :
    (tFrame .running 4095 64 false).supplyState = .full ∧
    (tFrame .running 4095 64 false).sound.engine = .running ∧
    (tFrame .running 4095 64 false).sound.fifo.length < 64 ∧
    (tFrame .running 4095 64 false).sound.frameCount + 1 = (tFrame .running 4095 64 false).sound.tempo ∧
    (mapVec Voice.advance (tFrame .running 4095 64 false).sound.voices).toList =
      (tFrame .running 4095 64 false).sound.voices.toList.map Voice.advance ∧
    (tFrame .running 4095 64 false).sound.notes = [] ++ [] ∧
    (tSound .running [tNote 0, tNote 1] []).sound.notes = [tNote 0] ++ [tNote 1] ∧
    (∀ q ∈ [tNote 0], q.wait = 0) ∧ (∀ q ∈ [tNote 1].head?, q.wait ≠ 0) ∧
    (tFrame .running 4094 64 false).sound.frameCount + 1 ≠ (tFrame .running 4094 64 false).sound.tempo ∧
    (tFrame .muting 0 1 false).supplyState = .full ∧ (tFrame .muting 0 1 false).sound.engine = .muting ∧
    (tFrame .muting 0 1 false).sound.fifo.length < 64 ∧ (tFrame .muting 0 1 false).sound.gain ≤ 1 ∧
    (tFrame .muting 0 1 false).sound.hold = false ∧ (tFrame .muting 0 1 true).sound.hold = true ∧
    2 ≤ (tFrame .muting 0 2 false).sound.gain ∧
    ((tHeld .quiesced).store.status = .quiesced ∨ (tHeld .quiesced).store.status = .unformatted ∧
      (tHeld .quiesced).store.hold = true ∧ (tHeld .quiesced).store.op = .none) ∧
    ({ Rumble.reset with hold := true } : Rumble).hold = true := by decide +kernel

/-- R111, R108: the events bring a beat and the ramp's end in the states of the witnesses. -/
theorem test_beat_and_ramp_are_due :
    (tFrame .running 4095 64 false).sound.beatDue = true ∧ (tFrame .muting 0 1 false).sound.rampDue = true ∧
    (tFrame .muting 0 2 false).sound.rampDue = false ∧ (tFrame .running 4094 64 false).sound.beatDue = false ∧
    (tFrame .muting 0 1 false).sound.stepDue 0 = true ∧ (tFrame .muting 0 1 false).sound.stepDue 1 = false ∧
    (tFrame .stopped 0 64 false).sound.stepDue 0 = false := by decide +kernel

/-! ### The rumble unit -/

theorem witness_DriveAndLevels :
    (tRum .time (some (tCur 2)) []).supplyState = .full ∧
    (tReq tFull 1 4 (bytes16 256 ++ bytes16 256 ++ bytes16 0)).offered .rumble 1 4 16 (tBlock 4) ∧
    (tReq tFull 1 4 (bytes16 256 ++ bytes16 256 ++ bytes16 0)).arg16 (tBlock 4) 4 = Modulus.m256.num ∧
    (tReq tFull 1 4 (bytes16 256 ++ bytes16 256 ++ bytes16 0)).arg16 (tBlock 4) 6 ≤ 256 ∧
    (tReq tFull 1 4 (bytes16 256 ++ bytes16 256 ++ bytes16 0)).arg16 (tBlock 4) 8 ≤ 256 ∧
    256 < (tReq tFull 1 4 (bytes16 16 ++ bytes16 257 ++ bytes16 0)).arg16 (tBlock 4) 6 ∧
    256 < (tReq tFull 1 4 (bytes16 16 ++ bytes16 0 ++ bytes16 257)).arg16 (tBlock 4) 8 := by
  repeat' apply And.intro
  all_goals decide +kernel

/-- A modulus that names none. -/
theorem witness_DriveAndLevels_modulus : ∀ m : Modulus,
    (tReq tFull 1 4 (bytes16 128)).arg16 (tBlock 4) 4 ≠ m.num := by
  intro m; cases m <;> decide +kernel

theorem witness_LoadPattern :
    1 = (tReq tFull 2 4 [7, 1, 15, 1, 3, 255]).arg8 (tBlock 4) 7 ∧
    (tReq tFull 2 4 [7, 1, 15, 1, 3, 255]).offered .rumble 2 (3 + (1 + 1) / 2) 16 (tBlock 4) ∧
    (tReq tFull 2 4 [7, 1, 15, 1, 3, 255]).arg8 (tBlock 4) 4 = (7 : Fin 8).val ∧
    (tReq tFull 2 4 [7, 1, 15, 1, 3, 255]).arg8 (tBlock 4) 5 ≤ 1 ∧
    (tReq tFull 2 4 [7, 1, 15, 1, 3, 255]).arg8 (tBlock 4) 6 ≤ 15 ∧
    (tReq tFull 2 4 [7, 1, 15, 1, 3, 255]).stepsAt 24 1 = some [⟨.full, 255⟩] ∧
    tFull.rumble.current = none ∧ (∀ p ∈ tFull.rumble.queue, p.pattern ≠ 7) ∧
    0 = (tReq tFull 2 3 [7, 1, 15, 0]).arg8 (tBlock 3) 7 ∧
    (tReq tFull 2 3 [7, 1, 15, 0]).offered .rumble 2 (3 + (0 + 1) / 2) 16 (tBlock 3) ∧
    (tRum .time (some (tCur 2)) []).rumble.current = some (tCur 2) ∧ (tCur 2).play.pattern = 0 ∧
    tPlay 1 ∈ (tRum .time (some (tCur 2)) [tPlay 1]).rumble.queue ∧
    8 ≤ (tReq tFull 2 3 [8]).arg8 (tBlock 3) 4 ∧ 2 ≤ (tReq tFull 2 3 [0, 2]).arg8 (tBlock 3) 5 ∧
    16 ≤ (tReq tFull 2 3 [0, 0, 16]).arg8 (tBlock 3) 6 ∧
    (tReq tFull 2 12 [0, 0, 0, 17]).offered .rumble 2 (3 + (17 + 1) / 2) 16 (tBlock 12) ∧
    (tReq tFull 2 4 [0, 0, 0, 1, 4, 1]).stepsAt 24 1 = none ∧
    (tReq tFull 2 4 [0, 0, 0, 1, 3, 0]).stepsAt 24 1 = none ∧
    (tRails false false true).supplyState ≠ .full ∧ 2900 < 2901 := by
  repeat' apply And.intro
  all_goals decide +kernel

/-- A PLAY_PATTERN of slot 0 with a priority. -/
def tPP (s : State) (prio : Byte) : State := tReq s 3 3 [0, prio]

theorem witness_Plays :
    (tPP tFull 3).offered .rumble 3 3 16 (tBlock 3) ∧
    8 ≤ (tReq tFull 3 3 [8, 0]).arg8 (tBlock 3) 4 ∧ 4 ≤ (tReq tFull 3 3 [0, 4]).arg8 (tBlock 3) 5 ∧
    (tPP tFull 3).arg8 (tBlock 3) 4 = (0 : Fin 8).val ∧ (tPP tFull 3).arg8 (tBlock 3) 5 = (3 : Fin 4).val ∧
    tFull.rumble.patterns[(0 : Fin 8)] = none ∧ (tRum .beat none []).rumble.beatPaced 0 = true ∧
    (tRum .beat none []).sound.engine ≠ .running ∧
    ({ Rumble.reset with trip := true } : Rumble).trip = true ∧
    ({ Rumble.reset with hold := true } : Rumble).hold = true ∧
    ({ Link.reset with cap := .off } : Link).cap = .off ∧
    (tPP (tRum .time none []) 3).offered .rumble 3 3 16 (tBlock 3) ∧
    (tRum .time none []).rumble.trip = false ∧ (tRum .time none []).rumble.hold = false ∧
    (tRum .time none []).link.cap ≠ .off ∧
    (tRum .time none []).rumble.patterns[(0 : Fin 8)] = some (tPattern .time) ∧
    (tPattern .time).pacing ≠ .beat ∧ (tRum .time none []).rumble.outcomes.length ≤ 8 ∧
    (tRum .time none []).supplyState = .full ∧
    (tRum .time (some (tCur 2)) []).rumble.current = some (tCur 2) ∧
    (2 : Fin 4) ≤ (tCur 2).play.priority ∧
    (tRum .time (some (tCur 2)) [tPlay 2, tPlay 2, tPlay 2, tPlay 2]).rumble.queue =
      [tPlay 2, tPlay 2, tPlay 2] ++ [tPlay 2] ∧
    (tRum .time (some (tCur 2)) [tPlay 2, tPlay 2, tPlay 2, tPlay 2]).rumble.queue.length = 4 ∧
    (2 : Fin 4) ≤ (tPlay 2).priority := by
  repeat' apply And.intro
  all_goals decide +kernel

/-- Each step of R129 places some play. -/
theorem witness_Plays_placed :
    (∃ r, (tRum .time none []).rumble.Placed (tPlay 3) 0 r) ∧
    (∃ r, (tRum .time (some (tCur 2)) []).rumble.Placed (tPlay 3) 0 r) ∧
    (∃ r, (tRum .time (some (tCur 2)) [tPlay 2, tPlay 1, tPlay 0]).rumble.Placed (tPlay 2) 1 r) ∧
    ∃ r, (tRum .time (some (tCur 2)) [tPlay 2, tPlay 1, tPlay 1, tPlay 0]).rumble.Placed (tPlay 2) 1 r :=
  ⟨⟨_, .starts rfl⟩, ⟨_, .preempts (tCur 2) rfl (by decide)⟩,
    ⟨_, .queues (tCur 2) [tPlay 2] [tPlay 1, tPlay 0] rfl (by decide) rfl (by decide) (by decide)
      (by decide)⟩,
    ⟨_, .evicts (tCur 2) [tPlay 2] [tPlay 1, tPlay 1] (tPlay 0) rfl (by decide) rfl (by decide)
      (by decide) (by decide) (by decide)⟩⟩

/-- The play patterns of the clauses on beats, all of one shape with those on units. -/
theorem witness_BeatAndRampEnd_ticks :
    (tRum .time (some (tCur 2)) []).rumble.beatPaced (tCur 2).play.pattern = false ∧
    (tRum .beat (some (tCur 2)) []).rumble.current = some (tCur 2) ∧
    (tRum .beat (some (tCur 2)) []).rumble.patterns[(tCur 2).play.pattern] = some (tPattern .beat) ∧
    (tPattern .beat).pacing = .beat ∧ 2 ≤ (tCur 2).left ∧ (tCur 1).left ≤ 1 ∧
    ({ tPattern .beat with steps := [⟨.low, 1⟩, ⟨.high, 2⟩] } : Pattern).steps[(tCur 1).step + 1]? =
      some ⟨.high, 2⟩ ∧
    (tPattern .beat).steps.length = (tCur 1).step + 1 ∧ (tPattern .beat).steps[0]? = some ⟨.high, 2⟩ ∧
    min 255 ((tCur 1).reps + 1) < ({ tPattern .beat with times := 2 } : Pattern).times ∧
    (tCur 1).reps ≤ 255 ∧ (tPattern .beat).times ≠ 0 ∧
    (tPattern .beat).times ≤ min 255 ((tCur 1).reps + 1) ∧
    (tRum .beat (some (tCur 2)) []).rumble.outcomes.length ≤ 8 := by decide +kernel

theorem witness_UnitEvents :
    (tRum .time (some (tCur 2)) []).supplyState = .full ∧
    (tRum .time (some (tCur 2)) []).rumble.current = some (tCur 2) ∧ 2 ≤ (tCur 2).left ∧
    (tRum .time (some (tCur 2)) []).rumble.patterns[(tCur 2).play.pattern] = some (tPattern .time) ∧
    (tPattern .time).pacing = .time ∧ (tCur 1).left ≤ 1 ∧
    ({ tPattern .time with steps := [⟨.low, 1⟩, ⟨.high, 2⟩] } : Pattern).steps[(tCur 1).step + 1]? =
      some ⟨.high, 2⟩ ∧
    (tPattern .time).steps.length = (tCur 1).step + 1 ∧
    ({ tPattern .time with times := 2 } : Pattern).times ≠ 0 ∧
    min 255 ((tCur 1).reps + 1) < ({ tPattern .time with times := 2 } : Pattern).times ∧
    (tCur 1).reps ≤ 255 ∧ (tPattern .time).times ≤ min 255 ((tCur 1).reps + 1) ∧
    (tRum .time (some (tCur 1)) [tPlay 1]).rumble.skips
      (decide ((tRum .time (some (tCur 1)) [tPlay 1]).sound.engine = .running)) [] [tPlay 1] ∧
    (tRum .beat (some (tCur 1)) [tPlay 1]).rumble.skips
      (decide ((tRum .beat (some (tCur 1)) [tPlay 1]).sound.engine = .running)) [tPlay 1] [] ∧
    (tRum .time (some (tCur 1)) []).rumble.outcomes.length ≤ 8 ∧
    (tRum .beat (some (tCur 1)) []).rumble.beatPaced (tCur 1).play.pattern = true := by
  unfold Rumble.skips; decide +kernel

theorem witness_TripStopAndClear :
    (tRum .time (some (tCur 2)) [tPlay 1]).supplyState = .full ∧
    (tRum .time (some (tCur 2)) [tPlay 1]).rumble.trip = false ∧
    (tRum .time (some (tCur 2)) [tPlay 1]).rumble.hold = false ∧
    (tRum .time (some (tCur 2)) [tPlay 1]).rumble.current = some (tCur 2) ∧
    (List.replicate 8 (⟨0, .alarm, .stopped⟩ : OutcomeRec)).length ≤ 8 ∧
    ({ Rumble.reset with hold := true } : Rumble).trip = false ∧
    (tRails false true true).supplyState ≠ .full ∧ Rumble.reset.tripNow.trip = true ∧
    (tReq tFull 4 2 []).offered .rumble 4 2 16 (tBlock 2) ∧ tFull.rumble.current = none ∧
    tFull.rumble.queue = [] ∧
    (tReq (tRum .time (some (tCur 2)) [tPlay 1]) 4 2 []).offered .rumble 4 2 16 (tBlock 2) ∧
    (tReq tFull 5 2 []).offered .rumble 5 2 16 (tBlock 2) ∧
    ({ tFull with rumble := Rumble.reset.tripNow } : State).rumble.trip = true ∧ tFull.msns = false ∧
    tFull.rumble.trip = false := by
  repeat' apply And.intro
  all_goals decide +kernel

/-! ### The console port and the standby link -/

/-- A part with the store cell holding a block Busy or Pending. -/
def tCell (h : Hold) : State :=
  { tFull with port := { tFull.port with store := { hold := h, refused := false } } }

theorem witness_CellWrites :
    tFull.supplyState = .full ∧ (tFull.cell .store).hold = .idle ∧
    (tFull.blockAt 17).off % 4 ≠ 0 ∧ (tFull.blockAt 0x1000).off = 0 ∧ (0x1000 : Word) ≠ 0 ∧
    (tFull.blockAt 16).words < 2 ∧ 64 < ((tReq tFull 1 65 []).blockAt 16).words ∧
    4096 < (4092 : Nat) + 4 * 2 ∧
    ((tCell (.busy (tBlock 4))).cell .store).hold ≠ .idle ∧
    ((tCell (.pending (tBlock 4))).cell .store).hold = .pending (tBlock 4) ∧
    (tRails false true true).supplyState ≠ .full := by decide +kernel

theorem witness_RamAndNotices :
    tFull.supplyState = .full ∧ (0xFFF : BitVec 13).toNat < 4096 ∧ Memory.wf tFull.port.ram = true ∧
    (0x1009 : BitVec 13).toNat / 2 * 2 = 0x1008 ∧ 0x100E ≤ (0x100E : BitVec 13).toNat := by decide

/-- A part in a supply state with the link's target in a state. -/
def tLink (s : State) (t : LinkTarget) : State := { s with link := { s.link with target := t } }

theorem witness_LinkFrames :
    (tLink (tRails false true true) .address).keepOn = true ∧
    (tLink (tRails false true true) .address).link.target = .address ∧
    (0x5A : Byte) ≠ 0x58 ∧ (0x5A : Byte) ≠ 0x59 ∧ tFull.link.response.length ≤ 0 ∧
    ({ Link.reset with response := [7] } : Link).response[0]? = some 7 ∧
    (tRails false true true).supplyState = .standby ∧ tFull.supplyState = .full ∧
    tFull.cal.alarms = [] ∧ tFull.cal.fired = [] ∧
    (tCal .running ⟨0, 0⟩ [tAlarm 0 1 1 0 0]).cal.alarms = tAlarm 0 1 1 0 0 :: [] ∧
    (firedRecord (tAlarm 0 1 1 0 0) ⟨1, 0⟩ .backup).supply ≠ .dead := by decide

theorem witness_LinkCommands :
    (tLink tFull .command).keepOn = true ∧ (tLink tFull .command).link.target = .command ∧
    (0x14 : Byte) ∉ ([0x01, 0x02, 0x03, 0x04, 0x10, 0x11, 0x12, 0x13] : List Byte) ∧
    (tLink (tRails false true true) .command).supplyState = .standby ∧
    (tLink tFull .complete).link.target = .complete ∧ (tLink tFull .ignore).link.target = .ignore ∧
    (tRails false false true).keepOn = false := by decide

theorem witness_WakeLine :
    (tLink (tRails false true true) .command).supplyState = .standby ∧
    (tLink (tRails false true true) .command).link.target = .command ∧
    (tRails false false false).supplyState ≠ .full ∧ 2900 < 2901 := by decide

theorem witness_SetCap :
    (tLink tFull .command).link.target = .command ∧ (tLink tFull .command).keepOn = true ∧
    (tLink tFull .argument).link.target = .argument ∧ (tLink tFull .argument).supplyState = .full ∧
    (tLink tFull .argument).link.cap = .full ∧
    (tLink (tRails false true true) .argument).supplyState = .standby ∧ Cap.lowOnly ≠ tFull.link.cap ∧
    tFull.link.cap ≠ .off ∧ (tLink tFull .argument).rumble.current = none ∧
    (tLink tFull .argument).rumble.queue = [] ∧
    (tRum .time (some (tCur 2)) []).rumble.current = some (tCur 2) ∧
    (tRum .time (some (tCur 2)) []).rumble.outcomes.length ≤ 8 ∧ 3 ≤ (3 : Byte).toNat := by decide

/-- A part that a QUIESCE reaches: the store in a state, the engine in a state, plays, a trip mark. -/
def tQuiet (store : StoreState) (op : Op) (engine : EngineState) (current : Option Current)
    (queue : List Play) (trip : Bool) : State :=
  let s := tLink (tRum .beat current queue) .command
  { s with store := { s.store with status := store, op := op }, sound := { s.sound with engine := engine },
           rumble := { s.rumble with trip := trip } }

/-- What a QUIESCE from None asks of the part. -/
def tQuietOk (s : State) : Prop :=
  s.supplyState = .full ∧ s.link.target = .command ∧ s.link.quiesce = .none ∧
    s.rumble.outcomes.length ≤ 8 ∧
    (s.rumble.trip = true ∨ s.rumble.hold = true → s.rumble.current = none ∧ s.rumble.queue = [])

theorem witness_QuiesceAndResume :
    tQuietOk (tQuiet .ready .none .running (some (tCur 2)) [tPlay 1] false) ∧
    tQuietOk (tQuiet .busy (.run tRun (.commit tCommit .arm)) .stopped none [] false) ∧
    tQuietOk (tQuiet .unformatted .none .stopped none [] true) ∧
    tQuietOk (tQuiet .unformatted (.run tRun (.format .header)) .muting (some (tCur 2)) [] false) ∧
    tQuietOk (tQuiet .scanning (.scan tNotes .begin) .muting none [] true) ∧
    ({ Link.reset with quiesce := .pending } : Link).quiesce ≠ .none ∧
    (tQuiet .ready .none .running none [] false).sound.engine ≠ .held ∧
    (tQuiet .quiesced .none .held none [] false).sound.engine = .held := by
  unfold tQuietOk; decide +kernel

/-- R161: Done at once only where the three units count as held. -/
theorem test_quiesce_done :
    (tQuiet .unformatted .none .stopped none [] true).quiesceAll.link.quiesce = .done ∧
    (tQuiet .ready .none .running (some (tCur 2)) [tPlay 1] false).quiesceAll.link.quiesce = .pending ∧
    (tQuiet .ready .none .running (some (tCur 2)) [tPlay 1] false).quiesceAll.rumble.outcomes.map (·.kind) =
      [.quiesced, .quiesced] := by decide +kernel

/-! ### Laws: the states that meet them are those right after reset (`LawsHoldAtReset`), and one with more -/

theorem witness_MemoriesStayCanonical : (tReq tFull 1 9 [2]).memoriesCanonical ∧
    step { tReq tFull 1 9 [2] with pending := [.stopCondition] } =
      .next (tReq tFull 1 9 [2]) := by
  refine ⟨⟨by decide +kernel, by decide⟩, rfl⟩

theorem witness_SupplyLawKept : (tRails true false true).supplyLawful := by
  unfold State.supplyLawful Supply.lawful RailState.agrees State.consoleLost; decide

theorem witness_CalendarLawKept :
    (tCal .running ⟨500, 35999⟩ [tAlarm 0 1 500 36000 1440, tAlarm 1 1 501 0 0]).cal.lawful := by
  unfold Calendar.lawful; decide

theorem witness_RumbleLawKept : State.reset.rumbleLawful :=
  (State.rumbleLawful_iff _).2 Rumble.reset_lawful

theorem witness_SoundLawKept : State.reset.sound.lawful := by
  unfold Sound.lawful
  simp [State.reset, Sound.reset, Voice.reset, VoiceSet.reset, Voice.lawful, VoiceSet.lawful, Modulus.num,
    cueLawful]

theorem witness_PageAccountingKept : State.reset.pagesLawful := by
  refine ⟨?_, rfl, fun h => (by rcases h with h | h | h <;> cases h), rfl, rfl, by decide⟩
  unfold State.engineLawful
  exact ⟨by decide, by decide, by decide, fun _ => ⟨_, _, rfl⟩, rfl, id⟩

theorem witness_QuiesceLawKept : tFull.quiesceLawful := by
  unfold State.quiesceLawful; decide

theorem witness_AlarmOwnersKept : tFull.ownersLawful := by
  refine ⟨?_, ?_⟩
  · unfold State.engineLawful
    refine ⟨by decide, by decide, by decide, nofun, by decide, ?_, by decide⟩
    exact id
  · exact ⟨rfl, rfl, fun _ => nofun⟩

end Sys2Proof.Tests
end

section
/-! SUPPORT. Proofs: the check of a record (R1) and scan steps 1 and 2 (R18, R4). -/
namespace Sys2Proof.Machine

/-! ### The check (R1) -/

/-- The check over one byte more is the eight shifts of that byte from the check so far. -/
theorem check16_append_byte (bs : List Byte) (b : Byte) : check16 (bs ++ [b]) = crcByte (check16 bs) b := by
  rw [check16, check16, List.foldl_append, List.foldl_cons, List.foldl_nil]

theorem passes_iff (n : Nat) (bs : List Byte) :
    passes n bs = true ↔ (bs.drop n).take 2 = bytes16 (check16 (bs.take n)).toNat := decide_eq_true_iff

/-! ### Scan steps 1 and 2 (R18, R4) -/

section
variable {s : State} {n : ScanNotes}

theorem exec_scanDiscardHeader (dev : List Host.Cell) (ho : s.store.op = .scan n .begin)
    (hb : s.batteryLost = true) :
    exec (.scanDiscardHeader dev) s = .next ((s.putRecord discardHeader dev).setScan n .discarded) := by
  simp only [exec, execScanDiscardHeader, ho, hb, if_true, goesOn]

theorem exec_scanClearBatteryLost (ho : s.store.op = .scan n .discarded) :
    exec .scanClearBatteryLost s = .next (({ s with
      batteryLost := false, store := { s.store with verdict := false } } : State).setScan
        { n with discard := true } .publish) := by
  simp only [exec, execScanClearBatteryLost, ho, goesOn]

theorem exec_scanHeaderRead (ho : s.store.op = .scan n .begin) (hb : s.batteryLost = false) :
    exec .scanHeaderRead s = .next ((s.withStore { s.store with verdict := headerValid s.sram }).setScan n
      (if headerValid s.sram then .journal else .publish)) := by
  simp only [exec, execScanHeaderRead, ho, hb, Bool.false_eq_true, if_false, goesOn]

end

theorem Mem.reads_take (m : Mem) (a : Nat) {k n : Nat} (h : k ≤ n) :
    (Mem.reads m a n).take k = Mem.reads m a k := by
  induction k generalizing a n with
  | zero => rfl
  | succ k ih =>
    obtain ⟨n, rfl⟩ : ∃ i, n = i + 1 := ⟨n - 1, by omega⟩
    rw [Mem.reads, Mem.reads, List.take_succ_cons, ih _ (by omega)]

/-- R4: the header is valid exactly when its check passes and it says the signature and 480 pages. -/
theorem headerValid_iff (m : Mem) : headerValid m = true ↔
    passes 4 (Mem.reads m 0 6) = true ∧ Mem.reads m 0 4 = [0x47, 0x50, 0xE0, 0x01] := by
  rw [headerValid, Bool.and_eq_true, decide_eq_true_iff, headerBase, Mem.reads_take m 0 (by decide)]
  rfl

theorem headerValid_eq_false_iff (m : Mem) : headerValid m = false ↔
    passes 4 (Mem.reads m 0 6) = false ∨ Mem.reads m 0 4 ≠ [0x47, 0x50, 0xE0, 0x01] := by
  rw [← Bool.not_eq_true, headerValid_iff, Classical.not_and_iff_not_or_not, Bool.not_eq_true]

/-- Settles O28: each event of steps 1 and 2 by its own equation, the header read by what validity says. -/
theorem scanBegins : Obligations.ScanBegins := by
  unfold Obligations.ScanBegins
  refine ⟨rfl, check16_append_byte, by decide +kernel, fun _ => rfl, passes_iff, ?discard, ?cleared, ?formatted,
    ?unformatted⟩
  case discard =>
    intro s n dev ho hb
    exact exec_scanDiscardHeader dev ho hb
  case cleared =>
    intro s n ho
    exact exec_scanClearBatteryLost ho
  case formatted =>
    intro s n ho hb hc hs
    rw [exec_scanHeaderRead ho hb, (headerValid_iff _).2 ⟨hc, hs⟩]
    rfl
  case unformatted =>
    intro s n ho hb h
    rw [exec_scanHeaderRead ho hb, (headerValid_eq_false_iff _).2 h]
    rfl

end Sys2Proof.Machine
end

section
/-! SUPPORT. Proofs: scan step 3, the journal and its roll-forward (R19, R20, R5). -/
namespace Sys2Proof.Machine

/-! ### Scan step 3: the journal (R19, R5) -/

/-- A stored check that is not the check of the bytes before it fails. -/
theorem passes_eq_false_of_ne {n : Nat} {bs : List Byte} {c : Word} (hn : bs.length = n)
    (hc : c ≠ check16 bs) : passes n (bs ++ bytes16 c.toNat) = false := by
  subst hn
  refine decide_eq_false fun h => hc ?_
  rw [List.drop_left, List.take_left] at h
  have h : bytes16 c.toNat = bytes16 (check16 bs).toNat := h
  rw [← wordOf_bytes16 c, h, wordOf_bytes16]

/-- R5: a journal whose check fails reads Clear. -/
theorem readJournal_eq_none_of_check {m : Mem} (h : passes 30 (Mem.reads m 16 32) = false) :
    readJournal m = none := by
  refine Option.eq_none_iff_forall_not_mem.2 fun j hj => ?_
  obtain ⟨-, hp, -⟩ := (readJournal_eq_some_iff m j).1 hj
  rw [h] at hp
  cases hp

/-! ### The roll-forward, event by event (R19, R20) -/

section
variable {s : State} {n : ScanNotes} {j : Journal}

theorem exec_scanJournalRead_clear (ho : s.store.op = .scan n .journal) (hj : readJournal s.sram = none) :
    exec .scanJournalRead s = .next (s.setScan n (.entries 0)) := by
  simp only [exec, execScanJournalRead, ho, hj, goesOn]

theorem exec_scanJournalRead_armed (ho : s.store.op = .scan n .journal)
    (hj : readJournal s.sram = some j) : exec .scanJournalRead s = .next (s.setScan n (.rollEntry j)) := by
  simp only [exec, execScanJournalRead, ho, hj, goesOn]

theorem exec_rollForwardEntryWrite (dev : List Host.Cell) (ho : s.store.op = .scan n (.rollEntry j)) :
    exec (.rollForwardEntryWrite dev) s = .next (s.rollEntry n j dev) := by
  simp only [exec, execRollForwardEntryWrite, ho, goesOn]

theorem exec_rollForwardOldPageFree {k : Nat} {p : PageNo} (v : HeaderVerify)
    (ho : s.store.op = .scan n (.rollOld j k p)) :
    exec (.rollForwardOldPageFree v) s = .next (s.rollOld n j k p v) := by
  simp only [exec, execRollForwardOldPageFree, ho, goesOn]

theorem exec_rollForwardLiveRewrite {k : Nat} {p : PageNo} (v : HeaderVerify)
    (ho : s.store.op = .scan n (.rollLive j k p)) :
    exec (.rollForwardLiveRewrite v) s = .next (s.rollLive n j k p v) := by
  simp only [exec, execRollForwardLiveRewrite, ho, goesOn]

theorem exec_clearJournal_rollClear (dev : List Host.Cell) (ho : s.store.op = .scan n .rollClear) :
    exec (.clearJournal dev) s = .next (s.rollClear n dev) := by
  simp only [exec, execClearJournal, ho, goesOn]

end

/-- R19, R20: the entry write of a roll-forward; the old chain is walked over the array that it left. -/
theorem State.rollEntry_eq (s : State) (n : ScanNotes) (j : Journal) (dev : List Host.Cell) (m : Mem)
    (hm : m = (s.putRecord (entryWrite j.file (if j.kind = .commit then j.entry else .empty)) dev).sram) :
    s.rollEntry n j dev = { s with
      sram := m, store := { s.store with op := .scan n (rollOldFrom m j 0 j.oldRoot) } } := by
  rw [hm, State.rollEntry]
  generalize entryWrite j.file _ = w
  rfl

/-- R19 part 2: one old page rewritten Free joins no list; the walk goes on over the link that it had. -/
theorem State.rollOld_eq (s : State) (n : ScanNotes) (j : Journal) (k : Nat) (p : PageNo)
    (v : HeaderVerify) : s.rollOld n j k p v = { s with
      sram := rewritten s.sram p (plainHeader 0) v,
      store := { s.store with
        bad := s.store.badAfter p v,
        op := .scan n (rollOldFrom (rewritten s.sram p (plainHeader 0) v) j (k + 1)
          (readHdr s.sram p).next) } } := by
  rw [State.rollOld, State.rewrite_eq, plainFree_bytes]; rfl

/-- R19 part 3: one Staged page rewritten Live, or retired; the walk goes on over its link (log 20). -/
theorem State.rollLive_eq (s : State) (n : ScanNotes) (j : Journal) (k : Nat) (p : PageNo)
    (v : HeaderVerify) : s.rollLive n j k p v = { s with
      sram := rewritten s.sram p (liveHdr s.sram p).bytes v,
      store := { s.store with
        bad := s.store.badAfter p v,
        op := .scan n (rollLiveFrom (rewritten s.sram p (liveHdr s.sram p).bytes v) j
          (j.newCount.toNat - (k + 1)) (k + 1) (readHdr s.sram p).next) } } := by
  rw [State.rollLive, State.rewrite_eq]; rfl

/-! ### Where the walks of a roll-forward lead (R19) -/

theorem linkPage_eq_none {w : Word} (h : 480 ≤ w.toNat) : linkPage w = none := inRange_eq_none h

section
variable {m : Mem} {j : Journal} {k : Nat} {link : Word} {p : PageNo}

/-- R19 part 2: a page that fits within the first 64 positions is the next to free. -/
theorem rollOldFrom_fits (hl : link.toNat = p.val) (hk : k < 64)
    (hfit : pageFits m p 2 j.file j.oldGen k) : rollOldFrom m j k link = .rollOld j k p := by
  rw [rollOldFrom, linkPage_of_val hl]
  exact if_pos ⟨hk, (walkOk_iff_pageFits _ _ _ _ _).2 hfit⟩

/-- R19 part 2: no page there, 64 pages visited, or a page that does not fit ends the old chain's walk. -/
theorem rollOldFrom_ends (h : 480 ≤ link.toNat ∨ 64 ≤ k ∨
    ∃ p : PageNo, link.toNat = p.val ∧ ¬ pageFits m p 2 j.file j.oldGen k) :
    rollOldFrom m j k link = afterRollOld m j := by
  rw [rollOldFrom]
  split
  case h_1 => rfl
  case h_2 p hp =>
    have hv : link.toNat = p.val := inRange_eq_some_iff.1 hp
    refine if_neg fun ⟨hk, hok⟩ => ?_
    rcases h with h | h | ⟨q, hq, hfit⟩
    · have := p.isLt; omega
    · omega
    · obtain rfl : p = q := Fin.ext (hv.symm.trans hq)
      exact hfit ((walkOk_iff_pageFits _ _ _ _ _).1 hok)

/-- The new chain's walk takes a page that is Staged or Live and fits. -/
theorem walkOk_new_iff (gen : Word) (f : FileNo) : walkOk m p [.staged, .live] f gen k = true ↔
    pageFits m p 1 f gen k ∨ pageFits m p 2 f gen k := by
  rw [walkOk_pair, Bool.or_eq_true, walkOk_staged_iff, walkOk_iff_pageFits]

/-- R19 part 3: a Staged page that fits is the next to make Live. -/
theorem rollLiveFrom_staged (left : Nat) (hl : link.toNat = p.val)
    (hfit : pageFits m p 1 j.file j.newGen k) : rollLiveFrom m j (left + 1) k link = .rollLive j k p := by
  rw [rollLiveFrom, linkPage_of_val hl]
  dsimp only
  rw [if_pos ((walkOk_new_iff _ _).2 (.inl hfit))]
  exact if_pos hfit.1

/-- R19 part 3: a Live page that fits is passed over. -/
theorem rollLiveFrom_live (left : Nat) (hl : link.toNat = p.val)
    (hfit : pageFits m p 2 j.file j.newGen k) :
    rollLiveFrom m j (left + 1) k link = rollLiveFrom m j left (k + 1) (readHdr m p).next := by
  rw [rollLiveFrom, linkPage_of_val hl]
  dsimp only
  rw [if_pos ((walkOk_new_iff _ _).2 (.inr hfit))]
  exact if_neg (by rw [hfit.1]; decide)

/-- R19 part 3: no page there, or one that does not fit, ends the new chain's walk. -/
theorem rollLiveFrom_ends (left : Nat) (h : 480 ≤ link.toNat ∨ ∃ p : PageNo, link.toNat = p.val ∧
    ¬ pageFits m p 1 j.file j.newGen k ∧ ¬ pageFits m p 2 j.file j.newGen k) :
    rollLiveFrom m j (left + 1) k link = .rollClear := by
  rw [rollLiveFrom]
  rcases h with h | ⟨p, hl, h1, h2⟩
  · rw [linkPage_eq_none h]
  · rw [linkPage_of_val hl]
    exact if_neg fun hok => ((walkOk_new_iff _ _).1 hok).elim h1 h2

end

/-- Settles O29: the journal by its bytes, each event by its equation, each walk by the page at its link. -/
theorem rollForward : Obligations.RollForward := by
  unfold Obligations.RollForward
  refine ⟨readJournal_eq_some_iff, ?badCheck, ?clear, ?armed, ?entry, ?old, ?live, ?clearing,
    fun _ _ _ _ _ hl hk hfit => rollOldFrom_fits hl hk hfit, fun _ _ _ _ h => rollOldFrom_ends h,
    fun _ _ _ _ => rfl, fun _ _ left _ _ _ hl hfit => rollLiveFrom_staged left hl hfit,
    fun _ _ left _ _ _ hl hfit => rollLiveFrom_live left hl hfit,
    fun _ _ left _ _ h => rollLiveFrom_ends left h⟩
  case badCheck =>
    intro m bs c hn h hc
    exact readJournal_eq_none_of_check (h ▸ passes_eq_false_of_ne hn hc)
  case clear =>
    intro s n ho hj
    exact exec_scanJournalRead_clear ho hj
  case armed =>
    intro s n j ho hj
    exact exec_scanJournalRead_armed ho hj
  case entry =>
    intro s n j dev m ho hm
    have written_whole : m = (s.putRecord (entryWrite j.file
        (if j.kind = .commit then j.entry else .empty)) dev).sram := by
      rw [hm]
      cases j.kind with
      | commit => simp only [State.putRecord_sram, entryWrite, entryBase, if_true, Journal.entry]
      | delete => simp only [State.putRecord_sram, entryWrite, entryBase, reduceCtorEq, if_false]
    rw [exec_rollForwardEntryWrite dev ho, State.rollEntry_eq s n j dev m written_whole]
  case old =>
    rintro s n j k p v m ho rfl
    rw [exec_rollForwardOldPageFree v ho, State.rollOld_eq]
  case live =>
    rintro s n j k p v m ho rfl
    exact (exec_rollForwardLiveRewrite v ho).trans (congrArg _ (State.rollLive_eq s n j k p v))
  case clearing =>
    intro s n dev ho
    rw [exec_clearJournal_rollClear dev ho, State.rollClear, State.putRecord_eq, clearWrite, journalBase]
    rfl

end Sys2Proof.Machine
end

section
/-! SUPPORT. Proofs: scan steps 4 to 6, the entries, the walks and the sweep (R21 to R23, R8, R173). -/
namespace Sys2Proof.Machine

/-! ### Records as their bytes spell them (TABLE 11-10, TABLE 11-11) -/

theorem flagByte_eq (b : Bool) : flagByte b = BitVec.ofNat 8 b.toNat := by cases b <;> rfl

/-- TABLE 11-10: the places of an entry's fields. -/
theorem readEntry_fields (m : Mem) (f : FileNo) (a : Nat) (ha : a = 64 + 32 * f.val) :
    (readEntry m f).live = decide (Mem.read m a = 1) ∧
      (readEntry m f).damaged = (Mem.read m (a + 1)).getLsbD 0 ∧
      (readEntry m f).protect = Mem.read m (a + 2) ∧
      bytes16 (readEntry m f).length.toNat = Mem.reads m (a + 3) 2 ∧
      (readEntry m f).pageCount = Mem.read m (a + 5) ∧
      bytes16 (readEntry m f).root.toNat = Mem.reads m (a + 6) 2 ∧
      bytes16 (readEntry m f).gen.toNat = Mem.reads m (a + 8) 2 ∧
      bytes16 (readEntry m f).day.toNat = Mem.reads m (a + 10) 2 ∧
      bytes32 (readEntry m f).second.toNat = Mem.reads m (a + 12) 4 ∧
      bytes16 (readEntry m f).epoch.toNat = Mem.reads m (a + 16) 2 := by
  obtain rfl : a = entryBase f := ha
  exact ⟨rfl, rfl, rfl, bytes16_wordAt _ _, rfl, bytes16_wordAt _ _, bytes16_wordAt _ _,
    bytes16_wordAt _ _, bytes32_longAt _ _, bytes16_wordAt _ _⟩

/-- TABLE 11-11: the places of a page's header fields and of its two checks. -/
theorem readHdr_fields (m : Mem) (p : PageNo) (a : Nat) (ha : a = 1024 + 268 * p.val) :
    (readHdr m p).state = Mem.read m a ∧ (readHdr m p).owner = Mem.read m (a + 1) ∧
      (readHdr m p).seq = Mem.read m (a + 2) ∧
      bytes16 (readHdr m p).gen.toNat = Mem.reads m (a + 4) 2 ∧
      bytes16 (readHdr m p).next.toNat = Mem.reads m (a + 6) 2 ∧
      hdrPasses m p = passes 8 (Mem.reads m a 10) ∧
      payloadPasses m p = passes 256 (Mem.reads m (a + 10) 258) := by
  obtain rfl : a = pageBase p := ha
  exact ⟨rfl, rfl, rfl, bytes16_wordAt _ _, bytes16_wordAt _ _, rfl, rfl⟩

/-! ### Claimed pages (R22) -/

/-- A page lies in the chains taken together exactly when it lies in one file's. -/
theorem mem_chains_iff {chains : Vector (List PageNo) 16} {p : PageNo} :
    p ∈ chains.toList.flatten ↔ ∃ f : FileNo, p ∈ chains[f] := by
  rw [List.mem_flatten]
  constructor
  · rintro ⟨c, hc, hp⟩
    obtain ⟨i, hi, rfl⟩ := Vector.getElem_of_mem (Vector.mem_toList_iff.1 hc)
    exact ⟨⟨i, hi⟩, hp⟩
  · rintro ⟨f, hp⟩
    exact ⟨_, Vector.mem_toList_iff.2 (Vector.getElem_mem f.isLt), hp⟩

theorem Store.claimed_iff_mem (st : Store) (p : PageNo) :
    st.claimed p = true ↔ p ∈ st.chains.toList.flatten := by
  simp only [Store.claimed, List.any_eq_true, List.mem_flatten, decide_eq_true_iff]

theorem Store.claimed_iff (st : Store) (p : PageNo) : st.claimed p = true ↔ ∃ f : FileNo, p ∈ st.chains[f] :=
  (st.claimed_iff_mem p).trans mem_chains_iff

/-! ### Scan step 4 (R21) -/

section
variable {s : State} {n : ScanNotes}

theorem exec_scanEntryRead {f : FileNo} (dev : List Host.Cell) (ho : s.store.op = .scan n (.entries f)) :
    exec (.scanEntryRead dev) s = .next (s.scanEntry n f dev) := by
  simp only [exec, execScanEntryRead, ho, goesOn]

theorem exec_scanChainWalk {f : FileNo} {k : Nat} {link : Word} (dev : List Host.Cell)
    (ho : s.store.op = .scan n (.walk f k link)) :
    exec (.scanChainWalk dev) s = .next (s.scanWalk n f k link dev) := by
  simp only [exec, execScanChainWalk, ho, goesOn]

theorem exec_scanSweepPage {p : PageNo} (v : HeaderVerify) (ho : s.store.op = .scan n (.sweep p)) :
    exec (.scanSweepPage v) s = .next (s.sweep n p v) := by
  simp only [exec, execScanSweepPage, ho, goesOn]

end

/-- R21: the place after an entry of step 4. -/
def Store.entriesAfter (st : Store) (f : FileNo) : ScanPhase :=
  if h : f.val + 1 < 16 then .entries ⟨f.val + 1, h⟩ else st.walkPlace 0

/-- R21: after an entry of step 4 the next entry is read, or step 5 begins. -/
theorem State.afterScanEntry_eq (s : State) (n : ScanNotes) (f : FileNo) :
    s.afterScanEntry n f = s.setScan n (s.store.entriesAfter f) := by
  rw [State.afterScanEntry, ← List.drop_zero (l := List.finRange 16), firstWalk_eq]; rfl

theorem State.scanEntry_readable (s : State) (n : ScanNotes) (f : FileNo) (dev : List Host.Cell)
    (h : entryReadable s.sram f = true) :
    s.scanEntry n f dev =
      (s.withStore { s.store with dir := s.store.dir.set f (readEntry s.sram f) }).afterScanEntry
        (if (readEntry s.sram f).damaged then n.damage f else n) f := by
  rw [State.scanEntry, if_pos h]

theorem State.scanEntry_unreadable (s : State) (n : ScanNotes) (f : FileNo) (dev : List Host.Cell)
    (h : entryReadable s.sram f = false) :
    s.scanEntry n f dev =
      ((s.putRecord (entryWrite f .emptyDamaged) dev).withStore
        { s.store with dir := s.store.dir.set f .emptyDamaged }).afterScanEntry (n.damage f) f := by
  rw [State.scanEntry, if_neg (by rw [h]; decide)]

/-! ### Scan step 5 (R22) -/

/-- R22: what a page event of step 5 finds at a page that the walk claims. -/
theorem State.walkFinds_of_claims {s : State} {f : FileNo} {k : Nat} {link : Word} {p : PageNo}
    (h : s.claims f k link = some p) : s.walkFinds f k link =
      if k + 1 < s.store.dir[f].pageCount.toNat then
        (if (readHdr s.sram p).next = linkEnd then .broken else .more (readHdr s.sram p).next)
      else if (readHdr s.sram p).next = linkEnd then .sound else .broken := by
  rw [State.walkFinds, h]

/-- R22: a walk claims no page where there is none, it does not fit, or it is claimed already. -/
theorem State.claims_eq_none {s : State} {f : FileNo} {k : Nat} {link : Word}
    (h : 480 ≤ link.toNat ∨ ∃ p : PageNo, link.toNat = p.val ∧
      (¬ pageFits s.sram p 2 f s.store.dir[f].gen k ∨ s.store.claimed p = true)) :
    s.claims f k link = none := by
  rw [State.claims]
  rcases h with h | ⟨p, hl, h⟩
  · rw [linkPage, inRange_eq_none h]
  · rw [linkPage_of_val hl]
    refine if_neg fun ⟨hok, hc⟩ => ?_
    rcases h with h | h
    · exact h ((walkOk_iff_pageFits _ _ _ _ _).1 hok)
    · rw [h] at hc; cases hc

theorem walkAfter_eq (st : Store) (f : FileNo) : walkAfter st f = st.walkPlace (f.val + 1) :=
  firstWalk_eq st (f.val + 1)

/-- R22: a walk goes on over the page's link, or ends sound at the last page. -/
theorem State.scanWalk_sound {s : State} (n : ScanNotes) {f : FileNo} {k : Nat} {link : Word} {p : PageNo}
    (dev : List Host.Cell) (hc : s.claims f k link = some p)
    (hlast : k + 1 < s.store.dir[f].pageCount.toNat ↔ (readHdr s.sram p).next ≠ linkEnd) :
    s.scanWalk n f k link dev = (s.withStore (s.store.claim f (some p))).setScan n
      (if k + 1 < s.store.dir[f].pageCount.toNat then .walk f (k + 1) (readHdr s.sram p).next
        else (s.store.claim f (some p)).walkPlace (f.val + 1)) := by
  rw [State.scanWalk, State.walkFinds_of_claims hc, hc]
  by_cases hk : k + 1 < s.store.dir[f].pageCount.toNat
  · rw [if_pos hk, if_neg (hlast.1 hk), if_pos hk]
  · have hn : (readHdr s.sram p).next = linkEnd := Classical.not_not.1 (mt hlast.2 hk)
    rw [if_neg hk, if_pos hn, if_neg hk, ← walkAfter_eq]
    rfl

/-- R22: a walk that ends at a break. -/
theorem State.scanWalk_broken {s : State} (n : ScanNotes) {f : FileNo} {k : Nat} {link : Word}
    (dev : List Host.Cell) (h : s.walkFinds f k link = .broken) :
    s.scanWalk n f k link dev =
      let s2 := (s.withStore (s.store.claim f (s.claims f k link))).markDamaged f dev
      s2.setScan (n.damage f) (s2.store.walkPlace (f.val + 1)) := by
  rw [State.scanWalk, h]
  simp only [walkAfter_eq]

/-- R22: a claimed page breaks the chain when the chain is shorter or longer than the entry says. -/
theorem State.walkFinds_broken_of_claims {s : State} {f : FileNo} {k : Nat} {link : Word} {p : PageNo}
    (hc : s.claims f k link = some p)
    (hlast : ¬ (k + 1 < s.store.dir[f].pageCount.toNat ↔ (readHdr s.sram p).next ≠ 0xFFFF)) :
    s.walkFinds f k link = .broken := by
  rw [State.walkFinds_of_claims hc]
  by_cases hk : k + 1 < s.store.dir[f].pageCount.toNat
  · rw [if_pos hk, if_pos (Classical.not_not.1 fun hn => hlast ⟨fun _ => hn, fun _ => hk⟩ : _ = linkEnd)]
  · rw [if_neg hk, if_neg (fun hn => hlast ⟨fun h => absurd h hk, fun h => absurd hn h⟩ : ¬ _ = linkEnd)]

theorem State.walkFinds_broken_of_none {s : State} {f : FileNo} {k : Nat} {link : Word}
    (hc : s.claims f k link = none) : s.walkFinds f k link = .broken := by
  rw [State.walkFinds, hc]

/-- R22: an entry marked damaged; one whose flag is set already stays as it is and is not written. -/
theorem State.markDamaged_eq (s : State) (f : FileNo) (dev : List Host.Cell) :
    s.markDamaged f dev = { s with
      sram := if s.store.dir[f].damaged then s.sram
        else Mem.writes s.sram (entryBase f) (written dev { s.store.dir[f] with damaged := true }.bytes),
      store := { s.store with dir := s.store.dir.set f { s.store.dir[f] with damaged := true } } } := by
  rw [State.markDamaged]
  by_cases h : s.store.dir[f].damaged = true
  · have flagged : ({ s.store.dir[f] with damaged := true } : Entry) = s.store.dir[f] := by rw [← h]
    have unchanged : s.store.dir.set f s.store.dir[f] = s.store.dir := Vector.set_getElem_self f.isLt
    rw [if_pos h, if_pos h, flagged, unchanged]
  · rw [if_neg h, if_neg h, State.putRecord_eq, entryWrite]
    generalize ({ s.store.dir[f] with damaged := true } : Entry).bytes = bs
    rfl

/-! ### Scan step 6 (R23) -/

section
variable {s : State} {p : PageNo} (n : ScanNotes) (v : HeaderVerify)

theorem State.sweep_claimed (hc : s.store.claimed p = true) :
    s.sweep n p v = s.setScan n (sweepAfter p) := by
  rw [State.sweep, if_pos hc]; rfl

variable (hc : s.store.claimed p = false)
include hc

theorem State.sweep_failing (hp : hdrPasses s.sram p = false) :
    s.sweep n p v = ((s.withStore (s.store.recall p)).freePage p v).setScan n (sweepAfter p) := by
  rw [State.sweep, if_neg (by rw [hc]; decide), if_pos hp]; rfl

variable (hp : hdrPasses s.sram p = true)
include hp

theorem State.sweep_bad (hs : (readHdr s.sram p).state = PageState.bad.code) :
    s.sweep n p v = (s.withStore (s.store.retire p)).setScan n (sweepAfter p) := by
  rw [State.sweep, if_neg (by rw [hc]; decide), if_neg (by rw [hp]; decide), if_pos hs]; rfl

theorem State.sweep_free (hs : (readHdr s.sram p).state = PageState.free.code) :
    s.sweep n p v = (s.withStore (s.store.release p)).setScan n (sweepAfter p) := by
  rw [State.sweep, if_neg (by rw [hc]; decide), if_neg (by rw [hp]; decide),
    if_neg (by rw [hs]; decide), if_pos hs]
  rfl

theorem State.sweep_used (hf : (readHdr s.sram p).state ≠ PageState.free.code)
    (hb : (readHdr s.sram p).state ≠ PageState.bad.code) :
    s.sweep n p v = (s.freePage p v).setScan
      { n with staged := n.staged || decide ((readHdr s.sram p).state = PageState.staged.code) } (sweepAfter p) := by
  rw [State.sweep, if_neg (by rw [hc]; decide), if_neg (by rw [hp]; decide), if_neg hb, if_neg hf]
  by_cases hs : (readHdr s.sram p).state = PageState.staged.code
  · rw [if_pos hs, decide_eq_true hs, Bool.or_true]; rfl
  · rw [if_neg hs, decide_eq_false hs, Bool.or_false]; rfl

end

/-- A page recalled and then rewritten joins the free list, or the bad-page set anew. -/
theorem Store.recall_badAfter (st : Store) (p : PageNo) (v : HeaderVerify) :
    (st.recall p).badAfter p v = match v with
      | .pass => st.bad.filter fun q => decide (q ≠ p)
      | .fail _ => (st.bad.filter fun q => decide (q ≠ p)) ++ [p] := by
  cases v with
  | pass => rfl
  | fail bad => exact if_neg fun h => by simpa using (List.mem_filter.1 h).2

theorem Store.recall_freeAfter (st : Store) (p q : PageNo) (v : HeaderVerify) :
    (st.recall p).freeAfter q v = st.freeAfter q v := by cases v <;> rfl

/-- Settles O30: the records by their bytes; an entry by whether it is readable, a walk by the page it claims,
a page of the sweep by its claim, its check and its state. -/
theorem scanRepairs : Obligations.ScanRepairs := by
  unfold Obligations.ScanRepairs
  refine ⟨entryReadable_iff, ?fields, ?bytes, fun m p a ha => readHdr_fields m p a ha, Store.claimed_iff,
    ?taken, ?damaged, ?goesOn, ?broken, ?claimed, ?free, ?bad, ?failing, ?used⟩
  case fields =>
    rintro m f e a rfl ha
    exact readEntry_fields m f a ha
  case bytes =>
    intro e
    rw [← flagByte_eq, ← flagByte_eq]; rfl
  case taken =>
    rintro s n f dev e st ho hr rfl rfl
    rw [exec_scanEntryRead dev ho, State.scanEntry_readable s n f dev hr, State.afterScanEntry_eq]
    rfl
  case damaged =>
    rintro s n f dev st ho hr rfl
    rw [exec_scanEntryRead dev ho, State.scanEntry_unreadable s n f dev hr, State.afterScanEntry_eq]
    rfl
  case goesOn =>
    rintro s n f k link p dev st ho hl hfit hc hlast rfl
    rw [exec_scanChainWalk dev ho, State.scanWalk_sound n dev (State.claims_of_fits hl hfit hc) hlast]
    rfl
  case broken =>
    rintro s n f k link dev chains e st ho rfl h rfl
    obtain ⟨hb, hclaim⟩ : s.walkFinds f k link = .broken ∧
        s.store.claim f (s.claims f k link) = { s.store with chains := chains } := by
      rcases h with ⟨h, rfl⟩ | ⟨p, hl, hfit, hc, hlast, rfl⟩
      · have hn := State.claims_eq_none h
        exact ⟨State.walkFinds_broken_of_none hn, by rw [hn]; rfl⟩
      · have hs := State.claims_of_fits hl hfit hc
        exact ⟨State.walkFinds_broken_of_claims hs hlast, by rw [hs]; rfl⟩
    rw [exec_scanChainWalk dev ho, State.scanWalk_broken n dev hb, hclaim, State.markDamaged_eq]
    rfl
  case claimed =>
    intro s n p v ho hc
    rw [exec_scanSweepPage v ho, State.sweep_claimed n v hc]
    rfl
  case free =>
    intro s n p v ho hc hp hs
    rw [exec_scanSweepPage v ho, State.sweep_free n v hc hp hs]
    rfl
  case bad =>
    intro s n p v ho hc hp hs
    rw [exec_scanSweepPage v ho, State.sweep_bad n v hc hp hs, Store.retire_eq s.store p []]
    rfl
  case failing =>
    rintro s n p v kept ho hc hp rfl
    rw [exec_scanSweepPage v ho, State.sweep_failing n v hc hp, State.freePage_eq, State.withStore_store,
      Store.recall_badAfter, Store.recall_freeAfter]
    cases v <;> rfl
  case used =>
    intro s n p v ho hc hp hf hb
    rw [exec_scanSweepPage v ho, State.sweep_used n v hc hp hf hb, State.freePage_eq]
    rfl

end Sys2Proof.Machine
end

section
/-! SUPPORT. Proofs: scan step 7, the publication and the end of the scan (R24, R25). -/
namespace Sys2Proof.Machine

/-! ### Scan step 7 (R24, R25) -/

section
variable {s : State} {n : ScanNotes}

theorem exec_scanPublish (ho : s.store.op = .scan n .publish) :
    exec .scanPublish s = .next (s.publish n) := by
  simp only [exec, execScanPublish, ho, goesOn]

theorem exec_purgeReply_scan {k : Nat} (ho : s.store.op = .scan n .purging)
    (hr : s.store.purgeReply = some k) : exec .purgeReply s = .next (s.scanEnd n) := by
  simp only [exec, execPurgeReply, State.purgeReplied, hr, ho, goesOn]

end

/-- R24, R25: the working state when the scan ends, field by field. -/
theorem Store.scanEnd_eq (st : Store) (n : ScanNotes) : st.scanEnd n = { st with
    last := (if st.verdict then
        { kind := if n.rolled then .rolledForward else if n.staged then .rolledBack else .clean,
          damaged := n.damaged, discard := n.discard }
      else { kind := .clean, damaged := 0, discard := n.discard }),
    damagedNow := if st.verdict then n.damaged else 0,
    storeDamaged := st.storeDamaged || (st.verdict && decide (n.damaged ≠ 0)),
    op := .none, waiting := none, purgeReply := none,
    status := if st.verdict then (if st.hold then .quiesced else .ready) else .unformatted } := by
  rw [Store.scanEnd]
  unfold ScanNotes.outcome
  cases st.verdict <;> rfl

/-- R16, R161: when the scan has ended the store counts as held exactly under the hold. -/
theorem Store.scanEnd_held (st : Store) (n : ScanNotes) : (st.scanEnd n).held = st.hold := by
  rw [Store.held, Store.scanEnd]
  cases st.verdict <;> cases st.hold <;> rfl

/-- Settles O31: the publication, and the end of the scan with the held report and the waiting block. -/
theorem scanEnds : Obligations.ScanEnds := by
  unfold Obligations.ScanEnds
  constructor
  · intro s n ho
    refine ⟨_, exec_scanPublish ho, fun f => ?_⟩
    cases s.store.verdict
    · exact BitVec.getLsbD_zero
    · exact Store.liveFiles_getLsbD s.store f
  · intro s t n k st ho hr hst ht
    have hst : st = s.store.scanEnd n := hst.trans (Store.scanEnd_eq s.store n).symm
    have ended : t = (s.withStore (s.store.scanEnd n)).settleQuiesce := by
      rw [ht, hst, State.settleQuiesce_eq, State.allHeld, State.withStore_store, Store.scanEnd_held]
      rfl
    rw [exec_purgeReply_scan ho hr, State.scanEnd, ← ended]
    cases s.store.waiting <;> rfl

end Sys2Proof.Machine
end

section
/-! SUPPORT. Proofs: the page array under the events' writes, and the tally of pages (R3, R14). -/
namespace Sys2Proof.Machine

/-! ### The page array under the events' writes -/

theorem rewritten_wf {m : Mem} (hm : Memory.wf m = true) (p : PageNo) (header : List Byte) (v : HeaderVerify) :
    Memory.wf (rewritten m p header v) = true := by
  cases v <;> exact Memory.writes_wf hm _ _

/-- Every write that the store engine's events are made of keeps the page array's canonical form. -/
theorem StoreMoves.wf {s t : State} (h : StoreMoves s t) (hs : Memory.wf s.sram = true) :
    Memory.wf t.sram = true := by
  induction h with
  | refl => exact hs
  | putArray w h ih => exact Memory.writes_wf ih _ _
  | settleQuiesce h ih => rw [State.settleQuiesce_sram]; exact ih
  | withStore _ h ih | putRam _ _ h ih | setCell _ _ h ih | clearLost h ih => exact ih

/-- What a retired page's header says depends on its ten bytes alone. -/
theorem badOnArray_of_reads {m m' : Mem} {p : PageNo}
    (h : Mem.reads m' (pageBase p) 10 = Mem.reads m (pageBase p) 10) (hb : badOnArray m p) :
    badOnArray m' p := by
  intro hp
  rw [hdrPasses, h] at hp
  have first : Mem.read m' (pageBase p) = Mem.read m (pageBase p) := (List.cons.inj h).1
  exact first.trans (hb hp)

/-- A record below the page records leaves every page header as it was. -/
theorem badOnArray_writes_below {m : Mem} (hm : Memory.wf m = true) {a : Nat} {bs : List Byte}
    (ha : a + bs.length ≤ 1024) {p : PageNo} (hb : badOnArray m p) : badOnArray (Mem.writes m a bs) p := by
  refine badOnArray_of_reads (Mem.reads_writes_of_disjoint hm a bs _ _ (.inr ?_)) hb
  rw [pageBase]; omega

@[simp] theorem PageHdr.bytes_length (h : PageHdr) : h.bytes.length = 10 := rfl

@[simp] theorem plainHeader_length (code : Byte) : (plainHeader code).length = 10 := rfl

@[simp] theorem Entry.bytes_length (e : Entry) : e.bytes.length = 32 := rfl

/-- A page's header rewrite leaves the header of every other page as it was. -/
theorem badOnArray_rewritten_of_ne {m : Mem} (hm : Memory.wf m = true) {p q : PageNo} (hne : q ≠ p)
    {header : List Byte} (hl : header.length = 10) (v : HeaderVerify) (hb : badOnArray m q) :
    badOnArray (rewritten m p header v) q := by
  have apart : pageBase q + 10 ≤ 1024 + 268 * p.val ∨ 1024 + 268 * p.val + 10 ≤ pageBase q := by
    have : q.val ≠ p.val := fun e => hne (Fin.ext e)
    rw [pageBase]; omega
  refine badOnArray_of_reads ?_ hb
  cases v with
  | pass => exact Mem.reads_writes_of_disjoint hm _ _ _ _ (by rw [hl]; exact apart)
  | fail bad =>
    exact Mem.reads_writes_of_disjoint hm _ _ _ _ (by rw [written_length, plainHeader_length]; exact apart)

/-- R3: after a failed verify the page's header says Bad, or fails its check. -/
theorem badOnArray_rewritten_fail {m : Mem} (hm : Memory.wf m = true) (p : PageNo) (header : List Byte)
    (bad : List Host.Cell) : badOnArray (rewritten m p header (.fail bad)) p := by
  have back : Mem.reads (rewritten m p header (.fail bad)) (pageBase p) 10 = written bad (plainHeader 3) := by
    have := Mem.reads_writes hm (pageBase p) (written bad (plainHeader 3))
    rwa [written_length, plainHeader_length] at this
  intro hp
  rw [hdrPasses, back] at hp
  rcases written_cases bad (plainHeader 3) with whole | ⟨-, torn⟩
  · rw [whole] at back
    exact (List.cons.inj back).1
  · have check : recordPasses (written bad (plainHeader 3)) = passes 8 (written bad (plainHeader 3)) := by
      rw [recordPasses, written_length, plainHeader_length]; rfl
    rw [check, hp] at torn
    cases torn

/-- The retired pages still say Bad after a page outside their set was rewritten, or retired. -/
theorem badOnArray_badAfter {st : Store} {m : Mem} (hm : Memory.wf m = true) {p : PageNo}
    {header : List Byte} (hl : header.length = 10) (v : HeaderVerify) (hp : p ∉ st.bad)
    (hb : ∀ q ∈ st.bad, badOnArray m q) : ∀ q ∈ st.badAfter p v, badOnArray (rewritten m p header v) q := by
  have others : ∀ q ∈ st.bad, badOnArray (rewritten m p header v) q := fun q hq =>
    badOnArray_rewritten_of_ne hm (fun (e : q = p) => hp (e ▸ hq)) hl v (hb q hq)
  cases v with
  | pass => exact others
  | fail bad =>
    rw [Store.badAfter, if_neg hp]
    intro q hq
    rcases List.mem_append.1 hq with hq | hq
    · exact others q hq
    · rw [List.mem_singleton.1 hq]; exact badOnArray_rewritten_fail hm p header bad

/-! ### The tally of pages (R14) -/

/-- How often a page is counted, place by place. -/
theorem Store.count_pageList (st : Store) (q : PageNo) : st.pageList.count q =
    st.free.count q + st.chains.toList.flatten.count q + st.op.pages.count q + st.bad.count q := by
  simp only [Store.pageList, List.count_append]

/-- Where every page is counted as often as before, the accounting stands. -/
theorem Store.allCounted.of_tally {st st' : Store} (h : st.allCounted)
    (ht : ∀ q, st'.pageList.count q = st.pageList.count q) : st'.allCounted :=
  fun q => (ht q).trans (h q)

theorem Store.allCounted.free_notMem_bad {st : Store} (h : st.allCounted) {p : PageNo} (hp : p ∈ st.free) :
    p ∉ st.bad := by
  intro hb
  have one := h p
  rw [Store.count_pageList] at one
  have := List.count_pos_iff.2 hp
  have := List.count_pos_iff.2 hb
  omega

theorem Store.allCounted.op_notMem_bad {st : Store} (h : st.allCounted) {p : PageNo}
    (hp : p ∈ st.op.pages) : p ∉ st.bad := by
  intro hb
  have one := h p
  rw [Store.count_pageList] at one
  have := List.count_pos_iff.2 hp
  have := List.count_pos_iff.2 hb
  omega

theorem Store.allCounted.chain_notMem_bad {st : Store} (h : st.allCounted) {p : PageNo} {f : FileNo}
    (hp : p ∈ st.chains[f]) : p ∉ st.bad := by
  intro hb
  have one := h p
  rw [Store.count_pageList] at one
  have := List.count_pos_iff.2 (mem_chains_iff.2 ⟨f, hp⟩)
  have := List.count_pos_iff.2 hb
  omega

/-- A file's chain replaced: what it gives up and what it takes. -/
theorem count_chains_set (chains : Vector (List PageNo) 16) (f : FileNo) (c : List PageNo) (q : PageNo) :
    (chains.set f c).toList.flatten.count q + chains[f].count q =
      chains.toList.flatten.count q + c.count q := by
  have list : ∀ (l : List (List PageNo)) (i : Nat) (hi : i < l.length),
      (l.set i c).flatten.count q + l[i].count q = l.flatten.count q + c.count q := by
    intro l
    induction l with
    | nil => intro i hi; cases hi
    | cons x xs ih =>
      intro i hi
      cases i with
      | zero =>
        simp only [List.set_cons_zero, List.flatten_cons, List.count_append, List.getElem_cons_zero]; omega
      | succ i =>
        have := ih i (Nat.lt_of_succ_lt_succ hi)
        simp only [List.set_cons_succ, List.flatten_cons, List.count_append, List.getElem_cons_succ]; omega
  have := list chains.toList f.val (by rw [Vector.length_toList]; exact f.isLt)
  rwa [← Vector.toList_set, Vector.getElem_toList] at this

theorem count_badAfter_fail {st : Store} {p : PageNo} (hp : p ∉ st.bad) (bad : List Host.Cell) (q : PageNo) :
    (st.badAfter p (.fail bad)).count q = st.bad.count q + [p].count q := by
  rw [Store.badAfter, if_neg hp, List.count_append]

/-- R11, R12: a page rewritten Free is counted once more, in the free list or in the bad-page set. -/
theorem count_freeAfter_badAfter {st : Store} {p : PageNo} (hp : p ∉ st.bad) (v : HeaderVerify) (q : PageNo) :
    (st.freeAfter p v).count q + (st.badAfter p v).count q =
      st.free.count q + st.bad.count q + [p].count q := by
  cases v with
  | pass => simp only [Store.freeAfter, Store.badAfter, List.count_append]; omega
  | fail bad => rw [count_badAfter_fail hp, Store.freeAfter]; omega

end Sys2Proof.Machine
end

section
/-! SUPPORT. Proofs: page accounting by what the engine does (R14). -/
namespace Sys2Proof.Machine

/-! ### The law by what the engine does -/

/-- R15: the store states in which a request runs. -/
def Job.runsIn : Job → StoreState → Prop
  | .format _, st => st = .unformatted
  | .readRaw _ _ _ _, st => st = .busy ∨ st = .unformatted
  | .readFile _ _ _ _ _ _, st | .verify _ _ _, st | .commit _ _, st | .delete _ _, st => st = .busy

theorem Job.runsIn_cases {j : Job} {st : StoreState} (h : j.runsIn st) : st = .busy ∨ st = .unformatted := by
  cases j with
  | readRaw _ _ _ _ => exact h
  | format _ => exact .inr h
  | readFile _ _ _ _ _ _ | verify _ _ _ | commit _ _ | delete _ _ => exact .inl h

/-- R14: what a request's place says of the pages beyond their being counted once. -/
def Job.accounts (st : Store) : Job → Prop
  | .commit c ph => c.chainsLawful st ph
  | .format ph => st.formatPages ph
  | .readFile _ _ _ _ _ _ | .verify _ _ _ | .readRaw _ _ _ _ | .delete _ _ => True

/-- The law of the pages while a request runs. -/
structure State.RunLawful (s : State) (r : Run) (j : Job) : Prop where
  full : s.supplyState = .full
  cell : s.port.store.hold = .busy r.blk
  waiting : s.store.waiting = none
  runs : j.runsIn s.store.status
  wf : Memory.wf s.sram = true
  counted : s.store.status = .busy → s.store.allCounted
  place : j.accounts s.store

/-- The block that waits for the end of a scan is the one that the store cell holds. -/
def Store.waitsFor (st : Store) (h : Hold) : Prop :=
  match st.waiting with
  | some b => h = .busy b
  | none => ¬ h.isBusy

/-- The law of the pages during the recovery scan. -/
structure State.ScanLawful (s : State) (ph : ScanPhase) : Prop where
  full : s.supplyState = .full
  status : s.store.status = .scanning
  waits : s.store.waitsFor s.port.store.hold
  wf : Memory.wf s.sram = true
  pages : s.scanPages ph

/-- The law of the pages while the engine does nothing. -/
structure State.IdleLawful (s : State) : Prop where
  on : s.supplyState = .full → s.store.status ≠ .off
  held : s.store.status = .quiesced → s.store.hold = true
  notScanning : s.store.status ≠ .scanning
  notBusy : s.store.status ≠ .busy
  cell : ¬ s.port.store.hold.isBusy
  waiting : s.store.waiting = none
  wf : Memory.wf s.sram = true
  counted : s.store.status = .ready ∨ s.store.status = .quiesced → s.store.allCounted

section
variable {s : State}

theorem pagesLawful_run_iff {r : Run} {j : Job} (ho : s.store.op = .run r j) :
    s.pagesLawful ↔ s.RunLawful r j := by
  unfold State.pagesLawful State.engineLawful
  rw [ho]
  constructor
  · rintro ⟨⟨hoff, -, -, -, hcell, hw, hruns⟩, hwf, hcount, hplace⟩
    refine ⟨Classical.byContradiction fun h => (by cases hoff h), hcell, hw, ?_, hwf, fun h => hcount (.inr (.inl h)), ?_⟩
    · cases j <;> exact hruns
    · cases j <;> exact hplace
  · intro h
    have status := Job.runsIn_cases h.runs
    refine ⟨⟨fun hf => absurd h.full hf, ?_, ?_, ?_, h.cell, h.waiting, ?_⟩, h.wf, ?_, ?_⟩
    · rintro - e; rw [e] at status; simp at status
    · intro e; rw [e] at status; simp at status
    · intro e; rw [e] at status; simp at status
    · have := h.runs; cases j <;> exact this
    · rintro (e | e | e)
      · rw [e] at status; simp at status
      · exact h.counted e
      · rw [e] at status; simp at status
    · have := h.place; cases j <;> exact this

theorem pagesLawful_scan_iff {n : ScanNotes} {ph : ScanPhase} (ho : s.store.op = .scan n ph) :
    s.pagesLawful ↔ s.ScanLawful ph := by
  unfold State.pagesLawful State.engineLawful
  rw [ho]
  constructor
  · rintro ⟨⟨hoff, -, -, -, hst, hw⟩, hwf, -, hpages⟩
    refine ⟨Classical.byContradiction fun h => (by cases hoff h), hst, ?_, hwf, hpages⟩
    unfold Store.waitsFor
    cases hwt : s.store.waiting <;> rw [hwt] at hw <;> exact hw
  · intro h
    have hw := h.waits
    unfold Store.waitsFor at hw
    refine ⟨⟨fun hf => absurd h.full hf, ?_, ?_, fun _ => ⟨n, ph, rfl⟩, h.status, ?_⟩, h.wf, ?_,
      h.pages⟩
    · rw [h.status]; simp
    · rw [h.status]; simp
    · cases hwt : s.store.waiting <;> rw [hwt] at hw <;> exact hw
    · rw [h.status]; simp

theorem pagesLawful_idle_iff (ho : s.store.op = .none) : s.pagesLawful ↔ s.IdleLawful := by
  unfold State.pagesLawful State.engineLawful
  rw [ho]
  constructor
  · rintro ⟨⟨-, hon, hheld, hscan, hbusy, hcell, hw⟩, hwf, hcount, -⟩
    exact ⟨hon, hheld, fun e => (by obtain ⟨_, _, h⟩ := hscan e; cases h), hbusy, hcell, hw, hwf,
      fun h => hcount (h.imp_right .inr)⟩
  · intro h
    refine ⟨⟨fun _ => rfl, h.on, h.held, fun e => absurd e h.notScanning, h.notBusy, h.cell, h.waiting⟩,
      h.wf, ?_, trivial⟩
    rintro (e | e | e)
    · exact h.counted (.inl e)
    · exact absurd e h.notBusy
    · exact h.counted (.inr e)

end

/-! ### What the law does not speak of -/

/-- Two working states of the engine account for the pages alike. -/
structure Store.SameAccount (st st' : Store) : Prop where
  free : st'.free = st.free
  bad : st'.bad = st.bad
  chains : st'.chains = st.chains
  verdict : st'.verdict = st.verdict
  pages : st'.op.pages = st.op.pages

namespace Store.SameAccount

variable {st st' : Store} (h : st.SameAccount st')
include h

theorem pageList : st'.pageList = st.pageList := by
  simp only [Store.pageList, h.free, h.bad, h.chains, h.pages]

theorem allCounted : st'.allCounted = st.allCounted := by
  simp only [Store.allCounted, h.pageList]

theorem formatPages (ph : FormatPhase) : st'.formatPages ph = st.formatPages ph := by
  cases ph <;> simp only [Store.formatPages, h.free, h.bad, h.chains, h.pageList, h.allCounted]

theorem accounts (j : Job) : j.accounts st' = j.accounts st := by
  cases j with
  | commit c ph => cases ph <;> simp only [Job.accounts, Commit.chainsLawful, h.chains]
  | format ph => exact h.formatPages ph
  | readFile _ _ _ _ _ _ | verify _ _ _ | readRaw _ _ _ _ | delete _ _ => rfl

end Store.SameAccount

theorem scanPages_of_sameAccount {s t : State} (h : s.store.SameAccount t.store) (hm : t.sram = s.sram)
    (ph : ScanPhase) : t.scanPages ph = s.scanPages ph := by
  cases ph <;>
    simp only [State.scanPages, h.free, h.bad, h.chains, h.verdict, h.pageList, h.allCounted, hm]

/-- A store at rest: the two states that a quiesce and a resume exchange (R16). -/
def StoreState.resting (st : StoreState) : Prop := st = .ready ∨ st = .quiesced

/-- R16: the law does not depend on what is outside the page account, nor on the hold, so long as a store at
rest stays at rest and a Quiesced one holds. -/
theorem pagesLawful_of_sameAccount {s t : State} (hs : s.pagesLawful) (hstate : t.supplyState = s.supplyState)
    (hcell : t.port.store.hold = s.port.store.hold) (hsram : t.sram = s.sram)
    (hop : t.store.op = s.store.op) (h : s.store.SameAccount t.store)
    (hwaiting : t.store.waiting = s.store.waiting)
    (hstatus : t.store.status = s.store.status ∨ s.store.status.resting ∧ t.store.status.resting)
    (hheld : (s.store.status = .quiesced → s.store.hold = true) → t.store.status = .quiesced →
      t.store.hold = true) : t.pagesLawful := by
  cases ho : s.store.op with
  | none =>
    have law := (pagesLawful_idle_iff ho).1 hs
    refine (pagesLawful_idle_iff (hop.trans ho)).2
      { on := fun hf e => ?_, held := hheld law.held, notScanning := fun e => ?_, notBusy := fun e => ?_,
        cell := hcell ▸ law.cell, waiting := hwaiting.trans law.waiting, wf := hsram ▸ law.wf,
        counted := fun hr => ?_ }
    · rcases hstatus with same | ⟨-, rest⟩
      · exact law.on (hstate ▸ hf) (same ▸ e)
      · rw [e] at rest; rcases rest with h | h <;> cases h
    · rcases hstatus with same | ⟨-, rest⟩
      · exact law.notScanning (same ▸ e)
      · rw [e] at rest; rcases rest with h | h <;> cases h
    · rcases hstatus with same | ⟨-, rest⟩
      · exact law.notBusy (same ▸ e)
      · rw [e] at rest; rcases rest with h | h <;> cases h
    · rw [h.allCounted]
      rcases hstatus with same | ⟨rest, -⟩
      · exact law.counted (same ▸ hr)
      · exact law.counted rest
  | scan n ph =>
    have law := (pagesLawful_scan_iff ho).1 hs
    have same : t.store.status = s.store.status := hstatus.resolve_right fun ⟨rest, _⟩ => by
      rw [law.status] at rest; rcases rest with h | h <;> cases h
    have waits := law.waits
    refine (pagesLawful_scan_iff (hop.trans ho)).2
      { full := hstate.trans law.full, status := same.trans law.status, waits := ?_, wf := hsram ▸ law.wf,
        pages := (scanPages_of_sameAccount h hsram ph).mpr law.pages }
    unfold Store.waitsFor at waits ⊢
    rw [hwaiting, hcell]
    exact waits
  | run r j =>
    have law := (pagesLawful_run_iff ho).1 hs
    have same : t.store.status = s.store.status := hstatus.resolve_right fun ⟨rest, _⟩ => by
      rcases Job.runsIn_cases law.runs with e | e <;> rw [e] at rest <;> rcases rest with h | h <;> cases h
    exact (pagesLawful_run_iff (hop.trans ho)).2
      { full := hstate.trans law.full, cell := hcell.trans law.cell, waiting := hwaiting.trans law.waiting,
        runs := same ▸ law.runs, wf := hsram ▸ law.wf,
        counted := fun hb => h.allCounted.mpr (law.counted (same ▸ hb)),
        place := (h.accounts j).mpr law.place }

/-- What the law speaks of is the same in two states. -/
structure SameStore (s t : State) : Prop where
  state : t.supplyState = s.supplyState
  cell : t.port.store.hold = s.port.store.hold
  sram : t.sram = s.sram
  store : t.store = s.store

theorem SameStore.pagesLawful {s t : State} (h : SameStore s t) (hs : s.pagesLawful) : t.pagesLawful :=
  pagesLawful_of_sameAccount hs h.state h.cell h.sram (h.store ▸ rfl)
    (h.store ▸ ⟨rfl, rfl, rfl, rfl, rfl⟩) (h.store ▸ rfl) (.inl (h.store ▸ rfl)) (h.store ▸ id)

/-! ### From event to event -/

/-- What the events of an operation in flight leave alone of what its law speaks of. -/
structure SameEngine (s t : State) : Prop where
  supply : t.supply = s.supply
  cell : t.port.store.hold = s.port.store.hold
  status : t.store.status = s.store.status
  waiting : t.store.waiting = s.store.waiting
  wf : Memory.wf s.sram = true → Memory.wf t.sram = true

namespace SameEngine

variable {s t : State}

theorem refl : SameEngine s s := ⟨rfl, rfl, rfl, rfl, id⟩

theorem withStore (h : SameEngine s t) (st : Store) (hstatus : st.status = t.store.status := by rfl)
    (hwaiting : st.waiting = t.store.waiting := by rfl) : SameEngine s (t.withStore st) :=
  ⟨h.supply, h.cell, hstatus.trans h.status, hwaiting.trans h.waiting, h.wf⟩

theorem setJob (h : SameEngine s t) (r : Run) (j : Job) : SameEngine s (t.setJob r j) := h.withStore _

theorem setScan (h : SameEngine s t) (n : ScanNotes) (ph : ScanPhase) : SameEngine s (t.setScan n ph) :=
  h.withStore _

theorem putRam (h : SameEngine s t) (a : Nat) (bs : List Byte) : SameEngine s (t.putRam a bs) :=
  ⟨h.supply, h.cell, h.status, h.waiting, h.wf⟩

theorem putArray (h : SameEngine s t) (w : RecWrite) : SameEngine s (t.putArray w) :=
  ⟨h.supply, h.cell, h.status, h.waiting, fun hs => Memory.writes_wf (h.wf hs) _ _⟩

theorem putRecord (h : SameEngine s t) (w : RecWrite) (dev : List Host.Cell) :
    SameEngine s (t.putRecord w dev) := h.putArray _

theorem rewrite (h : SameEngine s t) (p : PageNo) (hd : PageHdr) (v : HeaderVerify) :
    SameEngine s (t.rewrite p hd v) := by
  rw [State.rewrite_eq]
  exact ⟨h.supply, h.cell, h.status, h.waiting, fun hs => rewritten_wf (h.wf hs) _ _ _⟩

theorem freePage (h : SameEngine s t) (p : PageNo) (v : HeaderVerify) : SameEngine s (t.freePage p v) := by
  rw [State.freePage_eq]
  exact ⟨h.supply, h.cell, h.status, h.waiting, fun hs => rewritten_wf (h.wf hs) _ _ _⟩

end SameEngine

@[simp] theorem State.freePage_store (s : State) (p : PageNo) (v : HeaderVerify) : (s.freePage p v).store =
    { s.store with free := s.store.freeAfter p v, bad := s.store.badAfter p v } := by
  rw [State.freePage_eq]

@[simp] theorem State.freePage_sram (s : State) (p : PageNo) (v : HeaderVerify) :
    (s.freePage p v).sram = rewritten s.sram p (plainHeader 0) v := by rw [State.freePage_eq]

@[simp] theorem State.rewrite_store (s : State) (p : PageNo) (h : PageHdr) (v : HeaderVerify) :
    (s.rewrite p h v).store = { s.store with bad := s.store.badAfter p v } := by rw [State.rewrite_eq]

section
variable {s t : State} {r r' : Run} {j j' : Job}

/-- A running request goes on: its next place has the pages counted, and says of them what it should. -/
theorem State.RunLawful.goesOn (h : s.RunLawful r j) (same : SameEngine s t) (hop : t.store.op = .run r' j')
    (hblk : r'.blk = r.blk) (hruns : j'.runsIn s.store.status)
    (hcount : t.store.status = .busy → s.store.allCounted → t.store.allCounted)
    (hplace : j'.accounts t.store) : t.pagesLawful :=
  (pagesLawful_run_iff hop).2
    { full := (congrArg Supply.state same.supply).trans h.full
      cell := by rw [same.cell, hblk]; exact h.cell
      waiting := same.waiting.trans h.waiting
      runs := by rw [same.status]; exact hruns
      wf := same.wf h.wf
      counted := fun hb => hcount hb (h.counted (same.status ▸ hb))
      place := hplace }

/-- R15, R16: the store state that the end of a request leaves. -/
theorem Store.rest_cases {st : Store} (hon : st.status = .busy ∨ st.status = .unformatted) :
    (st.status = .busy ∧ st.rest = .ready) ∨ (st.status = .busy ∧ st.hold = true ∧ st.rest = .quiesced) ∨
      st.rest = .unformatted := by
  rcases hon with hb | hu
  · cases hh : st.hold
    · exact .inl ⟨hb, by simp [Store.rest, hb, hh]⟩
    · exact .inr (.inl ⟨hb, rfl, by simp [Store.rest, hb, hh]⟩)
  · exact .inr (.inr (by simp [Store.rest, hu]))

/-- R28: an operation whose place holds no pages may end. -/
theorem endRun_pagesLawful {u : State} (hon : u.store.status = .busy ∨ u.store.status = .unformatted)
    (hw : u.store.waiting = none) (hwf : Memory.wf u.sram = true)
    (hcount : u.store.status = .busy → ({ u.store with op := .none } : Store).allCounted)
    (st : Status) (part : Bool) (count : Nat) : (u.endRun r st part count).pagesLawful := by
  have hrest := Store.rest_cases hon
  rw [pagesLawful_idle_iff (by rw [State.endRun_store])]
  refine ⟨?on, ?held, ?notScanning, ?notBusy, ?cell, ?waiting, ?wf, ?counted⟩
  case cell => simp [State.endRun, State.terminate, Port.setCell, Hold.isBusy]
  case wf => rw [State.endRun_sram]; exact hwf
  all_goals rw [State.endRun_store]
  case waiting => exact hw
  case counted =>
    intro h
    have hb : u.store.status = .busy := by
      rcases hrest with ⟨hb, -⟩ | ⟨hb, -, -⟩ | hu
      · exact hb
      · exact hb
      · simp [hu] at h
    exact hcount hb
  all_goals
    rcases hrest with ⟨-, e⟩ | ⟨-, hh, e⟩ | e
    all_goals simp [*]

/-- R28: a request that could go on from a place without pages may end there instead. -/
theorem endRun_of_pagesLawful {u : State} (h : (u.setJob r j).pagesLawful) (hp : (Op.run r j).pages = [])
    (st : Status) (part : Bool) (count : Nat) : (u.endRun r st part count).pagesLawful := by
  have h := (pagesLawful_run_iff (s := u.setJob r j) rfl).1 h
  have hruns := h.runs
  refine endRun_pagesLawful ?_ h.waiting h.wf (fun hb => (h.counted hb).of_tally fun q => ?_) st part count
  · exact Job.runsIn_cases hruns
  · simp only [Store.count_pageList, State.setJob_store, hp]; rfl

end

end Sys2Proof.Machine
end

section
/-! SUPPORT. Proofs: page accounting through the events of a running request (R33 to R45). -/
namespace Sys2Proof.Machine

/-! ### The events of a running request -/

section
variable {s t : State} {r r' : Run} {j j' : Job}

/-- A running request goes on with every page counted as often as before; `old` and `new` are the pages that
its places hold. -/
theorem State.RunLawful.tallied (h : s.RunLawful r j) (same : SameEngine s t)
    (hop : t.store.op = .run r' j') (hblk : r'.blk = r.blk) (hruns : j'.runsIn s.store.status)
    {old new : List PageNo} (hold : (Op.run r j).pages = old) (hnew : (Op.run r' j').pages = new)
    (ho : s.store.op = .run r j)
    (tally : s.store.allCounted → ∀ q,
      t.store.free.count q + t.store.chains.toList.flatten.count q + new.count q + t.store.bad.count q =
        s.store.free.count q + s.store.chains.toList.flatten.count q + old.count q + s.store.bad.count q)
    (hplace : j'.accounts t.store) : t.pagesLawful := by
  refine h.goesOn same hop hblk hruns (fun _ hc => hc.of_tally fun q => ?_) hplace
  rw [Store.count_pageList, Store.count_pageList, hop, ho, hold, hnew]
  exact tally hc q

/-- A running request goes on over an event that moves no page. -/
theorem goesOn_of_samePages {u : State} (hs : s.pagesLawful) (ho : s.store.op = .run r j)
    (same : SameEngine s u) (hstore : u.store.free = s.store.free ∧ u.store.chains = s.store.chains ∧
      u.store.bad = s.store.bad) (hruns : j.runsIn s.store.status → j'.runsIn s.store.status)
    (hpages : (Op.run r' j').pages = (Op.run r j).pages)
    (hplace : j'.accounts { u.store with op := .run r' j' }) (hblk : r'.blk = r.blk := by rfl) :
    (u.setJob r' j').pagesLawful := by
  have law := (pagesLawful_run_iff ho).1 hs
  obtain ⟨hfree, hchains, hbad⟩ := hstore
  refine law.tallied (same.setJob _ _) rfl hblk (hruns law.runs) rfl hpages ho (fun _ q => ?_) hplace
  rw [State.setJob_store, hfree, hchains, hbad]

/-- R11: a page that the place of a request holds is rewritten Free, and the place after it holds the rest. -/
theorem freePage_goesOn {p : PageNo} {rest : List PageNo} (v : HeaderVerify) (hs : s.pagesLawful)
    (ho : s.store.op = .run r j) (hruns : j.runsIn s.store.status → j'.runsIn s.store.status)
    (hold : (Op.run r j).pages = p :: rest) (hnew : (Op.run r j').pages = rest)
    (hplace : j'.accounts { s.store with
      free := s.store.freeAfter p v, bad := s.store.badAfter p v, op := .run r j' }) :
    ((s.freePage p v).setJob r j').pagesLawful := by
  have law := (pagesLawful_run_iff ho).1 hs
  refine law.tallied ((SameEngine.refl.freePage p v).setJob _ _) rfl rfl (hruns law.runs) hold hnew ho
    (fun hc q => ?_) ?_
  · have inOp : p ∈ s.store.op.pages := by rw [ho, hold]; exact List.mem_cons_self
    have freed := count_freeAfter_badAfter (hc.op_notMem_bad inOp) v q
    simp only [State.setJob_store, State.freePage_store, List.count_cons, List.count_nil] at freed ⊢
    omega
  · rw [State.setJob_store, State.freePage_store]; exact hplace

/-- A running request goes on over an unverified record write. -/
theorem putRecord_goesOn (w : RecWrite) (dev : List Host.Cell) (hs : s.pagesLawful)
    (ho : s.store.op = .run r j) (hruns : j.runsIn s.store.status → j'.runsIn s.store.status)
    (hpages : (Op.run r j').pages = (Op.run r j).pages)
    (hplace : j'.accounts { s.store with op := .run r j' }) :
    ((s.putRecord w dev).setJob r j').pagesLawful :=
  goesOn_of_samePages hs ho (SameEngine.refl.putRecord w dev) ⟨rfl, rfl, rfl⟩ hruns hpages hplace

theorem afterPage_pagesLawful {u : State} (h : (u.setJob r j).pagesLawful) (hp : (Op.run r j).pages = [])
    (last : Bool) (count : Nat) : (u.afterPage r last count j).pagesLawful := by
  unfold State.afterPage
  split
  · exact endRun_of_pagesLawful h hp _ _ _
  · split
    · exact endRun_of_pagesLawful h hp _ _ _
    · exact h

theorem readFilePage_pagesLawful {f : FileNo} {offset length buf k : Nat} {link : Word} (hs : s.pagesLawful)
    (ho : s.store.op = .run r (.readFile f offset length buf k link)) :
    (s.readFilePage r f offset length buf k link).pagesLawful := by
  have on {u : State} (same : SameEngine s u) (hstore : u.store = s.store) (k : Nat) (link : Word) :
      (u.setJob r (.readFile f offset length buf k link)).pagesLawful :=
    goesOn_of_samePages hs ho same (by rw [hstore]; exact ⟨rfl, rfl, rfl⟩) id rfl trivial
  have ends := endRun_of_pagesLawful (on .refl rfl k link) rfl
  unfold State.readFilePage
  dsimp only
  repeat' split
  · exact ends _ _ _
  · exact ends _ _ _
  · exact afterPage_pagesLawful (on .refl rfl _ _) rfl _ _
  · exact ends _ _ _
  · exact afterPage_pagesLawful (on (.putRam .refl _ _) rfl _ _) rfl _ _

theorem verifyPage_pagesLawful {f : FileNo} {k : Nat} {link : Word} (hs : s.pagesLawful)
    (ho : s.store.op = .run r (.verify f k link)) : (s.verifyPage r f k link).pagesLawful := by
  have on (k : Nat) (link : Word) : (s.setJob r (.verify f k link)).pagesLawful :=
    goesOn_of_samePages hs ho .refl ⟨rfl, rfl, rfl⟩ id rfl trivial
  have ends := endRun_of_pagesLawful (on k link) rfl
  unfold State.verifyPage
  dsimp only
  repeat' split
  · exact ends _ _ _
  · exact ends _ _ _
  · exact ends _ _ _
  · exact afterPage_pagesLawful (on _ _) rfl _ _

theorem readRawPage_pagesLawful {first count buf done : Nat} (hs : s.pagesLawful)
    (ho : s.store.op = .run r (.readRaw first count buf done)) :
    (s.readRawPage r first count buf done).pagesLawful := by
  unfold State.readRawPage
  exact afterPage_pagesLawful (j := .readRaw first count buf (done + 1))
    (goesOn_of_samePages hs ho (.putRam .refl _ _) ⟨rfl, rfl, rfl⟩ id rfl trivial) rfl _ _

/-! ### COMMIT_FILE (R35 to R39) -/

section
variable {c : Commit} {ph : CommitPhase}

theorem Commit.chainsLawful_congr {c : Commit} {st st' : Store} (h : st'.chains = st.chains)
    {ph : CommitPhase} (hl : c.chainsLawful st ph) : c.chainsLawful st' ph := by
  unfold Commit.chainsLawful at hl ⊢
  rw [h]
  exact hl

/-- R38: an event of a commit that moves no page: the place after it holds the same pages. -/
theorem commit_goesOn {ph' : CommitPhase} {u : State} (hs : s.pagesLawful)
    (ho : s.store.op = .run r (.commit c ph)) (same : SameEngine s u) (hstore : u.store.free = s.store.free ∧
      u.store.chains = s.store.chains ∧ u.store.bad = s.store.bad) (hp : ph'.pages c = ph.pages c)
    (hplace : c.chainsLawful u.store ph') (hblk : r'.blk = r.blk := by rfl) :
    (u.setJob r' (.commit c ph')).pagesLawful :=
  goesOn_of_samePages hs ho same hstore id hp (Commit.chainsLawful_congr (st := u.store) rfl hplace) hblk

/-- R37, R48: a commit whose staged pages are all counted may enter Rolling back. -/
theorem enterRollback_pagesLawful {u : State} {why : Status}
    (h : (u.setJob r (.commit c (.rollback c.staged why))).pagesLawful) :
    (u.enterRollback r c why).pagesLawful := by
  unfold State.enterRollback
  split
  · next hc => exact endRun_of_pagesLawful h hc _ _ _
  · exact h

/-- R35: a free page staged is counted among the staged pages. -/
theorem staged_goesOn {i : Nat} {p : PageNo} {rest : List PageNo} {c' : Commit} {ph' : CommitPhase}
    (w : RecWrite) (hs : s.pagesLawful) (ho : s.store.op = .run r (.commit c (.staging i)))
    (hfree : s.store.free = p :: rest) (hc' : c' = { c with staged := c.staged ++ [p] })
    (hp : ph'.pages c' = c'.staged) (hl : c'.chainsLawful s.store ph') :
    (((s.putArray w).withStore { s.store with free := rest }).setJob r (.commit c' ph')).pagesLawful := by
  have law := (pagesLawful_run_iff ho).1 hs
  refine law.tallied (((SameEngine.refl.putArray _).withStore _).setJob _ _) rfl rfl law.runs
    (old := c.staged) rfl hp ho (fun _ q => ?_) (Commit.chainsLawful_congr (st := s.store) rfl hl)
  simp only [State.setJob_store, State.withStore_store, hfree, hc', List.count_cons, List.count_append,
    List.count_nil]
  omega

/-- R36: a free page whose full write failed verify is counted among the retired ones. -/
theorem retired_goesOn {i : Nat} {p : PageNo} {rest : List PageNo} {ph' : CommitPhase} (w : RecWrite)
    (hs : s.pagesLawful) (ho : s.store.op = .run r (.commit c (.staging i)))
    (hfree : s.store.free = p :: rest) (hp : ph'.pages c = c.staged) (hl : c.chainsLawful s.store ph') :
    (((s.putArray w).withStore ({ s.store with free := rest }.retire p)).setJob r
      (.commit c ph')).pagesLawful := by
  have law := (pagesLawful_run_iff ho).1 hs
  rw [Store.retire_eq _ _ []]
  refine law.tallied (((SameEngine.refl.putArray _).withStore _).setJob _ _) rfl rfl law.runs
    (old := c.staged) rfl hp ho (fun hc q => ?_) (Commit.chainsLawful_congr (st := s.store) rfl hl)
  have retired := count_badAfter_fail (st := { s.store with free := rest }) (p := p)
    (hc.free_notMem_bad (by rw [hfree]; exact List.mem_cons_self)) [] q
  simp only [State.setJob_store, State.withStore_store, hfree, List.count_cons, List.count_nil]
    at retired ⊢
  omega

theorem stageChunk_pagesLawful {i : Nat} (v : Verify) (hs : s.pagesLawful)
    (ho : s.store.op = .run r (.commit c (.staging i))) : (s.stageChunk r c i v).pagesLawful := by
  have place : s.store.chains[c.file] = c.old := ((pagesLawful_run_iff ho).1 hs).place
  unfold State.stageChunk
  split
  case h_1 => exact enterRollback_pagesLawful (commit_goesOn hs ho .refl ⟨rfl, rfl, rfl⟩ rfl place)
  case h_2 p rest hfree =>
    split
    · unfold State.afterStage
      split
      · exact enterRollback_pagesLawful (staged_goesOn _ hs ho hfree rfl rfl place)
      · split <;> exact staged_goesOn _ hs ho hfree rfl rfl place
    · unfold State.afterRetire
      split
      · exact enterRollback_pagesLawful (retired_goesOn _ hs ho hfree rfl place)
      · exact retired_goesOn _ hs ho hfree rfl place

/-- R37: from Staging or from Rolling back, the pages still to free are freed one by one. -/
theorem rollbackPage_pagesLawful {todo : List PageNo} {why : Status} (v : HeaderVerify) (hs : s.pagesLawful)
    (ho : s.store.op = .run r (.commit c ph)) (hp : ph.pages c = todo)
    (place : s.store.chains[c.file] = c.old) : (s.rollbackPage r c todo why v).pagesLawful := by
  unfold State.rollbackPage
  split
  · exact endRun_of_pagesLawful (j := .commit c (.rollback [] why))
      (commit_goesOn hs ho .refl ⟨rfl, rfl, rfl⟩ hp.symm place) rfl _ _ _
  · exact endRun_of_pagesLawful (j := .commit c (.rollback [] why))
      (freePage_goesOn v hs ho id hp rfl place) rfl _ _ _
  · exact freePage_goesOn v hs ho id hp rfl place

/-! The pages that the phases hold where the model says which phase is next. -/

theorem Commit.afterLive_pages (c : Commit) (broken : Option Nat) : (c.afterLive broken).pages c = c.old := by
  unfold Commit.afterLive
  split
  · next h => exact h.symm
  · rfl

theorem Commit.afterLive_chainsLawful (c : Commit) (broken : Option Nat) (st : Store) :
    c.chainsLawful st (c.afterLive broken) := by
  unfold Commit.afterLive
  split <;> trivial

theorem Commit.afterEntry_pages (c : Commit) : c.afterEntry.pages c = c.old := by
  unfold Commit.afterEntry
  split
  · exact c.afterLive_pages none
  · rfl

theorem CommitPhase.pages_breakFree (c : Commit) (kept ps : List PageNo) :
    (if ps = [] then CommitPhase.damagedEntry kept else .breakFree kept ps).pages c = ps ++ c.old := by
  split
  · next h => rw [h]; rfl
  · rfl

theorem CommitPhase.pages_freeOld (c : Commit) (ps : List PageNo) (broken : Option Nat) :
    (if ps = [] then CommitPhase.clear broken else .freeOld ps broken).pages c = ps := by
  split
  · next h => exact h.symm
  · rfl

theorem DeletePhase.pages_freeOld (ps : List PageNo) :
    (if ps = [] then DeletePhase.clear else .freeOld ps).pages = ps := by
  split
  · next h => exact h.symm
  · rfl

/-- R38: at the entry write the staged pages become the file's chain, and the old chain the commit's own. -/
theorem commitEntry_pagesLawful {stamp : Stamp} (dev : List Host.Cell) (hs : s.pagesLawful)
    (ho : s.store.op = .run r (.commit c (.entry stamp))) : (s.commitEntry r c stamp dev).pagesLawful := by
  have law := (pagesLawful_run_iff ho).1 hs
  have place : s.store.chains[c.file] = c.old := law.place
  unfold State.commitEntry
  refine law.tallied (((SameEngine.refl.putRecord _ _).withStore _).setJob _ _) rfl rfl law.runs
    (old := c.staged) rfl c.afterEntry_pages ho (fun _ q => ?_) ?_
  · have moved := count_chains_set s.store.chains c.file c.chain q
    rw [place, Commit.chain, List.count_reverse] at moved
    simp only [State.setJob_store, State.withStore_store, Commit.chain]
    omega
  · rw [Job.accounts, Commit.afterEntry]
    split
    · exact c.afterLive_chainsLawful none _
    · exact Vector.getElem_set_self c.file.isLt

/-- R38: a page rewritten Live stays in the file's chain. -/
theorem liveRewrite_pass_pagesLawful {done ps : List PageNo} {p : PageNo} (hs : s.pagesLawful)
    (ho : s.store.op = .run r (.commit c (.live done (p :: ps)))) :
    (s.liveRewrite r c done (p :: ps) .pass).pagesLawful := by
  have place : s.store.chains[c.file] = done ++ p :: ps := ((pagesLawful_run_iff ho).1 hs).place
  refine commit_goesOn hs ho (SameEngine.refl.rewrite p (liveHdr s.sram p) .pass) ⟨rfl, rfl, rfl⟩ ?_ ?_
  · split
    · exact c.afterLive_pages none
    · rfl
  · split
    · exact c.afterLive_chainsLawful none _
    · exact place.trans (List.append_assoc done [p] ps).symm

/-- R39: a page retired leaves the chain, and so do the pages after it, which the commit now frees. -/
theorem liveRewrite_fail_pagesLawful {done ps : List PageNo} {p : PageNo} (bad : List Host.Cell)
    (hs : s.pagesLawful) (ho : s.store.op = .run r (.commit c (.live done (p :: ps)))) :
    (s.liveRewrite r c done (p :: ps) (.fail bad)).pagesLawful := by
  have law := (pagesLawful_run_iff ho).1 hs
  have place : s.store.chains[c.file] = done ++ p :: ps := law.place
  unfold State.liveRewrite
  simp only [passed, Bool.false_eq_true, if_false]
  refine law.tallied (((SameEngine.refl.rewrite p _ _).withStore _).setJob _ _) rfl rfl law.runs
    (old := c.old) rfl (CommitPhase.pages_breakFree c done ps) ho (fun hc q => ?_) ?_
  · have hp : p ∉ s.store.bad := hc.chain_notMem_bad (f := c.file) (by rw [place]; simp)
    have retired := count_badAfter_fail hp bad q
    have moved := count_chains_set s.store.chains c.file done q
    rw [place] at moved
    simp only [State.setJob_store, State.withStore_store, State.rewrite_store, List.count_append,
      List.count_cons, List.count_nil] at moved retired ⊢
    omega
  · rw [Job.accounts]
    split <;> trivial

theorem liveRewrite_pagesLawful {done todo : List PageNo} (v : HeaderVerify) (hs : s.pagesLawful)
    (ho : s.store.op = .run r (.commit c (.live done todo))) :
    (s.liveRewrite r c done todo v).pagesLawful := by
  cases todo with
  | nil =>
    exact commit_goesOn hs ho .refl ⟨rfl, rfl, rfl⟩ (c.afterLive_pages none)
      (c.afterLive_chainsLawful none _)
  | cons p ps =>
    cases v with
    | pass => exact liveRewrite_pass_pagesLawful hs ho
    | fail bad => exact liveRewrite_fail_pagesLawful bad hs ho

theorem breakFree_pagesLawful {kept todo : List PageNo} (v : HeaderVerify) (hs : s.pagesLawful)
    (ho : s.store.op = .run r (.commit c (.breakFree kept todo))) :
    (s.breakFree r c kept todo v).pagesLawful := by
  unfold State.breakFree
  split
  · exact commit_goesOn hs ho .refl ⟨rfl, rfl, rfl⟩ rfl trivial
  · next p ps =>
    refine freePage_goesOn v hs ho id rfl (CommitPhase.pages_breakFree c kept ps) ?_
    rw [Job.accounts]; split <;> trivial

theorem damagedEntry_pagesLawful {kept : List PageNo} (dev : List Host.Cell) (hs : s.pagesLawful)
    (ho : s.store.op = .run r (.commit c (.damagedEntry kept))) :
    (s.damagedEntry r c kept dev).pagesLawful := by
  unfold State.damagedEntry
  exact commit_goesOn hs ho ((SameEngine.refl.putRecord _ _).withStore _) ⟨rfl, rfl, rfl⟩
    (c.afterLive_pages _) (c.afterLive_chainsLawful _ _)

theorem freeOldCommit_pagesLawful {todo : List PageNo} {broken : Option Nat} (v : HeaderVerify) (hs : s.pagesLawful)
    (ho : s.store.op = .run r (.commit c (.freeOld todo broken))) :
    (s.freeOldCommit r c todo broken v).pagesLawful := by
  unfold State.freeOldCommit
  split
  · exact commit_goesOn hs ho .refl ⟨rfl, rfl, rfl⟩ rfl trivial
  · next p ps =>
    refine freePage_goesOn v hs ho id rfl (CommitPhase.pages_freeOld c ps broken) ?_
    rw [Job.accounts]; split <;> trivial

theorem clearCommit_pagesLawful {broken : Option Nat} (dev : List Host.Cell) (hs : s.pagesLawful)
    (ho : s.store.op = .run r (.commit c (.clear broken))) : (s.clearCommit r c broken dev).pagesLawful := by
  have on := putRecord_goesOn (j' := .commit c (.clear broken)) (clearWrite s.sram) dev hs ho id rfl trivial
  unfold State.clearCommit
  split <;> exact endRun_of_pagesLawful on rfl _ _ _

end

/-! ### DELETE_FILE (R40, R41) -/

section
variable {f : FileNo}

/-- R40: the pages of the deleted file's chain become the delete's own. -/
theorem deleteEntry_pagesLawful (dev : List Host.Cell) (hs : s.pagesLawful)
    (ho : s.store.op = .run r (.delete f .entry)) : (s.deleteEntry r f dev).pagesLawful := by
  have law := (pagesLawful_run_iff ho).1 hs
  unfold State.deleteEntry
  refine law.tallied (((SameEngine.refl.putRecord _ _).withStore _).setJob _ _) rfl rfl law.runs
    (old := []) rfl (DeletePhase.pages_freeOld s.store.chains[f]) ho (fun _ q => ?_) trivial
  have moved := count_chains_set s.store.chains f [] q
  simp only [State.setJob_store, State.withStore_store, List.count_nil] at moved ⊢
  omega

theorem freeOldDelete_pagesLawful {todo : List PageNo} (v : HeaderVerify) (hs : s.pagesLawful)
    (ho : s.store.op = .run r (.delete f (.freeOld todo))) : (s.freeOldDelete r f todo v).pagesLawful := by
  unfold State.freeOldDelete
  split
  · exact goesOn_of_samePages hs ho .refl ⟨rfl, rfl, rfl⟩ id rfl trivial
  · next p ps => exact freePage_goesOn v hs ho id rfl (DeletePhase.pages_freeOld ps) trivial

theorem clearDelete_pagesLawful (dev : List Host.Cell) (hs : s.pagesLawful)
    (ho : s.store.op = .run r (.delete f .clear)) : (s.clearDelete r f dev).pagesLawful := by
  have law := (pagesLawful_run_iff ho).1 hs
  unfold State.clearDelete
  exact law.tallied (((SameEngine.refl.putRecord _ _).setJob _ _).withStore _) rfl rfl law.runs rfl rfl ho
    (fun _ _ => rfl) trivial

end

/-! ### FORMAT_STORE (R44, R45) -/

section
variable {ph : FormatPhase}

/-- R44: a format goes on; it runs Unformatted, and accounts for the pages by its place. -/
theorem format_goesOn {ph' : FormatPhase} (hs : s.pagesLawful) (ho : s.store.op = .run r (.format ph))
    (same : SameEngine s t) (hop : t.store.op = .run r (.format ph'))
    (hplace : s.store.formatPages ph → t.store.formatPages ph') : t.pagesLawful := by
  have law := (pagesLawful_run_iff ho).1 hs
  have unformatted : s.store.status = .unformatted := law.runs
  refine law.goesOn same hop rfl unformatted (fun hb => ?_) (hplace law.place)
  rw [same.status, unformatted] at hb
  cases hb

/-- R44: the first page's turn comes with no page counted yet. -/
theorem formatEntry_pagesLawful {f : FileNo} (dev : List Host.Cell) (hs : s.pagesLawful)
    (ho : s.store.op = .run r (.format (.entries f))) : (s.formatEntry r f dev).pagesLawful := by
  unfold State.formatEntry
  refine format_goesOn hs ho (((SameEngine.refl.putRecord _ _).withStore _).setJob _ _) rfl ?_
  rintro ⟨hfree, hbad, hchains⟩
  split
  · exact ⟨hfree, hbad, hchains⟩
  · refine ⟨hchains, fun q hq => absurd hq (Nat.not_lt_zero _), fun q _ => ?_⟩
    rw [← List.count_eq_zero, Store.count_pageList]
    simp only [State.setJob_store, State.withStore_store, hfree, hbad, hchains]
    rfl

/-- R44: after a page's turn the pages up to it are counted once, and those after it not yet. -/
theorem formatPage_count {st : Store} {p : PageNo} {bad : Nat} (v : HeaderVerify)
    (ho : st.op = .run r (.format (.pages p bad))) (h : st.formatPages (.pages p bad)) (ph' : FormatPhase)
    (q : PageNo) : ({ st with
      free := st.freeAfter p v, bad := st.badAfter p v, op := .run r (.format ph') } : Store).pageList.count q =
        if q ≤ p then 1 else 0 := by
  obtain ⟨-, below, above⟩ := h
  have new : p ∉ st.bad := fun hb => above p (Fin.le_refl p) (by simp [Store.pageList, hb])
  have freed := count_freeAfter_badAfter new v q
  have before : st.pageList.count q = if q < p then 1 else 0 := by
    split
    · next hq => exact below q hq
    · next hq => exact List.count_eq_zero.2 (above q (Fin.not_lt.1 hq))
  have this_page : [p].count q = if q = p then 1 else 0 := by
    simp only [List.count_singleton, beq_iff_eq, eq_comm (a := p)]
  rw [Store.count_pageList, ho] at before
  rw [Store.count_pageList]
  simp only [Op.pages, List.count_nil] at before ⊢
  rcases Nat.lt_trichotomy q.val p.val with (hq : q < p) | hq | (hq : p < q)
  · rw [if_pos hq] at before; rw [if_neg (Fin.ne_of_lt hq)] at this_page
    rw [if_pos (Fin.le_of_lt hq)]; omega
  · obtain rfl := Fin.ext hq
    rw [if_neg (Fin.lt_irrefl q)] at before; rw [if_pos rfl] at this_page
    rw [if_pos (Fin.le_refl q)]; omega
  · rw [if_neg (Fin.lt_asymm hq)] at before; rw [if_neg (Fin.ne_of_gt hq)] at this_page
    rw [if_neg (Fin.not_le.2 hq)]; omega

theorem formatPage_pagesLawful {p : PageNo} {bad : Nat} (v : HeaderVerify) (hs : s.pagesLawful)
    (ho : s.store.op = .run r (.format (.pages p bad))) : (s.formatPage r p bad v).pagesLawful := by
  unfold State.formatPage
  dsimp only
  split
  case isTrue hlast =>
    refine format_goesOn hs ho ((SameEngine.refl.freePage _ _).setJob _ _) rfl fun h => ?_
    have count := formatPage_count v ho h
      (.pages ⟨p.val + 1, hlast⟩ (if passed v = true then bad else bad + 1))
    rw [State.setJob_store, State.freePage_store]
    refine ⟨h.1, fun q hq => (count q).trans (if_pos ?_), fun q hq => ?_⟩
    · exact Nat.lt_succ_iff.1 hq
    · exact List.count_eq_zero.1 ((count q).trans (if_neg (Fin.not_le.2 (Nat.lt_of_succ_le hq))))
  case isFalse hlast =>
    refine format_goesOn hs ho (((SameEngine.refl.freePage _ _).setJob _ _).withStore _) rfl fun h q => ?_
    have count := formatPage_count v ho h (.purging (if passed v = true then bad else bad + 1)) q
    rw [State.withStore_store, State.setJob_store, State.freePage_store]
    refine count.trans (if_pos ?_)
    have := q.isLt
    rw [Fin.le_def]; omega

end

end

end Sys2Proof.Machine
end

section
/-! SUPPORT. Proofs: page accounting through the recovery scan (R18 to R24). -/
namespace Sys2Proof.Machine

/-! ### The events of the recovery scan -/

section
variable {s t : State} {n n' : ScanNotes} {ph ph' : ScanPhase}

/-- The scan goes on to a place that accounts for the pages. -/
theorem scan_goesOn (hs : s.pagesLawful) (ho : s.store.op = .scan n ph) (same : SameEngine s t)
    (hop : t.store.op = .scan n' ph') (hpages : Memory.wf s.sram = true → s.scanPages ph → t.scanPages ph') :
    t.pagesLawful := by
  have law := (pagesLawful_scan_iff ho).1 hs
  refine (pagesLawful_scan_iff hop).2
    { full := (congrArg Supply.state same.supply).trans law.full
      status := same.status.trans law.status
      waits := ?_
      wf := same.wf law.wf
      pages := hpages law.wf law.pages }
  have waits := law.waits
  unfold Store.waitsFor at waits ⊢
  rw [same.waiting, same.cell]
  exact waits

/-! The roll-forward: a page that a walk visits is not a retired one. -/

theorem not_badOnArray_of_walkOk {m : Mem} {p : PageNo} {states : List PageState} {f : FileNo} {gen : Word}
    {k : Nat} (h : walkOk m p states f gen k = true) (hst : PageState.bad ∉ states) : ¬ badOnArray m p := by
  simp only [walkOk, Bool.and_eq_true, List.any_eq_true, decide_eq_true_eq] at h
  obtain ⟨⟨⟨⟨⟨⟨st, hmem, hcode⟩, -⟩, -⟩, -⟩, hpass⟩, -⟩ := h
  intro hb
  have code : st.code = 3 := hcode.trans (hb hpass)
  cases st with
  | bad => exact hst hmem
  | free | staged | live => exact absurd code (by decide)

theorem rollLiveFrom_scanPages (h : s.scanPages .rollClear) (j : Journal) (left k : Nat) (link : Word) :
    s.scanPages (rollLiveFrom s.sram j left k link) := by
  obtain ⟨hfree, hchains, hnodup, hbad⟩ := h
  induction left generalizing k link with
  | zero => exact ⟨hfree, hchains, hnodup, hbad⟩
  | succ left ih =>
    unfold rollLiveFrom
    split
    · exact ⟨hfree, hchains, hnodup, hbad⟩
    · next p hp =>
      split
      · next hok =>
        split
        · exact ⟨hfree, hchains, hnodup, fun hb => not_badOnArray_of_walkOk hok (by decide) (hbad p hb), hbad⟩
        · exact ih _ _
      · exact ⟨hfree, hchains, hnodup, hbad⟩

theorem rollOldFrom_scanPages (h : s.scanPages .rollClear) (j : Journal) (k : Nat) (link : Word) :
    s.scanPages (rollOldFrom s.sram j k link) := by
  have after : s.scanPages (afterRollOld s.sram j) := by
    unfold afterRollOld
    split
    · exact rollLiveFrom_scanPages h _ _ _ _
    · exact h
  obtain ⟨hfree, hchains, hnodup, hbad⟩ := h
  unfold rollOldFrom
  split
  · exact after
  · next p hp =>
    split
    · next hok =>
      exact ⟨hfree, hchains, hnodup, fun hb => not_badOnArray_of_walkOk hok.2 (by decide) (hbad p hb), hbad⟩
    · exact after

theorem Store.badAfter_nodup {st : Store} (h : st.bad.Nodup) {p : PageNo} (hp : p ∉ st.bad) (v : HeaderVerify) :
    (st.badAfter p v).Nodup := by
  cases v with
  | pass => exact h
  | fail bad =>
    rw [Store.badAfter, if_neg hp]
    exact List.nodup_append.2 ⟨h, List.pairwise_singleton _ p, fun a ha b hb e =>
      hp (List.mem_singleton.1 hb ▸ e ▸ ha)⟩

/-- A record write below the page records leaves every page header as it was. -/
theorem badOnArray_putRecord (hm : Memory.wf s.sram = true) {w : RecWrite}
    (hw : w.base + w.bytes.length ≤ 1024) (dev : List Host.Cell) {p : PageNo} (hb : badOnArray s.sram p) :
    badOnArray (s.putRecord w dev).sram p :=
  badOnArray_writes_below hm (by rw [written_length]; exact hw) hb

theorem entryWrite_below (f : FileNo) (e : Entry) :
    (entryWrite f e).base + (entryWrite f e).bytes.length ≤ 1024 := by
  simp only [entryWrite, entryBase, Entry.bytes_length]
  omega

theorem clearWrite_below (m : Mem) : (clearWrite m).base + (clearWrite m).bytes.length ≤ 1024 := by
  simp [clearWrite, journalBase, withCheck, bytes16]

/-- R19: after the rewrite of a page that was not retired the roll-forward accounts for the pages again. -/
theorem scanPages_rewrite {p : PageNo} (hm : Memory.wf s.sram = true) (h : s.scanPages (.rollOld j k p))
    (hd : PageHdr) (v : HeaderVerify) : (s.rewrite p hd v).scanPages .rollClear := by
  obtain ⟨hfree, hchains, hnodup, hp, hbad⟩ := h
  rw [State.rewrite_eq]
  exact ⟨hfree, hchains, Store.badAfter_nodup hnodup hp v, badOnArray_badAfter hm hd.bytes_length v hp hbad⟩

theorem rollEntry_pagesLawful {j : Journal} (dev : List Host.Cell) (hs : s.pagesLawful)
    (ho : s.store.op = .scan n (.rollEntry j)) : (s.rollEntry n j dev).pagesLawful := by
  unfold State.rollEntry
  dsimp only
  have hw := entryWrite_below j.file (if j.kind = .commit then j.entry else .empty)
  generalize entryWrite j.file (if j.kind = .commit then j.entry else .empty) = w at hw ⊢
  refine scan_goesOn hs ho ((SameEngine.refl.putRecord _ _).setScan _ _) rfl fun hm h => ?_
  obtain ⟨hfree, hchains, hnodup, hbad⟩ := h
  exact rollOldFrom_scanPages (s := (s.putRecord w dev).setScan n _)
    ⟨hfree, hchains, hnodup, fun p hp => badOnArray_putRecord hm hw dev (hbad p hp)⟩ j 0 j.oldRoot

theorem rollOld_pagesLawful {j : Journal} {k : Nat} {p : PageNo} (v : HeaderVerify) (hs : s.pagesLawful)
    (ho : s.store.op = .scan n (.rollOld j k p)) : (s.rollOld n j k p v).pagesLawful := by
  unfold State.rollOld
  exact scan_goesOn hs ho ((SameEngine.refl.rewrite _ _ _).setScan _ _) rfl fun hm h =>
    rollOldFrom_scanPages (s := (s.rewrite p _ v).setScan n _) (scanPages_rewrite hm h _ v) _ _ _

theorem rollLive_pagesLawful {j : Journal} {k : Nat} {p : PageNo} (v : HeaderVerify) (hs : s.pagesLawful)
    (ho : s.store.op = .scan n (.rollLive j k p)) : (s.rollLive n j k p v).pagesLawful := by
  unfold State.rollLive
  exact scan_goesOn hs ho ((SameEngine.refl.rewrite _ _ _).setScan _ _) rfl fun hm h =>
    rollLiveFrom_scanPages (s := (s.rewrite p _ v).setScan n _)
      (scanPages_rewrite (j := j) (k := k) hm h _ v) _ _ _ _

theorem rollClear_pagesLawful (dev : List Host.Cell) (hs : s.pagesLawful)
    (ho : s.store.op = .scan n .rollClear) : (s.rollClear n dev).pagesLawful := by
  unfold State.rollClear
  have hw := clearWrite_below s.sram
  generalize clearWrite s.sram = w at hw ⊢
  refine scan_goesOn hs ho ((SameEngine.refl.putRecord _ _).setScan _ _) rfl fun hm h => ?_
  obtain ⟨hfree, hchains, hnodup, hbad⟩ := h
  exact ⟨hfree, hchains, hnodup, fun p hp => badOnArray_putRecord hm hw dev (hbad p hp)⟩

/-! Steps 4 and 5. -/

/-- R22: where step 5 or step 6 comes next, the walks' account is what either needs. -/
theorem scanPages_walkPlace {f : FileNo} {k : Nat} {link : Word} (h : s.scanPages (.walk f k link))
    (n : ScanNotes) (st : Store) (lo : Nat) :
    (s.setScan n (st.walkPlace lo)).scanPages (st.walkPlace lo) := by
  unfold Store.walkPlace
  split
  · exact h
  · obtain ⟨hfree, hnodup, hbad⟩ := h
    refine ⟨fun q hq => absurd hq (Nat.not_lt_zero _), fun q _ => ⟨?_, ?_, hbad q⟩⟩
    · rw [State.setScan_store, hfree]; exact List.not_mem_nil
    · rw [Store.count_pageList, State.setScan_store, hfree]
      have once := List.nodup_iff_count.1 hnodup q
      rw [List.count_append] at once
      simp only [Op.pages, List.count_nil]
      omega

theorem scanPages_entriesAfter {f : FileNo} (h : s.scanPages (.entries f)) (n : ScanNotes) (st : Store) :
    (s.setScan n (st.entriesAfter f)).scanPages (st.entriesAfter f) := by
  unfold Store.entriesAfter
  split
  · exact h
  · obtain ⟨hfree, hchains, hnodup, hbad⟩ := h
    refine scanPages_walkPlace (f := f) (k := 0) (link := 0) ⟨hfree, ?_, hbad⟩ n st 0
    rw [hchains]; exact hnodup

theorem scanEntry_pagesLawful {f : FileNo} (dev : List Host.Cell) (hs : s.pagesLawful)
    (ho : s.store.op = .scan n (.entries f)) : (s.scanEntry n f dev).pagesLawful := by
  cases hr : entryReadable s.sram f with
  | true =>
    rw [State.scanEntry_readable s n f dev hr, State.afterScanEntry_eq]
    exact scan_goesOn hs ho ((SameEngine.refl.withStore _).setScan _ _) rfl fun _ h =>
      scanPages_entriesAfter (s := s.withStore _) h _ _
  | false =>
    rw [State.scanEntry_unreadable s n f dev hr, State.afterScanEntry_eq]
    have hw := entryWrite_below f .emptyDamaged
    generalize entryWrite f .emptyDamaged = w at hw ⊢
    refine scan_goesOn hs ho (((SameEngine.refl.putRecord _ _).withStore _).setScan _ _) rfl fun hm h => ?_
    obtain ⟨hfree, hchains, hnodup, hbad⟩ := h
    exact scanPages_entriesAfter (s := (s.putRecord _ dev).withStore _)
      ⟨hfree, hchains, hnodup, fun p hp => badOnArray_putRecord hm hw dev (hbad p hp)⟩ _ _

/-- R22: a page that a walk claims was neither claimed before nor retired. -/
theorem claims_new {f : FileNo} {k : Nat} {link : Word} {p : PageNo} (h : s.claims f k link = some p) :
    p ∉ s.store.chains.toList.flatten ∧ ¬ badOnArray s.sram p := by
  unfold State.claims at h
  split at h
  · split at h
    · next hok =>
      injection h with h
      subst h
      refine ⟨fun hc => ?_, not_badOnArray_of_walkOk hok.1 (by decide)⟩
      rw [(Store.claimed_iff_mem _ _).2 hc] at hok
      cases hok.2
    · cases h
  · cases h

theorem scanPages_claim {f : FileNo} {k : Nat} {link : Word} (h : s.scanPages (.walk f k link)) :
    (s.withStore (s.store.claim f (s.claims f k link))).scanPages (.walk f k link) := by
  obtain ⟨hfree, hnodup, hbad⟩ := h
  cases hc : s.claims f k link with
  | none => exact ⟨hfree, hnodup, hbad⟩
  | some p =>
    obtain ⟨hp, hb⟩ := claims_new hc
    refine ⟨hfree, List.nodup_iff_count.2 fun q => ?_, hbad⟩
    have once := List.nodup_iff_count.1 hnodup q
    have moved := count_chains_set s.store.chains f (s.store.chains[f] ++ [p]) q
    rw [List.count_append] at once moved ⊢
    simp only [State.withStore_store, Store.claim]
    by_cases hq : q = p
    · subst hq
      rw [List.count_eq_zero.2 hp, List.count_singleton_self] at moved
      rw [List.count_eq_zero.2 fun h => hb (hbad q h)]
      omega
    · rw [List.count_eq_zero.2 fun h => hq (List.mem_singleton.1 h)] at moved
      omega

theorem SameEngine.markDamaged (h : SameEngine s t) (f : FileNo) (dev : List Host.Cell) :
    SameEngine s (t.markDamaged f dev) := by
  unfold State.markDamaged
  dsimp only
  split
  · exact h
  · exact (h.putRecord _ _).withStore _

theorem scanPages_markDamaged {f g : FileNo} {k : Nat} {link : Word} (hm : Memory.wf s.sram = true)
    (h : s.scanPages (.walk f k link)) (dev : List Host.Cell) :
    (s.markDamaged g dev).scanPages (.walk f k link) := by
  unfold State.markDamaged
  dsimp only
  split
  · exact h
  · have hw := entryWrite_below g { s.store.dir[g] with damaged := true }
    generalize entryWrite g _ = w at hw ⊢
    obtain ⟨hfree, hnodup, hbad⟩ := h
    exact ⟨hfree, hnodup, fun p hp => badOnArray_putRecord hm hw dev (hbad p hp)⟩

theorem scanWalk_pagesLawful {f : FileNo} {k : Nat} {link : Word} (dev : List Host.Cell) (hs : s.pagesLawful)
    (ho : s.store.op = .scan n (.walk f k link)) : (s.scanWalk n f k link dev).pagesLawful := by
  have claimed : SameEngine s (s.withStore (s.store.claim f (s.claims f k link))) := by
    cases s.claims f k link <;> exact SameEngine.refl.withStore _
  unfold State.scanWalk
  dsimp only
  split
  · exact scan_goesOn hs ho (claimed.setScan _ _) rfl fun _ h => scanPages_claim h
  · rw [walkAfter_eq]
    exact scan_goesOn hs ho (claimed.setScan _ _) rfl fun _ h =>
      scanPages_walkPlace (scanPages_claim h) _ _ _
  · rw [walkAfter_eq]
    exact scan_goesOn hs ho ((claimed.markDamaged f dev).setScan _ _) rfl fun hm h =>
      scanPages_walkPlace (scanPages_markDamaged (claimed.wf hm) (scanPages_claim h) dev) _ _ _

/-! Step 6. -/

/-- R23: a page swept is counted once from then on, and the pages after it are as they were. -/
theorem sweep_goesOn {p : PageNo} (hs : s.pagesLawful) (ho : s.store.op = .scan n (.sweep p))
    (same : SameEngine s t) (hop : t.store.op = .scan n' (sweepAfter p))
    (one : Memory.wf s.sram = true → s.scanPages (.sweep p) → t.store.pageList.count p = 1)
    (others : ∀ q, q ≠ p → t.store.pageList.count q = s.store.pageList.count q ∧
      (q ∈ t.store.free → q ∈ s.store.free) ∧ (q ∈ t.store.bad → q ∈ s.store.bad))
    (array : Memory.wf s.sram = true → ∀ q, q ≠ p → badOnArray s.sram q → badOnArray t.sram q) :
    t.pagesLawful := by
  refine scan_goesOn hs ho same hop fun hm h => ?_
  have one := one hm h
  obtain ⟨below, above⟩ := h
  have upTo : ∀ q, q ≤ p → t.store.pageList.count q = 1 := by
    intro q hq
    rcases Nat.eq_or_lt_of_le hq with e | hlt
    · rw [Fin.ext e]; exact one
    · exact (others q (Fin.ne_of_lt hlt)).1.trans (below q hlt)
  unfold sweepAfter
  split
  · refine ⟨fun q hq => upTo q (Nat.lt_succ_iff.1 hq), fun q hq => ?_⟩
    have hlt : p < q := Nat.lt_of_succ_le hq
    obtain ⟨count, inFree, inBad⟩ := others q (Fin.ne_of_gt hlt)
    obtain ⟨hfree, hcount, hbad⟩ := above q (Fin.le_of_lt hlt)
    exact ⟨fun hq => hfree (inFree hq), count ▸ hcount,
      fun hq => array hm q (Fin.ne_of_gt hlt) (hbad (inBad hq))⟩
  · intro _ q
    refine upTo q ?_
    have := q.isLt
    rw [Fin.le_def]; omega

/-- R23: what is known of an unclaimed page when its turn comes. -/
theorem sweep_unclaimed {p : PageNo} (ho : s.store.op = .scan n (.sweep p)) (h : s.scanPages (.sweep p))
    (hc : s.store.claimed p = false) :
    s.store.free.count p = 0 ∧ s.store.chains.toList.flatten.count p = 0 ∧ s.store.op.pages.count p = 0 ∧
      s.store.bad.count p ≤ 1 ∧ (p ∈ s.store.bad → badOnArray s.sram p) := by
  obtain ⟨-, above⟩ := h
  obtain ⟨hfree, hcount, hbad⟩ := above p (Fin.le_refl p)
  have hchains : p ∉ s.store.chains.toList.flatten := fun h => by
    rw [(Store.claimed_iff_mem _ _).2 h] at hc; cases hc
  rw [Store.count_pageList] at hcount
  refine ⟨List.count_eq_zero.2 hfree, List.count_eq_zero.2 hchains, ?_, by omega, hbad⟩
  rw [ho]; rfl

theorem count_singleton_of_ne {p q : PageNo} (h : q ≠ p) : [p].count q = 0 :=
  List.count_eq_zero.2 fun hq => h (List.mem_singleton.1 hq)

theorem mem_append_singleton_of_ne {l : List PageNo} {p q : PageNo} (h : q ≠ p) (hq : q ∈ l ++ [p]) : q ∈ l :=
  (List.mem_append.1 hq).resolve_right fun hq => h (List.mem_singleton.1 hq)

theorem Store.mem_freeAfter_of_ne {st : Store} {p q : PageNo} {v : HeaderVerify} (h : q ≠ p)
    (hq : q ∈ st.freeAfter p v) : q ∈ st.free := by
  cases v with
  | pass => exact mem_append_singleton_of_ne h hq
  | fail bad => exact hq

theorem Store.mem_badAfter_of_ne {st : Store} {p q : PageNo} {v : HeaderVerify} (h : q ≠ p)
    (hq : q ∈ st.badAfter p v) : q ∈ st.bad := by
  cases v with
  | pass => exact hq
  | fail bad =>
    unfold Store.badAfter at hq
    dsimp only at hq
    split at hq
    · exact hq
    · exact mem_append_singleton_of_ne h hq

theorem sweep_claimed_pagesLawful {p : PageNo} (hs : s.pagesLawful) (ho : s.store.op = .scan n (.sweep p))
    (hc : s.store.claimed p = true) : (s.setScan n' (sweepAfter p)).pagesLawful := by
  refine sweep_goesOn hs ho (SameEngine.refl.setScan _ _) rfl (fun _ h => ?_) (fun q _ => ?_)
    fun _ _ _ h => h
  · obtain ⟨-, hcount, -⟩ := h.2 p (Fin.le_refl p)
    have := List.count_pos_iff.2 ((Store.claimed_iff_mem _ _).1 hc)
    rw [Store.count_pageList, ho] at hcount
    rw [Store.count_pageList, State.setScan_store]
    simp only [Op.pages] at hcount ⊢
    omega
  · rw [Store.count_pageList, Store.count_pageList, ho]
    exact ⟨rfl, id, id⟩

/-- R23: a page outside the bad-page set is rewritten Free; one taken out of it before (log 31) is too. -/
theorem sweep_rewritten_pagesLawful {p : PageNo} {u : State} (v : HeaderVerify) (hs : s.pagesLawful)
    (ho : s.store.op = .scan n (.sweep p)) (hc : s.store.claimed p = false)
    (hu : u = s.withStore (s.store.recall p)) : ((u.freePage p v).setScan n' (sweepAfter p)).pagesLawful := by
  subst hu
  have recalled : p ∉ (s.store.recall p).bad := fun h => by simpa using (List.mem_filter.1 h).2
  have kept {q : PageNo} (hq : q ≠ p) : (s.store.recall p).bad.count q = s.store.bad.count q :=
    List.count_filter (by simpa using hq)
  refine sweep_goesOn hs ho (((SameEngine.refl.withStore _).freePage _ _).setScan _ _) rfl (fun _ h => ?_)
    (fun q hq => ?_) (fun hm q hq hb => ?_)
  · obtain ⟨hfree, hchains, hop, -, -⟩ := sweep_unclaimed ho h hc
    have freed := count_freeAfter_badAfter recalled v p
    rw [List.count_singleton_self, List.count_eq_zero.2 recalled] at freed
    have hfree : (s.store.recall p).free.count p = 0 := hfree
    have hchains : (s.store.recall p).chains.toList.flatten.count p = 0 := hchains
    rw [Store.count_pageList, State.setScan_store, State.freePage_store, State.withStore_store]
    simp only [Op.pages, List.count_nil]
    omega
  · have freed := count_freeAfter_badAfter recalled v q
    rw [count_singleton_of_ne hq, kept hq] at freed
    have hfree : (s.store.recall p).free.count q = s.store.free.count q := rfl
    have hchains : (s.store.recall p).chains = s.store.chains := rfl
    rw [Store.count_pageList, Store.count_pageList, State.setScan_store, State.freePage_store,
      State.withStore_store, ho, hchains]
    simp only [Op.pages, List.count_nil]
    exact ⟨by omega, fun h => Store.mem_freeAfter_of_ne (st := s.store.recall p) hq h,
      fun h => (List.mem_filter.1 (Store.mem_badAfter_of_ne (st := s.store.recall p) hq h)).1⟩
  · rw [State.setScan_sram, State.freePage_sram]
    exact badOnArray_rewritten_of_ne hm hq rfl v hb

theorem sweep_bad_pagesLawful {p : PageNo} (hs : s.pagesLawful) (ho : s.store.op = .scan n (.sweep p))
    (hc : s.store.claimed p = false) :
    ((s.withStore (s.store.retire p)).setScan n' (sweepAfter p)).pagesLawful := by
  rw [Store.retire_eq s.store p []]
  refine sweep_goesOn hs ho ((SameEngine.refl.withStore _).setScan _ _) rfl (fun _ h => ?_)
    (fun q hq => ?_) fun _ _ _ h => h
  · obtain ⟨hfree, hchains, hop, hone, -⟩ := sweep_unclaimed ho h hc
    have retired : (s.store.badAfter p (.fail [])).count p = 1 := by
      unfold Store.badAfter
      dsimp only
      split
      · next hp => have := List.count_pos_iff.2 hp; omega
      · next hp => rw [List.count_append, List.count_eq_zero.2 hp, List.count_singleton_self]
    rw [Store.count_pageList, State.setScan_store, State.withStore_store]
    simp only [Op.pages, List.count_nil]
    omega
  · have retired : (s.store.badAfter p (.fail [])).count q = s.store.bad.count q := by
      unfold Store.badAfter
      dsimp only
      split
      · rfl
      · rw [List.count_append, count_singleton_of_ne hq, Nat.add_zero]
    rw [Store.count_pageList, Store.count_pageList, State.setScan_store, State.withStore_store, ho]
    exact ⟨by simp only [retired, Op.pages], id,
      fun h => Store.mem_badAfter_of_ne (v := .fail []) hq h⟩

theorem sweep_free_pagesLawful {p : PageNo} (hs : s.pagesLawful) (ho : s.store.op = .scan n (.sweep p))
    (hc : s.store.claimed p = false) (hb : ¬ badOnArray s.sram p) :
    ((s.withStore (s.store.release p)).setScan n' (sweepAfter p)).pagesLawful := by
  refine sweep_goesOn hs ho ((SameEngine.refl.withStore _).setScan _ _) rfl (fun _ h => ?_)
    (fun q hq => ?_) fun _ _ _ h => h
  · obtain ⟨hfree, hchains, hop, -, hbad⟩ := sweep_unclaimed ho h hc
    have hbad : s.store.bad.count p = 0 := List.count_eq_zero.2 fun h => hb (hbad h)
    rw [Store.count_pageList, State.setScan_store, State.withStore_store, Store.release]
    simp only [Op.pages, List.count_nil, List.count_append, List.count_singleton_self]
    omega
  · rw [Store.count_pageList, Store.count_pageList, State.setScan_store, State.withStore_store, ho,
      Store.release]
    exact ⟨by simp only [List.count_append, count_singleton_of_ne hq, Nat.add_zero, Op.pages],
      mem_append_singleton_of_ne hq, id⟩

/-- R23: each row of the sweep leaves its page counted once. -/
theorem sweep_pagesLawful {p : PageNo} (v : HeaderVerify) (hs : s.pagesLawful)
    (ho : s.store.op = .scan n (.sweep p)) : (s.sweep n p v).pagesLawful := by
  cases hc : s.store.claimed p with
  | true => rw [State.sweep_claimed n v hc]; exact sweep_claimed_pagesLawful hs ho hc
  | false =>
    cases hp : hdrPasses s.sram p with
    | false => rw [State.sweep_failing n v hc hp]; exact sweep_rewritten_pagesLawful v hs ho hc rfl
    | true =>
      by_cases hbad : (readHdr s.sram p).state = PageState.bad.code
      · rw [State.sweep_bad n v hc hp hbad]; exact sweep_bad_pagesLawful hs ho hc
      · have notBad : ¬ badOnArray s.sram p := fun h => hbad (h hp)
        by_cases hfree : (readHdr s.sram p).state = PageState.free.code
        · rw [State.sweep_free n v hc hp hfree]; exact sweep_free_pagesLawful hs ho hc notBad
        · rw [State.sweep_used n v hc hp hfree hbad]
          have pages := ((pagesLawful_scan_iff ho).1 hs).pages
          obtain ⟨-, -, -, -, inBad⟩ := sweep_unclaimed ho pages hc
          have same := Store.recall_of_notMem s.store p fun h => notBad (inBad h)
          exact sweep_rewritten_pagesLawful v hs ho hc (by rw [same]; rfl)

/-! Step 7. -/

/-- R24: the publication leaves the pages as the sweep counted them. -/
theorem publish_pagesLawful (hs : s.pagesLawful) (ho : s.store.op = .scan n .publish) :
    (s.publish n).pagesLawful := by
  unfold State.publish
  refine scan_goesOn hs ho ((SameEngine.refl.withStore _).setScan _ _) rfl fun _ h hv => ?_
  refine (h hv).of_tally fun q => ?_
  rw [Store.count_pageList, Store.count_pageList, ho]
  rfl

end

end Sys2Proof.Machine
end

section
/-! SUPPORT. Proofs: page accounting through every store event and the start of a request (R27). -/
namespace Sys2Proof.Machine

/-! ### Every event of the store engine -/

/-- R14: the law is kept by every event of the store engine. -/
theorem StoreEvent.pagesLawful {s t : State} (h : StoreEvent s t) (hs : s.pagesLawful) : t.pagesLawful := by
  cases h with
  | readFilePage h => exact readFilePage_pagesLawful hs h
  | verifyPage h => exact verifyPage_pagesLawful hs h
  | readRawPage h => exact readRawPage_pagesLawful hs h
  | stageChunk v h => exact stageChunk_pagesLawful v hs h
  | rollback v h => exact rollbackPage_pagesLawful v hs h rfl ((pagesLawful_run_iff h).1 hs).place
  | rollbackFirst v h _ => exact rollbackPage_pagesLawful v hs h rfl ((pagesLawful_run_iff h).1 hs).place
  | @armCommit r c dev h =>
    have place : s.store.chains[c.file] = c.old := ((pagesLawful_run_iff h).1 hs).place
    exact putRecord_goesOn _ dev hs h id rfl place
  | armDelete dev h => exact putRecord_goesOn _ dev hs h id rfl trivial
  | commitEntry dev h => exact commitEntry_pagesLawful dev hs h
  | liveRewrite v h => exact liveRewrite_pagesLawful v hs h
  | breakFree v h => exact breakFree_pagesLawful v hs h
  | damagedEntry dev h => exact damagedEntry_pagesLawful dev hs h
  | freeOldCommit v h => exact freeOldCommit_pagesLawful v hs h
  | freeOldDelete v h => exact freeOldDelete_pagesLawful v hs h
  | clearCommit dev h => exact clearCommit_pagesLawful dev hs h
  | clearDelete dev h => exact clearDelete_pagesLawful dev hs h
  | deleteEntry dev h => exact deleteEntry_pagesLawful dev hs h
  | formatHeader dev h => exact putRecord_goesOn _ dev hs h id rfl ((pagesLawful_run_iff h).1 hs).place
  | formatJournal dev h => exact putRecord_goesOn _ dev hs h id rfl ((pagesLawful_run_iff h).1 hs).place
  | formatEntry dev h => exact formatEntry_pagesLawful dev hs h
  | formatPage v h => exact formatPage_pagesLawful v hs h
  | discardHeader dev h hb =>
    generalize discardHeader = w
    exact scan_goesOn hs h ((SameEngine.refl.putRecord _ _).setScan _ _) rfl fun _ => id
  | clearBatteryLost h => exact scan_goesOn hs h ⟨rfl, rfl, rfl, rfl, id⟩ rfl fun _ _ => nofun
  | headerRead h hb =>
    refine scan_goesOn hs h ((SameEngine.refl.withStore _).setScan _ _) rfl fun _ pages => ?_
    cases hv : headerValid s.sram with
    | true => exact pages
    | false => exact fun verdict => nomatch (verdict : false = true)
  | journalClear h _ | journalArmed h _ =>
    refine scan_goesOn hs h (SameEngine.refl.setScan _ _) rfl fun _ ⟨hfree, hbad, hchains⟩ => ?_
    refine ⟨hfree, hchains, ?_, ?_⟩
    · rw [State.setScan_store, hbad]; exact List.nodup_nil
    · rw [State.setScan_store, hbad]; exact nofun
  | rollEntry dev h => exact rollEntry_pagesLawful dev hs h
  | rollOld v h => exact rollOld_pagesLawful v hs h
  | rollLive v h => exact rollLive_pagesLawful v hs h
  | rollClear dev h => exact rollClear_pagesLawful dev hs h
  | scanEntry dev h => exact scanEntry_pagesLawful dev hs h
  | scanWalk dev h => exact scanWalk_pagesLawful dev hs h
  | sweep v h => exact sweep_pagesLawful v hs h
  | publish h => exact publish_pagesLawful hs h

/-! ### The start of a request (R27) -/

theorem no_chains : (Vector.replicate 16 ([] : List PageNo)).toList.flatten = [] := by decide

/-- What holds of an engine at rest in Full, whatever the store cell holds. -/
structure State.RestLawful (s : State) : Prop where
  full : s.supplyState = .full
  op : s.store.op = .none
  waiting : s.store.waiting = none
  status : s.store.status = .ready ∨ s.store.status = .unformatted ∨ s.store.status = .quiesced
  held : s.store.status = .quiesced → s.store.hold = true
  wf : Memory.wf s.sram = true
  counted : s.store.status = .ready ∨ s.store.status = .quiesced → s.store.allCounted

/-- What holds when the engine starts a block that the store cell has taken. -/
structure State.StartLawful (s : State) (b : Block) : Prop extends s.RestLawful where
  cell : s.port.store.hold = .busy b

section
variable {s : State} {b : Block}

/-- With no block in work an engine at rest meets the law. -/
theorem State.RestLawful.pagesLawful (h : s.RestLawful) (hcell : ¬ s.port.store.hold.isBusy) :
    s.pagesLawful :=
  (pagesLawful_idle_iff h.op).2
    { on := fun _ e => by simpa [e] using h.status
      held := h.held
      notScanning := fun e => by simpa [e] using h.status
      notBusy := fun e => by simpa [e] using h.status
      cell := hcell
      waiting := h.waiting
      wf := h.wf
      counted := h.counted }

/-- A block that ends at its start event leaves the engine at rest. -/
theorem State.StartLawful.terminate (h : s.StartLawful b) (a : Answer) :
    (s.terminate .store b a).pagesLawful :=
  State.RestLawful.pagesLawful (s := s.terminate .store b a)
    ⟨h.full, h.op, h.waiting, h.status, h.held, h.wf, h.counted⟩ id

theorem State.StartLawful.putRam (h : s.StartLawful b) (x : Nat) (bs : List Byte) :
    (s.putRam x bs).StartLawful b :=
  ⟨⟨h.full, h.op, h.waiting, h.status, h.held, h.wf, h.counted⟩, h.cell⟩

theorem State.StartLawful.answerWith (h : s.StartLawful b) (k : Nat) (bs : List Byte) (a : Answer) :
    (s.answerWith .store b k bs a).pagesLawful := (h.putRam _ _).terminate a

/-- R27, R15: a request that begins holds no pages at its first place. -/
theorem State.StartLawful.startRun (h : s.StartLawful b) {j : Job}
    (hruns : j.runsIn (if s.store.status = .ready then .busy else s.store.status))
    (hpages : ∀ r, (Op.run r j).pages = []) (hplace : ∀ op status, j.accounts { s.store with
      op := op, status := status }) : (s.startRun b j).pagesLawful := by
  refine (pagesLawful_run_iff (s := s.startRun b j) rfl).2
    { full := h.full, cell := h.cell, waiting := h.waiting, runs := hruns, wf := h.wf,
      counted := fun hb => ?_, place := hplace _ _ }
  have ready : s.store.status = .ready := by
    have hb : (if s.store.status = .ready then StoreState.busy else s.store.status) = .busy := hb
    split at hb
    · assumption
    · have := h.status; rw [hb] at this; simp at this
  refine (h.counted (.inl ready)).of_tally fun q => ?_
  rw [Store.count_pageList, Store.count_pageList, h.op]
  simp only [State.startRun, State.withStore_store, hpages]
  rfl

theorem State.StartLawful.refuseStore (h : s.StartLawful b) (st : Status) :
    (s.refuseStore b st).pagesLawful := h.terminate _

/-- R27: a check of a request ends the block, or the request goes on with what the check found. -/
theorem State.StartLawful.refuse_or (h : s.StartLawful b) {c : Prop} [Decidable c] {st : Status} {t : State}
    (ht : ¬ c → t.pagesLawful) : (if c then s.refuseStore b st else t).pagesLawful := by
  split
  · exact h.refuseStore _
  · next hc => exact ht hc

theorem readEntryReq_pagesLawful (h : s.StartLawful b) : (s.readEntryReq b).pagesLawful := by
  unfold State.readEntryReq
  dsimp only
  split
  · exact h.refuseStore _
  · exact h.refuse_or fun _ => h.refuse_or fun _ => h.answerWith _ _ _

/-- R44: a format begins with every page given up. -/
theorem formatReq_pagesLawful (h : s.StartLawful b) : (s.formatReq b).pagesLawful :=
  (pagesLawful_run_iff (s := s.formatReq b) (j := .format .header) rfl).2
    { full := h.full, cell := h.cell, waiting := h.waiting, runs := rfl, wf := h.wf, counted := nofun,
      place := ⟨rfl, rfl, no_chains⟩ }

theorem readStoreStatus_pagesLawful (h : s.StartLawful b) : (s.readStoreStatus b).pagesLawful :=
  State.StartLawful.answerWith (s := s.withStore { s.store with storeDamaged := false })
    ⟨⟨h.full, h.op, h.waiting, h.status, h.held, h.wf, h.counted⟩, h.cell⟩ _ _ _

/-- R27: a request of a formatted store that begins under no hold finds it Ready. -/
theorem runsIn_busy (h : s.StartLawful b) (hq : s.store.status ≠ .quiesced)
    (hu : ¬ s.store.status = .unformatted) :
    (if s.store.status = .ready then StoreState.busy else s.store.status) = .busy :=
  if_pos (h.status.resolve_right fun e => e.elim hu hq)

section
variable (h : s.StartLawful b) (hq : s.store.status ≠ .quiesced)
include h hq

theorem readFileReq_pagesLawful : (s.readFileReq b).pagesLawful := by
  unfold State.readFileReq
  dsimp only
  split
  · exact h.refuseStore _
  · refine h.refuse_or fun _ => h.refuse_or fun hu => h.refuse_or fun _ => h.refuse_or fun _ =>
      h.refuse_or fun _ => ?_
    split
    · exact h.terminate _
    · exact h.startRun (runsIn_busy h hq hu) (fun _ => rfl) fun _ _ => trivial

theorem commitReq_pagesLawful : (s.commitReq b).pagesLawful := by
  unfold State.commitReq
  dsimp only
  split
  · exact h.refuseStore _
  · refine h.refuse_or fun _ => h.refuse_or fun hu => h.refuse_or fun _ => h.refuse_or fun _ =>
      h.refuse_or fun _ => h.refuse_or fun _ => h.startRun (runsIn_busy h hq hu) (fun _ => ?_) fun _ _ => ?_
    · split <;> rfl
    · split <;> rfl

theorem deleteReq_pagesLawful : (s.deleteReq b).pagesLawful := by
  unfold State.deleteReq
  dsimp only
  split
  · exact h.refuseStore _
  · exact h.refuse_or fun _ => h.refuse_or fun hu => h.refuse_or fun _ => h.refuse_or fun _ =>
      h.startRun (runsIn_busy h hq hu) (fun _ => rfl) fun _ _ => trivial

theorem verifyReq_pagesLawful : (s.verifyReq b).pagesLawful := by
  unfold State.verifyReq
  dsimp only
  split
  · exact h.refuseStore _
  · refine h.refuse_or fun hu => h.refuse_or fun _ => ?_
    split
    · exact h.terminate _
    · exact h.startRun (runsIn_busy h hq hu) (fun _ => rfl) fun _ _ => trivial

theorem readRawReq_pagesLawful : (s.readRawReq b).pagesLawful := by
  unfold State.readRawReq
  dsimp only
  split
  · exact h.refuseStore _
  · refine h.startRun ?_ (fun _ => rfl) fun _ _ => trivial
    by_cases hu : s.store.status = .unformatted
    · exact .inr (by rw [hu]; rfl)
    · exact .inl (runsIn_busy h hq hu)

end

/-- R27: under the hold of a Quiesced store only reads of the entry and of the status start. -/
theorem startStore_pagesLawful (h : s.StartLawful b) : (s.startStore b).pagesLawful := by
  unfold State.startStore
  split
  · exact h.refuseStore _
  · refine h.refuse_or fun _ => h.refuse_or fun hheld => ?_
    have hq : s.opcode b ≠ 1 → s.opcode b ≠ 8 → s.store.status ≠ .quiesced := by
      intro h1 h8 e
      refine hheld ⟨?_, h1, h8⟩
      rw [Store.refusesHeld, Store.held, h.held e, e]
      rfl
    unfold State.storeRequest
    split
    · exact readEntryReq_pagesLawful h
    · next e => exact readFileReq_pagesLawful h (hq (by omega) (by omega))
    · next e => exact commitReq_pagesLawful h (hq (by omega) (by omega))
    · next e => exact deleteReq_pagesLawful h (hq (by omega) (by omega))
    · next e => exact verifyReq_pagesLawful h (hq (by omega) (by omega))
    · next e => exact readRawReq_pagesLawful h (hq (by omega) (by omega))
    · exact formatReq_pagesLawful h
    · exact readStoreStatus_pagesLawful h

end

end Sys2Proof.Machine
end

section
/-! SUPPORT. Proofs: page accounting through the store cell, aborts and the purge reply (R27, R143 to R145). -/
namespace Sys2Proof.Machine

/-! ### The store cell (R27, R143 to R145) -/

section
variable {s t : State} {b : Block}

/-- R27: during a scan the block that waits, and the cell that holds it, change together. -/
theorem scan_rewaits {n : ScanNotes} {ph : ScanPhase} (hs : s.pagesLawful) (ho : s.store.op = .scan n ph)
    (hsupply : t.supply = s.supply) (hsram : t.sram = s.sram) (hop : t.store.op = s.store.op)
    (h : s.store.SameAccount t.store) (hstatus : t.store.status = s.store.status)
    (waits : t.store.waitsFor t.port.store.hold) :
    t.pagesLawful := by
  have law := (pagesLawful_scan_iff ho).1 hs
  exact (pagesLawful_scan_iff (hop.trans ho)).2
    { full := (congrArg Supply.state hsupply).trans law.full, status := hstatus.trans law.status,
      waits := waits, wf := hsram ▸ law.wf, pages := (scanPages_of_sameAccount h hsram ph).mpr law.pages }

/-- R27: a block that the cell takes waits for the end of the scan, or starts. -/
theorem take_store_pagesLawful {v : Word} (hs : s.pagesLawful) (h : s.canTake .store v b) :
    ((s.accepted .store b).runStore b).pagesLawful := by
  obtain ⟨hfull, hidle, -⟩ := h
  have hidle : s.port.store.hold = .idle := hidle
  unfold State.runStore
  cases ho : s.store.op with
  | none =>
    have law := (pagesLawful_idle_iff ho).1 hs
    rw [if_neg (show (s.accepted .store b).store.status ≠ .scanning from law.notScanning)]
    refine startStore_pagesLawful ⟨⟨hfull, ho, law.waiting, ?_, law.held, law.wf, law.counted⟩, rfl⟩
    have notOff := law.on hfull
    have notScanning := law.notScanning
    have notBusy := law.notBusy
    show s.store.status = .ready ∨ s.store.status = .unformatted ∨ s.store.status = .quiesced
    cases e : s.store.status <;> simp_all
  | scan n ph =>
    have law := (pagesLawful_scan_iff ho).1 hs
    rw [if_pos (show (s.accepted .store b).store.status = .scanning from law.status)]
    exact scan_rewaits hs ho rfl rfl rfl ⟨rfl, rfl, rfl, rfl, rfl⟩ rfl rfl
  | run r j =>
    have law := (pagesLawful_run_iff ho).1 hs
    rw [law.cell] at hidle
    cases hidle

/-- R143: what a request of another cell does is not in the law. -/
theorem SameStore.of_cellMoves (h : CellMoves s t) : SameStore s t := by
  have frame := CellFrame.ofMoves h
  exact ⟨congrArg Supply.state frame.supply, congrArg CellReg.hold frame.storeCell, frame.sram, frame.store⟩

theorem take_pagesLawful {c : CellId} {v : Word} (hs : s.pagesLawful) (h : s.canTake c v b) :
    ((s.accepted c b).runUnit c b).pagesLawful := by
  have accepted (hc : c ≠ .store) : CellMoves s (s.accepted c b) := .setCell _ .refl hc
  cases c with
  | store => exact take_store_pagesLawful hs h
  | calendar => exact (SameStore.of_cellMoves ((accepted (by decide)).runCalendar b)).pagesLawful hs
  | sound => exact (SameStore.of_cellMoves ((accepted (by decide)).runSound b)).pagesLawful hs
  | rumble => exact (SameStore.of_cellMoves ((accepted (by decide)).runRumble b)).pagesLawful hs

/-- R145: an acknowledge frees a cell whose block was answered. -/
theorem acknowledged_pagesLawful {c : CellId} (hs : s.pagesLawful) (hp : (s.cell c).hold = .pending b) :
    (s.setCell c { s.cell c with hold := .idle }).pagesLawful := by
  cases c with
  | calendar | sound | rumble => exact SameStore.pagesLawful ⟨rfl, rfl, rfl, rfl⟩ hs
  | store =>
    have hp : s.port.store.hold = .pending b := hp
    cases ho : s.store.op with
    | none =>
      have law := (pagesLawful_idle_iff ho).1 hs
      exact (pagesLawful_idle_iff (s := s.setCell .store { s.port.store with hold := .idle }) ho).2
        ⟨law.on, law.held, law.notScanning, law.notBusy, id, law.waiting, law.wf, law.counted⟩
    | scan n ph =>
      have waits := ((pagesLawful_scan_iff ho).1 hs).waits
      refine scan_rewaits hs ho rfl rfl rfl ⟨rfl, rfl, rfl, rfl, rfl⟩ rfl ?_
      unfold Store.waitsFor at waits ⊢
      rw [State.setCell_store]
      cases hw : s.store.waiting with
      | none => exact id
      | some b' => rw [hw, hp] at waits; cases waits
    | run r j =>
      have cell := ((pagesLawful_run_iff ho).1 hs).cell
      rw [hp] at cell
      cases cell

/-- R48: an abort of a commit marks it, makes it say AbortLate, or has it roll back. -/
theorem abortCommit_pagesLawful {r : Run} {c : Commit} {ph : CommitPhase} (hs : s.pagesLawful)
    (ho : s.store.op = .run r (.commit c ph)) : (s.abortCommit r c ph).pagesLawful := by
  have place : c.chainsLawful s.store ph := ((pagesLawful_run_iff ho).1 hs).place
  have marked (r' : Run) (hblk : r'.blk = r.blk) : (s.setJob r' (.commit c ph)).pagesLawful :=
    commit_goesOn hs ho .refl ⟨rfl, rfl, rfl⟩ rfl place hblk
  unfold State.abortCommit
  split
  · exact marked _ rfl
  · split
    · exact marked _ rfl
    · exact enterRollback_pagesLawful (commit_goesOn hs ho .refl ⟨rfl, rfl, rfl⟩ rfl place)
  · split
    · exact hs
    · exact marked _ rfl
  all_goals exact marked _ rfl

/-- R26, R47, R48: an abort request. -/
theorem abortStore_pagesLawful (hs : s.pagesLawful) : s.abortStore.pagesLawful := by
  unfold State.abortStore
  split
  · exact hs
  · next n ph ho =>
    split
    · exact scan_rewaits hs ho rfl rfl rfl ⟨rfl, rfl, rfl, rfl, rfl⟩ rfl id
    · exact hs
  · next r j ho =>
    have marked (r' : Run) (hblk : r'.blk = r.blk) : (s.setJob r' j).pagesLawful := by
      have pages : (Op.run r' j).pages = (Op.run r j).pages := by cases j <;> rfl
      have account : s.store.SameAccount { s.store with op := .run r' j } :=
        ⟨rfl, rfl, rfl, rfl, by rw [ho]; exact pages⟩
      exact goesOn_of_samePages hs ho .refl ⟨rfl, rfl, rfl⟩ id pages
        ((account.accounts j).mpr ((pagesLawful_run_iff ho).1 hs).place) hblk
    cases j with
    | commit c ph => exact abortCommit_pagesLawful hs ho
    | readFile _ _ _ _ _ _ | verify _ _ _ | readRaw _ _ _ _ | delete _ _ | format _ => exact marked _ rfl

/-! ### The purge reply (R24, R41, R45) -/

/-- R24, R25, R16: the store state in which the scan ends. -/
theorem Store.scanEnd_status_cases (st : Store) (n : ScanNotes) :
    ((st.scanEnd n).status = .ready ∧ st.verdict = true) ∨ (st.scanEnd n).status = .unformatted ∨
      ((st.scanEnd n).status = .quiesced ∧ st.verdict = true ∧ st.hold = true) := by
  unfold Store.scanEnd
  cases st.verdict <;> cases st.hold <;> simp

/-- R24: when the scan has ended the engine is at rest, with its pages counted if the store is formatted. -/
theorem scanEnd_restLawful {n : ScanNotes} (hs : s.pagesLawful) (ho : s.store.op = .scan n .purging) :
    (s.withStore (s.store.scanEnd n)).settleQuiesce.RestLawful := by
  have law := (pagesLawful_scan_iff ho).1 hs
  have formatted : s.store.verdict = true → (s.store.scanEnd n).allCounted := fun hv =>
    (law.pages hv).of_tally fun q => by rw [Store.count_pageList, Store.count_pageList, ho]; rfl
  have status := Store.scanEnd_status_cases s.store n
  refine ⟨(congrArg Supply.state (State.settleQuiesce_supply _)).trans law.full, ?op, ?waiting, ?status,
    ?held, ?wf, ?counted⟩
  case wf => rw [State.settleQuiesce_sram]; exact law.wf
  all_goals rw [State.settleQuiesce_store, State.withStore_store]
  case op => rfl
  case waiting => rfl
  case status =>
    rcases status with ⟨e, -⟩ | e | ⟨e, -, -⟩
    · exact .inl e
    · exact .inr (.inl e)
    · exact .inr (.inr e)
  case held =>
    intro hq
    rcases status with ⟨e, -⟩ | e | ⟨-, -, hh⟩
    · rw [hq] at e; cases e
    · rw [hq] at e; cases e
    · exact hh
  case counted =>
    intro hr
    rcases status with ⟨-, hv⟩ | e | ⟨-, hv, -⟩
    · exact formatted hv
    · rw [e] at hr; rcases hr with h | h <;> cases h
    · exact formatted hv

/-- R24, R27: the scan ends, and a block that has waited starts or ends QUIESCED. -/
theorem scanEnd_pagesLawful {n : ScanNotes} (hs : s.pagesLawful) (ho : s.store.op = .scan n .purging) :
    (s.scanEnd n).pagesLawful := by
  have rest := scanEnd_restLawful hs ho
  have waits := ((pagesLawful_scan_iff ho).1 hs).waits
  unfold Store.waitsFor at waits
  rw [← State.withStore_port s (s.store.scanEnd n),
    ← State.settleQuiesce_port (s.withStore (s.store.scanEnd n))] at waits
  unfold State.scanEnd
  dsimp only
  split
  · next hw =>
    rw [hw] at waits
    exact rest.pagesLawful waits
  · next b hw =>
    rw [hw] at waits
    split
    · exact State.StartLawful.refuseStore ⟨rest, waits⟩ _
    · exact startStore_pagesLawful ⟨rest, waits⟩

/-- R41: the purge reply ends a delete. -/
theorem deleteEnd_pagesLawful {r : Run} {f : FileNo} (hs : s.pagesLawful)
    (ho : s.store.op = .run r (.delete f .purging)) (k : Nat) : (s.deleteEnd r k).pagesLawful := by
  unfold State.deleteEnd
  refine endRun_of_pagesLawful (j := .delete f .purging) ?_ rfl _ _ _
  exact goesOn_of_samePages hs ho (SameEngine.refl.withStore _) ⟨rfl, rfl, rfl⟩ id rfl trivial

/-- R45: the purge reply ends a format, with every page counted. -/
theorem formatEnd_pagesLawful {r : Run} {bad : Nat} (hs : s.pagesLawful)
    (ho : s.store.op = .run r (.format (.purging bad))) : (s.formatEnd r bad).pagesLawful := by
  have law := (pagesLawful_run_iff ho).1 hs
  have counted : s.store.allCounted := law.place
  unfold State.formatEnd
  refine endRun_pagesLawful
    (u := s.withStore { s.store with verdict := true, purgeReply := none, status := .busy })
    (.inl rfl) law.waiting law.wf (fun _ => counted.of_tally fun q => ?_) _ _ _
  rw [Store.count_pageList, Store.count_pageList, ho]
  rfl

theorem purgeReplied_pagesLawful (hs : s.pagesLawful) : s.purgeReplied.pagesLawful := by
  unfold State.purgeReplied
  split
  · exact hs
  · split
    · next ho => exact scanEnd_pagesLawful hs ho
    · next ho => exact deleteEnd_pagesLawful hs ho _
    · next ho => exact formatEnd_pagesLawful hs ho
    · exact hs

end

end Sys2Proof.Machine
end

section
/-! SUPPORT. Proofs: page accounting through supply events, quiesce, the link, and every step (O58). -/
namespace Sys2Proof.Machine

/-! ### Supply events (R165 to R169) -/

section
variable {s t : State}

/-- R166: at Full entry the scan stands at its begin with nothing counted. -/
theorem fullEntry_pagesLawful (hfull : s.supplyState = .full) (hwf : Memory.wf s.sram = true) :
    s.fullEntry.pagesLawful :=
  (pagesLawful_scan_iff (s := s.fullEntry) rfl).2
    { full := hfull, status := rfl, waits := id, wf := hwf, pages := ⟨rfl, rfl, no_chains⟩ }

/-- R15: without power the engine is Off with nothing in flight (log 3). -/
theorem unpowered_pagesLawful (hfull : s.supplyState ≠ .full) (hstore : s.store = .unpowered)
    (hport : s.port = .reset) (hwf : Memory.wf s.sram = true) : s.pagesLawful := by
  refine (pagesLawful_idle_iff (by rw [hstore]; rfl)).2
    { on := fun h => absurd h hfull, held := ?_, notScanning := ?_, notBusy := ?_, cell := ?_,
      waiting := ?_, wf := hwf, counted := ?_ }
  · rw [hstore]; exact nofun
  · rw [hstore]; exact nofun
  · rw [hstore]; exact nofun
  · rw [hport]; exact id
  · rw [hstore]; rfl
  · rw [hstore]; rintro (h | h) <;> cases h

/-- Between supply states other than Full the law stands, whatever becomes of the page array. -/
theorem powerless_pagesLawful (hs : s.pagesLawful) (hbefore : s.supplyState ≠ .full)
    (hafter : t.supplyState ≠ .full) (hstore : t.store = s.store) (hport : t.port = s.port)
    (hwf : Memory.wf t.sram = true) : t.pagesLawful := by
  have ho : s.store.op = .none := hs.1.1 hbefore
  have law := (pagesLawful_idle_iff ho).1 hs
  refine (pagesLawful_idle_iff (hstore ▸ ho)).2
    { on := fun h => absurd h hafter, held := ?_, notScanning := ?_, notBusy := ?_, cell := ?_,
      waiting := ?_, wf := hwf, counted := ?_ }
  · rw [hstore]; exact law.held
  · rw [hstore]; exact law.notScanning
  · rw [hstore]; exact law.notBusy
  · rw [hport]; exact law.cell
  · rw [hstore]; exact law.waiting
  · rw [hstore]; exact law.counted

/-- R3: a write cut short keeps the page array's canonical form. -/
theorem cutWrite_wf (hwf : Memory.wf s.sram = true) (cut : WriteCut) : Memory.wf (s.cutWrite cut).sram = true := by
  unfold State.cutWrite
  split
  · exact hwf
  · exact Memory.writes_wf hwf _ _

theorem cutWrite_supplyState (s : State) (cut : WriteCut) : (s.cutWrite cut).supplyState = s.supplyState := by
  rw [State.cutWrite_frame]; rfl

/-- R152: a part restart begins a scan over the array as the supply loss left it. -/
theorem restart_pagesLawful (hfull : s.supplyState = .full) (hwf : Memory.wf s.sram = true) (cut : WriteCut) :
    (s.restart cut).pagesLawful :=
  fullEntry_pagesLawful (s := s.supplyLoss cut) ((cutWrite_supplyState s cut).trans hfull) (cutWrite_wf hwf cut)

/-- R165: the supply events of a change of supply state, each from a law that stood before it. -/
theorem supplyEvents_pagesLawful {u : State} (hs : s.pagesLawful) (hstore : u.store = s.store)
    (hport : u.port = s.port) (hsram : u.sram = s.sram) (cut : WriteCut) :
    (u.supplyEvents s.supplyState u.supplyState cut).pagesLawful := by
  have hwf : Memory.wf u.sram = true := hsram ▸ hs.2.1
  have down (ha : u.supplyState = .dead) : u.powerDown.pagesLawful :=
    unpowered_pagesLawful (s := u.powerDown) (fun h => nomatch ha.symm.trans h) rfl rfl rfl
  have kept {t : State} (hb : s.supplyState ≠ .full) (ht : t.supplyState = u.supplyState)
      (ha : u.supplyState ≠ .full) (hst : t.store = u.store) (hpt : t.port = u.port)
      (hm : Memory.wf t.sram = true) : t.pagesLawful :=
    powerless_pagesLawful hs hb (ht ▸ ha) (hst.trans hstore) (hpt.trans hport) hm
  cases hb : s.supplyState with
  | full =>
    cases ha : u.supplyState with
    | full => exact SameStore.pagesLawful ⟨ha.trans hb.symm, congrArg (·.store.hold) hport, hsram, hstore⟩ hs
    | standby | backup =>
      have lost : (u.supplyLoss cut).supplyState ≠ .full := by
        rw [show (u.supplyLoss cut).supplyState = u.supplyState from cutWrite_supplyState u cut, ha]; decide
      exact unpowered_pagesLawful lost rfl rfl (cutWrite_wf hwf cut)
    | dead => exact down ha
  | standby =>
    have before : s.supplyState ≠ .full := by rw [hb]; decide
    cases ha : u.supplyState with
    | full => exact fullEntry_pagesLawful ha hwf
    | standby => exact kept before rfl (by rw [ha]; decide) rfl rfl hwf
    | backup => exact kept (t := u.backupEntry) before rfl (by rw [ha]; decide) rfl rfl hwf
    | dead => exact down ha
  | backup =>
    have before : s.supplyState ≠ .full := by rw [hb]; decide
    cases ha : u.supplyState with
    | full => exact fullEntry_pagesLawful (s := u.keepPowerUp) ha hwf
    | standby => exact kept (t := u.keepPowerUp) before rfl (by rw [ha]; decide) rfl rfl hwf
    | backup => exact kept before rfl (by rw [ha]; decide) rfl rfl hwf
    | dead => exact down ha
  | dead =>
    have before : s.supplyState ≠ .full := by rw [hb]; decide
    cases ha : u.supplyState with
    | full => exact fullEntry_pagesLawful (s := u.coldStart.keepPowerUp) ha rfl
    | standby => exact kept (t := u.coldStart.keepPowerUp) before rfl (by rw [ha]; decide) rfl rfl rfl
    | backup => exact kept (t := u.coldStart) before rfl (by rw [ha]; decide) rfl rfl rfl
    | dead => exact kept before rfl (by rw [ha]; decide) rfl rfl hwf

theorem setRail_pagesLawful (hs : s.pagesLawful) (rail : Rail) (mv : Nat) (cut : WriteCut) :
    (s.setRail rail mv cut).pagesLawful := by
  unfold State.setRail
  exact supplyEvents_pagesLawful
    (u := { s with supply := (s.supply.setRail rail mv).trackCellLow rail }) hs rfl rfl rfl cut

/-! ### Purges, quiesce and resume (R83, R16) -/

theorem purge_pagesLawful (hs : s.pagesLawful) : s.purge.pagesLawful := by
  unfold State.purge
  split
  · exact hs
  · exact pagesLawful_of_sameAccount hs rfl rfl rfl rfl ⟨rfl, rfl, rfl, rfl, rfl⟩ rfl (.inl rfl) id

/-- R16: a quiesce holds a Ready store Quiesced. -/
theorem quiesce_pagesLawful (hs : s.pagesLawful) (hstate : t.supplyState = s.supplyState)
    (hport : t.port = s.port) (hsram : t.sram = s.sram) (hstore : t.store = s.store.quiesce) :
    t.pagesLawful := by
  refine pagesLawful_of_sameAccount hs hstate (hport ▸ rfl) hsram (hstore ▸ rfl)
    (hstore ▸ ⟨rfl, rfl, rfl, rfl, rfl⟩) (hstore ▸ rfl) ?_ fun _ _ => (by rw [hstore]; rfl)
  rw [hstore, Store.quiesce]
  by_cases h : s.store.status = .ready
  · exact .inr ⟨.inl h, .inr (if_pos h)⟩
  · exact .inl (if_neg h)

/-- R16: a resume makes a Quiesced store Ready. -/
theorem resume_pagesLawful (hs : s.pagesLawful) (hstate : t.supplyState = s.supplyState)
    (hport : t.port = s.port) (hsram : t.sram = s.sram) (hstore : t.store = s.store.resume) :
    t.pagesLawful := by
  refine pagesLawful_of_sameAccount hs hstate (hport ▸ rfl) hsram (hstore ▸ rfl)
    (hstore ▸ ⟨rfl, rfl, rfl, rfl, rfl⟩) (hstore ▸ rfl) ?_ ?_
  · rw [hstore, Store.resume]
    by_cases h : s.store.status = .quiesced
    · exact .inr ⟨.inr h, .inl (if_pos h)⟩
    · exact .inl (if_neg h)
  · rw [hstore, Store.resume]
    intro _ hq
    dsimp only at hq
    split at hq
    · cases hq
    · contradiction

/-! ### The other units and the standby link -/

theorem SameStore.refl : SameStore s s := ⟨rfl, rfl, rfl, rfl⟩

theorem SameStore.settleQuiesce (h : SameStore s t) : SameStore s t.settleQuiesce := by
  rcases State.settleQuiesce_cases t with e | ⟨-, -, e⟩
  · rw [e]; exact h
  · rw [e]; exact ⟨h.state, h.cell, h.sram, h.store⟩

theorem SameStore.withSound (h : SameStore s t) (so : Sound) : SameStore s (t.withSound so) :=
  ⟨h.state, h.cell, h.sram, h.store⟩

theorem SameStore.withRumble (h : SameStore s t) (r : Rumble) : SameStore s (t.withRumble r) :=
  ⟨h.state, h.cell, h.sram, h.store⟩

/-- R97: a production event, with its beat event or its ramp's end. -/
theorem SameStore.produce (s : State) : SameStore s s.produce := by
  unfold State.produce
  dsimp only
  split
  · split
    · exact ((SameStore.refl.withSound _).withSound _).withRumble _
    · exact SameStore.refl.withSound _
  · split
    · exact ((SameStore.refl.withSound _).withSound _).settleQuiesce
    · exact SameStore.refl.withSound _

theorem quiesceAll_pagesLawful (hs : s.pagesLawful) : s.quiesceAll.pagesLawful := by
  unfold State.quiesceAll
  split
  · refine (SameStore.refl.settleQuiesce).pagesLawful ?_
    unfold State.soundQuiesce
    dsimp only
    split <;> exact quiesce_pagesLawful hs rfl rfl rfl rfl
  · exact hs
  · exact hs

theorem commandEffect_pagesLawful (hs : s.pagesLawful) (c : LinkCmd) : (s.commandEffect c).pagesLawful := by
  cases c with
  | quiesce => exact quiesceAll_pagesLawful hs
  | resume => exact resume_pagesLawful hs rfl rfl rfl rfl
  | wakeAck => exact SameStore.pagesLawful ⟨rfl, rfl, rfl, rfl⟩ hs
  | status | cal | nextDue | firedHead | setCap => exact hs

theorem withLink_pagesLawful (hs : s.pagesLawful) (l : Link) : (s.withLink l).pagesLawful :=
  SameStore.pagesLawful ⟨rfl, rfl, rfl, rfl⟩ hs

/-- R154 to R162: a byte on the link touches the store at most by a quiesce or a resume. -/
theorem linkByte_pagesLawful (hs : s.pagesLawful) (b : Byte) : (s.linkByte b).pagesLawful := by
  unfold State.linkByte
  split
  · exact hs
  · unfold State.addressByte
    split
    · exact withLink_pagesLawful hs _
    · split <;> exact withLink_pagesLawful hs _
  · unfold State.commandByte
    split
    · split
      · exact withLink_pagesLawful (commandEffect_pagesLawful hs _) _
      · exact withLink_pagesLawful hs _
    · exact withLink_pagesLawful hs _
  · unfold State.argumentByte
    split
    · refine withLink_pagesLawful ?_ _
      unfold State.writeCap
      dsimp only
      split
      · exact SameStore.pagesLawful ⟨rfl, rfl, rfl, rfl⟩ hs
      · exact withLink_pagesLawful hs _
    · exact withLink_pagesLawful hs _
  · exact withLink_pagesLawful hs _
  · exact hs
  · exact withLink_pagesLawful hs _

/-- R72: a second event, with the firing that it brings. -/
theorem crystalEdge_pagesLawful (hs : s.pagesLawful) : s.crystalEdge.pagesLawful := by
  unfold State.crystalEdge
  split
  · exact SameStore.pagesLawful ⟨rfl, rfl, rfl, rfl⟩ hs
  · split <;> exact SameStore.pagesLawful ⟨rfl, rfl, rfl, rfl⟩ hs
  · split
    · exact SameStore.pagesLawful ⟨rfl, rfl, rfl, rfl⟩ hs
    · exact (SameStore.of_cellMoves CellMoves.refl.secondEvent).pagesLawful hs

/-! ### Every command -/

/-- R14: the law of the pages is kept by everything that a command can do. -/
theorem Effect.pagesLawful (h : Effect s t) (hs : s.pagesLawful) : t.pagesLawful := by
  cases h with
  | same => exact hs
  | rail rail mv cut => exact setRail_pagesLawful hs rail mv cut
  | restart cut hfull => exact restart_pagesLawful hfull hs.2.1 cut
  | crystal => exact crystalEdge_pagesLawful hs
  | second => exact (SameStore.of_cellMoves CellMoves.refl.secondEvent).pagesLawful hs
  | purge => exact purge_pagesLawful hs
  | purgeReplied => exact purgeReplied_pagesLawful hs
  | store h => exact h.pagesLawful hs
  | produce => exact (SameStore.produce s).pagesLawful hs
  | take h => exact take_pagesLawful hs h
  | acknowledged c _ hp => exact acknowledged_pagesLawful hs hp
  | abort => exact abortStore_pagesLawful hs
  | wire b => exact linkByte_pagesLawful hs b
  | refused c => cases c <;> exact SameStore.pagesLawful ⟨rfl, rfl, rfl, rfl⟩ hs
  | detector | settled | cue | play | pull | wrap | unit | motorLevel | trip | enable | ram | start | stop =>
    exact SameStore.pagesLawful ⟨rfl, rfl, rfl, rfl⟩ hs

end

/-- Settles O58: `State.pagesLawful` is kept by every effect, so by every step, and it counts every page
once whenever the store is Ready, Busy or Quiesced. -/
theorem pageAccountingKept : Obligations.PageAccountingKept := by
  unfold Obligations.PageAccountingKept
  intro s t hs h
  have ht : t.pagesLawful := step_keeps
    (fun _ _ hs => SameStore.pagesLawful ⟨rfl, rfl, rfl, rfl⟩ hs) (fun _ _ hs he => he.pagesLawful hs) hs h
  have ⟨_, _, counted, _⟩ := ht
  exact ⟨ht, counted⟩

end Sys2Proof.Machine
end

section
/-! SUPPORT. Proofs: the general checks of a block (R27, R148), and what an offer hands to its unit. -/
namespace Sys2Proof.Machine

/-! ### The words that a request needs (TABLE 11-3 to TABLE 11-6) -/

section
variable {s : State} {b : Block}

theorem State.storeNeeds_eq_none (h : s.opcode b = 0 ∨ 8 < s.opcode b) : s.storeNeeds b = none := by
  unfold State.storeNeeds
  split
  case h_9 => rfl
  all_goals omega

theorem State.storeNeeds_eq_some (h1 : 1 ≤ s.opcode b) (h8 : s.opcode b ≤ 8) :
    s.storeNeeds b = some ([0, 9, 4, 4, 3, 3, 4, 2, 6].getD (s.opcode b) 0) := by
  unfold State.storeNeeds
  generalize s.opcode b = op at h1 h8 ⊢
  obtain rfl | rfl | rfl | rfl | rfl | rfl | rfl | rfl :
    op = 1 ∨ op = 2 ∨ op = 3 ∨ op = 4 ∨ op = 5 ∨ op = 6 ∨ op = 7 ∨ op = 8 := by omega
  all_goals rfl

theorem State.calendarNeeds_eq_none (h : s.opcode b = 0 ∨ 7 < s.opcode b) : s.calendarNeeds b = none := by
  unfold State.calendarNeeds
  split
  case h_8 => rfl
  all_goals omega

theorem State.calendarNeeds_eq_some (h1 : 1 ≤ s.opcode b) (h7 : s.opcode b ≤ 7) :
    s.calendarNeeds b = some ([0, 6, 4, 3, 6, 3, 3, 4].getD (s.opcode b) 0) := by
  unfold State.calendarNeeds
  generalize s.opcode b = op at h1 h7 ⊢
  obtain rfl | rfl | rfl | rfl | rfl | rfl | rfl :
    op = 1 ∨ op = 2 ∨ op = 3 ∨ op = 4 ∨ op = 5 ∨ op = 6 ∨ op = 7 := by omega
  all_goals rfl

theorem State.soundNeeds_eq_none (h : s.opcode b = 0 ∨ 12 < s.opcode b) : s.soundNeeds b = none := by
  unfold State.soundNeeds
  split
  case h_13 => rfl
  all_goals omega

theorem State.soundNeeds_eq_some (h1 : 1 ≤ s.opcode b) (h12 : s.opcode b ≤ 12) :
    s.soundNeeds b = some ([0, 3 + s.arg8 b 4, 2, 3, 2, 3, 3, 2, 3, 3 + 2 * s.arg8 b 4,
      3 + 2 * s.arg8 b 5, 3, 6].getD (s.opcode b) 0) := by
  unfold State.soundNeeds
  generalize s.opcode b = op at h1 h12 ⊢
  obtain rfl | rfl | rfl | rfl | rfl | rfl | rfl | rfl | rfl | rfl | rfl | rfl :
      op = 1 ∨ op = 2 ∨ op = 3 ∨ op = 4 ∨ op = 5 ∨ op = 6 ∨ op = 7 ∨
        op = 8 ∨ op = 9 ∨ op = 10 ∨ op = 11 ∨ op = 12 := by omega
  all_goals rfl

theorem State.rumbleNeeds_eq_none (h : s.opcode b = 0 ∨ 6 < s.opcode b) : s.rumbleNeeds b = none := by
  unfold State.rumbleNeeds
  split
  case h_7 => rfl
  all_goals omega

theorem State.rumbleNeeds_eq_some (h1 : 1 ≤ s.opcode b) (h6 : s.opcode b ≤ 6) :
    s.rumbleNeeds b = some ([0, 4, 3 + (s.arg8 b 7 + 1) / 2, 3, 2, 2, 15].getD (s.opcode b) 0) := by
  unfold State.rumbleNeeds
  generalize s.opcode b = op at h1 h6 ⊢
  obtain rfl | rfl | rfl | rfl | rfl | rfl : op = 1 ∨ op = 2 ∨ op = 3 ∨ op = 4 ∨ op = 5 ∨ op = 6 := by omega
  all_goals rfl

section
variable (s : State) (c : CellId) (b b' : Block)

@[simp] theorem State.accepted_storeNeeds : (s.accepted c b').storeNeeds b = s.storeNeeds b := by
  simp [State.storeNeeds]

@[simp] theorem State.accepted_calendarNeeds :
    (s.accepted c b').calendarNeeds b = s.calendarNeeds b := by
  simp [State.calendarNeeds]

@[simp] theorem State.accepted_soundNeeds : (s.accepted c b').soundNeeds b = s.soundNeeds b := by
  simp [State.soundNeeds]

@[simp] theorem State.accepted_rumbleNeeds : (s.accepted c b').rumbleNeeds b = s.rumbleNeeds b := by
  simp [State.rumbleNeeds]

end

/-! ### The general checks of each cell (R27, R148) -/

theorem State.startStore_badOp (h : s.storeNeeds b = none) :
    s.startStore b = s.terminate .store b (.refuse .badOp) := by
  rw [State.startStore, h, State.refuseStore]

theorem State.startStore_short {n : Nat} (h : s.storeNeeds b = some n) (hw : b.words < n) :
    s.startStore b = s.terminate .store b (.refuse .badArg) := by
  rw [State.startStore, h]
  exact if_pos hw

/-- R27 check 3: a held store takes no request but READ_ENTRY (1) and READ_STORE_STATUS (8). -/
theorem State.startStore_held {n : Nat} (h : s.storeNeeds b = some n) (hw : n ≤ b.words)
    (hheld : s.store.refusesHeld = true) (h1 : s.opcode b ≠ 1) (h8 : s.opcode b ≠ 8) :
    s.startStore b = s.terminate .store b (.refuse .quiesced) := by
  rw [State.startStore, h]
  exact (if_neg (Nat.not_lt.2 hw)).trans (if_pos ⟨hheld, h1, h8⟩)

/-- R27: a block that passes the general checks is checked as its request. -/
theorem State.startStore_passes {n : Nat} (h : s.storeNeeds b = some n) (hw : n ≤ b.words)
    (hheld : s.store.refusesHeld = false ∨ s.opcode b = 1 ∨ s.opcode b = 8) :
    s.startStore b = s.storeRequest b := by
  rw [State.startStore, h]
  refine (if_neg (Nat.not_lt.2 hw)).trans (if_neg ?_)
  rintro ⟨held, h1, h8⟩
  rcases hheld with e | e | e
  · rw [held] at e; cases e
  · exact h1 e
  · exact h8 e

theorem State.runCalendar_badOp (h : s.calendarNeeds b = none) :
    s.runCalendar b = s.terminate .calendar b (.refuse .badOp) := by
  rw [State.runCalendar, h]

theorem State.runCalendar_short {n : Nat} (h : s.calendarNeeds b = some n) (hw : b.words < n) :
    s.runCalendar b = s.terminate .calendar b (.refuse .badArg) := by
  rw [State.runCalendar, h]
  exact if_pos hw

theorem State.runSound_badOp (h : s.soundNeeds b = none) :
    s.runSound b = s.terminate .sound b (.refuse .badOp) := by
  rw [State.runSound, h]

theorem State.runSound_short {n : Nat} (h : s.soundNeeds b = some n) (hw : b.words < n) :
    s.runSound b = s.terminate .sound b (.refuse .badArg) := by
  rw [State.runSound, h]
  exact if_pos hw

theorem State.runRumble_badOp (h : s.rumbleNeeds b = none) :
    s.runRumble b = s.terminate .rumble b (.refuse .badOp) := by
  rw [State.runRumble, h]

theorem State.runRumble_short {n : Nat} (h : s.rumbleNeeds b = some n) (hw : b.words < n) :
    s.runRumble b = s.terminate .rumble b (.refuse .badArg) := by
  rw [State.runRumble, h]
  exact if_pos hw

/-- R27 check 3: a store held under its hold is Quiesced, or Unformatted with nothing running. -/
theorem Store.refusesHeld_iff (st : Store) : st.refusesHeld = true ↔
    st.hold = true ∧ (st.status = .quiesced ∨ st.status = .unformatted ∧ st.op = .none) := by
  unfold Store.refusesHeld Store.held
  cases st.hold <;> simp

end

/-! ### The offer of a block (R144) -/

section
variable {s : State} {c : CellId} {v : Word} {b : Block}

theorem exec_blockOffer (h : s.canTake c v b) :
    exec (.blockOffer c v) s = .next ((s.accepted c b).runUnit c b) :=
  congrArg _ (State.busCellWrite_of_canTake h)

/-- R27: outside Scanning a block starts at the event at which the store cell takes it. -/
theorem State.runStore_starts (h : s.store.status ≠ .scanning) : s.runStore b = s.startStore b := if_neg h

theorem exec_blockOffer_store (h : s.canTake .store v b) (hs : s.store.status ≠ .scanning) :
    exec (.blockOffer .store v) s = .next ((s.accepted .store b).startStore b) :=
  (exec_blockOffer h).trans (congrArg _ (State.runStore_starts hs))

end

/-- Settles O17: the fields of a block by their bytes, then each check by the words that the operation code
needs. -/
theorem generalChecks : Obligations.GeneralChecks := by
  unfold Obligations.GeneralChecks
  refine ⟨fun _ _ => rfl, ?fields, ?storeOp, ?storeShort, ?storeHeld, ?waits,
    fun s v b h hs => exec_blockOffer_store h hs, ?calendarOp, ?calendarShort, ?soundOp, ?soundShort,
    ?rumbleOp, ?rumbleShort⟩
  case fields =>
    rintro s b k x rfl
    exact ⟨rfl, rfl, State.ramNat_two s _, State.ramNat_four s _⟩
  case storeOp =>
    intro s v b h hs hop
    rw [exec_blockOffer_store h hs, State.startStore_badOp]
    rw [State.accepted_storeNeeds, State.storeNeeds_eq_none hop]
  case storeShort =>
    intro s v b h hs h1 h8 hw
    rw [exec_blockOffer_store h hs, State.startStore_short _ hw]
    rw [State.accepted_storeNeeds, State.storeNeeds_eq_some h1 h8]
  case storeHeld =>
    intro s v b h hs h1 h8 hw hhold hheld
    have op := s.accepted_opcode .store b b
    have notEntry : (s.accepted .store b).opcode b ≠ 1 := by rw [op]; omega
    have notStatus : (s.accepted .store b).opcode b ≠ 8 := by rw [op]; omega
    rw [exec_blockOffer_store h hs, State.startStore_held (s := s.accepted .store b) _ hw
      ((Store.refusesHeld_iff s.store).2 ⟨hhold, hheld⟩) notEntry notStatus]
    rw [State.accepted_storeNeeds, State.storeNeeds_eq_some (Nat.le_of_lt h1) (Nat.le_of_lt h8)]
  case waits =>
    intro s v b h hs
    exact (exec_blockOffer h).trans (congrArg _ (if_pos hs))
  case calendarOp =>
    intro s v b h hop
    rw [exec_blockOffer h, State.runUnit, State.runCalendar_badOp]
    rw [State.accepted_calendarNeeds, State.calendarNeeds_eq_none hop]
  case calendarShort =>
    intro s v b h h1 h7 hw
    rw [exec_blockOffer h, State.runUnit, State.runCalendar_short _ hw]
    rw [State.accepted_calendarNeeds, State.calendarNeeds_eq_some h1 h7]
  case soundOp =>
    intro s v b h hop
    rw [exec_blockOffer h, State.runUnit, State.runSound_badOp]
    rw [State.accepted_soundNeeds, State.soundNeeds_eq_none hop]
  case soundShort =>
    intro s v b h h1 h12 hw
    rw [exec_blockOffer h, State.runUnit, State.runSound_short _ hw]
    rw [State.accepted_soundNeeds, State.soundNeeds_eq_some h1 h12]
  case rumbleOp =>
    intro s v b h hop
    rw [exec_blockOffer h, State.runUnit, State.runRumble_badOp]
    rw [State.accepted_rumbleNeeds, State.rumbleNeeds_eq_none hop]
  case rumbleShort =>
    intro s v b h h1 h6 hw
    rw [exec_blockOffer h, State.runUnit, State.runRumble_short _ hw]
    rw [State.accepted_rumbleNeeds, State.rumbleNeeds_eq_some h1 h6]

end Sys2Proof.Machine
end

section
/-! SUPPORT. Proofs: the start of a store request: its offer, its file number, and the first check that fails
(R27, R30 to R34, R40, R42 to R46). -/
namespace Sys2Proof.Machine

/-! ### An offer that passes the general checks (R27) -/

/-- R27: outside Scanning the store starts a request with this operation code, held or not. -/
def Store.takes (st : Store) (op : Nat) : Prop :=
  st.status ≠ .scanning ∧ (st.refusesHeld = false ∨ op = 1 ∨ op = 8)

/-- R27: a Ready store, or one Unformatted under no hold, starts every request. -/
theorem Store.takes_of_open {st : Store}
    (h : st.status = .ready ∨ st.status = .unformatted ∧ st.hold = false) (op : Nat) : st.takes op := by
  refine ⟨?_, .inl (Bool.eq_false_iff.2 fun held => ?_)⟩
  · rcases h with e | ⟨e, -⟩ <;> rw [e] <;> decide
  · obtain ⟨hold, place⟩ := (Store.refusesHeld_iff st).1 held
    rcases h with e | ⟨-, free⟩
    · rw [e] at place
      rcases place with e | ⟨e, -⟩ <;> cases e
    · rw [free] at hold; cases hold

/-- R27: READ_ENTRY and READ_STORE_STATUS start while the store is held. -/
theorem Store.takes_read {st : Store} (hs : st.status ≠ .scanning) {op : Nat} (h : op = 1 ∨ op = 8) :
    st.takes op := ⟨hs, .inr h⟩

section
variable {s : State} {v : Word} {b : Block} {op need : Nat}

theorem State.offered.opcode_eq (h : s.offered .store op need v b) :
    (s.accepted .store b).opcode b = op := by
  obtain ⟨-, code, -⟩ := h
  rw [State.accepted_opcode, code]

/-- R27: the offer of a block long enough for its request hands it to the checks of that request. -/
theorem State.offered.requests (h : s.offered .store op need v b)
    (hop : 1 ≤ op ∧ op ≤ 8 ∧ [0, 9, 4, 4, 3, 3, 4, 2, 6].getD op 0 = need) (ht : s.store.takes op) :
    goesOn (s.namedOffer .store op v) = .next ((s.accepted .store b).storeRequest b) := by
  obtain ⟨-, code, long⟩ := id h
  obtain ⟨h1, h8, rfl⟩ := hop
  obtain ⟨hs, hheld⟩ := ht
  subst code
  have needs : (s.accepted .store b).storeNeeds b = _ :=
    (s.accepted_storeNeeds .store b b).trans (State.storeNeeds_eq_some h1 h8)
  rw [State.namedOffer_of_offered h, State.runUnit, State.runStore_starts (s := s.accepted .store b) hs,
    State.startStore_passes needs long (by rwa [State.accepted_opcode])]
  rfl

/-- Each request that names a file ends BAD_ARG for a number that is none. -/
theorem State.storeRequest_noSuchFile (h1 : 1 ≤ s.opcode b) (h5 : s.opcode b ≤ 5) (hf : 16 ≤ s.arg8 b 4) :
    s.storeRequest b = s.refuseStore b .badArg := by
  have none := inRange_eq_none hf
  obtain e | e | e | e | e : s.opcode b = 1 ∨ s.opcode b = 2 ∨ s.opcode b = 3 ∨ s.opcode b = 4 ∨
    s.opcode b = 5 := by omega
  all_goals simp only [State.storeRequest, e, State.readEntryReq, State.readFileReq, State.commitReq,
    State.deleteReq, State.verifyReq, none]

theorem State.offered.noSuchFile (h : s.offered .store op need v b)
    (hop : 1 ≤ op ∧ op ≤ 5 ∧ [0, 9, 4, 4, 3, 3, 4, 2, 6].getD op 0 = need) (ht : s.store.takes op)
    (hf : 16 ≤ s.arg8 b 4) : goesOn (s.namedOffer .store op v) =
      .next ((s.accepted .store b).terminate .store b (.refuse .badArg)) := by
  obtain ⟨h1, h5, hneed⟩ := hop
  rw [h.requests ⟨h1, by omega, hneed⟩ ht, State.storeRequest_noSuchFile, State.refuseStore]
  · rwa [h.opcode_eq]
  · rwa [h.opcode_eq]
  · rwa [State.accepted_arg8]

end

/-! ### The commands of the store cell, each with its own checks -/

section
variable {s : State} {v : Word} {b : Block}

theorem exec_readEntry (h : s.offered .store 1 9 v b) (ht : s.store.takes 1) :
    exec (.readEntry v) s = .next ((s.accepted .store b).readEntryReq b) :=
  (h.requests (by decide) ht).trans (by rw [State.storeRequest, h.opcode_eq]; rfl)

theorem exec_readFile (h : s.offered .store 2 4 v b) (ht : s.store.takes 2) :
    exec (.readFile v) s = .next ((s.accepted .store b).readFileReq b) :=
  (h.requests (by decide) ht).trans (by rw [State.storeRequest, h.opcode_eq]; rfl)

theorem exec_commitFile (h : s.offered .store 3 4 v b) (ht : s.store.takes 3) :
    exec (.commitFile v) s = .next ((s.accepted .store b).commitReq b) :=
  (h.requests (by decide) ht).trans (by rw [State.storeRequest, h.opcode_eq]; rfl)

theorem exec_deleteFile (h : s.offered .store 4 3 v b) (ht : s.store.takes 4) :
    exec (.deleteFile v) s = .next ((s.accepted .store b).deleteReq b) :=
  (h.requests (by decide) ht).trans (by rw [State.storeRequest, h.opcode_eq]; rfl)

theorem exec_verifyFile (h : s.offered .store 5 3 v b) (ht : s.store.takes 5) :
    exec (.verifyFile v) s = .next ((s.accepted .store b).verifyReq b) :=
  (h.requests (by decide) ht).trans (by rw [State.storeRequest, h.opcode_eq]; rfl)

theorem exec_readRaw (h : s.offered .store 6 4 v b) (ht : s.store.takes 6) :
    exec (.readRaw v) s = .next ((s.accepted .store b).readRawReq b) :=
  (h.requests (by decide) ht).trans (by rw [State.storeRequest, h.opcode_eq]; rfl)

theorem exec_formatStore (h : s.offered .store 7 2 v b) (ht : s.store.takes 7) :
    exec (.formatStore v) s = .next ((s.accepted .store b).formatReq b) :=
  (h.requests (by decide) ht).trans (by rw [State.storeRequest, h.opcode_eq]; rfl)

theorem exec_readStoreStatus (h : s.offered .store 8 6 v b) (ht : s.store.takes 8) :
    exec (.readStoreStatus v) s = .next ((s.accepted .store b).readStoreStatus b) :=
  (h.requests (by decide) ht).trans (by rw [State.storeRequest, h.opcode_eq]; rfl)

end

/-- The file that a request names. -/
theorem State.fileArg {s : State} {b : Block} {f : FileNo} (hf : s.arg8 b 4 = f.val) :
    inRange ((s.accepted .store b).arg8 b 4) 16 = some f := by
  rw [State.accepted_arg8, inRange_val f hf]

/-! ### The first check that fails (R27) -/

/-- A check that fails ends the block with its status; one that passes leaves the status to the checks after
it. -/
theorem State.refuseStore_ite {s : State} {b : Block} {c : Prop} [Decidable c] {x y : Status} {t : State}
    (h : ¬ c → t = s.refuseStore b y) :
    (if c then s.refuseStore b x else t) = s.refuseStore b (if c then x else y) := by
  by_cases hc : c
  · rw [if_pos hc, if_pos hc]
  · rw [if_neg hc, if_neg hc]; exact h hc

/-! ### READ_ENTRY (R30, R31) -/

theorem gameDayOf_eq (rollover day second : Nat) : gameDayOf rollover day second =
    if rollover ≤ second then day else if 0 < day then day - 1 else 0 := by
  unfold gameDayOf
  split
  · rfl
  · split <;> omega

/-- Settles O18 (`readEntry` is the model's reader of an entry): the game day, then each answer of READ_ENTRY
by the file number, the store and the entry. -/
theorem readEntryAnswers : Obligations.ReadEntry := by
  unfold Obligations.ReadEntry
  have formatted {st : StoreState} (h : st = .ready ∨ st = .quiesced) :
      st ≠ .scanning ∧ st ≠ .unformatted := by
    rcases h with e | e <;> rw [e] <;> decide
  refine ⟨fun _ _ => rfl, gameDayOf_eq, ?live, ?noSuchFile, ?unformatted, ?empty⟩
  case live =>
    rintro s v b f e d h hs hf rfl hl rfl
    obtain ⟨scanned, formatted⟩ := formatted hs
    have found : ¬ s.store.dir[f].live = false := by rw [hl]; decide
    have live : flagByte s.store.dir[f].live = 1 := by rw [hl]; rfl
    rw [exec_readEntry h (Store.takes_read scanned (.inl rfl)), State.readEntryReq, State.fileArg hf, ← live]
    exact congrArg _ ((if_neg formatted).trans (if_neg found))
  case noSuchFile =>
    intro s v b h hs hf
    exact h.noSuchFile (by decide) (Store.takes_read hs (.inl rfl)) hf
  case unformatted =>
    intro s v b h hu hf
    have named : s.arg8 b 4 = (⟨s.arg8 b 4, hf⟩ : FileNo).val := rfl
    rw [exec_readEntry h (Store.takes_read (by rw [hu]; decide) (.inl rfl)), State.readEntryReq,
      State.fileArg named]
    exact congrArg _ (if_pos hu)
  case empty =>
    intro s v b f h hs hf hl
    obtain ⟨scanned, formatted⟩ := formatted hs
    rw [exec_readEntry h (Store.takes_read scanned (.inl rfl)), State.readEntryReq, State.fileArg hf]
    exact congrArg _ ((if_neg formatted).trans (if_pos hl))

end Sys2Proof.Machine
end

section
/-! SUPPORT. Proofs: the three status requests (R46, R120, R139). -/
namespace Sys2Proof.Machine

section
variable {s : State} {v : Word} {b : Block}

/-- R99: the status request of the sound cell passes the general checks. -/
theorem exec_readSoundStatus (h : s.offered .sound 12 6 v b) :
    exec (.readSoundStatus v) s = .next ((s.accepted .sound b).readSoundStatus b) := by
  obtain ⟨-, code, long⟩ := id h
  refine congrArg _ ((State.namedOffer_of_offered h).trans ?_)
  simp only [State.runUnit, State.runSound, State.soundNeeds, State.soundRequest, State.accepted_opcode, code]
  exact if_neg (Nat.not_lt.2 long)

/-- R127: so does that of the rumble cell. -/
theorem exec_readRumbleStatus (h : s.offered .rumble 6 15 v b) :
    exec (.readRumbleStatus v) s = .next ((s.accepted .rumble b).readRumbleStatus b) := by
  obtain ⟨-, code, long⟩ := id h
  refine congrArg _ ((State.namedOffer_of_offered h).trans ?_)
  simp only [State.runUnit, State.runRumble, State.rumbleNeeds, State.rumbleRequest, State.accepted_opcode,
    code]
  exact if_neg (Nat.not_lt.2 long)

end

/-- R126: Held before Tripped, and Playing exactly with a play current. -/
theorem Rumble.state_eq (r : Rumble) : r.state = if r.hold then .held else if r.trip then .tripped
    else if r.current = none then .idle else .playing := by
  unfold Rumble.state
  cases r.current <;> rfl

/-- R172, TABLE 11-9: an outcome record takes four bytes, and the places past the last one are 0. -/
theorem Rumble.outcomeBytes_eq (r : Rumble) : r.outcomeBytes =
    (r.outcomes.map OutcomeRec.bytes).flatten ++ List.replicate (32 - 4 * r.outcomes.length) 0 := by
  have four (o : OutcomeRec) : o.bytes.length = 4 := rfl
  have length : (r.outcomes.map OutcomeRec.bytes).flatten.length = 4 * r.outcomes.length := by
    induction r.outcomes with
    | nil => rfl
    | cons o os ih =>
      rw [List.map_cons, List.flatten_cons, List.length_append, ih, four, List.length_cons]
      omega
  rw [Rumble.outcomeBytes, length]

/-- Settles O19: the codes, one by one, then each status request as the answer that its unit gives. -/
theorem statusReads : Obligations.StatusReads := by
  unfold Obligations.StatusReads
  refine ⟨?storeState, ?scan, ?engine, ?drop, ?rumbleState, ?cap, ?source, Rumble.state_eq, ?outcomes, ?store,
    ?sound, ?rumble⟩
  case storeState | scan | engine | drop | rumbleState | cap | source =>
    intro code
    cases code <;> rfl
  case outcomes =>
    intro r
    have record : OutcomeRec.bytes = fun o => [BitVec.ofNat 8 o.pattern.val, o.source.code, o.kind.code, 0] :=
      rfl
    rw [Rumble.outcomeBytes_eq, record]
    rfl
  case store =>
    intro s v b h hs
    rw [exec_readStoreStatus h (Store.takes_read hs (.inr rfl))]
    rfl
  case sound =>
    intro s v b h
    rw [exec_readSoundStatus h]
    rfl
  case rumble =>
    intro s v b h
    rw [exec_readRumbleStatus h]
    rfl

end Sys2Proof.Machine
end

section
/-! SUPPORT. Proofs: READ_FILE, VERIFY_FILE and READ_RAW at their start event (R32, R42, R43, R15). -/
namespace Sys2Proof.Machine

section
variable {s : State} {b : Block}

/-- R15: a request that takes time and starts in Ready makes the store Busy. -/
theorem State.accepted_startRun_ready (hr : s.store.status = .ready) (j : Job) :
    (s.accepted .store b).startRun b j = { s.accepted .store b with store := { s.store with
      status := .busy, op := .run { blk := b, abort := false, late := false } j } } := by
  rw [State.startRun, State.accepted_store, if_pos hr]
  rfl

/-- R15, R43: one that starts in Unformatted leaves the store state as it is. -/
theorem State.accepted_startRun_unformatted (hu : s.store.status = .unformatted) (j : Job) :
    (s.accepted .store b).startRun b j = { s.accepted .store b with store := { s.store with
      status := .unformatted, op := .run { blk := b, abort := false, late := false } j } } := by
  rw [State.startRun, State.accepted_store, if_neg (by rw [hu]; decide), hu]
  rfl

end

section
variable {s : State} {v : Word} {b : Block} {f : FileNo}

/-- R32: what READ_FILE checks of a file that it names, with its arguments. -/
theorem exec_readFile_file {offset length buf : Nat} (h : s.offered .store 2 4 v b) (ht : s.store.takes 2)
    (hf : s.arg8 b 4 = f.val) (ho : s.arg16 b 6 = offset) (hl : s.arg16 b 8 = length)
    (hb : s.arg16 b 10 = buf) : exec (.readFile v) s = .next (
      if 16384 < offset ∨ 16384 < length then (s.accepted .store b).refuseStore b .badArg
      else if s.store.status = .unformatted then (s.accepted .store b).refuseStore b .unformatted
      else if s.store.dir[f].live = false then (s.accepted .store b).refuseStore b .noFile
      else if s.store.dir[f].length.toNat < offset + length then
        (s.accepted .store b).refuseStore b .badArg
      else if b.bufferOk buf length = false then (s.accepted .store b).refuseStore b .badArg
      else if length = 0 then (s.accepted .store b).terminate .store b (.ok 0)
      else (s.accepted .store b).startRun b (.readFile f offset length buf 0 s.store.dir[f].root)) := by
  rw [exec_readFile h ht]
  simp only [State.readFileReq, State.fileArg hf, State.accepted_arg16, ho, hl, hb, State.accepted_store]

end

/-- Settles O20: each transfer's checks in their order, the last of them the buffer rules of R149. -/
theorem transfersStart : Obligations.TransfersStart := by
  unfold Obligations.TransfersStart
  refine ⟨?readFile, ?readNothing, ?readRefused, ?readNoFile, ?verify, ?verifyRefused, ?verifyNoFile, ?readRaw,
    ?rawRefused⟩
  case readFile =>
    intro s v b f offset length buf h hr hf ho hl hb live ho' h1 hl' hend hfit hout
    rw [exec_readFile_file h (Store.takes_of_open (.inl hr) 2) hf ho hl hb,
      if_neg (by omega), if_neg (by rw [hr]; decide), if_neg (by rw [live]; decide), if_neg (by omega),
      if_neg (by rw [Block.bufferOk_eq_false_iff]; omega), if_neg (by omega), State.accepted_startRun_ready hr]
  case readNothing =>
    intro s v b f h hr hf hl live hend ho
    rw [exec_readFile_file h (Store.takes_of_open (.inl hr) 2) hf rfl hl rfl,
      if_neg (by omega), if_neg (by rw [hr]; decide), if_neg (by rw [live]; decide), if_neg (by omega),
      if_neg (by rw [Block.bufferOk_eq_false_iff]; omega), if_pos rfl]
  case readRefused =>
    rintro s v b f offset length buf e st h hs hf ho hl hb rfl fails rfl
    rw [exec_readFile_file h (Store.takes_of_open hs 2) hf ho hl hb]
    refine congrArg _ (State.refuseStore_ite fun h1 => State.refuseStore_ite fun h2 =>
      State.refuseStore_ite fun h3 => ?_)
    by_cases past : s.store.dir[f].length.toNat < offset + length
    · exact if_pos past
    · have fails : b.bufferOk buf length = false := by
        rw [Block.bufferOk_eq_false_iff]
        rcases fails with e | e | e | e | e | e
        · exact absurd (.inl e) h1
        · exact absurd (.inr e) h1
        · exact absurd e h2
        · exact absurd e h3
        · exact absurd e past
        · exact e
      exact (if_neg past).trans (if_pos fails)
  case readNoFile =>
    intro s v b h hs hf
    exact h.noSuchFile (by decide) (Store.takes_of_open hs 2) hf
  case verify =>
    intro s v b f h hr hf live
    have formatted : s.store.status ≠ .unformatted := by rw [hr]; decide
    have found : ¬ s.store.dir[f].live = false := by rw [live]; decide
    rw [exec_verifyFile h (Store.takes_of_open (.inl hr) 5), State.verifyReq, State.fileArg hf,
      ← State.accepted_startRun_ready hr]
    exact congrArg _ ((if_neg formatted).trans (if_neg found))
  case verifyRefused =>
    rintro s v b f st h hs hf fails rfl
    rw [exec_verifyFile h (Store.takes_of_open hs 5), State.verifyReq, State.fileArg hf]
    exact congrArg _ (State.refuseStore_ite fun h1 => if_pos (fails.resolve_left h1))
  case verifyNoFile =>
    intro s v b h hs hf
    exact h.noSuchFile (by decide) (Store.takes_of_open hs 5) hf
  case readRaw =>
    rintro s v b first count buf st h hh hs rfl rfl rfl h1 h15 hend hfit hout
    have sound : ¬ (479 < s.arg16 b 4 ∨ s.arg8 b 6 < 1 ∨ 15 < s.arg8 b 6 ∨
        480 < s.arg16 b 4 + s.arg8 b 6 ∨ b.bufferOk (s.arg16 b 8) (268 * s.arg8 b 6) = false) := by
      rw [Block.bufferOk_eq_false_iff]; omega
    rw [exec_readRaw h (Store.takes_of_open (hs.imp And.left fun e => ⟨e.1, hh⟩) 6)]
    simp only [State.readRawReq, State.accepted_arg8, State.accepted_arg16, if_neg sound]
    rcases hs with ⟨hr, rfl⟩ | ⟨hu, rfl⟩
    · rw [State.accepted_startRun_ready hr]
    · rw [State.accepted_startRun_unformatted hu]
  case rawRefused =>
    rintro s v b first count buf h hs rfl rfl rfl fails
    have fails : 479 < s.arg16 b 4 ∨ s.arg8 b 6 < 1 ∨ 15 < s.arg8 b 6 ∨
        480 < s.arg16 b 4 + s.arg8 b 6 ∨ b.bufferOk (s.arg16 b 8) (268 * s.arg8 b 6) = false := by
      rw [Block.bufferOk_eq_false_iff]; omega
    rw [exec_readRaw h (Store.takes_of_open hs 6)]
    simp only [State.readRawReq, State.accepted_arg8, State.accepted_arg16, if_pos fails,
      State.refuseStore]

end Sys2Proof.Machine
end

section
/-! SUPPORT. Proofs: COMMIT_FILE, DELETE_FILE and FORMAT_STORE at their start event (R34, R40, R44, R15). -/
namespace Sys2Proof.Machine

/-- R34: a new file starts at generation 1, and 1 follows 65535. -/
theorem nextGen_eq (e : Entry) :
    nextGen e = if e.live then (if e.gen = 65535 then 1 else e.gen + 1) else 1 := by
  unfold nextGen
  cases e.live <;> rfl

section
variable {s : State} {v : Word} {b : Block} {f : FileNo}

/-- R34: what COMMIT_FILE checks of a file that it names, with its arguments. -/
theorem exec_commitFile_file {protect length buf : Nat} (h : s.offered .store 3 4 v b)
    (ht : s.store.takes 3) (hf : s.arg8 b 4 = f.val) (hp : s.arg8 b 5 = protect)
    (hl : s.arg16 b 6 = length) (hb : s.arg16 b 8 = buf) : exec (.commitFile v) s = .next (
      if 15 < protect then (s.accepted .store b).refuseStore b .badArg
      else if s.store.status = .unformatted then (s.accepted .store b).refuseStore b .unformatted
      else if s.store.worn = true then (s.accepted .store b).refuseStore b .worn
      else if s.store.dir[f].live = true ∧ s.store.dir[f].protect.toNat ≠ protect then
        (s.accepted .store b).refuseStore b .protected_
      else if 16384 < length ∨ b.bufferOk buf length = false then
        (s.accepted .store b).refuseStore b .badArg
      else if s.store.free.length < pagesFor length then (s.accepted .store b).refuseStore b .noSpace
      else (s.accepted .store b).startRun b (.commit
        { file := f, buf := buf, length := length, protect := byteOf protect,
          gen := nextGen s.store.dir[f], staged := [], old := s.store.chains[f] }
        (if length = 0 then .arm else .staging (pagesFor length - 1)))) := by
  rw [exec_commitFile h ht]
  simp only [State.commitReq, inRange_val f hf, State.accepted_arg8, State.accepted_arg16, hp, hl, hb,
    State.accepted_store]

/-- R40: what DELETE_FILE checks of a file that it names. -/
theorem exec_deleteFile_file (h : s.offered .store 4 3 v b) (ht : s.store.takes 4)
    (hf : s.arg8 b 4 = f.val) : exec (.deleteFile v) s = .next (
      if 15 < s.arg8 b 5 then (s.accepted .store b).refuseStore b .badArg
      else if s.store.status = .unformatted then (s.accepted .store b).refuseStore b .unformatted
      else if s.store.dir[f].live = false then (s.accepted .store b).refuseStore b .noFile
      else if s.store.dir[f].protect.toNat ≠ s.arg8 b 5 then
        (s.accepted .store b).refuseStore b .protected_
      else (s.accepted .store b).startRun b (.delete f .arm)) := by
  rw [exec_deleteFile h ht]
  simp only [State.deleteReq, inRange_val f hf, State.accepted_arg8, State.accepted_store]

end

theorem Store.worn_iff (st : Store) : st.worn = true ↔ 24 ≤ st.bad.length := decide_eq_true_iff

/-- Settles O21: each change's checks in their order, and the place where the request begins. -/
theorem changesStart : Obligations.ChangesStart := by
  unfold Obligations.ChangesStart
  refine ⟨?commit, ?commitRefused, ?commitNoFile, ?delete, ?deleteRefused, ?deleteNoFile, ?format⟩
  case commit =>
    intro s v b f protect length buf h hr hf hp hl hb hp' sound same hl' hbuf room
    rw [exec_commitFile_file h (Store.takes_of_open (.inl hr) 3) hf hp hl hb,
      if_neg (by omega), if_neg (by rw [hr]; decide), if_neg (by rw [Store.worn_iff]; omega),
      if_neg (fun ⟨live, other⟩ => other (same live)),
      if_neg (by rw [Block.bufferOk_eq_false_iff]; omega), if_neg (by rw [pagesFor]; omega),
      State.accepted_startRun_ready hr, nextGen_eq, pagesFor]
  case commitRefused =>
    rintro s v b f protect length buf e st h hs hf hp hl hb rfl fails rfl
    rw [exec_commitFile_file h (Store.takes_of_open hs 3) hf hp hl hb]
    simp only [Store.worn_iff, Block.bufferOk_eq_false_iff]
    refine congrArg _ (State.refuseStore_ite fun h1 => State.refuseStore_ite fun h2 =>
      State.refuseStore_ite fun h3 => State.refuseStore_ite fun h4 => State.refuseStore_ite fun h5 => ?_)
    refine if_pos ?_
    rcases fails with e | e | e | e | e | e | e
    · exact absurd e h1
    · exact absurd e h2
    · exact absurd e h3
    · exact absurd e h4
    · exact absurd (.inl e) h5
    · exact absurd (.inr e) h5
    · exact e
  case commitNoFile =>
    intro s v b h hs hf
    exact h.noSuchFile (by decide) (Store.takes_of_open hs 3) hf
  case delete =>
    intro s v b f h hr hf hp live same
    rw [exec_deleteFile_file h (Store.takes_of_open (.inl hr) 4) hf, if_neg (by omega),
      if_neg (by rw [hr]; decide), if_neg (by rw [live]; decide), if_neg (fun other => other same),
      State.accepted_startRun_ready hr]
  case deleteRefused =>
    rintro s v b f e st h hs hf rfl fails rfl
    rw [exec_deleteFile_file h (Store.takes_of_open hs 4) hf]
    refine congrArg _ (State.refuseStore_ite fun h1 => State.refuseStore_ite fun h2 =>
      State.refuseStore_ite fun h3 => if_pos ?_)
    exact ((fails.resolve_left h1).resolve_left h2).resolve_left h3
  case deleteNoFile =>
    intro s v b h hs hf
    exact h.noSuchFile (by decide) (Store.takes_of_open hs 4) hf
  case format =>
    intro s v b h hh hs
    rw [exec_formatStore h (Store.takes_of_open (hs.imp id fun e => ⟨e, hh⟩) 7)]
    rfl

end Sys2Proof.Machine
end

section
/-! SUPPORT. Proofs: the page events of READ_FILE, VERIFY_FILE and READ_RAW (R33, R42, R43, R47). -/
namespace Sys2Proof.Machine

/-! ### The events at their places -/

section
variable {s : State} {r : Run}

theorem exec_readFilePage {f : FileNo} {offset length buf k : Nat} {link : Word}
    (ho : s.store.op = .run r (.readFile f offset length buf k link)) :
    exec .readFilePage s = .next (s.readFilePage r f offset length buf k link) := by
  simp only [exec, execReadFilePage, ho, goesOn]

theorem exec_verifyPage {f : FileNo} {k : Nat} {link : Word} (ho : s.store.op = .run r (.verify f k link)) :
    exec .verifyPage s = .next (s.verifyPage r f k link) := by
  simp only [exec, execVerifyPage, ho, goesOn]

theorem exec_readRawPage {first count buf done : Nat}
    (ho : s.store.op = .run r (.readRaw first count buf done)) :
    exec .readRawPage s = .next (s.readRawPage r first count buf done) := by
  simp only [exec, execReadRawPage, ho, goesOn]

/-- R47: what follows a page that passed. -/
theorem State.afterPage_eq (last : Prop) [Decidable last] (count : Nat) (next : Job) :
    s.afterPage r (decide last) count next = if r.abort then s.endRun r .aborted true count
      else if last then s.endRun r .ok false count else s.setJob r next := by
  simp only [State.afterPage, decide_eq_true_eq]

end

/-! ### READ_FILE (R33) -/

/-- R33: the range bytes in the pages before `k` are none while those pages lie before the range. -/
theorem rangeBefore_eq_zero {offset k : Nat} (length : Nat) (h : 256 * k ≤ offset) :
    rangeBefore offset length k = 0 := by
  unfold rangeBefore; omega

/-- R33: the header check of READ_FILE: the page fits the chain, and a page before the last has a page after
it. -/
def State.readFits (s : State) (f : FileNo) (offset length k : Nat) (p : PageNo) : Prop :=
  pageFits s.sram p 2 f s.store.dir[f].gen k ∧
    (k < (offset + length - 1) / 256 → (readHdr s.sram p).next ≠ 0xFFFF)

section
variable {s : State} {f : FileNo} {offset length k : Nat} {link : Word} {p : PageNo}

/-- R33: the header check is the one that the model makes. -/
theorem State.not_readFits_iff : ¬ s.readFits f offset length k p ↔
    walkOk s.sram p [.live] f s.store.dir[f].gen k = false ∨
      (k < (offset + length - 1) / 256 ∧ (readHdr s.sram p).next = linkEnd) := by
  rw [walkOk_eq_false_iff, State.readFits, Classical.not_and_iff_not_or_not, Classical.not_imp,
    Classical.not_not]
  rfl

variable (r : Run) (buf : Nat)

theorem State.readFilePage_noPage (h : 480 ≤ link.toNat) :
    s.readFilePage r f offset length buf k link =
      s.endRun r .linkMismatch true (rangeBefore offset length k) := by
  rw [State.readFilePage, linkPage_eq_none h]

theorem State.readFilePage_misfit (hl : link.toNat = p.val) (h : ¬ s.readFits f offset length k p) :
    s.readFilePage r f offset length buf k link =
      s.endRun r .linkMismatch true (rangeBefore offset length k) := by
  rw [State.readFilePage, linkPage_of_val hl]
  exact if_pos (State.not_readFits_iff.1 h)

/-- R33: a page before the range is checked by its header alone. -/
theorem State.readFilePage_before (hl : link.toNat = p.val) (h : s.readFits f offset length k p)
    (hk : 256 * (k + 1) ≤ offset) : s.readFilePage r f offset length buf k link =
      s.afterPage r false (rangeBefore offset length k)
        (.readFile f offset length buf (k + 1) (readHdr s.sram p).next) := by
  rw [State.readFilePage, linkPage_of_val hl]
  exact (if_neg fun e => State.not_readFits_iff.2 e h).trans (if_pos hk)

theorem State.readFilePage_badPayload (hl : link.toNat = p.val) (h : s.readFits f offset length k p)
    (hk : offset < 256 * (k + 1)) (hp : payloadPasses s.sram p = false) :
    s.readFilePage r f offset length buf k link =
      s.endRun r .dataCheck true (rangeBefore offset length k) := by
  rw [State.readFilePage, linkPage_of_val hl]
  exact (if_neg fun e => State.not_readFits_iff.2 e h).trans
    ((if_neg (Nat.not_le.2 hk)).trans (if_pos hp))

/-- R33: a page of the range delivers the bytes that it holds of it. -/
theorem State.readFilePage_delivers (hl : link.toNat = p.val) (h : s.readFits f offset length k p)
    (hk : offset < 256 * (k + 1)) (hp : payloadPasses s.sram p = true) :
    s.readFilePage r f offset length buf k link =
      (s.putRam (buf + (max offset (256 * k) - offset))
        (Mem.reads s.sram (pageBase p + 10 + (max offset (256 * k) - 256 * k))
          (min (offset + length) (256 * (k + 1)) - max offset (256 * k)))).afterPage r
        (decide (k = (offset + length - 1) / 256)) (rangeBefore offset length (k + 1))
        (.readFile f offset length buf (k + 1) (readHdr s.sram p).next) := by
  rw [State.readFilePage, linkPage_of_val hl]
  exact (if_neg fun e => State.not_readFits_iff.2 e h).trans
    ((if_neg (Nat.not_le.2 hk)).trans (if_neg (by rw [hp]; decide)))

end

/-! ### VERIFY_FILE (R42) -/

/-- R42: the header check of VERIFY_FILE: the page fits the chain, and the last page alone ends it. -/
def State.verifyFits (s : State) (f : FileNo) (k : Nat) (p : PageNo) : Prop :=
  pageFits s.sram p 2 f s.store.dir[f].gen k ∧
    ((readHdr s.sram p).next = 0xFFFF ↔ k + 1 = s.store.dir[f].pageCount.toNat)

section
variable {s : State} {f : FileNo} {k : Nat} {link : Word} {p : PageNo}

theorem State.not_verifyFits_iff : ¬ s.verifyFits f k p ↔
    walkOk s.sram p [.live] f s.store.dir[f].gen k = false ∨
      (decide ((readHdr s.sram p).next = linkEnd) ≠
        decide (k + 1 = s.store.dir[f].pageCount.toNat)) := by
  rw [walkOk_eq_false_iff, State.verifyFits, Classical.not_and_iff_not_or_not, Ne, decide_eq_decide]
  rfl

variable (r : Run)

theorem State.verifyPage_noPage (h : 480 ≤ link.toNat) :
    s.verifyPage r f k link = s.endRun r .linkMismatch false k := by
  rw [State.verifyPage, linkPage_eq_none h]

theorem State.verifyPage_misfit (hl : link.toNat = p.val) (h : ¬ s.verifyFits f k p) :
    s.verifyPage r f k link = s.endRun r .linkMismatch false k := by
  rw [State.verifyPage, linkPage_of_val hl]
  exact if_pos (State.not_verifyFits_iff.1 h)

theorem State.verifyPage_fits (hl : link.toNat = p.val) (h : s.verifyFits f k p) :
    s.verifyPage r f k link = if payloadPasses s.sram p = false then s.endRun r .dataCheck false k
      else s.afterPage r (decide (k + 1 = s.store.dir[f].pageCount.toNat)) (k + 1)
        (.verify f (k + 1) (readHdr s.sram p).next) := by
  rw [State.verifyPage, linkPage_of_val hl]
  exact if_neg fun e => State.not_verifyFits_iff.2 e h

end

/-- Settles O22: each page event by its link, the header check, the payload check, and what follows a page
that passed. -/
theorem pageReads : Obligations.PageReads := by
  unfold Obligations.PageReads
  refine ⟨?delivers, ?before, ?readMismatch, ?readBadPayload, ?verify, ?verifyMismatch, ?raw⟩
  case delivers =>
    rintro s t r f offset length buf k link p lo hi last n ho hl rfl hfit hnext hk hp rfl rfl rfl rfl
    rw [exec_readFilePage ho, State.readFilePage_delivers r buf hl ⟨hfit, hnext⟩ hk hp, State.afterPage_eq,
      rangeBefore, pageBase]
  case before =>
    intro s r f offset length buf k link p ho hl hfit hnext hk
    rw [exec_readFilePage ho, State.readFilePage_before r buf hl ⟨hfit, hnext⟩ hk,
      rangeBefore_eq_zero length (by omega)]
    rfl
  case readMismatch =>
    rintro s r f offset length buf k link ho (h | ⟨p, hl, h⟩)
    · rw [exec_readFilePage ho, State.readFilePage_noPage r buf h, rangeBefore]
    · have misfit : ¬ s.readFits f offset length k p := by
        rintro ⟨hfit, hnext⟩
        exact h.elim (fun e => e hfit) fun e => hnext e.1 e.2
      rw [exec_readFilePage ho, State.readFilePage_misfit r buf hl misfit, rangeBefore]
  case readBadPayload =>
    intro s r f offset length buf k link p ho hl hfit hnext hk hp
    rw [exec_readFilePage ho, State.readFilePage_badPayload r buf hl ⟨hfit, hnext⟩ hk hp, rangeBefore]
  case verify =>
    intro s r f k link p ho hl hfit hnext
    rw [exec_verifyPage ho, State.verifyPage_fits r hl ⟨hfit, hnext⟩, State.afterPage_eq]
  case verifyMismatch =>
    rintro s r f k link ho (h | ⟨p, hl, h⟩)
    · rw [exec_verifyPage ho, State.verifyPage_noPage r h]
    · have misfit : ¬ s.verifyFits f k p := fun ⟨hfit, hnext⟩ => h.elim (fun e => e hfit) fun e => e hnext
      rw [exec_verifyPage ho, State.verifyPage_misfit r hl misfit]
  case raw =>
    rintro s t r first count buf done ho rfl
    rw [exec_readRawPage ho, State.readRawPage, State.afterPage_eq]

end Sys2Proof.Machine
end

section
/-! SUPPORT. Proofs: Staging and Rolling back of a commit (R35 to R37, R48), and what an unverified record
write leaves (R3). -/
namespace Sys2Proof.Machine

/-! ### The events at their places -/

section
variable {s : State} {r : Run} {c : Commit} {i : Nat}

theorem exec_stageChunk (v : Verify) (ho : s.store.op = .run r (.commit c (.staging i))) :
    exec (.stageChunk v) s = .next (s.stageChunk r c i v) := by
  simp only [exec, execStageChunk, ho, goesOn]

theorem exec_rollbackPageFree {todo : List PageNo} {why : Status} (v : HeaderVerify)
    (ho : s.store.op = .run r (.commit c (.rollback todo why))) :
    exec (.rollbackPageFree v) s = .next (s.rollbackPage r c todo why v) := by
  simp only [exec, execRollbackPageFree, ho, goesOn]

/-- R37, R48: a commit in Staging enters Rolling back with its first page where it may (logs 14, 15). -/
theorem exec_rollbackPageFree_staging (v : HeaderVerify)
    (ho : s.store.op = .run r (.commit c (.staging i))) : exec (.rollbackPageFree v) s = .next
      (if r.abort = true ∨ s.store.free = [] then s.rollbackPage r c c.staged r.rollbackWhy v else s) := by
  simp only [exec, execRollbackPageFree, ho, goesOn]
  split <;> rfl

/-- To set the place where the engine is changes nothing. -/
theorem State.setJob_self {j : Job} (ho : s.store.op = .run r j) : s.setJob r j = s := by
  rw [State.setJob, State.setOp, State.withStore, ← ho]

end

/-! ### What follows a chunk (R35, R36, R48) -/

section
variable {s : State} {r : Run} {c : Commit} {i : Nat}

/-- R35, R48: after a staged chunk come the next one down, the arming write, or Rolling back. -/
theorem State.afterStage_eq (hc : c.staged ≠ []) : s.afterStage r c i = s.setJob r (.commit c
    (if r.abort then .rollback c.staged .aborted else if i = 0 then .arm else .staging (i - 1))) := by
  unfold State.afterStage State.enterRollback
  rw [if_neg hc]
  cases r.abort <;> cases i <;> rfl

/-- R36, R48: after a retired page the chunk is staged again, or the commit rolls back. -/
theorem State.afterRetire_eq (ho : s.store.op = .run r (.commit c (.staging i))) :
    s.afterRetire r c i = if r.abort = true ∧ c.staged = [] then s.endRun r .aborted false 0
      else if r.abort = true then s.setJob r (.commit c (.rollback c.staged .aborted)) else s := by
  rw [State.afterRetire, State.enterRollback, State.setJob_self ho]
  cases r.abort <;> simp

/-- R37: the pages still to free; the last one ends the request. -/
theorem State.rollbackPage_cons (p : PageNo) (ps : List PageNo) (why : Status) (v : HeaderVerify) :
    s.rollbackPage r c (p :: ps) why v = if ps = [] then (s.freePage p v).endRun r why false 0
      else (s.freePage p v).setJob r (.commit c (.rollback ps why)) := by
  cases ps <;> rfl

end

/-! ### The records of a staged chunk (R35, R36) -/

/-- R35: the link of the next chunk names the page staged last, or is End. -/
theorem Commit.stageLink_toNat (c : Commit) : c.stageLink.toNat = match c.staged.getLast? with
    | some q => q.val
    | none => 0xFFFF := by
  rw [Commit.stageLink]
  cases c.staged.getLast? with
  | none => rfl
  | some q => exact (BitVec.toNat_ofNat q.val 16).trans (Nat.mod_eq_of_lt (by have := q.isLt; omega))

section
variable (s : State) (r : Run) (c : Commit) (i : Nat) {p : PageNo} {rest : List PageNo}

/-- R35: the full write of a chunk: a Staged header and the payload, each with its check. -/
theorem State.stageWrite_eq (p : PageNo) : s.stageWrite c i p = {
    base := 1024 + 268 * p.val
    bytes := withCheck ([1, byteOf c.file.val, byteOf i, 0] ++ bytes16 c.gen.toNat ++
        bytes16 (match c.staged.getLast? with
          | some q => q.val
          | none => 0xFFFF)) ++ withCheck (s.chunkBytes c i) } := by
  rw [← Commit.stageLink_toNat]
  rfl

theorem State.stageChunk_pass (hf : s.store.free = p :: rest) : s.stageChunk r c i .pass =
    ((s.putArray (s.stageWrite c i p)).withStore { s.store with free := rest }).afterStage r
      { c with staged := c.staged ++ [p] } i := by
  rw [State.stageChunk, hf]

/-- R36: a page whose full write fails verify is retired, under its Bad header (log 10). -/
theorem State.stageChunk_fail {t : State} (dev bad : List Host.Cell) (hf : s.store.free = p :: rest)
    (ht : t = { s with
      sram := Mem.writes s.sram (1024 + 268 * p.val)
        (written bad (plainHeader 3) ++ overlay dev 0 (withCheck (s.chunkBytes c i))),
      store := { s.store with free := rest, bad := s.store.badAfter p (.fail bad) } }) :
    s.stageChunk r c i (.fail dev bad) = t.afterRetire r c i := by
  rw [State.stageChunk, hf]
  dsimp only
  rw [Store.retire_eq _ p bad, ht]
  rfl

theorem State.stageChunk_noPage (v : Verify) (hf : s.store.free = []) :
    s.stageChunk r c i v = s.enterRollback r c r.rollbackWhy := by
  rw [State.stageChunk, hf]

end

/-! ### What an unverified record write leaves (R3) -/

/-- A byte that a write leaves is one that the outcome names at its position, or the one written. -/
theorem overlay_getElem?_cases {dev : List Host.Cell} {bs : List Byte} {k : Nat} {b : Byte}
    (h : (overlay dev 0 bs)[k]? = some b) : (k, b) ∈ dev ∨ bs[k]? = some b := by
  rw [overlay_getElem?, Nat.zero_add, Option.map_eq_some_iff] at h
  obtain ⟨b', hb', e⟩ := h
  cases hl : dev.lookup k with
  | none => rw [hl] at e; exact .inr (hb'.trans (congrArg some e))
  | some x =>
    rw [hl] at e
    obtain ⟨l, l', split, -⟩ := List.lookup_eq_some_iff.1 hl
    rw [split, ← show x = b from e]
    exact .inl (List.mem_append_right l List.mem_cons_self)

/-- R3: a record write took whole, or left bytes that fail the check of a record of that length. -/
theorem written_cases_of_length (dev : List Host.Cell) (bs : List Byte) : written dev bs = bs ∨
    ((bs.length = 6 → passes 4 (written dev bs) = false) ∧
      (bs.length = 10 → passes 8 (written dev bs) = false) ∧
      (bs.length = 32 → passes 30 (written dev bs) = false) ∧
      (written dev bs).length = bs.length ∧
      ∀ k b, (written dev bs)[k]? = some b → (k, b) ∈ dev ∨ bs[k]? = some b) := by
  rcases written_cases dev bs with whole | ⟨left, fails⟩
  · exact .inl whole
  · rw [recordPasses, written_length] at fails
    refine .inr ⟨fun h => ?_, fun h => ?_, fun h => ?_, written_length dev bs, fun k b hk => ?_⟩
    · simpa [h] using fails
    · simpa [h] using fails
    · simpa [h] using fails
    · rw [left] at hk; exact overlay_getElem?_cases hk

/-- Settles O23: each staging event by the free list and the verify, each rollback event by the pages still to
free. -/
theorem staging : Obligations.Staging := by
  unfold Obligations.Staging
  refine ⟨?pass, ?fail, ?noPage, ?rollback, ?noRollback, written_cases_of_length⟩
  case pass =>
    rintro s r c c' i p rest n ho hf rfl rfl
    rw [exec_stageChunk _ ho, State.stageChunk_pass s r c i hf, State.afterStage_eq (by simp),
      State.stageWrite_eq]
    rfl
  case fail =>
    rintro s t r c i p rest n dev bad ho hf rfl ht
    have place : t.store.op = .run r (.commit c (.staging i)) := by rw [ht]; exact ho
    rw [exec_stageChunk _ ho, State.stageChunk_fail s r c i dev bad hf ht, State.afterRetire_eq place]
  case noPage =>
    rintro s r c i v why ho hf rfl
    rw [exec_stageChunk _ ho, State.stageChunk_noPage s r c i v hf]
    rfl
  case rollback =>
    rintro s t r c p ps why v place rfl
    have freed : exec (.rollbackPageFree v) s = .next (s.rollbackPage r c (p :: ps) why v) := by
      rcases place with ho | ⟨i, ho, hc, may, rfl⟩
      · exact exec_rollbackPageFree v ho
      · rw [exec_rollbackPageFree_staging v ho, if_pos may, hc, Run.rollbackWhy]
    rw [freed, State.rollbackPage_cons, State.freePage_eq]
  case noRollback =>
    intro s r c i v ho h
    rw [exec_rollbackPageFree_staging v ho]
    split
    · next may =>
      have nothing : c.staged = [] := h.resolve_right fun ⟨ha, hf⟩ => by
        rcases may with e | e
        · rw [ha] at e; cases e
        · exact hf e
      rw [nothing]
      rfl
    · rfl

end Sys2Proof.Machine
end

section
/-! SUPPORT. Proofs: the finish phase of a commit and its break (R38, R39, R6). -/
namespace Sys2Proof.Machine

/-! ### The events at their places -/

section
variable {s : State} {r : Run} {c : Commit}

theorem exec_armJournal_commit (dev : List Host.Cell) (ho : s.store.op = .run r (.commit c .arm)) :
    exec (.armJournal dev) s = .next (s.armCommit r c dev) := by
  simp only [exec, execArmJournal, ho, goesOn]

theorem exec_commitEntryWrite {t : Stamp} (dev : List Host.Cell)
    (ho : s.store.op = .run r (.commit c (.entry t))) :
    exec (.commitEntryWrite dev) s = .next (s.commitEntry r c t dev) := by
  simp only [exec, execCommitEntryWrite, ho, goesOn]

theorem exec_liveRewrite {done todo : List PageNo} (v : HeaderVerify)
    (ho : s.store.op = .run r (.commit c (.live done todo))) :
    exec (.liveRewrite v) s = .next (s.liveRewrite r c done todo v) := by
  simp only [exec, execLiveRewrite, ho, goesOn]

theorem exec_breakPageFree {kept todo : List PageNo} (v : HeaderVerify)
    (ho : s.store.op = .run r (.commit c (.breakFree kept todo))) :
    exec (.breakPageFree v) s = .next (s.breakFree r c kept todo v) := by
  simp only [exec, execBreakPageFree, ho, goesOn]

theorem exec_damagedEntryWrite {kept : List PageNo} (dev : List Host.Cell)
    (ho : s.store.op = .run r (.commit c (.damagedEntry kept))) :
    exec (.damagedEntryWrite dev) s = .next (s.damagedEntry r c kept dev) := by
  simp only [exec, execDamagedEntryWrite, ho, goesOn]

theorem exec_freeOldPage_commit {todo : List PageNo} {broken : Option Nat} (v : HeaderVerify)
    (ho : s.store.op = .run r (.commit c (.freeOld todo broken))) :
    exec (.freeOldPage v) s = .next (s.freeOldCommit r c todo broken v) := by
  simp only [exec, execFreeOldPage, ho, goesOn]

theorem exec_clearJournal_commit {broken : Option Nat} (dev : List Host.Cell)
    (ho : s.store.op = .run r (.commit c (.clear broken))) :
    exec (.clearJournal dev) s = .next (s.clearCommit r c broken dev) := by
  simp only [exec, execClearJournal, ho, goesOn]

end

/-! ### The records and the places of a commit -/

/-- R6: the root of the new chain is the page staged last, or End. -/
theorem Commit.root_eq (c : Commit) : c.root = match c.staged.getLast? with
    | some q => BitVec.ofNat 16 q.val
    | none => 0xFFFF := by
  rw [Commit.root, Commit.stageLink]
  cases c.staged.getLast? <;> rfl

/-- R38: after the entry come the rewrites to Live, the old pages, or the clearing write. -/
theorem Commit.afterEntry_eq (c : Commit) : c.afterEntry =
    if c.staged ≠ [] then .live [] c.staged.reverse
    else if c.old = [] then .clear none else .freeOld c.old none := by
  rw [Commit.afterEntry, Commit.chain, ite_not]
  simp only [List.reverse_eq_nil_iff]
  rfl

section
variable (s : State) (r : Run) (c : Commit)

/-- R38 step 2: the entry that a commit's journal says. -/
theorem State.commitJournal_entry (t : Stamp) : (s.commitJournal c t).entry =
    { live := true, damaged := false, protect := c.protect, length := BitVec.ofNat 16 c.length,
      pageCount := byteOf c.staged.length,
      root := match c.staged.getLast? with
        | some q => BitVec.ofNat 16 q.val
        | none => 0xFFFF,
      gen := c.gen, day := BitVec.ofNat 16 t.time.day.val, second := BitVec.ofNat 32 t.time.second.val,
      epoch := BitVec.ofNat 16 t.epoch.val } := by
  rw [Journal.entry, State.commitJournal, Commit.root, Commit.stageLink]
  cases c.staged.getLast? <;> rfl

/-- The place where the engine is, set over whatever the event wrote. -/
theorem State.setJob_eq (j : Job) : s.setJob r j = { s with store := { s.store with op := .run r j } } := rfl

/-- R6: the arming write stores the journal. -/
theorem State.armJournal_written (j : Journal) (dev : List Host.Cell) : s.putRecord (armWrite j) dev = { s with
    sram := Mem.writes s.sram 16 (written dev j.bytes) } := by
  rw [State.putRecord_eq, armWrite, journalBase]

/-- R7: an entry's write stores its 32 bytes. -/
theorem State.entry_written (f : FileNo) (e : Entry) (dev : List Host.Cell) :
    s.putRecord (entryWrite f e) dev = { s with
      sram := Mem.writes s.sram (64 + 32 * f.val) (written dev e.bytes) } := by
  rw [State.putRecord_eq, entryWrite, entryBase]

/-- R6: the clearing write keeps every field but the state and the check. -/
theorem State.clearJournal_written (dev : List Host.Cell) : s.putRecord (clearWrite s.sram) dev = { s with
    sram := Mem.writes s.sram 16 (written dev (withCheck (0 :: Mem.reads s.sram 17 29))) } := by
  rw [State.putRecord_eq, clearWrite, journalBase]

/-- R38 step 3: a page rewritten Live. -/
theorem State.liveRewrite_pass (done : List PageNo) (p : PageNo) (ps : List PageNo) :
    s.liveRewrite r c done (p :: ps) .pass = { s with
      sram := Mem.writes s.sram (1024 + 268 * p.val) (liveHdr s.sram p).bytes,
      store := { s.store with op := .run r (.commit c
        (if ps = [] then c.afterLive none else .live (done ++ [p]) ps)) } } := rfl

/-- R39: a page whose rewrite to Live fails verify is retired, and the chain ends before it. -/
theorem State.liveRewrite_fail (done : List PageNo) (p : PageNo) (ps : List PageNo)
    (bad : List Host.Cell) : s.liveRewrite r c done (p :: ps) (.fail bad) = { s with
      sram := Mem.writes s.sram (1024 + 268 * p.val) (written bad (plainHeader 3)),
      store := { s.store with
        bad := s.store.badAfter p (.fail bad), chains := s.store.chains.set c.file done,
        op := .run r (.commit c (if ps = [] then .damagedEntry done else .breakFree done ps)) } } := by
  rw [State.liveRewrite, State.rewrite_eq]
  rfl

/-- R38 step 4: an old page rewritten Free. -/
theorem State.freeOldCommit_cons (p : PageNo) (ps : List PageNo) (broken : Option Nat) (v : HeaderVerify) :
    s.freeOldCommit r c (p :: ps) broken v = { s with
      sram := rewritten s.sram p (plainHeader 0) v,
      store := { s.store with
        free := s.store.freeAfter p v, bad := s.store.badAfter p v,
        op := .run r (.commit c (if ps = [] then .clear broken else .freeOld ps broken)) } } := by
  rw [State.freeOldCommit, State.freePage_eq]
  rfl

/-- R39: a new page after the break rewritten Free. -/
theorem State.breakFree_cons (kept : List PageNo) (p : PageNo) (ps : List PageNo) (v : HeaderVerify) :
    s.breakFree r c kept (p :: ps) v = { s with
      sram := rewritten s.sram p (plainHeader 0) v,
      store := { s.store with
        free := s.store.freeAfter p v, bad := s.store.badAfter p v,
        op := .run r (.commit c (if ps = [] then .damagedEntry kept else .breakFree kept ps)) } } := by
  rw [State.breakFree, State.freePage_eq]
  rfl

end

/-- Settles O24: each event of the finish phase by its own equation, the records by the fields they hold. -/
theorem commitFinishes : Obligations.CommitFinishes := by
  unfold Obligations.CommitFinishes
  refine ⟨?arm, ?entry, ?live, ?freeOld, ?clear⟩
  case arm =>
    intro s r c j e dev ho he hj
    have journal : j = s.commitJournal c s.stamp := by rw [hj, he, State.commitJournal, Commit.root_eq]; rfl
    rw [exec_armJournal_commit dev ho, State.armCommit, ← journal, State.armJournal_written,
      State.setJob_eq, State.stamp]
  case entry =>
    intro s r c t e dev ho he
    have entry : e = (s.commitJournal c t).entry := he.trans (s.commitJournal_entry c t).symm
    rw [exec_commitEntryWrite dev ho, State.commitEntry, ← entry, Commit.afterEntry_eq, State.entry_written,
      State.withStore, State.setJob_eq, Commit.chain]
  case live =>
    intro s r c done p ps ho
    rw [exec_liveRewrite _ ho, State.liveRewrite_pass, ← ite_not]
    rfl
  case freeOld =>
    intro s r c p ps broken v ho
    rw [exec_freeOldPage_commit v ho, State.freeOldCommit_cons]
  case clear =>
    intro s r c dev ho
    rw [exec_clearJournal_commit dev ho, State.clearCommit, State.clearJournal_written]

/-- Settles O25: the break, the pages after it, the damaged entry and the end, each by its own equation. -/
theorem brokenCommit : Obligations.BrokenCommit := by
  unfold Obligations.BrokenCommit
  refine ⟨?broken, ?breakFree, ?entry, ?clear⟩
  case broken =>
    intro s r c done p ps bad ho
    rw [exec_liveRewrite _ ho, State.liveRewrite_fail]
  case breakFree =>
    intro s r c kept p ps v ho
    rw [exec_breakPageFree v ho, State.breakFree_cons]
  case entry =>
    rintro s r c kept e dev ho rfl
    rw [exec_damagedEntryWrite dev ho, State.damagedEntry, Commit.afterLive, State.entry_written,
      State.withStore, State.setJob_eq]
  case clear =>
    intro s r c n dev ho
    rw [exec_clearJournal_commit dev ho, State.clearCommit, State.clearJournal_written]

end Sys2Proof.Machine
end

section
/-! SUPPORT. Proofs: a delete from its arming write to the purge reply (R40, R41, R6). -/
namespace Sys2Proof.Machine

section
variable {s : State} {r : Run} {f : FileNo}

theorem exec_armJournal_delete (dev : List Host.Cell) (ho : s.store.op = .run r (.delete f .arm)) :
    exec (.armJournal dev) s = .next (s.armDelete r f dev) := by
  simp only [exec, execArmJournal, ho, goesOn]

theorem exec_deleteEntryClear (dev : List Host.Cell) (ho : s.store.op = .run r (.delete f .entry)) :
    exec (.deleteEntryClear dev) s = .next (s.deleteEntry r f dev) := by
  simp only [exec, execDeleteEntryClear, ho, goesOn]

theorem exec_freeOldPage_delete {todo : List PageNo} (v : HeaderVerify)
    (ho : s.store.op = .run r (.delete f (.freeOld todo))) :
    exec (.freeOldPage v) s = .next (s.freeOldDelete r f todo v) := by
  simp only [exec, execFreeOldPage, ho, goesOn]

theorem exec_clearJournal_delete (dev : List Host.Cell) (ho : s.store.op = .run r (.delete f .clear)) :
    exec (.clearJournal dev) s = .next (s.clearDelete r f dev) := by
  simp only [exec, execClearJournal, ho, goesOn]

theorem exec_purgeReply_delete {k : Nat} (ho : s.store.op = .run r (.delete f .purging))
    (hk : s.store.purgeReply = some k) : exec .purgeReply s = .next (s.deleteEnd r k) := by
  simp only [exec, execPurgeReply, State.purgeReplied, hk, ho, goesOn]

end

/-- R40 step 3: a page of the deleted chain rewritten Free. -/
theorem State.freeOldDelete_cons (s : State) (r : Run) (f : FileNo) (p : PageNo) (ps : List PageNo)
    (v : HeaderVerify) : s.freeOldDelete r f (p :: ps) v = { s with
      sram := rewritten s.sram p (plainHeader 0) v,
      store := { s.store with
        free := s.store.freeAfter p v, bad := s.store.badAfter p v,
        op := .run r (.delete f (if ps = [] then .clear else .freeOld ps)) } } := by
  rw [State.freeOldDelete, State.freePage_eq]
  rfl

/-- Settles O26: each event of a delete by its own equation, the Empty entry by its bytes. -/
theorem deleteRuns : Obligations.DeleteRuns := by
  unfold Obligations.DeleteRuns
  refine ⟨?arm, ?entry, ?freeOld, ?clear, ?purged⟩
  case arm =>
    intro s r f j e dev ho he hj
    have journal : j = s.deleteJournal f s.stamp := by rw [hj, he, State.deleteJournal]; rfl
    rw [exec_armJournal_delete dev ho, State.armDelete, ← journal, State.armJournal_written, State.setJob_eq]
  case entry =>
    intro s r f dev ho
    rw [exec_deleteEntryClear dev ho, State.deleteEntry, State.entry_written, Entry.empty_bytes,
      State.withStore, State.setJob_eq]
  case freeOld =>
    intro s r f p ps v ho
    rw [exec_freeOldPage_delete v ho, State.freeOldDelete_cons]
  case clear =>
    intro s r f dev ho
    rw [exec_clearJournal_delete dev ho, State.clearDelete, State.clearJournal_written, State.setJob_eq]
    rfl
  case purged =>
    intro s r f k ho hk
    rw [exec_purgeReply_delete ho hk, State.deleteEnd, State.withStore]

end Sys2Proof.Machine
end

section
/-! SUPPORT. Proofs: a format from its header write to the purge reply (R44, R45, R11, R16, R161). -/
namespace Sys2Proof.Machine

section
variable {s : State} {r : Run}

theorem exec_formatHeaderWrite (dev : List Host.Cell) (ho : s.store.op = .run r (.format .header)) :
    exec (.formatHeaderWrite dev) s = .next (s.formatHeader r dev) := by
  simp only [exec, execFormatHeaderWrite, ho, goesOn]

theorem exec_formatJournalWrite (dev : List Host.Cell) (ho : s.store.op = .run r (.format .journal)) :
    exec (.formatJournalWrite dev) s = .next (s.formatJournalWrite r dev) := by
  simp only [exec, execFormatJournalWrite, ho, goesOn]

theorem exec_formatEntryWrite {f : FileNo} (dev : List Host.Cell)
    (ho : s.store.op = .run r (.format (.entries f))) :
    exec (.formatEntryWrite dev) s = .next (s.formatEntry r f dev) := by
  simp only [exec, execFormatEntryWrite, ho, goesOn]

theorem exec_formatPageWrite {p : PageNo} {bad : Nat} (v : HeaderVerify)
    (ho : s.store.op = .run r (.format (.pages p bad))) :
    exec (.formatPageWrite v) s = .next (s.formatPage r p bad v) := by
  simp only [exec, execFormatPageWrite, ho, goesOn]

theorem exec_purgeReply_format {bad k : Nat} (ho : s.store.op = .run r (.format (.purging bad)))
    (hk : s.store.purgeReply = some k) : exec .purgeReply s = .next (s.formatEnd r bad) := by
  simp only [exec, execPurgeReply, State.purgeReplied, hk, ho, goesOn]

end

section
variable (s : State) (r : Run) (p : PageNo) (bad : Nat) (v : HeaderVerify)

/-- R44 step 4: a page before the last, and the place of the next. -/
theorem State.formatPage_more (h : p.val + 1 < 480) : s.formatPage r p bad v = { s with
    sram := rewritten s.sram p (plainHeader 0) v,
    store := { s.store with
      free := s.store.freeAfter p v, bad := s.store.badAfter p v,
      op := .run r (.format (.pages ⟨p.val + 1, h⟩ (if passed v then bad else bad + 1))) } } := by
  rw [State.formatPage, State.freePage_eq]
  exact dif_pos h

/-- R45: the last page sends the purge. -/
theorem State.formatPage_last (h : ¬ p.val + 1 < 480) : s.formatPage r p bad v = { s with
    sram := rewritten s.sram p (plainHeader 0) v,
    store := { s.store with
      free := s.store.freeAfter p v, bad := s.store.badAfter p v, purgeReq := some .allNotLive,
      op := .run r (.format (.purging (if passed v then bad else bad + 1))) } } := by
  rw [State.formatPage, State.freePage_eq]
  exact dif_neg h

/-- R45, R16, R161: the purge reply makes the store formatted and Ready, or Quiesced under the hold with the
held report. -/
theorem State.formatEnd_eq : s.formatEnd r bad =
    { s.terminate .store r.blk { status := .ok, part := false, late := r.late, count := bad } with
      store := { s.store with
        verdict := true, purgeReply := none, op := .none,
        status := if s.store.hold then .quiesced else .ready },
      link := { s.link with
        quiesce := s.link.quiesce.reported
          (s.store.hold && decide (s.sound.engine = .held) && s.rumble.hold) } } := by
  have held (st : Store) : Store.held { st with
      op := .none, status := if st.hold then .quiesced else .ready } = st.hold := by
    rw [Store.held]
    cases st.hold <;> rfl
  have rest : Store.rest { s.store with verdict := true, purgeReply := none, status := .busy } =
      if s.store.hold then .quiesced else .ready := if_pos rfl
  rw [State.formatEnd, State.endRun, State.settleQuiesce_eq, State.allHeld, State.withStore_store,
    State.withStore_store, rest, held { s.store with verdict := true, purgeReply := none, status := .busy }]
  rfl

end

/-- Settles O27: each event of a format by its own equation, the last page apart from those before it. -/
theorem formatRuns : Obligations.FormatRuns := by
  unfold Obligations.FormatRuns
  refine ⟨?header, ?journal, ?entry, ?more, ?last, ?purged⟩
  case header =>
    intro s r dev ho
    rw [exec_formatHeaderWrite dev ho, State.formatHeader, State.putRecord_eq, validHeader, headerBase,
      State.setJob_eq]
  case journal =>
    intro s r dev ho
    rw [exec_formatJournalWrite dev ho, State.formatJournalWrite, State.putRecord_eq, formatJournal,
      journalBase, State.setJob_eq]
  case entry =>
    intro s r f dev ho
    rw [exec_formatEntryWrite dev ho, State.formatEntry, State.entry_written, Entry.empty_bytes,
      State.withStore, State.setJob_eq]
  case more =>
    intro s r p bad h v ho
    rw [exec_formatPageWrite v ho, State.formatPage_more s r p bad v h]
    cases v <;> rfl
  case last =>
    intro s r p bad v hp ho
    rw [exec_formatPageWrite v ho, State.formatPage_last s r p bad v (by omega)]
    cases v <;> rfl
  case purged =>
    rintro s r bad k t ho hk rfl
    rw [exec_purgeReply_format ho hk, State.formatEnd_eq]

end Sys2Proof.Machine
end

section
/-! SUPPORT. Proofs: the counting path (R52 to R54, R56, R61). -/
namespace Sys2Proof.Machine

/-! ### The count (R54) -/

section
variable {t : CalTime}

theorem CalTime.advance_second (h : t.second.val + 1 < 86400) :
    t.advance = (⟨t.day, ⟨t.second.val + 1, h⟩⟩, false) := dif_pos h

theorem CalTime.advance_midnight (hs : t.second.val = 86399) (h : t.day.val + 1 < 65536) :
    t.advance = (⟨⟨t.day.val + 1, h⟩, 0⟩, false) :=
  (dif_neg (by omega)).trans (dif_pos h)

theorem CalTime.advance_wrap (hs : t.second.val = 86399) (hd : t.day.val = 65535) :
    t.advance = (⟨0, 0⟩, true) :=
  (dif_neg (by omega)).trans (dif_neg (by omega))

end

/-! ### A crystal edge, by oscillator state (R52, R53) -/

section
variable {s : State}

/-- An event of the cell domain has no place without power or away from either part of its condition. -/
theorem State.not_cellOn_and {p q : Prop} (h : s.supplyState = .dead ∨ ¬ p ∨ ¬ q) :
    ¬ (s.cellOn = true ∧ p ∧ q) := by
  rintro ⟨on, hp, hq⟩
  rcases h with dead | np | nq
  · exact (cellOn_iff s).1 on dead
  · exact np hp
  · exact nq hq

theorem exec_crystalEdge (hd : s.supplyState ≠ .dead) : exec .crystalEdge s = .next s.crystalEdge :=
  if_pos ((cellOn_iff s).2 hd)

theorem State.crystalEdge_stopped (ho : s.cal.osc = .stopped) :
    s.crystalEdge = s.withCal { s.cal with osc := .settling, settle := 0 } := by
  rw [State.crystalEdge, ho]

theorem State.crystalEdge_settling (ho : s.cal.osc = .settling) (h : s.cal.settle.val + 1 < 2048) :
    s.crystalEdge = s.withCal { s.cal with settle := ⟨s.cal.settle.val + 1, h⟩ } := by
  rw [State.crystalEdge, ho]
  exact dif_pos h

theorem State.crystalEdge_settled (ho : s.cal.osc = .settling) (h : s.cal.settle.val + 1 = 2048) :
    s.crystalEdge = s.withCal s.cal.settled := by
  rw [State.crystalEdge, ho]
  exact dif_neg (by omega)

theorem State.crystalEdge_running (ho : s.cal.osc = .running) (h : s.cal.prescaler.val + 1 < 32768) :
    s.crystalEdge = s.withCal { s.cal with prescaler := ⟨s.cal.prescaler.val + 1, h⟩ } := by
  rw [State.crystalEdge, ho]
  exact dif_pos h

theorem State.crystalEdge_second (ho : s.cal.osc = .running) (h : s.cal.prescaler.val = 32767) :
    s.crystalEdge = s.secondEvent := by
  rw [State.crystalEdge, ho]
  exact dif_neg (by omega)

/-! ### The detector window and the end of settling (R52, R56) -/

theorem exec_detectorWindowExpiry (hd : s.supplyState ≠ .dead) :
    exec .detectorWindowExpiry s = .next (s.withCal s.cal.stop) := if_pos ((cellOn_iff s).2 hd)

theorem exec_settlingComplete (hd : s.supplyState ≠ .dead) (ho : s.cal.osc = .settling)
    (h : s.cal.settle.val = 2047) : exec .settlingComplete s = .next (s.withCal s.cal.settled) :=
  if_pos ⟨(cellOn_iff s).2 hd, ho, h⟩

theorem exec_settlingComplete_early
    (h : s.supplyState = .dead ∨ s.cal.osc ≠ .settling ∨ s.cal.settle.val ≠ 2047) :
    exec .settlingComplete s = .next s := if_neg (State.not_cellOn_and h)

/-! ### A second event (R53, R54, R61) -/

theorem exec_secondEvent (hd : s.supplyState ≠ .dead) (ho : s.cal.osc = .running)
    (h : s.cal.prescaler.val = 32767) : exec .secondEvent s = .next s.secondEvent :=
  if_pos ⟨(cellOn_iff s).2 hd, ho, h⟩

theorem exec_secondEvent_early
    (h : s.supplyState = .dead ∨ s.cal.osc ≠ .running ∨ s.cal.prescaler.val ≠ 32767) :
    exec .secondEvent s = .next s := if_neg (State.not_cellOn_and h)

/-- R72: with the head of the table due later than now, or no entry, an application of the firing rule does
nothing, whatever stands behind the head. -/
theorem State.applyFiring_of_head_later (h : ∀ a ∈ s.cal.alarms.head?, a.due.later s.cal.now = true) :
    s.applyFiring = (s, 0) := by
  unfold State.applyFiring
  cases hl : s.cal.alarms with
  | nil => rfl
  | cons a rest =>
    have later : a.due.later s.cal.now = true := h a (by rw [hl]; exact rfl)
    rw [List.length_cons, State.fireDue, hl]
    exact if_pos later

/-- R54: a second event to the time `t` with nothing due by then moves the clock alone; `wrapped` says that
the count passed its end. -/
theorem exec_secondEvent_quiet {t : CalTime} {wrapped : Bool} (hd : s.supplyState ≠ .dead)
    (ho : s.cal.osc = .running) (hp : s.cal.prescaler.val = 32767)
    (advance : s.cal.now.advance = (t, wrapped)) (later : ∀ a ∈ s.cal.alarms.head?, a.due.later t = true) :
    exec .secondEvent s = .next { s with
      cal := { s.cal with prescaler := 0, now := t, timeLost := s.cal.timeLost || wrapped } } := by
  have tick : s.cal.tick =
      { s.cal with prescaler := 0, now := t, timeLost := s.cal.timeLost || wrapped } := by
    rw [Calendar.tick, advance]
  rw [exec_secondEvent hd ho hp, State.secondEvent, tick, State.applyFiring_of_head_later later]
  rfl

end

/-- Settles O8: each event by its equation in each oscillator state, and a second event by how the count
advances. -/
theorem countingPath : Obligations.CountingPath := by
  unfold Obligations.CountingPath
  refine ⟨?starts, ?settling, ?settled, ?counts, ?second, ?stops, ?stopped, ?complete,
    fun s h => exec_settlingComplete_early h, fun s h => exec_secondEvent_early h, ?nextSecond, ?midnight,
    ?wrap⟩
  case starts =>
    intro s hd ho
    rw [exec_crystalEdge hd, State.crystalEdge_stopped ho, State.withCal]
  case settling =>
    intro s h hd ho
    rw [exec_crystalEdge hd, State.crystalEdge_settling ho h, State.withCal]
  case settled =>
    intro s hd ho h
    rw [exec_crystalEdge hd, State.crystalEdge_settled ho h, State.withCal, Calendar.settled]
  case counts =>
    intro s h hd ho
    rw [exec_crystalEdge hd, State.crystalEdge_running ho h, State.withCal]
  case second =>
    intro s hd ho h
    rw [exec_crystalEdge hd, State.crystalEdge_second ho h, exec_secondEvent hd ho h]
  case stops =>
    intro s hd ho
    rw [exec_detectorWindowExpiry hd, Calendar.stop, if_neg ho, State.withCal]
  case stopped =>
    intro s hd ho
    rw [exec_detectorWindowExpiry hd, Calendar.stop, if_pos ho, State.withCal]
  case complete =>
    intro s hd ho h
    rw [exec_settlingComplete hd ho h, State.withCal, Calendar.settled]
  case nextSecond =>
    intro s h hd ho hp later
    rw [exec_secondEvent_quiet hd ho hp (CalTime.advance_second h) later, Bool.or_false]
  case midnight =>
    intro s h hd ho hp hs later
    rw [exec_secondEvent_quiet hd ho hp (CalTime.advance_midnight hs h) later, Bool.or_false]
  case wrap =>
    intro s hd ho hp hs hday later
    rw [exec_secondEvent_quiet hd ho hp (CalTime.advance_wrap hs hday) later, Bool.or_true]

end Sys2Proof.Machine
end

section
/-! SUPPORT. Proofs: SET_CALENDAR, SET_ROLLOVER, READ_CALENDAR and CAL (R57 to R60, R62). -/
namespace Sys2Proof.Machine

/-! ### An offer to the calendar cell that passes the general checks (R148) -/

section
variable {s : State} {v : Word} {b : Block} {op need : Nat}

theorem State.runCalendar_passes {n : Nat} (h : s.calendarNeeds b = some n) (hw : n ≤ b.words) :
    s.runCalendar b = s.calendarRequest b := by
  rw [State.runCalendar, h]
  exact if_neg (Nat.not_lt.2 hw)

theorem State.offered.calendar_opcode (h : s.offered .calendar op need v b) :
    (s.accepted .calendar b).opcode b = op := by
  obtain ⟨-, code, -⟩ := h
  rw [State.accepted_opcode, code]

/-- The offer of a block long enough for its request hands it to that request. -/
theorem State.offered.calendarRequests (h : s.offered .calendar op need v b)
    (hop : 1 ≤ op ∧ op ≤ 7 ∧ [0, 6, 4, 3, 6, 3, 3, 4].getD op 0 = need) :
    goesOn (s.namedOffer .calendar op v) = .next ((s.accepted .calendar b).calendarRequest b) := by
  obtain ⟨-, code, long⟩ := id h
  obtain ⟨h1, h7, rfl⟩ := hop
  subst code
  have needs : (s.accepted .calendar b).calendarNeeds b = _ :=
    (s.accepted_calendarNeeds .calendar b b).trans (State.calendarNeeds_eq_some h1 h7)
  rw [State.namedOffer_of_offered h, State.runUnit, State.runCalendar_passes needs long]
  rfl

theorem exec_readCalendar (h : s.offered .calendar 1 6 v b) :
    exec (.readCalendar v) s = .next ((s.accepted .calendar b).readCalendar b) :=
  (h.calendarRequests (by decide)).trans (by rw [State.calendarRequest, h.calendar_opcode]; rfl)

theorem exec_setCalendar (h : s.offered .calendar 2 4 v b) :
    exec (.setCalendar v) s = .next ((s.accepted .calendar b).setCalendar b) :=
  (h.calendarRequests (by decide)).trans (by rw [State.calendarRequest, h.calendar_opcode]; rfl)

theorem exec_setRollover (h : s.offered .calendar 3 3 v b) :
    exec (.setRollover v) s = .next ((s.accepted .calendar b).setRollover b) :=
  (h.calendarRequests (by decide)).trans (by rw [State.calendarRequest, h.calendar_opcode]; rfl)

end

/-! ### SET_CALENDAR (R60) -/

section
variable {s : State} {b : Block}

theorem State.setCalendar_badArg (h : 86400 ≤ s.arg32 b 8) :
    s.setCalendar b = s.terminate .calendar b (.refuse .badArg) := by
  rw [State.setCalendar, inRange_eq_none h]

/-- R60: a set to a second in range sets the clock, then applies the firing rule. -/
theorem State.setCalendar_second {second : Fin 86400} {now : CalTime} (h : s.arg32 b 8 = second.val)
    (hnow : now = ⟨Fin.ofNat 65536 (s.arg16 b 4), second⟩) :
    s.setCalendar b = (s.withCal (s.cal.setTime now)).applyFiring.1.terminate .calendar b
      (.ok (s.withCal (s.cal.setTime now)).applyFiring.2) := by
  rw [State.setCalendar, inRange_val second h, hnow]

/-- R57: the epoch rises by 1 up to 65535. -/
theorem epochAfter_val (e : Fin 65536) : (epochAfter e).val = min 65535 (e.val + 1) := by
  have := e.isLt
  unfold epochAfter
  split
  · show e.val + 1 = _
    omega
  · omega

/-- R60, R72: what the firing rule does in Full to a lawful calendar whose clock a request has set. -/
theorem State.accepted_setTime_fires {c : CellId} (full : s.supplyState = .full) (lawful : s.cal.lawful)
    (now : CalTime) : Fires ((s.accepted c b).withCal (s.cal.setTime now)) now .full
      ((s.accepted c b).withCal (s.cal.setTime now)).applyFiring := by
  obtain ⟨-, -, sorted, -, fits, -, -⟩ := lawful
  have fires := State.applyFiring_spec ((s.accepted c b).withCal (s.cal.setTime now)) sorted fits
  have supply : ((s.accepted c b).withCal (s.cal.setTime now)).supplyState = .full := full
  rwa [supply] at fires

end

/-- Settles O11: the refusal by the range of the second; a set that passes by what the firing rule leaves of
the state with the new clock (`Fires`). -/
theorem setCalendar : Obligations.SetCalendar := by
  unfold Obligations.SetCalendar
  refine ⟨?badArg, ?sets⟩
  case badArg =>
    intro s v b h hrange
    rw [exec_setCalendar h, State.setCalendar_badArg]
    rwa [State.accepted_arg32]
  case sets =>
    rintro s v b second now due h hsecond hnow rfl lawful
    obtain ⟨⟨full, -⟩, -, -⟩ := id h
    have arg : (s.accepted .calendar b).arg32 b 8 = second.val := by rw [State.accepted_arg32, hsecond]
    have time : now = ⟨Fin.ofNat 65536 ((s.accepted .calendar b).arg16 b 4), second⟩ := by
      rw [State.accepted_arg16, hnow]
    have ended := (exec_setCalendar h).trans (congrArg _ (State.setCalendar_second arg time))
    have fires := State.accepted_setTime_fires (c := .calendar) (b := b) full lawful now
    obtain ⟨sameSound, sameRumble⟩ := State.commands_congr (dueBy s.cal.alarms now) (s := s)
      (t := (s.accepted .calendar b).withCal (s.cal.setTime now)) full full rfl rfl rfl
    rw [State.accepted_cal] at ended
    generalize ((s.accepted .calendar b).withCal (s.cal.setTime now)).applyFiring = r at ended fires
    obtain ⟨handedSound, handedRumble⟩ := fires.handed rfl
    obtain ⟨cal, sound, rumble, frame, -⟩ := fires.frame
    refine ⟨r.1, fires.count ▸ ended, fires.clock, fires.prescaler, fires.timeLost, ?epoch, fires.osc,
      fires.settle, fires.rollover, ?wake, fires.fired, fires.overflow, fires.later, fires.table, ?port, ?store,
      ?link, ?supply, ?sram, handedSound.trans sameSound.symm, handedRumble.trans sameRumble.symm⟩
    case epoch => rw [fires.epoch]; exact epochAfter_val s.cal.epoch
    case wake => rw [fires.wakePending]; exact Bool.or_false _
    case port | store | link | supply | sram => rw [frame]; rfl

/-! ### SET_ROLLOVER, READ_CALENDAR and CAL (R58, R59, R62) -/

section
variable {s : State} {b : Block}

theorem State.setRollover_badArg (h : 86400 ≤ s.arg32 b 4) :
    s.setRollover b = s.terminate .calendar b (.refuse .badArg) := by
  rw [State.setRollover, inRange_eq_none h]

theorem State.setRollover_second {second : Fin 86400} (h : s.arg32 b 4 = second.val) :
    s.setRollover b =
      (s.withCal { s.cal with rollover := second }).terminate .calendar b (.ok 0) := by
  rw [State.setRollover, inRange_val second h]

end

/-- R58: the game day of a calendar time is its day, or from midnight until the rollover second the day
before, with day 0 its own. -/
theorem gameDay_eq (rollover : Fin 86400) (t : CalTime) : gameDay rollover t =
    if rollover ≤ t.second then t.day.val else if 0 < t.day.val then t.day.val - 1 else 0 :=
  gameDayOf_eq rollover.val t.day.val t.second.val

/-- R59: the result bytes of READ_CALENDAR with the game day and the oscillator code written out. -/
theorem State.calendarBytes_eq (s : State) : s.calendarBytes =
    bytes16 s.cal.now.day.val ++
      bytes16 (if s.cal.rollover ≤ s.cal.now.second then s.cal.now.day.val
        else if 0 < s.cal.now.day.val then s.cal.now.day.val - 1 else 0) ++
      bytes32 s.cal.now.second.val ++ bytes32 s.cal.rollover.val ++ bytes16 s.cal.epoch.val ++
      [bitsByte [s.cal.timeLost, s.supply.cellLow], s.cal.osc.code] := by
  rw [State.calendarBytes, gameDay_eq]

/-- Settles O12: SET_ROLLOVER by the range of its second, READ_CALENDAR and CAL by the game day. -/
theorem rolloverAndReadCalendar : Obligations.RolloverAndReadCalendar := by
  unfold Obligations.RolloverAndReadCalendar
  refine ⟨?sets, ?badArg, ?reads, ?standby⟩
  case sets =>
    intro s v b second h hsecond
    rw [exec_setRollover h, State.setRollover_second (second := second), State.withCal, State.accepted_cal]
    rwa [State.accepted_arg32]
  case badArg =>
    intro s v b h hrange
    rw [exec_setRollover h, State.setRollover_badArg]
    rwa [State.accepted_arg32]
  case reads =>
    intro s v b h
    rw [exec_readCalendar h, State.readCalendar, State.answerWith, State.calendarBytes_eq]
    rfl
  case standby =>
    intro s
    rw [State.calResponse, gameDay_eq]

end Sys2Proof.Machine
end

section
/-! SUPPORT. Proofs: the law of the sound engine through every operation on it (R86, R97, R98, R106 to R119). -/
namespace Sys2Proof.Machine

/-! ### The law by its parts -/

/-- The conjuncts of `Sound.lawful`, named. -/
structure Sound.InLaw (so : Sound) : Prop where
  gain : so.gain ≤ 64
  running : so.engine = .running → so.gain = 64
  muting : so.engine = .muting → 1 ≤ so.gain
  held : so.engine = .held → so.hold = true
  tempo : 256 ≤ so.tempo ∧ so.tempo ≤ 65535
  nextTempo : 256 ≤ so.nextTempo ∧ so.nextTempo ≤ 65535
  frameCount : so.frameCount < so.tempo
  room : so.notes.length ≤ 64
  quiet : so.engine ≠ .running → so.notes = []
  notes : notesLawful so.notes
  cues : ∀ es ∈ so.cues.toList, cueLawful es
  fifo : so.fifo.length ≤ 64
  stopped : so.engine = .stopped → so.fifo = []
  voices : ∀ v ∈ so.voices.toList, v.lawful

theorem Sound.lawful_iff (so : Sound) : so.lawful ↔ so.InLaw := by
  constructor
  · rintro ⟨gain, running, muting, held, t1, t2, n1, n2, count, room, quiet, notes, cues, fifo, stopped, voices⟩
    exact ⟨gain, running, muting, held, ⟨t1, t2⟩, ⟨n1, n2⟩, count, room, quiet, notes, cues, fifo, stopped,
      voices⟩
  · rintro ⟨gain, running, muting, held, ⟨t1, t2⟩, ⟨n1, n2⟩, count, room, quiet, notes, cues, fifo, stopped,
      voices⟩
    exact ⟨gain, running, muting, held, t1, t2, n1, n2, count, room, quiet, notes, cues, fifo, stopped, voices⟩

theorem Voice.reset_lawful : Voice.reset.lawful := by
  unfold Voice.lawful VoiceSet.lawful
  decide

/-- A function that keeps the law of a voice keeps it of eight. -/
theorem mapVec_lawful {f : Voice → Voice} {vs : Vector Voice 8} (keeps : ∀ v, v.lawful → (f v).lawful)
    (h : ∀ v ∈ vs.toList, v.lawful) : ∀ v ∈ (mapVec f vs).toList, v.lawful := by
  intro v hv
  rw [mapVec_toList] at hv
  obtain ⟨u, hu, rfl⟩ := List.mem_map.1 hv
  exact keeps u (h u hu)

/-- Writing one element that has a property keeps it of all. -/
theorem forall_mem_set {α : Type} {n : Nat} {P : α → Prop} {xs : Vector α n} {x : α} (i : Fin n)
    (h : ∀ y ∈ xs.toList, P y) (hx : P x) : ∀ y ∈ (xs.set i x).toList, P y := by
  intro y hy
  rw [Vector.mem_toList_iff] at hy
  rcases Vector.mem_or_eq_of_mem_set hy with old | rfl
  · exact h y (Vector.mem_toList_iff.2 old)
  · exact hx

namespace Sound.InLaw

variable {so : Sound}

theorem reset : Sound.reset.InLaw where
  gain := Nat.le_refl _
  running := nofun
  muting := nofun
  held := nofun
  tempo := by decide
  nextTempo := by decide
  frameCount := by decide
  room := Nat.zero_le _
  quiet := fun _ => rfl
  notes := nofun
  cues := fun es h => (List.eq_of_mem_replicate (Vector.toList_replicate ▸ h)) ▸ ⟨Nat.zero_le _, nofun⟩
  fifo := Nat.zero_le _
  stopped := fun _ => rfl
  voices := fun v h => (List.eq_of_mem_replicate (Vector.toList_replicate ▸ h)) ▸ Voice.reset_lawful

/-! ### The engine's states (R107 to R109) -/

theorem withGain (h : so.InLaw) {g : Nat} (he : so.engine = .muting) (h1 : 1 ≤ g) (h64 : g ≤ 64) :
    Sound.InLaw { so with gain := g } :=
  { h with gain := h64, running := fun e => (nomatch he.symm.trans e), muting := fun _ => h1 }

/-- R107: a start finds the engine Stopped, its note queue empty. -/
theorem started (h : so.InLaw) (he : so.engine = .stopped) {tempo : Nat} (ht : 256 ≤ tempo ∧ tempo ≤ 65535) :
    (so.started tempo).InLaw :=
  { h with
    gain := Nat.le_refl 64
    running := fun _ => rfl
    muting := nofun
    held := nofun
    tempo := ht
    nextTempo := ht
    frameCount := Nat.lt_of_lt_of_le (show 0 < 256 by decide) ht.1
    quiet := fun _ => h.quiet (by rw [he]; decide)
    fifo := Nat.zero_le _
    stopped := nofun }

/-- R108: Running is left for Muting with the gain at 64. -/
theorem mute (h : so.InLaw) (he : so.engine = .running) : so.mute.InLaw :=
  { h with
    running := nofun
    muting := fun _ => by show 1 ≤ so.gain; rw [h.running he]; decide
    held := nofun
    room := Nat.zero_le _
    quiet := fun _ => rfl
    notes := nofun
    stopped := nofun }

theorem rampEnd (h : so.InLaw) (he : so.engine = .muting) : so.rampEnd.InLaw := by
  have quiet : so.notes = [] := h.quiet (by rw [he]; decide)
  unfold Sound.rampEnd
  split
  next hold =>
    exact { h with
      gain := Nat.zero_le _, running := nofun, muting := nofun, held := fun _ => hold,
      quiet := fun _ => quiet, stopped := nofun }
  next =>
    exact { h with
      gain := Nat.zero_le _, running := nofun, muting := nofun, held := nofun,
      quiet := fun _ => quiet, fifo := Nat.zero_le _, stopped := fun _ => rfl }

theorem quiesce (h : so.InLaw) : so.quiesce.InLaw := by
  have marked : Sound.InLaw { so with hold := true } := { h with held := fun _ => rfl }
  unfold Sound.quiesce
  split
  next he => exact marked.mute he
  next he =>
    have quiet : so.notes = [] := h.quiet (by rw [he]; decide)
    exact { h with
      running := nofun, muting := nofun, held := fun _ => rfl, quiet := fun _ => quiet, stopped := nofun }
  · exact marked
  · exact marked

theorem resume (h : so.InLaw) : so.resume.InLaw := by
  unfold Sound.resume
  dsimp only
  split
  next he =>
    have quiet : so.notes = [] := h.quiet (by rw [he]; decide)
    exact { h with
      running := nofun, muting := nofun, held := nofun, quiet := fun _ => quiet, fifo := Nat.zero_le _,
      stopped := fun _ => rfl }
  next he => exact { h with held := fun e => absurd e he }

/-! ### Voices, waves, cues, tempo and notes (R100 to R104, R112, R114, R117) -/

theorem withVoices (h : so.InLaw) {vs : Vector Voice 8} (hv : ∀ v ∈ vs.toList, v.lawful) :
    Sound.InLaw { so with voices := vs } := { h with voices := hv }

theorem withNotes (h : so.InLaw) (he : so.engine = .running) {ns : List Queued} (hlen : ns.length ≤ 64)
    (hns : notesLawful ns) : Sound.InLaw { so with notes := ns } :=
  { h with room := hlen, quiet := fun e => absurd he e, notes := hns }

theorem silenced (h : so.InLaw) :
    Sound.InLaw { so with voices := mapVec Voice.silence so.voices, notes := [] } :=
  { h with
    room := Nat.zero_le _
    quiet := fun _ => rfl
    notes := nofun
    voices := mapVec_lawful (fun _ => Voice.silence_lawful) h.voices }

theorem withCue (h : so.InLaw) (slot : Fin 4) {es : List NoteEntry} (hes : cueLawful es) :
    Sound.InLaw { so with cues := so.cues.set slot es } :=
  { h with cues := forall_mem_set slot h.cues hes }

theorem cueAt (h : so.InLaw) (slot : Fin 4) : cueLawful so.cues[slot] :=
  h.cues _ (Vector.mem_toList_iff.2 (Vector.getElem_mem slot.isLt))

theorem insertNotes (h : so.InLaw) (he : so.engine = .running) {es : List NoteEntry}
    (hes : ∀ e ∈ es, e.note.action.lawful ∧ e.delay ≤ 255) (room : so.notes.length + es.length ≤ 64) :
    Sound.InLaw { so with notes := Machine.insertNotes es so.notes } :=
  h.withNotes he (by rw [insertNotes_length]; exact room) (insertNotes_lawful hes h.notes)

theorem insertCue (h : so.InLaw) (he : so.engine = .running) {slot : Fin 4} (room : so.cueFull slot = false) :
    (so.insertCue slot).InLaw :=
  h.insertNotes he (h.cueAt slot).2 (Nat.not_lt.1 (of_decide_eq_false room))

/-- R119: an alarm's cue request is inserted in Running with room for it, or leaves a drop alone. -/
theorem cueRequest (h : so.InLaw) (slot : Fin 4) (alarm : Fin 32) : (so.cueRequest slot alarm).InLaw := by
  unfold Sound.cueRequest
  split
  · exact { h with }
  next passes =>
    unfold Sound.dropReason at passes
    split at passes
    · cases passes
    split at passes
    · cases passes
    next running =>
    split at passes
    · cases passes
    next room => exact h.insertCue (Decidable.not_not.1 running) (by simpa using room)

/-! ### Production events, beats and pulls (R97, R98, R111) -/

/-- R97: outside Stopped, with room for it, a frame is appended and the voices advance. -/
theorem appendFrame (h : so.InLaw) (room : so.fifo.length < 64) (he : so.engine ≠ .stopped) (f : Frame) :
    Sound.InLaw { so with fifo := so.fifo ++ [f], voices := mapVec Voice.advance so.voices } :=
  { h with
    fifo := by rw [List.length_append]; exact room
    stopped := fun e => absurd e he
    voices := mapVec_lawful (fun _ => Voice.advance_lawful) h.voices }

theorem beat (h : so.InLaw) (he : so.engine = .running) : so.beat.InLaw := by
  obtain ⟨notes, voices, shorter⟩ := beatNotes_lawful h.notes h.voices
  have taken := mapVec_lawful (fun _ hv => Voice.syncTake_lawful (Voice.idleTake_lawful hv)) voices
  exact { (h.withNotes he (Nat.le_trans shorter h.room) notes).withVoices taken with
    tempo := h.nextTempo
    frameCount := Nat.lt_of_lt_of_le (show 0 < 256 by decide) h.nextTempo.1 }

theorem pull (h : so.InLaw) : so.pull.InLaw := by
  unfold Sound.pull
  split
  next he =>
    split
    next f fs hf =>
      have shorter := h.fifo
      rw [hf, List.length_cons] at shorter
      have notStopped : so.engine ≠ .stopped := by rcases he with e | e <;> rw [e] <;> decide
      exact { h with
        fifo := Nat.le_of_succ_le shorter
        stopped := fun e => absurd e notStopped }
    · exact { h with }
  · exact { h with }

end Sound.InLaw

/-! ### A production event (R97, R108, R111) -/

section
variable {s : State}

/-- R97: in Running a production event that brings no beat counts its frame. -/
theorem State.produce_counts (he : s.sound.engine = .running) (hb : s.sound.frameCount + 1 ≠ s.sound.tempo) :
    s.produce = s.withSound { s.sound.produceFrame with frameCount := s.sound.frameCount + 1 } := by
  unfold State.produce
  exact (if_pos he).trans (if_neg hb)

/-- R111: the production event that takes the frame counter to the tempo brings the beat event. -/
theorem State.produce_beat (he : s.sound.engine = .running) (hb : s.sound.frameCount + 1 = s.sound.tempo) :
    s.produce =
      (s.withSound { s.sound.produceFrame with frameCount := s.sound.frameCount + 1 }).beatEvent := by
  unfold State.produce
  exact (if_pos he).trans (if_pos hb)

/-- R108: outside Running a production event whose frame carries a gain above 0. -/
theorem State.produce_ramps (he : s.sound.engine ≠ .running) (hg : s.sound.frameGain ≠ 0) :
    s.produce = s.withSound s.sound.produceFrame := by
  unfold State.produce
  exact (if_neg he).trans (if_neg hg)

/-- R108: the production event whose frame carries a gain of 0 ends the ramp. -/
theorem State.produce_rampEnd (he : s.sound.engine ≠ .running) (hg : s.sound.frameGain = 0) :
    s.produce = (s.withSound s.sound.produceFrame).rampEnd := by
  unfold State.produce
  exact (if_neg he).trans (if_pos hg)

theorem Sound.canProduce_iff {so : Sound} : so.canProduce = true ↔
    (so.engine = .running ∨ so.engine = .muting) ∧ so.fifo.length < 64 := by
  simp [Sound.canProduce]

/-- The ramp's end sets the gain, whatever the frame before it carried. -/
theorem Sound.rampEnd_produceFrame (so : Sound) : so.produceFrame.rampEnd =
    ({ so with fifo := so.fifo ++ [mixFrame so.frameGain so.waves so.voices],
               voices := mapVec Voice.advance so.voices } : Sound).rampEnd := by
  unfold Sound.rampEnd
  rfl

theorem State.produce_soundInLaw (h : s.sound.InLaw) (hp : s.sound.canProduce = true) :
    s.produce.sound.InLaw := by
  obtain ⟨state, room⟩ := Sound.canProduce_iff.1 hp
  have appended := h.appendFrame room (by rcases state with e | e <;> rw [e] <;> decide)
    (mixFrame s.sound.frameGain s.sound.waves s.sound.voices)
  rcases state with running | muting
  · have gain : s.sound.frameGain = s.sound.gain := if_neg (by rw [running]; decide)
    have framed : s.sound.produceFrame.InLaw := by
      unfold Sound.produceFrame
      rw [gain] at appended ⊢
      exact appended
    by_cases hb : s.sound.frameCount + 1 = s.sound.tempo
    · rw [State.produce_beat running hb]
      exact framed.beat running
    · rw [State.produce_counts running hb]
      exact { framed with frameCount := Nat.lt_of_le_of_ne h.frameCount hb }
  · have notRunning : s.sound.engine ≠ .running := by rw [muting]; decide
    by_cases hg : s.sound.frameGain = 0
    · rw [State.produce_rampEnd notRunning hg, State.rampEnd, State.settleQuiesce_sound, State.withSound_sound,
        State.withSound_sound, Sound.rampEnd_produceFrame]
      exact appended.rampEnd muting
    · rw [State.produce_ramps notRunning hg]
      have lowered : s.sound.frameGain ≤ 64 := by
        rw [Sound.frameGain, if_pos muting]
        exact Nat.le_trans (Nat.sub_le _ _) h.gain
      exact appended.withGain muting (Nat.pos_of_ne_zero hg) lowered

/-! ### The requests of the sound cell (R100 to R120) -/

theorem applyWrite_lawful {w : VoiceWrite} {vs xs : Vector Voice 8} (h : ∀ v ∈ vs.toList, v.lawful)
    (hw : applyWrite w vs = some xs) : ∀ v ∈ xs.toList, v.lawful := by
  obtain ⟨i, u, -, written, rfl⟩ := (applyWrite_eq_some_iff w vs xs).1 hw
  have old : vs[i].lawful := h _ (Vector.mem_toList_iff.2 (Vector.getElem_mem i.isLt))
  exact forall_mem_set i h (Voice.writeParam_lawful old ((Voice.writeParam_eq_some_iff _ _ _ _).2 written))

theorem applyWrites_lawful (ws : List VoiceWrite) {vs : Vector Voice 8} (h : ∀ v ∈ vs.toList, v.lawful) :
    ∀ v ∈ (applyWrites ws vs).1.toList, v.lawful := by
  induction ws generalizing vs with
  | nil => exact h
  | cons w ws ih =>
    unfold applyWrites
    split
    next xs hw => exact ih (applyWrite_lawful h hw)
    · exact h

theorem broadcastWrite_lawful {param value : Nat} {f : Voice → Voice} (hf : broadcastWrite param value = some f)
    {v : Voice} (h : v.lawful) : (f v).lawful := by
  unfold broadcastWrite at hf
  split at hf
  · obtain ⟨x, -, rfl⟩ := Option.map_eq_some_iff.1 hf
    obtain ⟨-, staged, -⟩ := id h
    exact Voice.stage_lawful h staged rfl
  · split at hf
    · injection hf with hf; subst hf; exact Voice.stageKey_lawful h false
    · injection hf with hf; subst hf; exact Voice.stageKey_lawful h true
    · cases hf
  · cases hf

theorem tempoOk_iff {t : Nat} : tempoOk t = true ↔ 256 ≤ t ∧ t ≤ 65535 := by
  simp [tempoOk]

theorem State.setVoices_soundInLaw (h : s.sound.InLaw) (b : Block) : (s.setVoices b).sound.InLaw := by
  unfold State.setVoices
  dsimp only
  split
  · exact h
  · have applied := applyWrites_lawful (s.voiceWrites (b.off + 8) (s.arg8 b 4)) h.voices
    exact h.withVoices (mapVec_lawful (fun _ => Voice.idleTake_lawful) applied)

theorem State.commitVoices_soundInLaw (h : s.sound.InLaw) (b : Block) : (s.commitVoices b).sound.InLaw :=
  h.withVoices (mapVec_lawful (fun _ => Voice.syncTake_lawful) h.voices)

theorem State.broadcast_soundInLaw (h : s.sound.InLaw) (b : Block) : (s.broadcast b).sound.InLaw := by
  unfold State.broadcast
  split
  · exact h
  next f hf =>
    refine h.withVoices (mapVec_lawful (fun v hv => ?_) h.voices)
    split
    · exact Voice.idleTake_lawful (broadcastWrite_lawful hf hv)
    · exact hv

theorem State.loadWave_soundInLaw (h : s.sound.InLaw) (b : Block) : (s.loadWave b).sound.InLaw := by
  unfold State.loadWave
  split
  · exact h
  · split
    · exact { h with }
    · exact h

/-- R107: a start passes its checks in Stopped alone. -/
theorem State.startSound_soundInLaw (h : s.sound.InLaw) (b : Block) : (s.startSound b).sound.InLaw := by
  unfold State.startSound
  split
  next tempo =>
    split
    · exact h
    · exact h
    · exact h
    next stopped => exact h.started stopped (tempoOk_iff.1 tempo)
  · exact h

theorem State.stopSound_soundInLaw (h : s.sound.InLaw) (b : Block) : (s.stopSound b).sound.InLaw := by
  unfold State.stopSound State.stopNow
  split
  next running => exact h.mute running
  · exact h

theorem State.setTempo_soundInLaw (h : s.sound.InLaw) (b : Block) : (s.setTempo b).sound.InLaw := by
  unfold State.setTempo
  split
  next tempo => exact { h with nextTempo := tempoOk_iff.1 tempo }
  · exact h

/-- R116: QUEUE_NOTES inserts in Running, and at most what the queue has room for. -/
theorem State.queueNotes_soundInLaw (h : s.sound.InLaw) (b : Block) : (s.queueNotes b).sound.InLaw := by
  unfold State.queueNotes
  dsimp only
  split
  · exact h
  split
  · exact h
  next es read =>
  split
  next running =>
    obtain ⟨inRange, length⟩ := State.notesAt_lawful read
    have fits : s.sound.notes.length + (es.take (min (s.arg8 b 4) (64 - s.sound.notes.length))).length ≤ 64 := by
      have := h.room
      rw [List.length_take]
      omega
    exact h.insertNotes running (fun e he => inRange e (List.mem_of_mem_take he)) fits
  · exact h

/-- R117: LOAD_CUE loads a list of at most 8 entries in range. -/
theorem State.loadCue_soundInLaw (h : s.sound.InLaw) (b : Block) : (s.loadCue b).sound.InLaw := by
  unfold State.loadCue
  dsimp only
  split
  next slot es _ read =>
    obtain ⟨inRange, length⟩ := State.notesAt_lawful read
    split
    · exact h
    next few => exact h.withCue slot ⟨length ▸ Nat.not_lt.1 few, inRange⟩
  · exact h

/-- R118: PLAY_CUE inserts in Running a slot that the queue has room for. -/
theorem State.playCue_soundInLaw (h : s.sound.InLaw) (b : Block) : (s.playCue b).sound.InLaw := by
  unfold State.playCue
  split
  · exact h
  next slot _ =>
  split
  · exact h
  split
  · exact h
  next running =>
  split
  · exact h
  next room => exact h.insertCue (Decidable.not_not.1 running) (by simpa using room)

/-- R99: whatever a block of the sound cell asks for keeps the law. -/
theorem State.soundRequest_soundInLaw (h : s.sound.InLaw) (b : Block) : (s.soundRequest b).sound.InLaw := by
  unfold State.soundRequest
  split
  · exact State.setVoices_soundInLaw h b
  · exact State.commitVoices_soundInLaw h b
  · exact State.broadcast_soundInLaw h b
  · exact h.silenced
  · exact State.loadWave_soundInLaw h b
  · exact State.startSound_soundInLaw h b
  · exact State.stopSound_soundInLaw h b
  · exact State.setTempo_soundInLaw h b
  · exact State.queueNotes_soundInLaw h b
  · exact State.loadCue_soundInLaw h b
  · exact State.playCue_soundInLaw h b
  · unfold State.readSoundStatus
    rw [State.answerWith_sound]
    exact { h with }

theorem State.runSound_soundInLaw (h : s.sound.InLaw) (b : Block) : (s.runSound b).sound.InLaw := by
  unfold State.runSound
  split
  · exact h
  · split
    · exact h
    · exact State.soundRequest_soundInLaw h b

/-! ### The other units, supply events and the standby link -/

theorem StoreFrame.soundInLaw {t : State} (f : StoreFrame s t) (h : s.sound.InLaw) : t.sound.InLaw := by
  rw [f.sound]
  exact h

theorem State.deliver_soundInLaw (h : s.sound.InLaw) (a : Alarm) : (s.deliver a).sound.InLaw := by
  unfold State.deliver
  cases a.cue with
  | none => cases a.rumble <;> exact h
  | some slot => cases a.rumble <;> exact h.cueRequest slot a.id

theorem State.fireDue_soundInLaw (n : Nat) (h : s.sound.InLaw) : (s.fireDue n).1.sound.InLaw := by
  induction n generalizing s with
  | zero => exact h
  | succ n ih =>
    unfold State.fireDue
    split
    · exact h
    next a rest _ =>
      split
      · exact h
      · refine ih ?_
        unfold State.fire
        dsimp only
        split
        · exact State.deliver_soundInLaw
            (s := s.withCal ((s.cal.rearm a rest).addFired (firedRecord a s.cal.now s.supplyState))) h a
        · exact h

theorem State.secondEvent_soundInLaw (h : s.sound.InLaw) : s.secondEvent.sound.InLaw :=
  State.fireDue_soundInLaw _ h

theorem State.crystalEdge_soundInLaw (h : s.sound.InLaw) : s.crystalEdge.sound.InLaw := by
  unfold State.crystalEdge
  split
  · exact h
  · split <;> exact h
  · split
    · exact h
    · exact State.secondEvent_soundInLaw h

/-- R60: SET_CALENDAR is the calendar's one request that can reach the sound engine, by the firing rule. -/
theorem State.calendarRequest_sound (b : Block) :
    (s.calendarRequest b).sound = s.sound ∨ s.calendarRequest b = s.setCalendar b := by
  unfold State.calendarRequest
  split
  case h_2 => exact .inr rfl
  all_goals refine .inl ?_
  case h_1 => exact State.answerWith_sound _ _ _ _ _ _
  case h_3 => unfold State.setRollover; split <;> simp
  case h_4 =>
    unfold State.addAlarm
    repeat' split
    all_goals simp
  case h_5 =>
    unfold State.removeAlarm
    repeat' split
    all_goals simp
  case h_6 => unfold State.listAlarms; split <;> simp
  case h_7 => unfold State.takeFired; dsimp only; split <;> simp

theorem State.runCalendar_soundInLaw (h : s.sound.InLaw) (b : Block) : (s.runCalendar b).sound.InLaw := by
  unfold State.runCalendar
  split
  · exact h
  split
  · exact h
  rcases State.calendarRequest_sound (s := s) b with same | sets
  · rw [same]
    exact h
  · rw [sets]
    unfold State.setCalendar
    split
    · exact h
    · exact State.fireDue_soundInLaw (s := s.withCal _) _ h

theorem State.runRumble_sound (b : Block) : (s.runRumble b).sound = s.sound := by
  unfold State.runRumble State.rumbleRequest State.setLevels State.loadPattern State.playPattern
    State.stopRumble State.clearTrip State.readRumbleStatus
  dsimp only
  repeat' split
  all_goals simp

theorem State.runUnit_soundInLaw (h : s.sound.InLaw) (c : CellId) (b : Block) :
    (s.runUnit c b).sound.InLaw := by
  cases c with
  | store => exact (StoreFrame.ofMoves (StoreMoves.refl.runStore b)).soundInLaw h
  | calendar => exact State.runCalendar_soundInLaw h b
  | sound => exact State.runSound_soundInLaw h b
  | rumble => exact (State.runRumble_sound b).symm ▸ h

/-- R165 to R169: a supply event leaves the sound engine as it is or as Full entry makes it (log 3). -/
theorem State.supplyEvents_sound (before after : SupplyState) (cut : WriteCut) :
    (s.supplyEvents before after cut).sound = s.sound ∨ (s.supplyEvents before after cut).sound = .reset := by
  cases before <;> cases after <;> simp [State.supplyEvents, State.supplyLoss, State.powerDown]

theorem State.setRail_soundInLaw (h : s.sound.InLaw) (rail : Rail) (mv : Nat) (cut : WriteCut) :
    (s.setRail rail mv cut).sound.InLaw := by
  unfold State.setRail
  rcases State.supplyEvents_sound (s := { s with supply := (s.supply.setRail rail mv).trackCellLow rail })
    s.supplyState ((s.supply.setRail rail mv).trackCellLow rail).state cut with same | reset
  · exact same.symm ▸ h
  · exact reset.symm ▸ Sound.InLaw.reset

/-- R161: a QUIESCE from None hands the sound engine its quiesce request. -/
theorem State.quiesceAll_soundInLaw (h : s.sound.InLaw) : s.quiesceAll.sound.InLaw := by
  unfold State.quiesceAll
  split
  · rw [State.settleQuiesce_sound]
    unfold State.soundQuiesce
    dsimp only
    split <;> exact h.quiesce
  · exact h
  · exact h

theorem State.commandEffect_soundInLaw (h : s.sound.InLaw) (c : LinkCmd) :
    (s.commandEffect c).sound.InLaw := by
  cases c with
  | quiesce => exact State.quiesceAll_soundInLaw h
  | resume => exact h.resume
  | wakeAck | status | cal | nextDue | firedHead | setCap => exact h

/-- R154 to R162: a byte on the link reaches the sound engine at most by a quiesce or a resume. -/
theorem State.linkByte_soundInLaw (h : s.sound.InLaw) (b : Byte) : (s.linkByte b).sound.InLaw := by
  unfold State.linkByte
  split
  case h_2 =>
    unfold State.addressByte
    split
    · exact h
    · split <;> exact h
  case h_3 =>
    unfold State.commandByte
    split
    · split
      · exact State.commandEffect_soundInLaw h _
      · exact h
    · exact h
  case h_4 =>
    unfold State.argumentByte State.writeCap
    dsimp only
    split
    · split <;> exact h
    · exact h
  all_goals exact h

/-! ### Every command -/

/-- R86, R97, R98, R106, R113, R117: the law of the sound engine is kept by everything that a command can
do. -/
theorem Effect.soundInLaw {t : State} (he : Effect s t) (h : s.sound.InLaw) : t.sound.InLaw := by
  cases he with
  | same => exact h
  | rail rail mv cut => exact State.setRail_soundInLaw h rail mv cut
  | restart => exact .reset
  | crystal => exact State.crystalEdge_soundInLaw h
  | second => exact State.secondEvent_soundInLaw h
  | cue slot alarm => exact h.cueRequest slot alarm
  | purge => unfold State.purge; split <;> exact h
  | purgeReplied => exact (StoreFrame.ofMoves StoreMoves.refl.purgeReplied).soundInLaw h
  | store event => exact (StoreFrame.ofEvent event).soundInLaw h
  | produce _ hp => exact State.produce_soundInLaw h hp
  | pull => exact h.pull
  | take => exact State.runUnit_soundInLaw (s := s.accepted _ _) h _ _
  | abort => exact (StoreFrame.ofMoves StoreMoves.refl.abortStore).soundInLaw h
  | wire b => exact State.linkByte_soundInLaw h b
  | detector | settled | play | wrap | unit | motorLevel | trip | enable | ram | refused | acknowledged | start
    | stop => exact h

end

/-- Settles O55: every effect keeps the law of the sound engine, so every step does. -/
theorem soundLawKept : Obligations.SoundLawKept := by
  unfold Obligations.SoundLawKept
  intro s t hs h
  exact (Sound.lawful_iff _).2 (step_keeps (L := fun u => u.sound.InLaw) (fun _ _ hu => hu)
    (fun _ _ hu he => he.soundInLaw hu) ((Sound.lawful_iff _).1 hs) h)

end Sys2Proof.Machine
end

section
/-! SUPPORT. Proofs: the offers of the sound cell's requests, and the voice requests (R99 to R103, R87). -/
namespace Sys2Proof.Machine

/-! ### An offer to the sound cell that passes the general checks (R99) -/

section
variable {s : State} {v : Word} {b : Block} {op need : Nat}

theorem State.runSound_passes {n : Nat} (h : s.soundNeeds b = some n) (hw : n ≤ b.words) :
    s.runSound b = s.soundRequest b := by
  rw [State.runSound, h]
  exact if_neg (Nat.not_lt.2 hw)

theorem State.offered.sound_opcode (h : s.offered .sound op need v b) :
    (s.accepted .sound b).opcode b = op := by
  obtain ⟨-, code, -⟩ := h
  rw [State.accepted_opcode, code]

theorem State.offered.long {c : CellId} (h : s.offered c op need v b) : need ≤ b.words := by
  obtain ⟨-, -, long⟩ := h
  exact long

/-- The offer of a block long enough for its request hands it to that request. -/
theorem State.offered.soundRequests (h : s.offered .sound op need v b) (hop : 1 ≤ op ∧ op ≤ 12)
    (long : [0, 3 + s.arg8 b 4, 2, 3, 2, 3, 3, 2, 3, 3 + 2 * s.arg8 b 4, 3 + 2 * s.arg8 b 5, 3, 6].getD op 0 ≤
      b.words) :
    goesOn (s.namedOffer .sound op v) = .next ((s.accepted .sound b).soundRequest b) := by
  obtain ⟨-, rfl, -⟩ := id h
  have needs : (s.accepted .sound b).soundNeeds b = _ :=
    (s.accepted_soundNeeds .sound b b).trans (State.soundNeeds_eq_some hop.1 hop.2)
  rw [State.namedOffer_of_offered h, State.runUnit, State.runSound_passes needs long]
  rfl

theorem exec_setVoices (h : s.offered .sound 1 need v b) (long : 3 + s.arg8 b 4 ≤ b.words) :
    exec (.setVoices v) s = .next ((s.accepted .sound b).setVoices b) :=
  (h.soundRequests (by decide) long).trans (by rw [State.soundRequest, h.sound_opcode]; rfl)

theorem exec_commitVoices (h : s.offered .sound 2 2 v b) :
    exec (.commitVoices v) s = .next ((s.accepted .sound b).commitVoices b) :=
  (h.soundRequests (by decide) h.long).trans (by rw [State.soundRequest, h.sound_opcode]; rfl)

theorem exec_broadcast (h : s.offered .sound 3 3 v b) :
    exec (.broadcast v) s = .next ((s.accepted .sound b).broadcast b) :=
  (h.soundRequests (by decide) h.long).trans (by rw [State.soundRequest, h.sound_opcode]; rfl)

theorem exec_silence (h : s.offered .sound 4 2 v b) :
    exec (.silence v) s = .next ((s.accepted .sound b).silence b) :=
  (h.soundRequests (by decide) h.long).trans (by rw [State.soundRequest, h.sound_opcode]; rfl)

theorem exec_loadWave (h : s.offered .sound 5 3 v b) :
    exec (.loadWave v) s = .next ((s.accepted .sound b).loadWave b) :=
  (h.soundRequests (by decide) h.long).trans (by rw [State.soundRequest, h.sound_opcode]; rfl)

theorem exec_loadCue (h : s.offered .sound 10 (3 + 2 * s.arg8 b 5) v b) :
    exec (.loadCue v) s = .next ((s.accepted .sound b).loadCue b) :=
  (h.soundRequests (by decide) h.long).trans (by rw [State.soundRequest, h.sound_opcode]; rfl)

/-! ### SET_VOICES and BROADCAST by their checks (R100, R102) -/

theorem State.setVoices_long (h : 16 < s.arg8 b 4) : s.setVoices b = s.terminate .sound b (.refuse .badArg) :=
  if_pos h

theorem State.setVoices_applies (h : s.arg8 b 4 ≤ 16) {vs : Vector Voice 8} {k : Nat}
    (applied : applyWrites (s.voiceWrites (b.off + 8) (s.arg8 b 4)) s.sound.voices = (vs, k)) :
    s.setVoices b =
      (s.withVoices (mapVec Voice.idleTake vs)).terminate .sound b (setVoicesAnswer k (s.arg8 b 4)) := by
  unfold State.setVoices
  dsimp only
  rw [applied]
  exact if_neg (Nat.not_lt.2 h)

theorem State.broadcast_badArg (h : broadcastWrite (s.arg8 b 4) (s.arg16 b 6) = none) :
    s.broadcast b = s.terminate .sound b (.refuse .badArg) := by
  rw [State.broadcast, h]

/-- R102: a BROADCAST of a valid parameter and value writes every member and makes its idle take. -/
theorem exec_broadcast_writes (h : s.offered .sound 3 3 v b) {f : Voice → Voice}
    (hf : broadcastWrite (s.arg8 b 4) (s.arg16 b 6) = some f) :
    ∃ vs, exec (.broadcast v) s =
      .next (({ s.accepted .sound b with sound := { s.sound with voices := vs } } : State).terminate
        .sound b (.ok (s.sound.voices.toList.filter fun y => y.member).length)) ∧
      ∀ i : Fin 8, vs[i] = if s.sound.voices[i].member then (f s.sound.voices[i]).idleTake
        else s.sound.voices[i] := by
  refine ⟨mapVec (fun y => if y.member then (f y).idleTake else y) s.sound.voices, ?_,
    fun i => mapVec_getElem _ _ i.val i.isLt⟩
  rw [exec_broadcast h, State.broadcast, State.accepted_arg8, State.accepted_arg16, hf]
  rfl

end

/-- R102: BROADCAST takes a level (5) below 128 and a key (8) of 0 or 1, and nothing else. -/
theorem broadcastWrite_eq_none {param value : Nat}
    (h : param ≠ 5 ∧ param ≠ 8 ∨ param = 5 ∧ 128 ≤ value ∨ param = 8 ∧ 2 ≤ value) :
    broadcastWrite param value = none := by
  unfold broadcastWrite
  split
  · rw [inRange_eq_none (by omega)]
    rfl
  · split
    · omega
    · omega
    · rfl
  · rfl

/-! ### The list of a SET_VOICES (R100, TABLE 11-5) -/

theorem State.voiceWrites_getElem?_eq_some_iff (s : State) (a n k : Nat) (w : VoiceWrite) :
    (s.voiceWrites a n)[k]? = some w ↔
      k < n ∧ w.voice = (s.ramByte (a + 4 * k)).toNat ∧ w.param = (s.ramByte (a + 4 * k + 1)).toNat ∧
        w.value = s.ramNat (a + 4 * k + 2) 2 := by
  rw [State.voiceWrites_getElem?]
  obtain ⟨voice, param, value⟩ := w
  split
  next hk =>
    rw [Option.some.injEq, VoiceWrite.mk.injEq]
    exact ⟨fun ⟨h1, h2, h3⟩ => ⟨hk, h1.symm, h2.symm, h3.symm⟩,
      fun ⟨_, h1, h2, h3⟩ => ⟨h1.symm, h2.symm, h3.symm⟩⟩
  next hk => exact ⟨nofun, fun h => absurd h.1 hk⟩

/-- R103: what SILENCE leaves in the staged set, with a write pending (log 12) or not. -/
theorem Voice.silence_staged (v : Voice) :
    v.silence.staged = if v.pending then v.active.silent else v.staged.silent := rfl

/-- Settles O33: SET_VOICES by the entries that it applies, the other requests by what they make of each
voice. -/
theorem voiceRequests : Obligations.VoiceRequests := by
  unfold Obligations.VoiceRequests
  refine ⟨?setVoices, fun s a n => ⟨s.voiceWrites_length a n, s.voiceWrites_getElem?_eq_some_iff a n⟩,
    applyWrite_eq_some_iff, fun _ => rfl, ?fails, ?passes, ?commit, ?level, ?keyOn, ?keyOff, fun _ => rfl,
    ?tooLong, ?invalid, ?silence⟩
  case setVoices =>
    rintro s v b n k ws written rfl h few rfl applied
    have ⟨applied_le, stops⟩ := applyWrites_spec (s.voiceWrites (b.off + 8) (s.arg8 b 4)) s.sound.voices
    rw [applied] at applied_le stops
    rw [State.voiceWrites_length] at applied_le
    refine ⟨mapVec Voice.idleTake written, ?_, applied_le, fun i => mapVec_getElem _ _ i.val i.isLt, stops⟩
    rw [exec_setVoices h h.long, State.setVoices_applies (vs := written) (k := k)]
    · rw [State.accepted_arg8]
      rfl
    · rwa [State.accepted_arg8]
    · rwa [State.accepted_arg8, State.accepted_voiceWrites]
  case fails =>
    intro w ws vs h
    rw [applyWrites, h]
  case passes =>
    intro w ws vs xs h
    rw [applyWrites, h]
  case commit =>
    intro s v b h
    refine ⟨mapVec Voice.syncTake s.sound.voices, ?_, fun i => mapVec_getElem _ _ i.val i.isLt⟩
    rw [exec_commitVoices h]
    rfl
  case level =>
    rintro s v b level x h code value rfl
    refine exec_broadcast_writes h (f := fun y => y.stage fun p => { p with level := level }) ?_
    rw [code, broadcastWrite, inRange_val level value]
    rfl
  case keyOn =>
    intro s v b h code value
    exact exec_broadcast_writes h (f := fun y => y.stageKey true) (by rw [code, value]; rfl)
  case keyOff =>
    intro s v b h code value
    exact exec_broadcast_writes h (f := fun y => y.stageKey false) (by rw [code, value]; rfl)
  case tooLong =>
    intro s v b h many long
    rw [exec_setVoices h long, State.setVoices_long]
    rwa [State.accepted_arg8]
  case invalid =>
    intro s v b h invalid
    rw [exec_broadcast h, State.broadcast_badArg]
    rw [State.accepted_arg8, State.accepted_arg16, broadcastWrite_eq_none invalid]
  case silence =>
    intro s v b h
    refine ⟨mapVec Voice.silence s.sound.voices, by rw [exec_silence h]; rfl, fun i => ?_⟩
    have silenced : (mapVec Voice.silence s.sound.voices)[i] = s.sound.voices[i].silence :=
      mapVec_getElem _ _ i.val i.isLt
    rw [silenced, Voice.silence_staged]
    refine ⟨rfl, ?_, ?_, ?_, fun idle => by rw [idle]; rfl, rfl, rfl, rfl, rfl, rfl, rfl, rfl, rfl⟩
    all_goals split <;> rfl

end Sys2Proof.Machine
end

section
/-! SUPPORT. Proofs: takes and staged writes (R86, R87, R88, TABLE 5-4). -/
namespace Sys2Proof.Machine

namespace Voice

variable (v : Voice)

/-! ### Takes (R88) -/

theorem take_of_retrigger (h : v.retrigger = true) : v.take =
    { v with
      active := v.staged, pending := false, retrigger := false, periodCount := 0, stepCount := 0,
      waveIndex := 0, noisePos := 0 } := if_pos h

theorem take_of_not_retrigger (h : v.retrigger = false) : v.take =
    { v with
      active := v.staged, pending := false,
      stepCount := if v.stepCount < v.staged.modulus.num then v.stepCount else 0 } := by
  unfold Voice.take
  rw [h]
  rfl

/-! ### Writes out of range (TABLE 5-4) -/

theorem not_written {param x : Nat}
    (h : param = 0 ∧ 4 ≤ x ∨ (param = 2 ∧ ∀ m : Modulus, x ≠ m.num) ∨ param = 4 ∧ 8 ≤ x ∨
      param = 5 ∧ 128 ≤ x ∨ (param = 6 ∨ param = 7) ∧ 16 ≤ x ∨
      (param = 8 ∨ param = 9 ∨ param = 10) ∧ 2 ≤ x ∨ 11 ≤ param) (u : Voice) : ¬ v.Written u param x := by
  rintro (⟨src, hx, hp, -⟩ | ⟨hp, -⟩ | ⟨m, hp, hx, -⟩ | ⟨hp, -⟩ | ⟨i, hp, hx, -⟩ | ⟨i, hp, hx, -⟩ |
    ⟨i, hx, ⟨hp, -⟩ | ⟨hp, -⟩⟩ | ⟨on, hx, hp⟩)
  case inl =>
    have small : x ≤ 3 := by
      rw [hx]
      cases src <;> decide
    omega
  case inr.inr.inl =>
    rcases h with h | ⟨-, h⟩ | h
    · omega
    · exact h m hx
    · omega
  case inr.inr.inr.inr.inr.inr.inr =>
    have := on.toNat_le
    omega
  all_goals omega

theorem writeParam_eq_none {param x : Nat} (h : ∀ u, ¬ v.Written u param x) : v.writeParam param x = none :=
  Option.eq_none_iff_forall_ne_some.2 fun u hu => h u ((v.writeParam_eq_some_iff u param x).1 hu)

end Voice

/-- Settles O34: a take by the retrigger mark, a valid write by what TABLE 5-4 makes of it (`Voice.Written`), an
invalid one by what that table leaves out. -/
theorem stagingAndTaking : Obligations.StagingAndTaking := by
  unfold Obligations.StagingAndTaking
  refine ⟨?take, ?source, ?modulus, fun _ => rfl, fun _ => rfl, fun _ _ => rfl, fun _ _ => rfl, ?slot, ?level,
    ?panL, ?panR, fun _ => ⟨rfl, rfl, rfl, rfl⟩, fun v param x h => v.writeParam_eq_none (v.not_written h)⟩
  case take =>
    intro v
    cases h : v.retrigger with
    | true =>
      rw [v.take_of_retrigger h]
      exact ⟨rfl, rfl, rfl, rfl, rfl, rfl, fun _ => ⟨rfl, rfl, rfl, rfl⟩, nofun⟩
    | false =>
      rw [v.take_of_not_retrigger h]
      refine ⟨rfl, rfl, rfl, h, rfl, rfl, nofun, fun _ => ⟨rfl, rfl, rfl, ?_⟩⟩
      by_cases inside : v.stepCount < v.staged.modulus.num
      · exact (if_pos inside).trans (if_neg (Nat.not_le.2 inside)).symm
      · exact (if_neg inside).trans (if_pos (Nat.not_lt.1 inside)).symm
  case source =>
    rintro v src x (⟨rfl, rfl⟩ | ⟨rfl, rfl⟩ | ⟨rfl, rfl⟩ | ⟨rfl, rfl⟩) <;> rfl
  case modulus =>
    intro v m
    exact (v.writeParam_eq_some_iff _ 2 m.num).2 (.inr (.inr (.inl ⟨m, rfl, rfl, rfl⟩)))
  case slot =>
    intro v x
    exact (v.writeParam_eq_some_iff _ 4 x).2 (.inr (.inr (.inr (.inr (.inl ⟨x, rfl, rfl, rfl⟩)))))
  case level =>
    intro v x
    exact (v.writeParam_eq_some_iff _ 5 x).2 (.inr (.inr (.inr (.inr (.inr (.inl ⟨x, rfl, rfl, rfl⟩))))))
  case panL =>
    intro v x
    exact (v.writeParam_eq_some_iff _ 6 x).2
      (.inr (.inr (.inr (.inr (.inr (.inr (.inl ⟨x, rfl, .inl ⟨rfl, rfl⟩⟩)))))))
  case panR =>
    intro v x
    exact (v.writeParam_eq_some_iff _ 7 x).2
      (.inr (.inr (.inr (.inr (.inr (.inr (.inl ⟨x, rfl, .inr ⟨rfl, rfl⟩⟩)))))))

end Sys2Proof.Machine
end

section
/-! SUPPORT. Proofs: LOAD_WAVE and LOAD_CUE (R104, R117, R149). -/
namespace Sys2Proof.Machine

section
variable {s : State} {b : Block}

theorem State.loadWave_badSlot (h : 8 ≤ s.arg8 b 4) :
    s.loadWave b = s.terminate .sound b (.refuse .badArg) := by
  rw [State.loadWave, inRange_eq_none h]

theorem State.loadWave_badBuffer (h : b.bufferOk (s.arg16 b 6) 32 = false) :
    s.loadWave b = s.terminate .sound b (.refuse .badArg) := by
  unfold State.loadWave
  split
  · rfl
  · rw [h]
    rfl

/-- R104: a LOAD_WAVE whose slot and buffer are in order takes the 32 bytes of the buffer into the slot. -/
theorem State.loadWave_loads {slot : Fin 8} (hslot : s.arg8 b 4 = slot.val)
    (hbuf : b.bufferOk (s.arg16 b 6) 32 = true) :
    s.loadWave b = (s.withSound { s.sound with
      waves := s.sound.waves.set slot (some (s.samplesAt (s.arg16 b 6))) }).terminate .sound b (.ok 0) := by
  rw [State.loadWave, inRange_val slot hslot]
  exact if_pos hbuf

theorem State.samplesAt_getElem (s : State) (a : Nat) (j : Fin 32) :
    (s.samplesAt a)[j] = s.ramByte (a + j.val) := Vector.getElem_ofFn j.isLt

theorem State.loadCue_badArg (h : 4 ≤ s.arg8 b 4 ∨ 8 < s.arg8 b 5 ∨ s.notesAt (b.off + 8) (s.arg8 b 5) = none) :
    s.loadCue b = s.terminate .sound b (.refuse .badArg) := by
  unfold State.loadCue
  dsimp only
  split
  next slot es inSlot read =>
    refine if_pos ?_
    rcases h with slot4 | many | unread
    · rw [inRange_eq_none slot4] at inSlot
      cases inSlot
    · exact many
    · rw [unread] at read
      cases read
  · rfl

/-- R117: a LOAD_CUE whose slot, count and entries are in order puts its list into the slot. -/
theorem State.loadCue_loads {slot : Fin 4} {es : List NoteEntry} (hslot : s.arg8 b 4 = slot.val)
    (few : s.arg8 b 5 ≤ 8) (read : s.notesAt (b.off + 8) (s.arg8 b 5) = some es) :
    s.loadCue b = (s.withSound { s.sound with cues := s.sound.cues.set slot es }).terminate .sound b
      (.ok (s.arg8 b 5)) := by
  unfold State.loadCue
  dsimp only
  rw [inRange_val slot hslot, read]
  exact if_neg (Nat.not_lt.2 few)

end

/-- Settles O35: each request by its checks. -/
theorem loadWaveAndCue : Obligations.LoadWaveAndCue := by
  unfold Obligations.LoadWaveAndCue
  refine ⟨State.notesAt_eq_some_iff, ?wave, ?badWave, ?cue, ?badCue⟩
  case wave =>
    rintro s v b slot buf h hslot rfl inRam clear
    refine ⟨s.samplesAt (s.arg16 b 6), ?_, s.samplesAt_getElem (s.arg16 b 6)⟩
    have ok := (b.bufferOk_iff (s.arg16 b 6) 32).2 (.inr ⟨inRam, clear⟩)
    rw [exec_loadWave h, State.loadWave_loads (slot := slot)]
    · rw [State.accepted_arg16, State.accepted_samplesAt]
      rfl
    · rwa [State.accepted_arg8]
    · rwa [State.accepted_arg16]
  case badWave =>
    intro s v b h bad
    rw [exec_loadWave h]
    rcases bad with slot | buffer
    · rw [State.loadWave_badSlot]
      rwa [State.accepted_arg8]
    · rw [State.loadWave_badBuffer]
      rw [State.accepted_arg16]
      exact (b.bufferOk_eq_false_iff _ _).2 ⟨by decide, buffer⟩
  case cue =>
    rintro s v b slot n es rfl h hslot few read
    rw [exec_loadCue h, State.loadCue_loads (slot := slot) (es := es)]
    · rw [State.accepted_arg8]
      rfl
    · rwa [State.accepted_arg8]
    · rwa [State.accepted_arg8]
    · rwa [State.accepted_arg8, State.accepted_notesAt]
  case badCue =>
    rintro s v b n rfl h bad
    rw [exec_loadCue h, State.loadCue_badArg]
    rwa [State.accepted_arg8, State.accepted_arg8, State.accepted_notesAt]

end Sys2Proof.Machine
end

section
/-! SUPPORT. Proofs: step outputs, mixed frames, production events, pulls and SDO (R92 to R98, R108, R111). -/
namespace Sys2Proof.Machine

/-! ### The mixer (R96) -/

/-- R96: one side of a frame: the contributions of the keyed voices, summed, times the gain over 64, limited. -/
theorem mixSide_contributions (g : Nat) (waves : Vector (Option (Vector Byte 32)) 8) (vs : List Voice)
    (pan : Voice → Fin 16) : mixSide g (vs.map fun v => v.contribution waves (pan v)) =
      BitVec.ofInt 16 (max (-32768) (min 32767 (Int.tdiv ((vs.map fun v => if v.active.key then
        Int.tdiv (v.stepOutput waves * v.active.level.val * (pan v).val) 16 else 0).sum * g) 64))) := by
  rw [mixSide, limit16_eq]
  rfl

/-! ### The advance of a voice (R92) -/

namespace Voice

variable {v : Voice}

theorem advance_off (h : v.active.key = false) : v.advance = v := by
  rw [Voice.advance, h]
  rfl

theorem advance_within (h : v.active.key = true) (hp : v.periodCount + 1 < v.active.period) :
    v.advance = { v with periodCount := v.periodCount + 1 } := by
  rw [Voice.advance, if_pos h]
  exact if_neg (Nat.not_le.2 hp)

/-- R92: the frame that takes the period counter to the active period brings the step boundary. -/
theorem advance_boundary (h : v.active.key = true) (hp : v.active.period ≤ v.periodCount + 1) :
    v.advance = v.boundary := by
  rw [Voice.advance, if_pos h]
  exact if_pos hp

/-- R92: the phase of the active source alone moves on; the step counter wraps at the modulus. -/
theorem advancePhase_eq (v : Voice) : v.advancePhase =
    { v with
      stepCount := if v.active.source = .square then
        (if v.stepCount + 1 < v.active.modulus.num then v.stepCount + 1 else 0) else v.stepCount,
      waveIndex := if v.active.source = .wave then v.waveIndex + 1 else v.waveIndex,
      noisePos := if v.active.source = .noise then v.noisePos + 1 else v.noisePos } := by
  unfold Voice.advancePhase
  cases v.active.source <;> rfl

/-- R92, R89: a voice after its step boundary, the take of a pending Immediate voice last. -/
theorem advance_eq_of_boundary {u : Voice} (h : v.active.key = true)
    (hp : v.active.period ≤ v.periodCount + 1)
    (hu : u = { v with
      periodCount := 0,
      stepCount := if v.active.source = .square then
        (if v.stepCount + 1 < v.active.modulus.num then v.stepCount + 1 else 0) else v.stepCount,
      waveIndex := if v.active.source = .wave then v.waveIndex + 1 else v.waveIndex,
      noisePos := if v.active.source = .noise then v.noisePos + 1 else v.noisePos }) :
    v.advance = if v.mode = .immediate ∧ v.pending = true then u.take else u := by
  subst hu
  rw [advance_boundary h hp, Voice.boundary, advancePhase_eq]

end Voice

/-! ### Production events (R97, R108, R111) -/

section
variable {s : State}

theorem exec_productionEvent (hf : s.supplyState = .full) (hp : s.sound.canProduce = true) :
    exec .productionEvent s = .next s.produce := if_pos ⟨(consoleOn_iff s).2 hf, hp⟩

theorem exec_beatEvent (hf : s.supplyState = .full) (hb : s.sound.beatDue = true) :
    exec .beatEvent s = .next s.produce := if_pos ⟨(consoleOn_iff s).2 hf, hb⟩

theorem exec_rampEnd (hf : s.supplyState = .full) (hr : s.sound.rampDue = true) :
    exec .rampEnd s = .next s.produce := if_pos ⟨(consoleOn_iff s).2 hf, hr⟩

theorem exec_stepBoundary {i : Fin 8} (hf : s.supplyState = .full) (hs : s.sound.stepDue i = true) :
    exec (.stepBoundary i) s = .next s.produce := if_pos ⟨(consoleOn_iff s).2 hf, hs⟩

/-- R97: no frame in Stopped or Held, or with the FIFO full. -/
theorem Sound.not_canProduce {so : Sound}
    (h : so.engine = .stopped ∨ so.engine = .held ∨ 64 ≤ so.fifo.length) : ¬ so.canProduce = true := by
  rw [Sound.canProduce_iff]
  rintro ⟨state, room⟩
  rcases h with h | h | h
  · rw [h] at state
    rcases state with e | e <;> cases e
  · rw [h] at state
    rcases state with e | e <;> cases e
  · omega

theorem exec_productionEvent_idle (h : s.supplyState ≠ .full ∨ s.sound.engine = .stopped ∨
    s.sound.engine = .held ∨ 64 ≤ s.sound.fifo.length) : exec .productionEvent s = .next s := by
  refine if_neg ?_
  rintro ⟨on, produces⟩
  rcases h with notFull | idle
  · exact notFull ((consoleOn_iff s).1 on)
  · exact Sound.not_canProduce idle produces

theorem exec_stepBoundary_idle {i : Fin 8} (h : s.supplyState ≠ .full ∨ s.sound.engine = .stopped ∨
    s.sound.engine = .held ∨ 64 ≤ s.sound.fifo.length ∨ s.sound.voices[i].active.key = false ∨
    s.sound.voices[i].periodCount + 1 < s.sound.voices[i].active.period) :
    exec (.stepBoundary i) s = .next s := by
  refine if_neg ?_
  rintro ⟨on, due⟩
  obtain ⟨produces, key, reached⟩ := Sound.stepDue_iff.1 due
  rcases h with notFull | stopped | held | full | off | early
  · exact notFull ((consoleOn_iff s).1 on)
  · exact Sound.not_canProduce (.inl stopped) produces
  · exact Sound.not_canProduce (.inr (.inl held)) produces
  · exact Sound.not_canProduce (.inr (.inr full)) produces
  · rw [off] at key
    cases key
  · omega

/-- R97: eight voices, each advanced, are the voices that a production event leaves. -/
theorem eq_mapVec_of_toList {f : Voice → Voice} {us vs : Vector Voice 8} (h : us.toList = vs.toList.map f) :
    us = mapVec f vs := by
  rw [← mapVec_toList] at h
  exact Vector.toList_inj.1 h

/-- R97: a production event in Running, with the beat event when it takes the frame counter to the tempo. -/
theorem exec_productionEvent_running {u : Sound} (hf : s.supplyState = .full) (he : s.sound.engine = .running)
    (room : s.sound.fifo.length < 64) (hv : u.voices.toList = s.sound.voices.toList.map Voice.advance)
    (hu : u = { s.sound with
      fifo := s.sound.fifo ++ [mixFrame s.sound.gain s.sound.waves s.sound.voices],
      voices := u.voices, frameCount := s.sound.frameCount + 1 }) :
    exec .productionEvent s =
      if s.sound.frameCount + 1 = s.sound.tempo then exec .beatEvent s else .next { s with sound := u } := by
  have produces : s.sound.canProduce = true := Sound.canProduce_iff.2 ⟨.inl he, room⟩
  rw [exec_productionEvent hf produces]
  split
  next beat => rw [exec_beatEvent hf (Sound.beatDue_iff.2 ⟨produces, he, beat⟩)]
  next between =>
    have gain : s.sound.frameGain = s.sound.gain := if_neg (by rw [he]; decide)
    rw [State.produce_counts he between, Sound.produceFrame, gain, ← eq_mapVec_of_toList hv]
    exact congrArg (fun so => Host.Outcome.next (s.withSound so)) hu.symm

/-- R108: a production event in Muting, whose frame carries the lowered gain, with the ramp's end at 0. -/
theorem exec_productionEvent_muting {u : Sound} (hf : s.supplyState = .full) (he : s.sound.engine = .muting)
    (room : s.sound.fifo.length < 64) (hg : 1 ≤ s.sound.gain)
    (hv : u.voices.toList = s.sound.voices.toList.map Voice.advance)
    (hu : u = { s.sound with
      fifo := s.sound.fifo ++ [mixFrame (s.sound.gain - 1) s.sound.waves s.sound.voices],
      voices := u.voices, gain := s.sound.gain - 1 }) :
    exec .productionEvent s =
      if s.sound.gain = 1 then exec .rampEnd s else .next { s with sound := u } := by
  have produces : s.sound.canProduce = true := Sound.canProduce_iff.2 ⟨.inr he, room⟩
  have gain : s.sound.frameGain = s.sound.gain - 1 := if_pos he
  have notRunning : s.sound.engine ≠ .running := by rw [he]; decide
  rw [exec_productionEvent hf produces]
  split
  next last =>
    have silent : s.sound.frameGain = 0 := by rw [gain, last]
    rw [exec_rampEnd hf (Sound.rampDue_iff.2 ⟨produces, he, silent⟩)]
  next more =>
    have audible : s.sound.frameGain ≠ 0 := by omega
    rw [State.produce_ramps notRunning audible, Sound.produceFrame, gain, ← eq_mapVec_of_toList hv]
    exact congrArg (fun so => Host.Outcome.next (s.withSound so)) hu.symm

theorem Sound.rampEnd_voices (so : Sound) : so.rampEnd.voices = so.voices := by
  unfold Sound.rampEnd
  split <;> rfl

/-- R97: without a beat event, whose takes come after, a production event leaves each voice advanced. -/
theorem State.produce_voices (h : s.sound.engine = .running → s.sound.frameCount + 1 ≠ s.sound.tempo)
    (i : Fin 8) : s.produce.sound.voices[i] = s.sound.voices[i].advance := by
  have advanced : s.produce.sound.voices = mapVec Voice.advance s.sound.voices := by
    by_cases he : s.sound.engine = .running
    · rw [State.produce_counts he (h he)]
      rfl
    · by_cases hg : s.sound.frameGain = 0
      · rw [State.produce_rampEnd he hg, State.rampEnd, State.settleQuiesce_sound, State.withSound_sound,
          Sound.rampEnd_voices]
        rfl
      · rw [State.produce_ramps he hg]
        rfl
  rw [advanced]
  exact mapVec_getElem _ _ i.val i.isLt

/-! ### Pulls and SDO (R98, R167) -/

theorem exec_pullEvent (hf : s.supplyState = .full) : exec .pullEvent s = .next (s.withSound s.sound.pull) :=
  if_pos ((consoleOn_iff s).2 hf)

theorem Sound.pull_frame {so : Sound} {f : Frame} {fs : List Frame}
    (he : so.engine = .running ∨ so.engine = .muting) (hf : so.fifo = f :: fs) :
    so.pull = { so with fifo := fs, sdo := f } := by
  rw [Sound.pull, if_pos he, hf]

/-- R98: with no frame to pull a zero frame goes out. -/
theorem Sound.pull_zero {so : Sound} (h : so.engine = .stopped ∨ so.engine = .held ∨ so.fifo = []) :
    so.pull = { so with sdo := .zero } := by
  unfold Sound.pull
  split
  next he =>
    rcases h with h | h | h
    · rw [h] at he
      rcases he with e | e <;> cases e
    · rw [h] at he
      rcases he with e | e <;> cases e
    · rw [h]
  · rfl

theorem State.sdoBit_full (hf : s.supplyState = .full) (k : Fin 32) :
    s.sdoBit k = some (s.sound.sdo.bit k) := by
  rw [State.sdoBit, State.sdoFrame, if_pos ((consoleOn_iff s).2 hf)]
  rfl

theorem State.sdoBit_unpowered (hf : s.supplyState ≠ .full) (k : Fin 32) : s.sdoBit k = none := by
  rw [State.sdoBit, State.sdoFrame, if_neg (mt (consoleOn_iff s).1 hf)]
  rfl

end

/-- Settles O38: the mixer by its sides, an advance by the period counter, a production event by the engine's
state, a step boundary as the production event that brings it. -/
theorem frames : Obligations.Frames := by
  unfold Obligations.Frames
  refine ⟨fun g waves vs => ⟨mixSide_contributions g waves vs.toList (·.active.panL),
      mixSide_contributions g waves vs.toList (·.active.panR)⟩,
    ?outputs, noiseBit_start, noiseBit_recurrence, fun _ => Voice.advance_off,
    fun _ => Voice.advance_within, fun _ _ => Voice.advance_eq_of_boundary,
    fun _ _ => exec_productionEvent_running, fun _ _ => exec_productionEvent_muting,
    fun _ => exec_productionEvent_idle, ?boundary, fun _ _ => exec_stepBoundary_idle, ?pull, ?pullZero,
    fun s k hf => s.sdoBit_full hf k, fun s k hf => s.sdoBit_unpowered hf k⟩
  case outputs =>
    intro v waves
    refine ⟨fun off => ?_, fun square => ?_, fun wave => ?_, fun noise => ?_⟩
    · rw [Voice.stepOutput, off]
    · rw [Voice.stepOutput, square]
    · rw [Voice.stepOutput, wave]
      rfl
    · rw [Voice.stepOutput, noise]
  case boundary =>
    rintro s i v u hf state room rfl key reached hu
    have produces : s.sound.canProduce = true := Sound.canProduce_iff.2 ⟨state, room⟩
    rw [exec_stepBoundary hf (Sound.stepDue_iff.2 ⟨produces, key, reached⟩), exec_productionEvent hf produces]
    refine ⟨rfl, fun noBeat => ⟨_, rfl, ?_⟩⟩
    rw [State.produce_voices noBeat, Voice.advance_eq_of_boundary key reached hu]
  case pull =>
    intro s f fs hf state fifo
    rw [exec_pullEvent hf, Sound.pull_frame state fifo]
    rfl
  case pullZero =>
    intro s hf nothing
    rw [exec_pullEvent hf, Sound.pull_zero nothing]
    rfl

end Sys2Proof.Machine
end

section
/-! SUPPORT. Proofs: START_SOUND, STOP_SOUND, SET_TEMPO and the beat-lost signal (R107, R108, R110, R112,
R132). -/
namespace Sys2Proof.Machine

/-! ### The requests by their checks (R107, R108, R112) -/

section
variable {s : State} {v : Word} {b : Block}

theorem exec_startSound (h : s.offered .sound 6 3 v b) :
    exec (.startSound v) s = .next ((s.accepted .sound b).startSound b) :=
  (h.soundRequests (by decide) h.long).trans (by rw [State.soundRequest, h.sound_opcode]; rfl)

theorem exec_stopSound (h : s.offered .sound 7 2 v b) :
    exec (.stopSound v) s = .next ((s.accepted .sound b).stopSound b) :=
  (h.soundRequests (by decide) h.long).trans (by rw [State.soundRequest, h.sound_opcode]; rfl)

theorem exec_setTempo (h : s.offered .sound 8 3 v b) :
    exec (.setTempo v) s = .next ((s.accepted .sound b).setTempo b) :=
  (h.soundRequests (by decide) h.long).trans (by rw [State.soundRequest, h.sound_opcode]; rfl)

/-- R106: a two-byte argument is a tempo from 256 up. -/
theorem State.tempoOk_arg16_iff (s : State) (b : Block) (k : Nat) :
    tempoOk (s.arg16 b k) = true ↔ 256 ≤ s.arg16 b k := by
  have bound : s.arg16 b k < 65536 := s.ramNat_two_lt _
  rw [tempoOk_iff]
  omega

theorem State.startSound_badArg (h : s.arg16 b 4 < 256) :
    s.startSound b = s.terminate .sound b (.refuse .badArg) :=
  if_neg (mt (s.tempoOk_arg16_iff b 4).1 (Nat.not_le.2 h))

theorem State.startSound_starts (ht : 256 ≤ s.arg16 b 4) (he : s.sound.engine = .stopped) :
    s.startSound b = (s.withSound (s.sound.started (s.arg16 b 4))).terminate .sound b (.ok 0) := by
  rw [State.startSound, if_pos ((s.tempoOk_arg16_iff b 4).2 ht), he]

/-- R107: outside Stopped a start is refused, in Held for the quiesce. -/
theorem State.startSound_refused (ht : 256 ≤ s.arg16 b 4) (he : s.sound.engine ≠ .stopped) :
    s.startSound b = s.terminate .sound b
      (.refuse (if s.sound.engine = .held then .quiesced else .engineRunning)) := by
  rw [State.startSound, if_pos ((s.tempoOk_arg16_iff b 4).2 ht)]
  cases e : s.sound.engine with
  | stopped => exact absurd e he
  | running => rfl
  | muting => rfl
  | held => rfl

theorem State.stopNow_running (he : s.sound.engine = .running) :
    s.stopNow = (s.withSound s.sound.mute).beatLostSignal := if_pos he

theorem State.stopNow_idle (he : s.sound.engine ≠ .running) : s.stopNow = s := if_neg he

theorem State.setTempo_badArg (h : s.arg16 b 4 < 256) :
    s.setTempo b = s.terminate .sound b (.refuse .badArg) :=
  if_neg (mt (s.tempoOk_arg16_iff b 4).1 (Nat.not_le.2 h))

theorem State.setTempo_sets (ht : 256 ≤ s.arg16 b 4) :
    s.setTempo b =
      (s.withSound { s.sound with nextTempo := s.arg16 b 4 }).terminate .sound b (.ok 0) :=
  if_pos ((s.tempoOk_arg16_iff b 4).2 ht)

end

/-! ### The beat-lost signal (R132) -/

theorem Rumble.beatPaced_iff (r : Rumble) (slot : Fin 8) : r.beatPaced slot = true ↔
    ∃ p, r.patterns[slot] = some p ∧ p.pacing = .beat := by
  unfold Rumble.beatPaced Rumble.patternOf
  cases r.patterns[slot] <;> simp

theorem Rumble.beatLost_of_unpaced {r : Rumble}
    (h : ∀ c, r.current = some c → r.beatPaced c.play.pattern = false) : r.beatLost = r := by
  cases hc : r.current with
  | none => exact r.beatLost_of_none hc
  | some c =>
    rw [Rumble.beatLost, hc]
    exact if_neg (Bool.eq_false_iff.1 (h c hc))

theorem Rumble.beatLost_of_paced {r : Rumble} {c : Current} (hc : r.current = some c)
    (hb : r.beatPaced c.play.pattern = true) :
    r.beatLost = Rumble.endCurrent { r with duty := 0 } false c.play .beatLost := by
  rw [Rumble.beatLost, hc]
  exact if_pos hb

/-- Settles O36: each request by its checks and the engine's state; the beat-lost signal as the end of a
Beat-paced current play with no beats to come. -/
theorem engineRequests : Obligations.EngineRequests := by
  unfold Obligations.EngineRequests
  refine ⟨?start, ?startRefused, ?startBadArg, ?stop, ?stopIdle, ?tempo, ?tempoBadArg,
    fun _ => Rumble.beatLost_of_unpaced, ?beatLost, Rumble.beatPaced_iff⟩
  case start =>
    rintro s v b tempo h rfl inRange stopped
    rw [exec_startSound h, State.startSound_starts (s := s.accepted .sound b) _ stopped]
    · rw [State.accepted_arg16]
      rfl
    · rwa [State.accepted_arg16]
  case startRefused =>
    rintro s v b st h inRange started rfl
    rw [exec_startSound h, State.startSound_refused (s := s.accepted .sound b) _ started]
    · rfl
    · rwa [State.accepted_arg16]
  case startBadArg =>
    intro s v b h low
    rw [exec_startSound h, State.startSound_badArg]
    rwa [State.accepted_arg16]
  case stop =>
    intro s v b h running
    rw [exec_stopSound h, State.stopSound, State.stopNow_running (s := s.accepted .sound b) running]
    rfl
  case stopIdle =>
    intro s v b h idle
    rw [exec_stopSound h, State.stopSound, State.stopNow_idle (s := s.accepted .sound b) idle]
  case tempo =>
    rintro s v b tempo h rfl inRange
    rw [exec_setTempo h, State.setTempo_sets]
    · rw [State.accepted_arg16]
      rfl
    · rwa [State.accepted_arg16]
  case tempoBadArg =>
    intro s v b h low
    rw [exec_setTempo h, State.setTempo_badArg]
    rwa [State.accepted_arg16]
  case beatLost =>
    intro r c skipped rest current paced few skips
    rw [Rumble.beatLost_of_paced current paced]
    exact Rumble.endCurrent_eq (r := { r with duty := 0 }) c.play .beatLost few skips

end Sys2Proof.Machine
end

section
/-! SUPPORT. Proofs: QUEUE_NOTES, PLAY_CUE and an alarm's cue request (R114, R116, R118, R119). -/
namespace Sys2Proof.Machine

section
variable {s : State} {v : Word} {b : Block}

/-! ### QUEUE_NOTES (R116) -/

theorem exec_queueNotes (h : s.offered .sound 9 (3 + 2 * s.arg8 b 4) v b) :
    exec (.queueNotes v) s = .next ((s.accepted .sound b).queueNotes b) :=
  (h.soundRequests (by decide) h.long).trans (by rw [State.soundRequest, h.sound_opcode]; rfl)

theorem State.queueNotes_badArg (h : 16 < s.arg8 b 4 ∨ s.notesAt (b.off + 8) (s.arg8 b 4) = none) :
    s.queueNotes b = s.terminate .sound b (.refuse .badArg) := by
  unfold State.queueNotes
  dsimp only
  split
  · rfl
  next few =>
    rw [h.resolve_left few]

theorem State.queueNotes_stopped {es : List NoteEntry} (few : s.arg8 b 4 ≤ 16)
    (read : s.notesAt (b.off + 8) (s.arg8 b 4) = some es) (he : s.sound.engine ≠ .running) :
    s.queueNotes b = s.terminate .sound b (.refuse .engineStopped) := by
  rw [State.queueNotes, if_neg (Nat.not_lt.2 few), read]
  exact if_neg he

/-- R116: in Running as many of the entries as the queue has room for are inserted, in list order. -/
theorem State.queueNotes_inserts {es : List NoteEntry} (few : s.arg8 b 4 ≤ 16)
    (read : s.notesAt (b.off + 8) (s.arg8 b 4) = some es) (he : s.sound.engine = .running) :
    s.queueNotes b =
      (s.withSound { s.sound with
        notes := insertNotes (es.take (min (s.arg8 b 4) (64 - s.sound.notes.length))) s.sound.notes }).terminate
        .sound b (queueNotesAnswer (min (s.arg8 b 4) (64 - s.sound.notes.length)) (s.arg8 b 4)) := by
  rw [State.queueNotes, if_neg (Nat.not_lt.2 few), read]
  exact if_pos he

/-! ### PLAY_CUE (R118) -/

theorem exec_playCue (h : s.offered .sound 11 3 v b) :
    exec (.playCue v) s = .next ((s.accepted .sound b).playCue b) :=
  (h.soundRequests (by decide) h.long).trans (by rw [State.soundRequest, h.sound_opcode]; rfl)

theorem State.playCue_badSlot (h : 4 ≤ s.arg8 b 4) :
    s.playCue b = s.terminate .sound b (.refuse .badArg) := by
  rw [State.playCue, inRange_eq_none h]

/-- R118, R119: the status of a PLAY_CUE that cannot be inserted, by the reason that an alarm's cue request
would be dropped for. -/
def DropReason.status : DropReason → Status
  | .emptySlot => .badArg
  | .notRunning => .engineStopped
  | .queueFull => .queueFull

/-- R118: a PLAY_CUE of a slot makes the checks of an alarm's cue request, and answers where that drops. -/
theorem State.playCue_eq {slot : Fin 4} (hslot : s.arg8 b 4 = slot.val) :
    s.playCue b = match s.sound.dropReason slot with
      | some reason => s.terminate .sound b (.refuse reason.status)
      | none => (s.withSound (s.sound.insertCue slot)).terminate .sound b (.ok s.sound.cues[slot].length) := by
  rw [State.playCue, inRange_val slot hslot]
  unfold Sound.dropReason
  dsimp only
  split
  · rfl
  split
  · rfl
  split <;> rfl

end

/-! ### The reasons for a drop (R119) -/

section
variable {so : Sound} {slot : Fin 4}

theorem Sound.dropReason_eq_none (loaded : so.cues[slot] ≠ []) (he : so.engine = .running)
    (room : so.notes.length + so.cues[slot].length ≤ 64) : so.dropReason slot = none := by
  have notEmpty : ¬ so.cues[slot].isEmpty = true := mt List.isEmpty_iff.1 loaded
  have notFull : ¬ so.cueFull slot = true := mt of_decide_eq_true (Nat.not_lt.2 room)
  rw [Sound.dropReason, if_neg notEmpty, if_neg (not_not_intro he), if_neg notFull]

/-- R119: the first reason that holds. -/
theorem Sound.dropReason_eq_some (h : so.cues[slot] = [] ∨ so.engine ≠ .running ∨
    64 < so.notes.length + so.cues[slot].length) :
    so.dropReason slot = some (if so.cues[slot] = [] then .emptySlot
      else if so.engine ≠ .running then .notRunning else .queueFull) := by
  unfold Sound.dropReason
  simp only [List.isEmpty_iff]
  split
  · rfl
  next loaded =>
  split
  · rfl
  next running =>
    have full : so.cueFull slot = true :=
      decide_eq_true ((h.resolve_left loaded).resolve_left running)
    rw [if_pos full]

theorem Sound.cueRequest_inserts (alarm : Fin 32) (h : so.dropReason slot = none) :
    so.cueRequest slot alarm = so.insertCue slot := by
  rw [Sound.cueRequest, h]

theorem Sound.cueRequest_drops {reason : DropReason} (alarm : Fin 32) (h : so.dropReason slot = some reason) :
    so.cueRequest slot alarm =
      { so with lastDrop := some { alarm := alarm, slot := slot, reason := reason }, cueDropped := true } := by
  rw [Sound.cueRequest, h]

end

theorem exec_cueRequest {s : State} (hf : s.supplyState = .full) (slot : Fin 4) (alarm : Fin 32) :
    exec (.cueRequest slot alarm) s = .next (s.cueRequest slot alarm) := if_pos ((consoleOn_iff s).2 hf)

/-- Settles O37: an insertion by its due beats, QUEUE_NOTES by its checks, and a cue, the console's or an
alarm's, by the first reason to drop it. -/
theorem notesAndCues : Obligations.NotesAndCues := by
  unfold Obligations.NotesAndCues
  refine ⟨State.notesAt_eq_some_iff, ?insertion, ?queue, ?queueStopped, ?queueBadArg, ?play, ?playRefused,
    ?playBadSlot, ?request, ?requestDropped⟩
  case insertion =>
    intro n d qs
    have placed := dueBeats_insertNote n qs d 0
    rwa [Nat.zero_add] at placed
  case queue =>
    rintro s v b n k es rfl h few read running rfl
    rw [exec_queueNotes h, State.queueNotes_inserts (s := s.accepted .sound b) (es := es) _ _ running]
    · rw [State.accepted_arg8]
      rfl
    · rwa [State.accepted_arg8]
    · rwa [State.accepted_arg8, State.accepted_notesAt]
  case queueStopped =>
    rintro s v b n es rfl h few read stopped
    rw [exec_queueNotes h, State.queueNotes_stopped (s := s.accepted .sound b) (es := es) _ _ stopped]
    · rwa [State.accepted_arg8]
    · rwa [State.accepted_arg8, State.accepted_notesAt]
  case queueBadArg =>
    rintro s v b n rfl h bad
    rw [exec_queueNotes h, State.queueNotes_badArg]
    rwa [State.accepted_arg8, State.accepted_notesAt]
  case play =>
    intro s v b slot h hslot loaded running room
    rw [exec_playCue h, State.playCue_eq ((s.accepted_arg8 .sound b b 4).trans hslot), State.accepted_sound,
      Sound.dropReason_eq_none loaded running room]
    rfl
  case playRefused =>
    rintro s v b slot st h hslot refused rfl
    rw [exec_playCue h, State.playCue_eq ((s.accepted_arg8 .sound b b 4).trans hslot), State.accepted_sound,
      Sound.dropReason_eq_some refused]
    dsimp only
    rw [apply_ite DropReason.status, apply_ite DropReason.status]
    rfl
  case playBadSlot =>
    intro s v b h bad
    rw [exec_playCue h, State.playCue_badSlot]
    rwa [State.accepted_arg8]
  case request =>
    intro s slot alarm hf loaded running room
    rw [exec_cueRequest hf, State.cueRequest,
      Sound.cueRequest_inserts alarm (Sound.dropReason_eq_none loaded running room)]
    rfl
  case requestDropped =>
    rintro s slot alarm reason hf dropped rfl
    rw [exec_cueRequest hf, State.cueRequest, Sound.cueRequest_drops alarm (Sound.dropReason_eq_some dropped)]
    rfl

end Sys2Proof.Machine
end

section
/-! SUPPORT. Proofs: beat events, the beat signal and the end of the ramp (R108, R109, R111, R113, R115, R130,
R131, R161). -/
namespace Sys2Proof.Machine

/-! ### The beat event within the engine (R111) -/

theorem Voice.take_mode (v : Voice) : v.take.mode = v.mode := by
  unfold Voice.take
  dsimp only
  split <;> rfl

theorem Voice.idleTake_mode (v : Voice) : v.idleTake.mode = v.mode := by
  unfold Voice.idleTake
  split
  · exact v.take_mode
  · rfl

/-- R111 step 4: at a beat a pending voice takes when it is Synced or its active key is Off. -/
theorem Voice.beatTake_eq (v : Voice) : v.beatTake =
    if v.pending = true ∧ (v.mode = .synced ∨ v.active.key = false) then v.take else v := by
  cases hm : v.mode with
  | immediate =>
    have noSyncTake : v.idleTake.syncTake = v.idleTake := if_neg fun ⟨synced, _⟩ => by
      rw [Voice.idleTake_mode, hm] at synced
      cases synced
    rw [Voice.beatTake, noSyncTake, Voice.idleTake]
    simp [hm]
  | synced =>
    have noIdleTake : v.idleTake = v := if_neg fun ⟨immediate, _⟩ => by
      rw [hm] at immediate
      cases immediate
    rw [Voice.beatTake, noIdleTake, Voice.syncTake]
    simp [hm]

/-- R111: the beat event by what it takes from the note queue. -/
theorem Sound.beat_eq {so : Sound} {waiting : List Queued} {vs : Vector Voice 8}
    (h : beatNotes so.notes so.voices = (waiting, vs)) :
    so.beat = { so with
      frameCount := 0, beats := so.beats + 1, tempo := so.nextTempo, notes := waiting,
      voices := mapVec Voice.beatTake vs } := by
  rw [Sound.beat, h]

/-! ### The frame of the production event (R97) -/

/-- R97: the engine with the next frame appended, at a gain, and its voices advanced. -/
def Sound.framed (so : Sound) (g : Nat) : Sound :=
  { so with
    fifo := so.fifo ++ [mixFrame g so.waves so.voices], voices := mapVec Voice.advance so.voices }

/-- R97: a production event appends the frame at the gain that it carries, and keeps that gain. -/
theorem Sound.produceFrame_eq (so : Sound) :
    so.produceFrame = { so.framed so.frameGain with gain := so.frameGain } := rfl

/-! ### When the events are due (R111, R108) -/

section
variable {s : State}

theorem exec_beatEvent_idle (h : s.supplyState ≠ .full ∨ s.sound.engine ≠ .running ∨
    64 ≤ s.sound.fifo.length ∨ s.sound.frameCount + 1 ≠ s.sound.tempo) : exec .beatEvent s = .next s := by
  refine if_neg ?_
  rintro ⟨on, due⟩
  obtain ⟨produces, running, reached⟩ := Sound.beatDue_iff.1 due
  rcases h with notFull | notRunning | noRoom | early
  · exact notFull ((consoleOn_iff s).1 on)
  · exact notRunning running
  · exact Sound.not_canProduce (.inr (.inr noRoom)) produces
  · exact early reached

theorem Sound.frameGain_muting {so : Sound} (he : so.engine = .muting) : so.frameGain = so.gain - 1 :=
  if_pos he

theorem exec_rampEnd_idle (h : s.supplyState ≠ .full ∨ s.sound.engine ≠ .muting ∨
    64 ≤ s.sound.fifo.length ∨ 2 ≤ s.sound.gain) : exec .rampEnd s = .next s := by
  refine if_neg ?_
  rintro ⟨on, due⟩
  obtain ⟨produces, muting, silent⟩ := Sound.rampDue_iff.1 due
  rw [Sound.frameGain_muting muting] at silent
  rcases h with notFull | notMuting | noRoom | audible
  · exact notFull ((consoleOn_iff s).1 on)
  · exact notMuting muting
  · exact Sound.not_canProduce (.inr (.inr noRoom)) produces
  · omega

/-! ### The end of the ramp (R108, R109, R161) -/

theorem Store.held_iff (st : Store) : st.held = true ↔
    st.status = .quiesced ∨ st.status = .unformatted ∧ st.hold = true ∧ st.op = .none := by
  simp [Store.held, and_assoc]

theorem State.allHeld_iff (s : State) : s.allHeld = true ↔
    s.store.held = true ∧ s.sound.engine = .held ∧ s.rumble.hold = true := by
  simp [State.allHeld, and_assoc]

theorem State.settleQuiesce_of_not_allHeld (h : ¬ s.allHeld = true) : s.settleQuiesce = s :=
  if_neg fun ⟨_, held⟩ => h held

theorem Sound.rampEnd_hold {so : Sound} (h : so.hold = true) :
    so.rampEnd = { so with gain := 0, engine := .held } := if_pos h

theorem Sound.rampEnd_free {so : Sound} (h : so.hold = false) :
    so.rampEnd = { so with gain := 0, engine := .stopped, fifo := [] } := if_neg (Bool.eq_false_iff.1 h)

/-- R108: a RAMP_END that is due is the end of the ramp after its frame, which carries g of 0. -/
theorem exec_rampEnd_due (hf : s.supplyState = .full) (he : s.sound.engine = .muting)
    (room : s.sound.fifo.length < 64) (hg : s.sound.gain ≤ 1) :
    exec .rampEnd s = .next (s.withSound (s.sound.framed 0).rampEnd).settleQuiesce := by
  have silent : s.sound.frameGain = 0 := by rw [Sound.frameGain_muting he]; omega
  have produces : s.sound.canProduce = true := Sound.canProduce_iff.2 ⟨.inr he, room⟩
  have notRunning : s.sound.engine ≠ .running := by rw [he]; decide
  rw [exec_rampEnd hf (Sound.rampDue_iff.2 ⟨produces, he, silent⟩), State.produce_rampEnd notRunning silent,
    State.rampEnd, State.withSound_sound, Sound.rampEnd_produceFrame, silent]
  rfl

/-! ### The beat event within the part (R111) -/

/-- R111: a BEAT_EVENT that is due is the frame of its production event, then the beat, whose signal finds
the engine Running. -/
theorem exec_beatEvent_due (hf : s.supplyState = .full) (he : s.sound.engine = .running)
    (room : s.sound.fifo.length < 64) (hb : s.sound.frameCount + 1 = s.sound.tempo) :
    exec .beatEvent s = .next { s with
      sound := (s.sound.framed s.sound.gain).beat, rumble := s.rumble.tick .beat true } := by
  have gain : s.sound.frameGain = s.sound.gain := if_neg (by rw [he]; decide)
  have produces : s.sound.canProduce = true := Sound.canProduce_iff.2 ⟨.inl he, room⟩
  have running : s.beatRunning = true := (State.beatRunning_iff s).2 he
  rw [exec_beatEvent hf (Sound.beatDue_iff.2 ⟨produces, he, hb⟩), State.produce_beat he hb,
    Sound.produceFrame_eq, gain, ← running]
  rfl

end

/-! ### A unit or a beat at the current play (R130, R131) -/

/-- R130, R126: the repetitions after one more, as a minimum. -/
theorem repsAfter_eq {n : Nat} (h : n ≤ 255) : repsAfter n = min 255 (n + 1) := by
  unfold repsAfter
  split <;> omega

namespace Rumble

variable {r : Rumble} {running : Bool} {c : Current} {p : Pattern}

/-- R130: a unit or a beat counts a current play of its pacing down. -/
theorem tick_eq_countDown {pacing : Pacing} (hc : r.current = some c)
    (hp : r.patterns[c.play.pattern] = some p) (hpacing : p.pacing = pacing) :
    r.tick pacing running = r.countDown running c p := by
  have loaded : r.patternOf c.play.pattern = some p := hp
  rw [Rumble.tick, hc]
  dsimp only
  rw [loaded]
  exact if_pos hpacing

/-- R130: a beat reaches no play but a Beat-paced one. -/
theorem tick_beat_of_unpaced (h : ∀ c, r.current = some c → r.beatPaced c.play.pattern = false) :
    r.tick .beat running = r := by
  unfold Rumble.tick
  split
  next c hc =>
    split
    next p loaded =>
      refine if_neg fun paced => ?_
      have unpaced := h c hc
      rw [(r.beatPaced_iff _).2 ⟨p, loaded, paced⟩] at unpaced
      cases unpaced
    · rfl
  · rfl

theorem countDown_counts (h : 2 ≤ c.left) :
    r.countDown running c p = { r with current := some { c with left := c.left - 1 } } := if_pos h

theorem countDown_nextStep {st : PatStep} (hp : r.patterns[c.play.pattern] = some p) (h : c.left ≤ 1)
    (hs : p.steps[c.step + 1]? = some st) :
    r.countDown running c p = { r with current := some { c with step := c.step + 1, left := st.length } } := by
  obtain ⟨more, -⟩ := List.getElem?_eq_some_iff.1 hs
  rw [Rumble.countDown, if_neg (Nat.not_lt.2 h), if_pos more, Rumble.stepLength_eq hp hs]

/-- R130: after the last step of a repetition that is not the last, the pattern starts again. -/
theorem countDown_repeats {st : PatStep} (hp : r.patterns[c.play.pattern] = some p) (h : c.left ≤ 1)
    (last : p.steps.length = c.step + 1) (hs : p.steps[0]? = some st) (hr : c.reps ≤ 255)
    (more : p.times = 0 ∨ min 255 (c.reps + 1) < p.times) :
    r.countDown running c p =
      { r with current := some { c with step := 0, reps := min 255 (c.reps + 1), left := st.length } } := by
  rw [Rumble.countDown, if_neg (Nat.not_lt.2 h), if_neg (Nat.not_lt.2 (Nat.le_of_eq last)), repsAfter_eq hr,
    if_pos more, Rumble.stepLength_eq hp hs]

/-- R130, R131: after the last step of the last repetition the play ends Completed. -/
theorem countDown_completes (h : c.left ≤ 1) (last : p.steps.length = c.step + 1) (hr : c.reps ≤ 255)
    (times : p.times ≠ 0) (done : p.times ≤ min 255 (c.reps + 1)) :
    r.countDown running c p = r.endCurrent running c.play .completed := by
  rw [Rumble.countDown, if_neg (Nat.not_lt.2 h), if_neg (Nat.not_lt.2 (Nat.le_of_eq last)), repsAfter_eq hr,
    if_neg (not_or.2 ⟨times, Nat.not_lt.2 done⟩)]

/-- R131: while the engine runs every head of the queue can start. -/
theorem skips_running (r : Rumble) : r.skips true [] r.queue := ⟨rfl, nofun, fun _ _ => .inr rfl⟩

end Rumble

/-- Settles O39: the beat event and the ramp's end as what their production event does, the beat signal by
what is left of the current play. -/
theorem beatAndRampEnd : Obligations.BeatAndRampEnd := by
  unfold Obligations.BeatAndRampEnd
  refine ⟨?beat, fun _ => exec_beatEvent_idle, fun _ _ _ => rfl, fun _ => rfl, fun _ _ => rfl,
    fun _ _ => rfl, fun _ => Rumble.tick_beat_of_unpaced, ?counts, ?nextStep, ?repeats, ?completes, ?held,
    ?stopped, fun _ => exec_rampEnd_idle⟩
  case beat =>
    rintro s due rest moved applied hf he room hb hm hn hd hr rfl
    obtain rfl := eq_mapVec_of_toList hm
    have taken := (congrArg (beatNotes · (mapVec Voice.advance s.sound.voices)) hn).trans
      (beatNotes_append due rest _ hd hr)
    refine ⟨mapVec Voice.beatTake _, ?_, fun i => (mapVec_getElem _ _ i.val i.isLt).trans (Voice.beatTake_eq _)⟩
    rw [exec_beatEvent_due hf he room hb, Sound.beat_eq (so := s.sound.framed s.sound.gain) taken]
    cases rest with
    | nil => rfl
    | cons q qs => rfl
  case counts =>
    intro r c p hc hp paced more
    rw [Rumble.tick_eq_countDown hc hp paced, Rumble.countDown_counts more]
  case nextStep =>
    intro r c p st hc hp paced last hs
    rw [Rumble.tick_eq_countDown hc hp paced, Rumble.countDown_nextStep hp last hs]
  case repeats =>
    intro r c p st hc hp paced last lastStep hs more hr
    rw [Rumble.tick_eq_countDown hc hp paced, Rumble.countDown_repeats hp last lastStep hs hr more]
  case completes =>
    intro r c p hc hp paced last lastStep times done hr ho
    rw [Rumble.tick_eq_countDown hc hp paced, Rumble.countDown_completes last lastStep hr times done,
      Rumble.endCurrent_eq c.play .completed ho r.skips_running]
    rfl
  case held =>
    intro s held moved hf he room hg hold hm hheld
    obtain rfl := eq_mapVec_of_toList hm
    have report : State.allHeld (s.withSound { s.sound.framed 0 with gain := 0, engine := .held }) = held := by
      rw [Bool.eq_iff_iff, State.allHeld_iff, hheld, Store.held_iff]
      exact ⟨fun ⟨store, _, rumble⟩ => ⟨rumble, store⟩, fun ⟨rumble, store⟩ => ⟨store, rfl, rumble⟩⟩
    rw [exec_rampEnd_due hf he room hg, Sound.rampEnd_hold (so := s.sound.framed 0) hold,
      State.settleQuiesce_eq, report]
    rfl
  case stopped =>
    intro s moved hf he room hg free hm
    obtain rfl := eq_mapVec_of_toList hm
    rw [exec_rampEnd_due hf he room hg, Sound.rampEnd_free (so := s.sound.framed 0) free,
      State.settleQuiesce_of_not_allHeld]
    · rfl
    · rw [State.allHeld_iff]
      rintro ⟨-, held, -⟩
      cases held

end Sys2Proof.Machine
end

section
/-! SUPPORT. Proofs: the law of the rumble unit through every operation on it (R110, R122 to R138). -/
namespace Sys2Proof.Machine

/-! ### The unit's own operations (R124, R125, R133, R135, R139) -/

theorem DriveSet.ofLevels_lawful (m : Modulus) (low high : Nat) : (DriveSet.ofLevels m low high).lawful :=
  ⟨Nat.min_le_right _ _, Nat.min_le_right _ _⟩

theorem Rumble.patternOf_load_same (r : Rumble) (slot : Fin 8) (x : Option Pattern) :
    Rumble.patternOf { r with patterns := r.patterns.set slot x } slot = x :=
  Vector.getElem_set_self _

theorem Rumble.patternOf_load_of_ne (r : Rumble) {slot i : Fin 8} (x : Option Pattern) (h : i ≠ slot) :
    Rumble.patternOf { r with patterns := r.patterns.set slot x } i = r.patternOf i :=
  Vector.getElem_set_ne slot.isLt i.isLt fun e => h (Fin.ext e.symm)

namespace Rumble.LawfulUnder

variable {r : Rumble} {running : Bool} {P : Prop}

theorem withStaged (h : r.LawfulUnder running P) {d : DriveSet} (hd : d.lawful) :
    LawfulUnder { r with staged := d, drivePending := true } running P :=
  { h with settings := { h.settings with staged := hd }, queue := { h.queue with } }

/-- R135: with the trip mark cleared no play is current, as before. -/
theorem clearTrip (h : r.LawfulUnder running P) (ht : r.trip = true) :
    LawfulUnder { r with trip := false } running P :=
  have idle : r.current = none := h.idle (.inl ht)
  { h with
    settings := { h.settings with }, queue := { h.queue with }, idle := fun _ => idle,
    driven := fun hx => have ⟨_, playing, _⟩ := h.driven hx; absurd idle playing }

/-- R139: a status read empties the outcome list. -/
theorem reported (h : r.LawfulUnder running P) :
    LawfulUnder { r with outcomes := [], capChanged := false } running P :=
  { h with settings := { h.settings with outcomes := Nat.zero_le _ }, queue := { h.queue with } }

/-- R133: a cap that leaves the motor on leaves the plays; cap Off ends them. -/
theorem capChange (h : r.LawfulUnder running P) {P' : Prop} {cap : Cap} (hP : cap ≠ .off → P → P') :
    (r.capChange cap).LawfulUnder running P' := by
  have marked : LawfulUnder { r with capChanged := true } running P :=
    { h with settings := { h.settings with }, queue := { h.queue with } }
  unfold Rumble.capChange
  split
  · exact endAll_lawful marked.settings .capped
  next on => exact marked.mono (hP on)

/-- R125: loading a slot that no play names leaves every play its pattern. -/
theorem load (h : r.LawfulUnder running P) {slot : Fin 8} {x : Option Pattern} (free : r.inUse slot = false)
    (hx : ∀ p, x = some p → p.lawful) :
    LawfulUnder { r with patterns := r.patterns.set slot x } running P := by
  have notNamed := mt (r.inUse_iff slot).2 (Bool.eq_false_iff.1 free)
  rw [not_or] at notNamed
  obtain ⟨notCurrent, notQueued⟩ := notNamed
  refine { h with settings := { h.settings with patterns := ?_ }, queue := { h.queue with loaded := ?_ },
                  current := ?_ }
  · intro i p loaded
    by_cases hi : i = slot
    · subst hi
      rw [Rumble.patternOf_load_same] at loaded
      exact hx p loaded
    · rw [Rumble.patternOf_load_of_ne _ _ hi] at loaded
      exact h.settings.patterns i p loaded
  · intro q hq
    rw [Rumble.patternOf_load_of_ne _ _ fun e => notQueued ⟨q, hq, e⟩]
    exact h.queue.loaded q hq
  · intro c hc
    have kept := r.patternOf_load_of_ne x fun e => notCurrent ⟨c, hc, e⟩
    have lawful := h.current c hc
    unfold Rumble.currentLawful Rumble.beatPaced at lawful ⊢
    rwa [kept]

end Rumble.LawfulUnder

/-! ### The law within the part -/

/-- The law of the unit under the supply, the engine and the cap as they stand. -/
def State.RumbleInLaw (s : State) : Prop :=
  s.rumble.LawfulUnder s.beatRunning (s.supplyState = .full ∧ s.link.cap ≠ .off)

namespace State.RumbleInLaw

variable {s t : State}

/-- What the law does not speak of may change. -/
theorem congr (h : s.RumbleInLaw) (rumble : t.rumble = s.rumble) (engine : t.beatRunning = s.beatRunning)
    (supply : t.supplyState = s.supplyState) (cap : t.link.cap = s.link.cap) : t.RumbleInLaw := by
  unfold State.RumbleInLaw
  rw [rumble, engine, supply, cap]
  exact h

/-- R123: outside Full no play is current. -/
theorem idle (h : s.RumbleInLaw) (hf : s.supplyState ≠ .full) : s.rumble.current = none :=
  Decidable.byContradiction fun playing => hf (h.on playing).1

/-- With no play current the unit alone decides the law. -/
theorem ofIdle (h : s.RumbleInLaw) (hc : s.rumble.current = none) (rumble : t.rumble = s.rumble) :
    t.RumbleInLaw := by
  unfold State.RumbleInLaw
  rw [rumble]
  exact Rumble.LawfulUnder.ofIdle h hc _ _

theorem settleQuiesce (h : s.RumbleInLaw) : s.settleQuiesce.RumbleInLaw := by
  refine h.congr (by simp) ?_ ?_ (by simp)
  · rw [State.beatRunning, State.settleQuiesce_sound]
    rfl
  · rw [State.supplyState, State.settleQuiesce_supply]
    rfl

/-- R110: the engine is read for whether it is Running. -/
theorem withSound (h : s.RumbleInLaw) {so : Sound} (engine : so.engine = s.sound.engine) :
    (s.withSound so).RumbleInLaw :=
  h.congr rfl (congrArg (fun e => decide (e = EngineState.running)) engine) rfl rfl

theorem withCal (h : s.RumbleInLaw) (c : Calendar) : (s.withCal c).RumbleInLaw := h.congr rfl rfl rfl rfl

theorem putRam (h : s.RumbleInLaw) (a : Nat) (bs : List Byte) : (s.putRam a bs).RumbleInLaw :=
  h.congr rfl rfl rfl rfl

theorem terminate (h : s.RumbleInLaw) (c : CellId) (b : Block) (a : Answer) :
    (s.terminate c b a).RumbleInLaw := h.congr rfl rfl rfl rfl

theorem answerWith (h : s.RumbleInLaw) (c : CellId) (b : Block) (k : Nat) (fs : List Byte) (a : Answer) :
    (s.answerWith c b k fs a).RumbleInLaw := h.congr rfl rfl rfl rfl

/-- R132: a departure from Running with its beat-lost signal. -/
theorem beatLostSignal (h : s.RumbleInLaw) {so : Sound} (hso : so.engine ≠ .running) :
    (s.withSound so).beatLostSignal.RumbleInLaw := by
  have stopped : (s.withSound so).beatLostSignal.beatRunning = false :=
    (State.beatRunning_eq_false_iff _).2 hso
  unfold State.RumbleInLaw
  rw [stopped]
  exact Rumble.beatLost_lawful h

/-! ### Alarms, and the firing rule (R76, R128) -/

/-- R128: an alarm's play in Full. -/
theorem playRequest (h : s.RumbleInLaw) (hf : s.supplyState = .full) (p : RumbleRef) :
    (s.playRequest p).RumbleInLaw :=
  Rumble.alarmPlay_lawful h (fun on => ⟨hf, on⟩) _

/-- R119: a cue request leaves the engine in its state. -/
theorem cueRequest (h : s.RumbleInLaw) (slot : Fin 4) (alarm : Fin 32) :
    (s.cueRequest slot alarm).RumbleInLaw := by
  have engine : (s.sound.cueRequest slot alarm).engine = s.sound.engine := by
    unfold Sound.cueRequest
    split <;> rfl
  exact h.withSound engine

theorem deliver (h : s.RumbleInLaw) (hf : s.supplyState = .full) (a : Alarm) : (s.deliver a).RumbleInLaw := by
  unfold State.deliver
  cases a.cue with
  | none =>
    cases a.rumble with
    | none => exact h
    | some p => exact h.playRequest hf p
  | some slot =>
    have cued := h.cueRequest slot a.id
    cases a.rumble with
    | none => exact cued
    | some p => exact cued.playRequest hf p

theorem fireDue (n : Nat) (h : s.RumbleInLaw) : (s.fireDue n).1.RumbleInLaw := by
  induction n generalizing s with
  | zero => exact h
  | succ n ih =>
    unfold State.fireDue
    split
    · exact h
    next a rest _ =>
      split
      · exact h
      · have rearmed :=
          h.withCal ((s.cal.rearm a rest).addFired (firedRecord a s.cal.now s.supplyState))
        refine ih ?_
        unfold State.fire
        dsimp only
        split
        next full => exact rearmed.deliver full a
        · exact rearmed.withCal _

theorem secondEvent (h : s.RumbleInLaw) : s.secondEvent.RumbleInLaw := (h.withCal _).fireDue _

theorem crystalEdge (h : s.RumbleInLaw) : s.crystalEdge.RumbleInLaw := by
  unfold State.crystalEdge
  split
  · exact h
  · split <;> exact h
  · split
    · exact h
    · exact h.secondEvent

/-! ### Production events (R97, R108, R111) -/

/-- R111: the beat signal reaches the unit with the engine Running, as it was. -/
theorem produce (h : s.RumbleInLaw) : s.produce.RumbleInLaw := by
  by_cases running : s.sound.engine = .running
  · by_cases hb : s.sound.frameCount + 1 = s.sound.tempo
    · rw [State.produce_beat running hb]
      exact Rumble.tick_lawful h .beat
    · rw [State.produce_counts running hb]
      exact h.congr rfl rfl rfl rfl
  · by_cases hg : s.sound.frameGain = 0
    · have stopped : s.sound.produceFrame.rampEnd.engine ≠ .running := by
        unfold Sound.rampEnd
        split <;> exact nofun
      rw [State.produce_rampEnd running hg]
      exact settleQuiesce (h.congr rfl (((State.beatRunning_eq_false_iff _).2 stopped).trans
        ((State.beatRunning_eq_false_iff s).2 running).symm) rfl rfl)
    · rw [State.produce_ramps running hg]
      exact h.congr rfl rfl rfl rfl

/-- R98: a pull leaves the engine in its state. -/
theorem pull (h : s.RumbleInLaw) : (s.withSound s.sound.pull).RumbleInLaw := by
  have engine : s.sound.pull.engine = s.sound.engine := by
    unfold Sound.pull
    split
    · split <;> rfl
    · rfl
  exact h.withSound engine

end State.RumbleInLaw

/-! ### The requests of the rumble cell (R124, R125, R128, R135, R137, R139) -/

section
variable {s : State}

theorem State.setLevels_rumbleInLaw (h : s.RumbleInLaw) (b : Block) : (s.setLevels b).RumbleInLaw := by
  unfold State.setLevels
  split
  next m _ =>
    split
    · exact Rumble.LawfulUnder.withStaged h (DriveSet.ofLevels_lawful m _ _)
    · exact h
  · exact h

/-- R125, TABLE 7-3: the pattern of a LOAD_PATTERN block whose fields are in range. -/
theorem State.patternArg_lawful {b : Block} {slot : Fin 8} {p : Pattern}
    (h : s.patternArg b = some (slot, p)) (loaded : p.steps ≠ []) : p.lawful := by
  unfold State.patternArg at h
  dsimp only at h
  split at h
  next steps _ read =>
    split at h
    next fields =>
      injection h with h
      injection h with _ h
      subst h
      obtain ⟨-, times, few⟩ := fields
      obtain ⟨length, stepIs⟩ := (s.stepsAt_eq_some_iff _ _ _).1 read
      refine ⟨times, List.length_pos_iff.2 loaded, length ▸ few, fun st hst => ?_⟩
      obtain ⟨k, hk⟩ := List.mem_iff_getElem?.1 hst
      obtain ⟨-, bytes, positive⟩ := stepIs k st hk
      have byte := (s.ramByte (b.off + 8 + 2 * k + 1)).isLt
      omega
    · cases h
  · cases h

theorem State.loadPattern_rumbleInLaw (h : s.RumbleInLaw) (b : Block) : (s.loadPattern b).RumbleInLaw := by
  unfold State.loadPattern
  split
  · exact h
  next slot p arg =>
    split
    · exact h
    next free =>
      refine Rumble.LawfulUnder.load h (Bool.eq_false_iff.2 free) fun q hq => ?_
      unfold Pattern.asSlot at hq
      split at hq
      · cases hq
      next loaded =>
        injection hq with hq
        subst hq
        exact State.patternArg_lawful arg (mt List.isEmpty_iff.2 loaded)

theorem State.playPattern_rumbleInLaw (h : s.RumbleInLaw) (hf : s.supplyState = .full) (b : Block) :
    (s.playPattern b).RumbleInLaw := by
  unfold State.playPattern
  split
  next slot prio _ _ =>
    have arrived := Rumble.arrive_lawful h (cap := s.link.cap) (fun on => ⟨hf, on⟩)
      { pattern := slot, priority := prio, source := .console }
    split
    · exact h
    next placed =>
      rw [placed] at arrived
      exact arrived
  · exact h

theorem State.stopRumble_rumbleInLaw (h : s.RumbleInLaw) (b : Block) : (s.stopRumble b).RumbleInLaw := by
  unfold State.stopRumble
  dsimp only
  split
  · exact Rumble.endAll_lawful h.settings .stopped
  · exact h

theorem State.clearTrip_rumbleInLaw (h : s.RumbleInLaw) (b : Block) : (s.clearTrip b).RumbleInLaw := by
  unfold State.clearTrip
  split
  next tripped =>
    split
    · exact h
    · exact Rumble.LawfulUnder.clearTrip h tripped
  · exact h

theorem State.readRumbleStatus_rumbleInLaw (h : s.RumbleInLaw) (b : Block) :
    (s.readRumbleStatus b).RumbleInLaw :=
  State.RumbleInLaw.answerWith (s := s.withRumble _) (Rumble.LawfulUnder.reported h) ..

/-- R127: whatever a block of the rumble cell asks for keeps the law. -/
theorem State.runRumble_rumbleInLaw (h : s.RumbleInLaw) (hf : s.supplyState = .full) (b : Block) :
    (s.runRumble b).RumbleInLaw := by
  unfold State.runRumble
  split
  · exact h
  split
  · exact h
  unfold State.rumbleRequest
  split
  · exact State.setLevels_rumbleInLaw h b
  · exact State.loadPattern_rumbleInLaw h b
  · exact State.playPattern_rumbleInLaw h hf b
  · exact State.stopRumble_rumbleInLaw h b
  · exact State.clearTrip_rumbleInLaw h b
  · exact State.readRumbleStatus_rumbleInLaw h b

/-! ### The requests of the other cells -/

/-- R107, R108: a start and a stop are the sound cell's requests that reach the engine's state or the unit. -/
theorem State.soundRequest_engine (b : Block) :
    ((s.soundRequest b).rumble = s.rumble ∧ (s.soundRequest b).sound.engine = s.sound.engine ∧
        (s.soundRequest b).supply = s.supply ∧ (s.soundRequest b).link = s.link) ∨
      s.soundRequest b = s.startSound b ∨ s.soundRequest b = s.stopSound b := by
  unfold State.soundRequest
  split
  case h_6 => exact .inr (.inl rfl)
  case h_7 => exact .inr (.inr rfl)
  all_goals refine .inl ?_
  case h_1 => unfold State.setVoices; dsimp only; split <;> simp
  case h_2 => simp [State.commitVoices]
  case h_3 => unfold State.broadcast; split <;> simp
  case h_4 => simp [State.silence]
  case h_5 =>
    unfold State.loadWave
    repeat' split
    all_goals simp
  case h_8 => unfold State.setTempo; split <;> simp
  case h_9 =>
    unfold State.queueNotes
    dsimp only
    repeat' split
    all_goals simp
  case h_10 =>
    unfold State.loadCue
    dsimp only
    repeat' split
    all_goals simp
  case h_11 =>
    unfold State.playCue
    repeat' split
    all_goals simp [Sound.insertCue]
  case h_12 => simp [State.readSoundStatus]

/-- R107: beats come from a start on. -/
theorem State.startSound_rumbleInLaw (h : s.RumbleInLaw) (b : Block) : (s.startSound b).RumbleInLaw := by
  unfold State.startSound
  split
  · split
    · exact h
    · exact h
    · exact h
    · exact Rumble.LawfulUnder.started h
  · exact h

theorem State.stopSound_rumbleInLaw (h : s.RumbleInLaw) (b : Block) : (s.stopSound b).RumbleInLaw := by
  unfold State.stopSound State.stopNow
  split
  · exact h.beatLostSignal (so := s.sound.mute) nofun
  · exact h

theorem State.runSound_rumbleInLaw (h : s.RumbleInLaw) (b : Block) : (s.runSound b).RumbleInLaw := by
  unfold State.runSound
  split
  · exact h
  split
  · exact h
  rcases State.soundRequest_engine (s := s) b with ⟨rumble, engine, supply, link⟩ | starts | stops
  · exact h.congr rumble (congrArg (fun e => decide (e = EngineState.running)) engine)
      (congrArg Supply.state supply) (congrArg Link.cap link)
  · rw [starts]
    exact State.startSound_rumbleInLaw h b
  · rw [stops]
    exact State.stopSound_rumbleInLaw h b

/-- R60: SET_CALENDAR reaches the unit by the firing rule; no other request of the calendar cell does. -/
theorem State.calendarRequest_rumbleInLaw (h : s.RumbleInLaw) (b : Block) :
    (s.calendarRequest b).RumbleInLaw := by
  unfold State.calendarRequest
  split
  case h_1 => exact h.answerWith ..
  case h_2 =>
    unfold State.setCalendar
    split
    · exact h.terminate ..
    · exact ((h.withCal _).fireDue _).terminate ..
  case h_3 =>
    unfold State.setRollover
    split
    · exact h.terminate ..
    · exact (h.withCal _).terminate ..
  case h_4 =>
    unfold State.addAlarm
    repeat' split
    case isFalse.isFalse.isFalse => exact (h.withCal _).answerWith ..
    all_goals exact h.terminate ..
  case h_5 =>
    unfold State.removeAlarm
    split
    · split
      · exact (h.withCal _).terminate ..
      · exact h.terminate ..
    · exact h.terminate ..
  case h_6 =>
    unfold State.listAlarms
    split
    · exact (h.putRam _ _).terminate ..
    · exact h.terminate ..
  case h_7 =>
    unfold State.takeFired
    dsimp only
    split
    · exact ((h.withCal _).putRam _ _).answerWith ..
    · exact h.terminate ..

theorem State.runCalendar_rumbleInLaw (h : s.RumbleInLaw) (b : Block) : (s.runCalendar b).RumbleInLaw := by
  unfold State.runCalendar
  split
  · exact h.terminate ..
  split
  · exact h.terminate ..
  · exact State.calendarRequest_rumbleInLaw h b

theorem StoreFrame.rumbleInLaw {t : State} (f : StoreFrame s t) (h : s.RumbleInLaw) : t.RumbleInLaw := by
  refine h.congr f.rumble ?_ (congrArg Supply.state f.supply) ?_
  · rw [State.beatRunning, f.sound]
    rfl
  · rcases f.link with same | ⟨-, done⟩
    · rw [same]
    · rw [done]

theorem State.runUnit_rumbleInLaw (h : s.RumbleInLaw) (hf : s.supplyState = .full) (c : CellId) (b : Block) :
    (s.runUnit c b).RumbleInLaw := by
  cases c with
  | store => exact (StoreFrame.ofMoves (StoreMoves.refl.runStore b)).rumbleInLaw h
  | calendar => exact State.runCalendar_rumbleInLaw h b
  | sound => exact State.runSound_rumbleInLaw h b
  | rumble => exact State.runRumble_rumbleInLaw h hf b

/-! ### Supply events (R140, R165 to R169) -/

theorem Rumble.atFullEntry_lawful (msns running : Bool) (P : Prop) :
    (Rumble.atFullEntry msns).LawfulUnder running P := by
  unfold Rumble.atFullEntry
  split
  · exact Rumble.tripNow_lawful Rumble.reset_lawful
  · exact Rumble.reset_lawful

/-- R165: a supply event leaves the unit as power makes it, or as it was: nothing happens in Full, and
outside Full no play is current. -/
theorem State.supplyEvents_rumble (before after : SupplyState) (cut : WriteCut) :
    (s.supplyEvents before after cut).rumble = .reset ∨
      (s.supplyEvents before after cut).rumble = .atFullEntry s.msns ∨
      before = .full ∧ after = .full ∧ s.supplyEvents before after cut = s ∨
      before ≠ .full ∧ (s.supplyEvents before after cut).rumble = s.rumble := by
  cases before <;> cases after <;> simp [State.supplyEvents, State.supplyLoss, State.powerDown]

theorem State.setRail_rumbleInLaw (h : s.RumbleInLaw) (rail : Rail) (mv : Nat) (cut : WriteCut) :
    (s.setRail rail mv cut).RumbleInLaw := by
  unfold State.setRail
  rcases State.supplyEvents_rumble (s := { s with supply := (s.supply.setRail rail mv).trackCellLow rail })
    s.supplyState ((s.supply.setRail rail mv).trackCellLow rail).state cut with
    reset | entry | ⟨before, after, same⟩ | ⟨before, same⟩
  · unfold State.RumbleInLaw
    rw [reset]
    exact Rumble.reset_lawful
  · unfold State.RumbleInLaw
    rw [entry]
    exact Rumble.atFullEntry_lawful _ _ _
  · dsimp only
    rw [same]
    exact h.congr rfl rfl (after.trans before.symm) rfl
  · exact h.ofIdle (h.idle before) same

/-! ### The standby link (R133, R136, R160 to R162) -/

/-- R136: the unit takes its quiesce request before the beat-lost signal, which then finds no play. -/
theorem State.quiesceAll_rumbleInLaw (h : s.RumbleInLaw) : s.quiesceAll.RumbleInLaw := by
  unfold State.quiesceAll
  split
  · have ⟨held, idle⟩ := Rumble.quiesce_lawful h
    have quiet : (((s.withLink { s.link with quiesce := .pending }).withStore s.store.quiesce).withRumble
        s.rumble.quiesce).RumbleInLaw := held
    refine State.RumbleInLaw.settleQuiesce (quiet.ofIdle idle ?_)
    unfold State.soundQuiesce
    dsimp only
    split
    · exact Rumble.beatLost_of_none _ idle
    · rfl
  · exact h
  · exact h

/-- R109: a resume neither starts nor stops the beats. -/
theorem Sound.resume_running_iff (so : Sound) : so.resume.engine = .running ↔ so.engine = .running := by
  unfold Sound.resume
  dsimp only
  split
  next held => simp [held]
  · rfl

theorem State.resumeAll_rumbleInLaw (h : s.RumbleInLaw) : s.resumeAll.RumbleInLaw := by
  have resumed : (s.withRumble s.rumble.resume).RumbleInLaw := Rumble.resume_lawful h
  exact resumed.congr rfl (decide_eq_decide.2 s.sound.resume_running_iff) rfl rfl

theorem State.commandEffect_rumbleInLaw (h : s.RumbleInLaw) (c : LinkCmd) :
    (s.commandEffect c).RumbleInLaw := by
  cases c with
  | quiesce => exact State.quiesceAll_rumbleInLaw h
  | resume => exact State.resumeAll_rumbleInLaw h
  | wakeAck => exact h.withCal _
  | status | cal | nextDue | firedHead | setCap => exact h

/-- R160: a changed cap reaches the unit in Full; outside Full no play is current. -/
theorem State.writeCap_rumbleInLaw (h : s.RumbleInLaw) (cap : Cap) : (s.writeCap cap).RumbleInLaw := by
  unfold State.writeCap
  dsimp only
  split
  next changed => exact Rumble.LawfulUnder.capChange h fun on ⟨full, _⟩ => ⟨full, on⟩
  next unchanged =>
    by_cases same : cap = s.link.cap
    · exact h.congr rfl rfl rfl same
    · have off : s.supplyState ≠ .full := fun full => unchanged ⟨same, (consoleOn_iff s).2 full⟩
      exact h.ofIdle (h.idle off) rfl

/-- R154 to R162: a byte on the link reaches the unit by the cap, a quiesce or a resume. -/
theorem State.linkByte_rumbleInLaw (h : s.RumbleInLaw) (b : Byte) : (s.linkByte b).RumbleInLaw := by
  unfold State.linkByte
  split
  case h_2 =>
    unfold State.addressByte
    split
    · exact h
    · split <;> exact h
  case h_3 =>
    unfold State.commandByte
    split
    · split
      · exact (State.commandEffect_rumbleInLaw h _).congr rfl rfl rfl rfl
      · exact h
    · exact h
  case h_4 =>
    unfold State.argumentByte
    split
    · exact (State.writeCap_rumbleInLaw h _).congr rfl rfl rfl rfl
    · exact h
  all_goals exact h

/-! ### Every command -/

/-- R110, R123, R126, R133, R138: the law of the unit is kept by everything that a command can do. -/
theorem Effect.rumbleInLaw {t : State} (he : Effect s t) (h : s.RumbleInLaw) : t.RumbleInLaw := by
  cases he with
  | same => exact h
  | rail rail mv cut => exact State.setRail_rumbleInLaw h rail mv cut
  | restart => exact Rumble.atFullEntry_lawful _ _ _
  | crystal => exact h.crystalEdge
  | second => exact h.secondEvent
  | cue slot alarm => exact h.cueRequest slot alarm
  | play p hf => exact h.playRequest hf p
  | purge => unfold State.purge; split <;> exact h
  | purgeReplied => exact (StoreFrame.ofMoves StoreMoves.refl.purgeReplied).rumbleInLaw h
  | store event => exact (StoreFrame.ofEvent event).rumbleInLaw h
  | produce => exact h.produce
  | pull => exact h.pull
  | wrap => exact Rumble.wrap_lawful h _
  | unit => exact Rumble.tick_lawful h .time
  | trip => exact Rumble.tripNow_lawful h
  | take taken =>
    obtain ⟨full, -⟩ := taken
    exact State.runUnit_rumbleInLaw (s := s.accepted _ _) h full _ _
  | abort => exact (StoreFrame.ofMoves StoreMoves.refl.abortStore).rumbleInLaw h
  | wire b => exact State.linkByte_rumbleInLaw h b
  | detector | settled | motorLevel | enable | ram | refused | acknowledged | start | stop => exact h

end

/-- Settles O56: every effect keeps the law of the unit, so every step does, and the law says when the drive
is other than 0. -/
theorem rumbleLawKept : Obligations.RumbleLawKept := by
  unfold Obligations.RumbleLawKept
  intro s t hs h
  have kept : t.RumbleInLaw := step_keeps (fun _ _ hu => hu) (fun _ _ hu he => he.rumbleInLaw hu)
    (s.rumbleLawful_iff.1 hs) h
  have lawful : t.rumbleLawful := t.rumbleLawful_iff.2 kept
  refine ⟨lawful, fun driven => ?_⟩
  obtain ⟨-, -, when_driven⟩ := lawful
  refine when_driven fun zero => driven ?_
  rw [State.motorDuty, zero, ite_self]

end Sys2Proof.Machine
end

section
/-! SUPPORT. Proofs: the offers of the rumble cell's requests, and the drive (R122 to R124, R127, R133). -/
namespace Sys2Proof.Machine

/-! ### An offer to the rumble cell that passes the general checks (R127) -/

section
variable {s : State} {v : Word} {b : Block} {op need : Nat}

theorem State.runRumble_passes {n : Nat} (h : s.rumbleNeeds b = some n) (hw : n ≤ b.words) :
    s.runRumble b = s.rumbleRequest b := by
  rw [State.runRumble, h]
  exact if_neg (Nat.not_lt.2 hw)

theorem State.offered.rumble_opcode (h : s.offered .rumble op need v b) :
    (s.accepted .rumble b).opcode b = op := by
  obtain ⟨-, code, -⟩ := h
  rw [State.accepted_opcode, code]

/-- The offer of a block long enough for its request hands it to that request. -/
theorem State.offered.rumbleRequests (h : s.offered .rumble op need v b)
    (hop : 1 ≤ op ∧ op ≤ 6 ∧ [0, 4, 3 + (s.arg8 b 7 + 1) / 2, 3, 2, 2, 15].getD op 0 = need) :
    goesOn (s.namedOffer .rumble op v) = .next ((s.accepted .rumble b).rumbleRequest b) := by
  obtain ⟨-, code, long⟩ := id h
  obtain ⟨h1, h6, rfl⟩ := hop
  subst code
  have needs : (s.accepted .rumble b).rumbleNeeds b = _ :=
    (s.accepted_rumbleNeeds .rumble b b).trans (State.rumbleNeeds_eq_some h1 h6)
  rw [State.namedOffer_of_offered h, State.runUnit, State.runRumble_passes needs long]
  rfl

theorem exec_setLevels (h : s.offered .rumble 1 4 v b) :
    exec (.setLevels v) s = .next ((s.accepted .rumble b).setLevels b) :=
  (h.rumbleRequests ⟨by decide, by decide, rfl⟩).trans (by rw [State.rumbleRequest, h.rumble_opcode]; rfl)

theorem exec_loadPattern (h : s.offered .rumble 2 (3 + (s.arg8 b 7 + 1) / 2) v b) :
    exec (.loadPattern v) s = .next ((s.accepted .rumble b).loadPattern b) :=
  (h.rumbleRequests ⟨by decide, by decide, rfl⟩).trans (by rw [State.rumbleRequest, h.rumble_opcode]; rfl)

theorem exec_playPattern (h : s.offered .rumble 3 3 v b) :
    exec (.playPattern v) s = .next ((s.accepted .rumble b).playPattern b) :=
  (h.rumbleRequests ⟨by decide, by decide, rfl⟩).trans (by rw [State.rumbleRequest, h.rumble_opcode]; rfl)

theorem exec_stopRumble (h : s.offered .rumble 4 2 v b) :
    exec (.stopRumble v) s = .next ((s.accepted .rumble b).stopRumble b) :=
  (h.rumbleRequests ⟨by decide, by decide, rfl⟩).trans (by rw [State.rumbleRequest, h.rumble_opcode]; rfl)

theorem exec_clearTrip (h : s.offered .rumble 5 2 v b) :
    exec (.clearTrip v) s = .next ((s.accepted .rumble b).clearTrip b) :=
  (h.rumbleRequests ⟨by decide, by decide, rfl⟩).trans (by rw [State.rumbleRequest, h.rumble_opcode]; rfl)

/-! ### SET_LEVELS (R124) -/

theorem State.setLevels_sets {m : Modulus} (hm : s.arg16 b 4 = m.num) (low : s.arg16 b 6 ≤ 256)
    (high : s.arg16 b 8 ≤ 256) :
    s.setLevels b = (s.withRumble { s.rumble with
      staged := DriveSet.ofLevels m (s.arg16 b 6) (s.arg16 b 8), drivePending := true }).terminate
      .rumble b (.ok 0) := by
  rw [State.setLevels, hm, Modulus.ofNum_num]
  exact if_pos ⟨low, high⟩

theorem State.setLevels_badArg
    (h : (∀ m : Modulus, s.arg16 b 4 ≠ m.num) ∨ 256 < s.arg16 b 6 ∨ 256 < s.arg16 b 8) :
    s.setLevels b = s.terminate .rumble b (.refuse .badArg) := by
  unfold State.setLevels
  split
  next m named =>
    refine if_neg fun ⟨low, high⟩ => ?_
    have noModulus := h.resolve_right (by omega)
    exact noModulus m ((Modulus.ofNum_eq_some_iff _ m).1 named)
  · rfl

theorem exec_driveWrap (hf : s.supplyState = .full) :
    exec .driveWrap s = .next (s.withRumble (s.rumble.wrap s.link.cap)) := if_pos ((consoleOn_iff s).2 hf)

end

/-! ### The wrap (R122, R123, R133) -/

section
variable {r : Rumble} {cap : Cap}

theorem Rumble.stepLevel_eq {c : Current} {p : Pattern} {st : PatStep}
    (hp : r.patterns[c.play.pattern] = some p) (hs : p.steps[c.step]? = some st) :
    r.stepLevel c = st.level := by
  have loaded : r.patternOf c.play.pattern = some p := hp
  rw [Rumble.stepLevel, loaded]
  dsimp only
  rw [hs]

/-- R122: a wrap takes a pending staged set whole. -/
theorem Rumble.wrap_eq {act : DriveSet} (h : act = if r.drivePending then r.staged else r.active) :
    r.wrap cap = { r with
      active := act, drivePending := false, duty := Rumble.wrapDuty { r with active := act } cap } := by
  subst h
  unfold Rumble.wrap
  cases pending : r.drivePending with
  | true => rfl
  | false => exact congrArg (fun p => { r with drivePending := p, duty := r.wrapDuty cap }) pending

/-- R133: nothing drives the motor out of Playing or under cap Off. -/
theorem Rumble.wrapDuty_off (h : ¬ (r.state = .playing ∧ cap ≠ .off)) : r.wrapDuty cap = 0 := by
  rw [Rumble.state_playing_iff] at h
  unfold Rumble.wrapDuty
  split
  · rfl
  next on =>
    simp only [Bool.or_eq_true, decide_eq_true_eq, not_or, Bool.not_eq_true] at on
    obtain ⟨⟨hold, trip⟩, on⟩ := on
    split
    next c hc => exact absurd ⟨⟨by rw [hc]; exact nofun, hold, trip⟩, on⟩ h
    · rfl

/-- R123: the duty in Playing is that of the current step's level under the cap. -/
theorem Rumble.wrapDuty_playing {c : Current} (hc : r.current = some c) (hs : r.state = .playing)
    (on : cap ≠ .off) : r.wrapDuty cap = r.active.duty ((r.stepLevel c).capped cap) := by
  obtain ⟨-, hold, trip⟩ := r.state_playing_iff.1 hs
  rw [Rumble.wrapDuty, hc, hold, trip, decide_eq_false on]
  rfl

end

theorem State.motorDuty_eq (s : State) :
    s.motorDuty = if s.supplyState = .full then s.rumble.duty else 0 := by
  rw [State.motorDuty, State.consoleOn]
  simp only [decide_eq_true_eq]

/-- Settles O40: a wrap by whether a play drives the motor, SET_LEVELS by its checks. -/
theorem driveAndLevels : Obligations.DriveAndLevels := by
  unfold Obligations.DriveAndLevels
  refine ⟨fun _ _ _ _ => Rumble.stepLevel_eq, State.motorDuty_eq, ?wrap, ?sets, ?badArg⟩
  case wrap =>
    intro s act level duty hf hact hlevel hduty
    have fixed : Rumble.wrapDuty { s.rumble with active := act } s.link.cap = duty := by
      by_cases driven : s.rumble.state = .playing ∧ s.link.cap ≠ .off
      · obtain ⟨playing, on⟩ := driven
        obtain ⟨current, -⟩ := s.rumble.state_playing_iff.1 playing
        obtain ⟨c, hc⟩ := Option.ne_none_iff_exists'.1 current
        have stands : s.rumble.stepLevel c = level := by rw [hlevel, hc]
        rw [if_pos ⟨playing, on⟩] at hduty
        rw [Rumble.wrapDuty_playing (r := { s.rumble with active := act }) hc playing on, hduty]
        refine (congrArg (fun l => act.duty (l.capped s.link.cap)) stands).trans ?_
        cases level <;> cases s.link.cap <;> rfl
      · rw [if_neg driven] at hduty
        rw [hduty]
        exact Rumble.wrapDuty_off (r := { s.rumble with active := act }) driven
    rw [exec_driveWrap hf, Rumble.wrap_eq hact, fixed]
    rfl
  case sets =>
    intro s v b m h hm low high
    rw [exec_setLevels h, State.setLevels_sets (m := m)]
    · rw [State.accepted_arg16, State.accepted_arg16]
      rfl
    all_goals rwa [State.accepted_arg16]
  case badArg =>
    intro s v b h bad
    rw [exec_setLevels h, State.setLevels_badArg]
    rwa [State.accepted_arg16, State.accepted_arg16, State.accepted_arg16]

end Sys2Proof.Machine
end

section
/-! SUPPORT. Proofs: LOAD_PATTERN, and the slots at Full entry (R125, R140, R166). -/
namespace Sys2Proof.Machine

section
variable {s : State} {b : Block}

/-- R125 check 1: the pattern that a block with every field in range states. -/
theorem State.patternArg_eq_some {slot : Fin 8} {steps : List PatStep} (hslot : s.arg8 b 4 = slot.val)
    (pacing : s.arg8 b 5 ≤ 1) (times : s.arg8 b 6 ≤ 15) (few : s.arg8 b 7 ≤ 16)
    (read : s.stepsAt (b.off + 8) (s.arg8 b 7) = some steps) : s.patternArg b = some (slot,
      { pacing := if s.arg8 b 5 = 0 then .time else .beat, times := s.arg8 b 6, steps := steps }) := by
  rw [State.patternArg, inRange_val slot hslot, read]
  exact if_pos ⟨pacing, times, few⟩

theorem State.patternArg_eq_none (h : 8 ≤ s.arg8 b 4 ∨ 2 ≤ s.arg8 b 5 ∨ 16 ≤ s.arg8 b 6 ∨ 16 < s.arg8 b 7 ∨
    s.stepsAt (b.off + 8) (s.arg8 b 7) = none) : s.patternArg b = none := by
  unfold State.patternArg
  dsimp only
  split
  next slot steps inSlot read =>
    have small := inRange_eq_some_iff.1 inSlot
    have outOfRange : 8 ≤ s.arg8 b 4 ∨ 2 ≤ s.arg8 b 5 ∨ 16 ≤ s.arg8 b 6 ∨ 16 < s.arg8 b 7 := by
      simpa [read] using h
    exact if_neg fun ⟨pacing, times, few⟩ => by omega
  · rfl

/-- R125: a pattern of no steps makes its slot empty. -/
theorem Pattern.asSlot_eq (p : Pattern) : p.asSlot = if p.steps.length = 0 then none else some p := by
  unfold Pattern.asSlot
  simp only [List.isEmpty_iff, List.length_eq_zero_iff]

/-- R125: a pattern goes into its slot unless a play names it. -/
theorem State.loadPattern_loads {slot : Fin 8} {p : Pattern} (arg : s.patternArg b = some (slot, p))
    (free : ¬ s.rumble.inUse slot = true) : s.loadPattern b =
      (s.withRumble { s.rumble with patterns := s.rumble.patterns.set slot p.asSlot }).terminate .rumble b
        (.ok p.steps.length) := by
  rw [State.loadPattern, arg]
  exact if_neg free

theorem State.loadPattern_inUse {slot : Fin 8} {p : Pattern} (arg : s.patternArg b = some (slot, p))
    (named : s.rumble.inUse slot = true) :
    s.loadPattern b = s.terminate .rumble b (.refuse .patternInUse) := by
  rw [State.loadPattern, arg]
  exact if_pos named

theorem State.loadPattern_badArg (h : s.patternArg b = none) :
    s.loadPattern b = s.terminate .rumble b (.refuse .badArg) := by
  rw [State.loadPattern, h]

/-- R140: the unit enters Full with every slot empty, whatever level MSNS has. -/
theorem Rumble.atFullEntry_patterns (msns : Bool) (i : Fin 8) :
    (Rumble.atFullEntry msns).patterns[i] = none := by
  have empty : (Vector.replicate 8 (none : Option Pattern))[i] = none := Vector.getElem_replicate i.isLt
  cases msns <;> exact empty

/-- R165: every change of supply state to Full ends with Full entry. -/
theorem State.supplyEvents_toFull_rumble {before : SupplyState} (h : before ≠ .full) (cut : WriteCut) :
    (s.supplyEvents before .full cut).rumble = .atFullEntry s.msns := by
  cases before with
  | full => exact absurd rfl h
  | standby | backup | dead => rfl

/-- R164: VCART above 2900 mV is good, and the part in Full. -/
theorem Supply.setRail_vcart_state (p : Supply) {mv : Nat} (h : 2900 < mv) :
    ((p.setRail .vcart mv).trackCellLow .vcart).state = .full := by
  have good : (p.vcart.judge 2900 2700 mv).good = true := if_pos h
  have untracked : (p.setRail .vcart mv).trackCellLow .vcart = p.setRail .vcart mv :=
    if_neg fun ⟨vcell, _⟩ => nomatch vcell
  rw [untracked]
  exact if_pos good

end

/-- Settles O41: the steps by their bytes, a LOAD_PATTERN by its fields and by whether a play names the slot,
and Full entry by the unit's values there. -/
theorem loadPattern : Obligations.LoadPattern := by
  unfold Obligations.LoadPattern
  refine ⟨State.stepsAt_eq_some_iff, ?loads, ?inUse, ?badArg, ?rises, ?restarts⟩
  case loads =>
    rintro s v b slot n steps rfl h hslot pacing times few read notCurrent notQueued
    have arg := State.patternArg_eq_some hslot pacing times few read
    obtain ⟨length, -⟩ := (s.stepsAt_eq_some_iff _ _ _).1 read
    have free : ¬ s.rumble.inUse slot = true := by
      rw [Rumble.inUse_iff]
      rintro (⟨c, hc, e⟩ | ⟨p, hp, e⟩)
      · exact notCurrent c hc e
      · exact notQueued p hp e
    rw [← s.accepted_patternArg .rumble b b] at arg
    rw [exec_loadPattern h, State.loadPattern_loads arg free, Pattern.asSlot_eq, length]
    rfl
  case inUse =>
    rintro s v b slot n steps rfl h hslot pacing times few read named
    have arg := State.patternArg_eq_some hslot pacing times few read
    rw [← s.accepted_patternArg .rumble b b] at arg
    rw [exec_loadPattern h, State.loadPattern_inUse arg ((s.rumble.inUse_iff slot).2 named)]
  case badArg =>
    rintro s v b n rfl h bad
    rw [exec_loadPattern h, State.loadPattern_badArg]
    rw [State.accepted_patternArg, State.patternArg_eq_none bad]
  case rises =>
    intro s mv cut notFull high
    refine ⟨_, rfl, fun i => ?_⟩
    have entered : (s.setRail .vcart mv cut).rumble = .atFullEntry s.msns := by
      unfold State.setRail
      dsimp only
      rw [Supply.setRail_vcart_state _ high]
      exact State.supplyEvents_toFull_rumble notFull cut
    rw [entered]
    exact Rumble.atFullEntry_patterns _ i
  case restarts =>
    intro s cut hf
    exact ⟨s.restart cut, if_pos ((consoleOn_iff s).2 hf), Rumble.atFullEntry_patterns _⟩

end Sys2Proof.Machine
end

section
/-! SUPPORT. Proofs: an arriving play, from the console and from an alarm (R128, R129, R138). -/
namespace Sys2Proof.Machine

/-! ### The checks of an arrival (R128) -/

section
variable {r : Rumble} {cap : Cap} {running : Bool} {slot : Fin 8}

/-- R128: the first check that fails gives the console's status and the alarm's outcome. -/
theorem Rumble.arrivalCheck_eq_refused (h : r.trip = true ∨ r.hold = true ∨ cap = .off ∨
      r.patterns[slot] = none ∨ r.beatPaced slot = true ∧ running = false) :
    r.arrivalCheck cap running slot = some (.refused
      (if r.trip then .tripped else if r.hold then .quiesced else if cap = .off then .capped
        else if r.patterns[slot] = none then .noPattern else .engineStopped)
      (if r.trip then .tripped else if r.hold then .quiesced else if cap = .off then .capped
        else if r.patterns[slot] = none then .noPattern else .beatLost)) := by
  have empty : (r.patternOf slot).isNone = true ↔ r.patterns[slot] = none := Option.isNone_iff_eq_none
  unfold Rumble.arrivalCheck
  simp only [empty]
  split
  · rfl
  next noTrip =>
  split
  · rfl
  next noHold =>
  split
  · rfl
  next on =>
  split
  · rfl
  next loaded =>
    have unserved := ((h.resolve_left noTrip).resolve_left noHold).resolve_left on
    obtain ⟨paced, stopped⟩ := unserved.resolve_left loaded
    rw [paced, stopped]
    rfl

/-- R128: a play that a check refuses changes nothing in the unit. -/
theorem Rumble.arrive_refused {p : Play} {a : Arrival} (h : r.arrivalCheck cap running p.pattern = some a) :
    r.arrive cap running p = (r, a) := by
  rw [Rumble.arrive, h]

/-- R138: a refused alarm play leaves one record. -/
theorem Rumble.alarmPlay_refused {p : Play} {st : Status} {k : OutcomeKind} (ho : r.outcomes.length ≤ 8)
    (h : r.arrive cap running p = (r, .refused st k)) :
    r.alarmPlay cap running p = { r with outcomes := (r.outcomes ++ endings [p] k).take 8 } := by
  rw [Rumble.alarmPlay, h]
  exact Rumble.record_eq r p k ho

end

/-! ### PLAY_PATTERN and PLAY_REQUEST by what becomes of the play (R128, R129) -/

section
variable {s : State} {b : Block} {slot : Fin 8} {prio : Fin 4}

/-- The console's arrival as the unit meets it. -/
theorem State.playPattern_refused {st : Status} {k : OutcomeKind} {r : Rumble}
    (hslot : s.arg8 b 4 = slot.val) (hprio : s.arg8 b 5 = prio.val)
    (h : s.rumble.arrive s.link.cap s.beatRunning { pattern := slot, priority := prio, source := .console } =
      (r, .refused st k)) :
    s.playPattern b = s.terminate .rumble b (s.rumble.refusal st) := by
  rw [State.playPattern, inRange_val slot hslot, inRange_val prio hprio]
  dsimp only
  rw [h]

theorem State.playPattern_placed {r : Rumble} {a : Arrival} (hslot : s.arg8 b 4 = slot.val)
    (hprio : s.arg8 b 5 = prio.val) (ha : a = .started ∨ a = .queued)
    (h : s.rumble.arrive s.link.cap s.beatRunning { pattern := slot, priority := prio, source := .console } =
      (r, a)) :
    s.playPattern b = (s.withRumble r).answerWith .rumble b 6 [a.code, 0] (.ok r.queue.length) := by
  rw [State.playPattern, inRange_val slot hslot, inRange_val prio hprio]
  dsimp only
  rw [h]
  rcases ha with rfl | rfl <;> rfl

theorem State.playPattern_badArg (h : 8 ≤ s.arg8 b 4 ∨ 4 ≤ s.arg8 b 5) :
    s.playPattern b = s.terminate .rumble b (s.rumble.refusal .badArg) := by
  unfold State.playPattern
  split
  next inSlot inPrio =>
    have slotSmall := inRange_eq_some_iff.1 inSlot
    have prioSmall := inRange_eq_some_iff.1 inPrio
    omega
  · rfl

theorem exec_playRequest (hf : s.supplyState = .full) :
    exec (.playRequest slot prio) s = .next (s.playRequest { pattern := slot, priority := prio }) :=
  if_pos ((consoleOn_iff s).2 hf)

/-- R128: a play that every check lets pass is placed, a Beat-paced one with the engine Running. -/
theorem State.arrive_eq_place {x : Play} {p : Pattern} (noTrip : s.rumble.trip = false)
    (noHold : s.rumble.hold = false) (on : s.link.cap ≠ .off) (loaded : s.rumble.patterns[x.pattern] = some p)
    (beats : p.pacing = .beat → s.sound.engine = .running) :
    s.rumble.arrive s.link.cap s.beatRunning x = s.rumble.place x := by
  rw [Rumble.arrive, Rumble.arrivalCheck_eq_none noTrip noHold on loaded
    fun paced => s.beatRunning_iff.2 (beats paced)]

end

/-- Settles O42: the checks in their order, and a play that passes them by where it is placed. -/
theorem plays : Obligations.Plays := by
  unfold Obligations.Plays
  refine ⟨?badArg, ?refused, ?placed, ?queueFull, ?alarmRefused, ?alarmPlaced, ?alarmDropped⟩
  case badArg =>
    intro s v b h bad
    rw [exec_playPattern h, State.playPattern_badArg]
    · rfl
    · rwa [State.accepted_arg8, State.accepted_arg8]
  case refused =>
    rintro s v b slot prio st h hslot hprio fails rfl
    rw [← s.beatRunning_eq_false_iff] at fails
    rw [exec_playPattern h, State.playPattern_refused (s := s.accepted .rumble b) (slot := slot) (prio := prio)
      _ _ (Rumble.arrive_refused (Rumble.arrivalCheck_eq_refused fails))]
    · rfl
    all_goals rwa [State.accepted_arg8]
  case placed =>
    intro s v b slot prio p code r h hslot hprio noTrip noHold on loaded beats few placed
    obtain ⟨a, place, kind⟩ := placed.eq few
    have arrives := (State.arrive_eq_place (x := { pattern := slot, priority := prio, source := .console })
      noTrip noHold on loaded beats).trans place
    have code_eq : a.code = code := by rcases kind with ⟨rfl, rfl⟩ | ⟨rfl, rfl⟩ <;> rfl
    rw [exec_playPattern h, State.playPattern_placed (s := s.accepted .rumble b) (slot := slot) (prio := prio)
      _ _ (kind.imp And.left And.left) arrives, code_eq]
    · rfl
    all_goals rwa [State.accepted_arg8]
  case queueFull =>
    intro s v b slot prio p c qs t h hslot hprio noTrip noHold on loaded beats hc low hq full tail
    have arrives := (State.arrive_eq_place (x := { pattern := slot, priority := prio, source := .console })
      noTrip noHold on loaded beats).trans (Rumble.place_refused hc low hq full tail)
    rw [exec_playPattern h, State.playPattern_refused (s := s.accepted .rumble b) (slot := slot) (prio := prio)
      _ _ arrives, Rumble.refusal, State.accepted_rumble, full]
    all_goals rwa [State.accepted_arg8]
  case alarmRefused =>
    rintro s slot prio k hf fails rfl few
    rw [← s.beatRunning_eq_false_iff] at fails
    rw [exec_playRequest hf, State.playRequest, Rumble.alarmPlay_refused few
      (Rumble.arrive_refused (Rumble.arrivalCheck_eq_refused fails))]
    rfl
  case alarmPlaced =>
    intro s slot prio p code r hf noTrip noHold on loaded beats few placed
    obtain ⟨a, place, kind⟩ := placed.eq few
    have arrives := (State.arrive_eq_place (x := { pattern := slot, priority := prio, source := .alarm })
      noTrip noHold on loaded beats).trans place
    rw [exec_playRequest hf, State.playRequest, Rumble.alarmPlay, arrives]
    rcases kind with ⟨rfl, -⟩ | ⟨rfl, -⟩ <;> rfl
  case alarmDropped =>
    intro s slot prio p c qs t hf noTrip noHold on loaded beats few hc low hq full tail
    have arrives := (State.arrive_eq_place (x := { pattern := slot, priority := prio, source := .alarm })
      noTrip noHold on loaded beats).trans (Rumble.place_refused hc low hq full tail)
    rw [exec_playRequest hf, State.playRequest, Rumble.alarmPlay_refused few arrives]
    rfl

end Sys2Proof.Machine
end

section
/-! SUPPORT. Proofs: unit events (R130, R131). -/
namespace Sys2Proof.Machine

theorem exec_unitEvent {s : State} (hf : s.supplyState = .full) :
    exec .unitEvent s = .next (s.withRumble (s.rumble.tick .time s.beatRunning)) :=
  if_pos ((consoleOn_iff s).2 hf)

/-- R130: a unit reaches no play but a Time-paced one. -/
theorem Rumble.tick_time_of_paced {r : Rumble} {running : Bool}
    (h : ∀ c, r.current = some c → r.beatPaced c.play.pattern = true) : r.tick .time running = r := by
  unfold Rumble.tick
  split
  next c hc =>
    obtain ⟨p, loaded, paced⟩ := (r.beatPaced_iff _).1 (h c hc)
    split
    next q found =>
      have same : q = p := Option.some.inj (found.symm.trans loaded)
      exact if_neg (by rw [same, paced]; decide)
    · rfl
  · rfl

/-- Settles O43: a unit event as the count-down of a Time-paced current play, by what is left of that play. -/
theorem unitEvents : Obligations.UnitEvents := by
  unfold Obligations.UnitEvents
  refine ⟨?counts, ?nextStep, ?repeats, ?completes, ?unseen⟩
  case counts =>
    intro s c p hf hc hp paced more
    rw [exec_unitEvent hf, Rumble.tick_eq_countDown hc hp paced, Rumble.countDown_counts more]
    rfl
  case nextStep =>
    intro s c p st hf hc hp paced last hs
    rw [exec_unitEvent hf, Rumble.tick_eq_countDown hc hp paced, Rumble.countDown_nextStep hp last hs]
    rfl
  case repeats =>
    intro s c p st hf hc hp paced last lastStep hs more hr
    rw [exec_unitEvent hf, Rumble.tick_eq_countDown hc hp paced,
      Rumble.countDown_repeats hp last lastStep hs hr more]
    rfl
  case completes =>
    intro s c p skipped rest hf hc hp paced last lastStep times done hr few skips
    have skips : s.rumble.skips s.beatRunning skipped rest := skips
    rw [exec_unitEvent hf, Rumble.tick_eq_countDown hc hp paced,
      Rumble.countDown_completes last lastStep hr times done, Rumble.endCurrent_eq c.play .completed few skips]
    rfl
  case unseen =>
    intro s hf h
    rw [exec_unitEvent hf, Rumble.tick_time_of_paced h]
    rfl

end Sys2Proof.Machine
end

section
/-! SUPPORT. Proofs: a trip, STOP_RUMBLE and CLEAR_TRIP (R134, R135, R137). -/
namespace Sys2Proof.Machine

/-! ### A trip (R134) -/

section
variable {r : Rumble}

theorem Rumble.tripNow_tripped (h : r.trip = true) : r.tripNow = r := if_pos h

/-- R134: under the hold mark no play is present, and the trip mark is set alone. -/
theorem Rumble.tripNow_held (ht : r.trip = false) (hh : r.hold = true) :
    r.tripNow = { r with trip := true, duty := 0 } := by
  rw [Rumble.tripNow, ht, hh]
  rfl

theorem Rumble.tripNow_ends (ht : r.trip = false) (hh : r.hold = false) (ho : r.outcomes.length ≤ 8) :
    r.tripNow = { r with
      trip := true, current := none, queue := [], duty := 0,
      outcomes := (r.outcomes ++ endings r.plays .tripped).take 8 } := by
  rw [Rumble.tripNow, if_neg (Bool.eq_false_iff.1 ht), if_neg (Bool.eq_false_iff.1 hh),
    Rumble.endAll_eq_plays r .tripped ho]

end

section
variable {s : State} {b : Block}

theorem exec_trip (hf : s.supplyState = .full) :
    exec (.trip true) s = .next (({ s with msns := true } : State).withRumble s.rumble.tripNow) :=
  if_pos ⟨rfl, (consoleOn_iff s).2 hf⟩

theorem exec_trip_unpowered (hf : s.supplyState ≠ .full) :
    exec (.trip true) s = .next { s with msns := true } :=
  if_neg fun ⟨_, on⟩ => hf ((consoleOn_iff s).1 on)

theorem exec_trip_deasserted : exec (.trip false) s = .next { s with msns := false } := rfl

/-! ### STOP_RUMBLE and CLEAR_TRIP by their cases (R135, R137) -/

theorem State.stopRumble_stops {c : Current} (hc : s.rumble.current = some c)
    (ho : s.rumble.outcomes.length ≤ 8) : s.stopRumble b =
      (s.withRumble { s.rumble with
        current := none, queue := [], duty := 0,
        outcomes := (s.rumble.outcomes ++ endings (c.play :: s.rumble.queue) .stopped).take 8 }).terminate
        .rumble b (.ok (s.rumble.queue.length + 1)) := by
  rw [State.stopRumble, hc, Rumble.plays, hc]
  dsimp only
  rw [Rumble.endAll_eq s.rumble .stopped c hc ho]
  rfl

theorem State.stopRumble_idle (hc : s.rumble.current = none) (hq : s.rumble.queue = []) :
    s.stopRumble b = s.terminate .rumble b (.ok 0) := by
  rw [State.stopRumble, hc, Rumble.plays, hc, hq]
  rfl

theorem State.clearTrip_clears (ht : s.rumble.trip = true) (hm : s.msns = false) :
    s.clearTrip b = (s.withRumble { s.rumble with trip := false }).terminate .rumble b (.ok 0) := by
  rw [State.clearTrip, ht, hm]
  rfl

theorem State.clearTrip_active (ht : s.rumble.trip = true) (hm : s.msns = true) :
    s.clearTrip b = s.terminate .rumble b (.refuse .tripActive) := by
  rw [State.clearTrip, ht, hm]
  rfl

theorem State.clearTrip_idle (ht : s.rumble.trip = false) : s.clearTrip b = s.terminate .rumble b (.ok 0) := by
  rw [State.clearTrip, ht]
  rfl

end

/-- Settles O44: a trip by the marks it finds, the two requests by the plays, the trip mark and MSNS. -/
theorem tripStopAndClear : Obligations.TripStopAndClear := by
  unfold Obligations.TripStopAndClear
  refine ⟨?trips, ?held, ?unchanged, fun _ => exec_trip_deasserted, ?stops, ?idle, ?clears, ?active, ?untripped⟩
  case trips =>
    rintro s ps hf noTrip noHold few rfl
    rw [exec_trip hf, Rumble.tripNow_ends noTrip noHold few]
    rfl
  case held =>
    intro s hf noTrip hold
    rw [exec_trip hf, Rumble.tripNow_held noTrip hold]
    rfl
  case unchanged =>
    intro s h
    by_cases hf : s.supplyState = .full
    · rw [exec_trip hf, Rumble.tripNow_tripped (h.resolve_left (not_not_intro hf))]
      rfl
    · exact exec_trip_unpowered hf
  case stops =>
    intro s v b c h hc few
    rw [exec_stopRumble h, State.stopRumble_stops (s := s.accepted .rumble b) hc few]
    rfl
  case idle =>
    intro s v b h hc hq
    rw [exec_stopRumble h, State.stopRumble_idle (s := s.accepted .rumble b) hc hq]
  case clears =>
    intro s v b h tripped deasserted
    rw [exec_clearTrip h, State.clearTrip_clears (s := s.accepted .rumble b) tripped deasserted]
    rfl
  case active =>
    intro s v b h tripped asserted
    rw [exec_clearTrip h, State.clearTrip_active (s := s.accepted .rumble b) tripped asserted]
  case untripped =>
    intro s v b h free
    rw [exec_clearTrip h, State.clearTrip_idle (s := s.accepted .rumble b) free]

end Sys2Proof.Machine
end

section
/-! SUPPORT. Proofs: what every command keeps of the queue, Exchange RAM and the page array (R142, R3, R146). -/
namespace Sys2Proof.Machine

section
variable {s t : State}

/-! ### Exchange RAM under the units' writes (R142) -/

/-- Every write that the store engine's events are made of keeps the canonical form of Exchange RAM. -/
theorem StoreMoves.ram_wf (h : StoreMoves s t) (hs : Memory.wf s.port.ram = true) :
    Memory.wf t.port.ram = true := by
  induction h with
  | refl => exact hs
  | putRam a bs h ih => exact Memory.writes_wf ih a bs
  | setCell c r h ih => rw [State.setCell_port, Port.setCell_ram]; exact ih
  | settleQuiesce h ih => rw [State.settleQuiesce_port]; exact ih
  | withStore _ h ih | putArray _ h ih | clearLost h ih => exact ih

/-- Every write that the requests of the other cells are made of keeps the canonical form of Exchange RAM. -/
theorem CellMoves.ram_wf (h : CellMoves s t) (hs : Memory.wf s.port.ram = true) :
    Memory.wf t.port.ram = true := by
  induction h with
  | refl => exact hs
  | putRam a bs h ih => exact Memory.writes_wf ih a bs
  | setCell r h hc ih => rw [State.setCell_port, Port.setCell_ram]; exact ih
  | withCal _ h ih | withSound _ h ih | withRumble _ h ih => exact ih

/-! ### States that follow one another -/

/-- `t` follows `s` with the queue as it was and with both memories in canonical form if they were. -/
structure State.Continues (s t : State) : Prop where
  queue : t.pending = s.pending
  memories : s.memoriesCanonical → t.memoriesCanonical

namespace State.Continues

theorem refl : s.Continues s := ⟨rfl, id⟩

theorem trans {u : State} (h : s.Continues t) (h' : t.Continues u) : s.Continues u :=
  ⟨h'.queue.trans h.queue, fun hs => h'.memories (h.memories hs)⟩

theorem ofStoreMoves (h : StoreMoves s t) : s.Continues t :=
  ⟨(StoreFrame.ofMoves h).pending, fun ⟨ram, sram⟩ => ⟨h.ram_wf ram, h.wf sram⟩⟩

theorem ofCellMoves (h : CellMoves s t) : s.Continues t :=
  have frame := CellFrame.ofMoves h
  ⟨frame.pending, fun ⟨ram, sram⟩ => ⟨h.ram_wf ram, frame.sram ▸ sram⟩⟩

theorem withLink (h : s.Continues t) (l : Link) : s.Continues (t.withLink l) := ⟨h.queue, h.memories⟩

theorem settleQuiesce (h : s.Continues t) : s.Continues t.settleQuiesce :=
  h.trans (ofStoreMoves StoreMoves.refl.settleQuiesce)

/-- R97: a production event, with its beat event or its ramp's end. -/
theorem produce (s : State) : s.Continues s.produce := by
  unfold State.produce
  dsimp only
  split
  · split <;> exact ⟨rfl, id⟩
  · split
    · exact settleQuiesce ⟨rfl, id⟩
    · exact ⟨rfl, id⟩

/-- R52, R53, R72: a crystal edge, with the second event and the firing that it may bring. -/
theorem crystalEdge (s : State) : s.Continues s.crystalEdge := by
  unfold State.crystalEdge
  split
  · exact ⟨rfl, id⟩
  · split <;> exact ⟨rfl, id⟩
  · split
    · exact ⟨rfl, id⟩
    · exact ofCellMoves CellMoves.refl.secondEvent

/-- R83: a purge touches the alarm table and the store engine alone. -/
theorem purge (s : State) : s.Continues s.purge := by
  unfold State.purge
  split <;> exact ⟨rfl, id⟩

/-- R144: a block that its cell takes reaches its unit. -/
theorem runUnit (s : State) (c : CellId) (b : Block) : s.Continues ((s.accepted c b).runUnit c b) := by
  have taken (hc : c ≠ .store) : CellMoves s (s.accepted c b) := .setCell _ .refl hc
  cases c with
  | store => exact ofStoreMoves ((StoreMoves.refl.setCell _ _).runStore b)
  | calendar => exact ofCellMoves ((taken (by decide)).runCalendar b)
  | sound => exact ofCellMoves ((taken (by decide)).runSound b)
  | rumble => exact ofCellMoves ((taken (by decide)).runRumble b)

/-! ### Supply events (R165 to R169) -/

/-- R169: a cold start empties the page array. -/
theorem coldStart (s : State) : s.Continues s.coldStart := ⟨rfl, fun ⟨ram, _⟩ => ⟨ram, rfl⟩⟩

theorem keepPowerUp (s : State) : s.Continues s.keepPowerUp := ⟨rfl, id⟩

/-- R166: Full entry empties Exchange RAM. -/
theorem fullEntry (s : State) : s.Continues s.fullEntry := ⟨rfl, fun ⟨_, sram⟩ => ⟨rfl, sram⟩⟩

/-- R167, R3: a supply loss empties Exchange RAM and cuts the write in progress short. -/
theorem supplyLoss (s : State) (cut : WriteCut) : s.Continues (s.supplyLoss cut) :=
  have queue : (s.cutWrite cut).pending = s.pending := by rw [State.cutWrite_frame]
  ⟨queue, fun ⟨_, sram⟩ => ⟨rfl, cutWrite_wf sram cut⟩⟩

theorem backupEntry (s : State) : s.Continues s.backupEntry := ⟨rfl, id⟩

/-- R168: a power-down empties both memories. -/
theorem powerDown (s : State) : s.Continues s.powerDown := ⟨rfl, fun _ => ⟨rfl, rfl⟩⟩

/-- R165: the supply events of a change of supply state, in a row. -/
theorem supplyEvents (s : State) (before after : SupplyState) (cut : WriteCut) :
    s.Continues (s.supplyEvents before after cut) := by
  cases before with
  | dead =>
    cases after with
    | dead => exact refl
    | backup => exact coldStart s
    | standby => exact (coldStart s).trans (keepPowerUp _)
    | full => exact ((coldStart s).trans (keepPowerUp _)).trans (fullEntry _)
  | backup =>
    cases after with
    | dead => exact powerDown s
    | backup => exact refl
    | standby => exact keepPowerUp s
    | full => exact (keepPowerUp s).trans (fullEntry _)
  | standby =>
    cases after with
    | dead => exact powerDown s
    | backup => exact backupEntry s
    | standby => exact refl
    | full => exact fullEntry s
  | full =>
    cases after with
    | dead => exact powerDown s
    | backup => exact (supplyLoss s cut).trans (backupEntry _)
    | standby => exact supplyLoss s cut
    | full => exact refl

theorem setRail (s : State) (rail : Rail) (mv : Nat) (cut : WriteCut) : s.Continues (s.setRail rail mv cut) :=
  have levels : s.Continues { s with supply := (s.supply.setRail rail mv).trackCellLow rail } := ⟨rfl, id⟩
  levels.trans (supplyEvents _ _ _ cut)

/-- R152: a part restart is a supply loss and a Full entry. -/
theorem restart (s : State) (cut : WriteCut) : s.Continues (s.restart cut) :=
  (supplyLoss s cut).trans (fullEntry _)

/-! ### The standby link (R154 to R162) -/

theorem quiesceAll (s : State) : s.Continues s.quiesceAll := by
  unfold State.quiesceAll
  split
  · refine settleQuiesce ?_
    unfold State.soundQuiesce
    dsimp only
    split <;> exact ⟨rfl, id⟩
  · exact refl
  · exact refl

theorem commandEffect (s : State) (c : LinkCmd) : s.Continues (s.commandEffect c) := by
  cases c with
  | quiesce => exact quiesceAll s
  | resume | wakeAck => exact ⟨rfl, id⟩
  | status | cal | nextDue | firedHead | setCap => exact refl

theorem writeCap (s : State) (c : Cap) : s.Continues (s.writeCap c) := by
  unfold State.writeCap
  dsimp only
  split <;> exact ⟨rfl, id⟩

theorem linkByte (s : State) (b : Byte) : s.Continues (s.linkByte b) := by
  unfold State.linkByte
  split
  case h_2 =>
    unfold State.addressByte
    split
    · exact refl.withLink _
    · split <;> exact refl.withLink _
  case h_3 =>
    unfold State.commandByte
    split
    · split
      · exact (commandEffect s _).withLink _
      · exact refl.withLink _
    · exact refl.withLink _
  case h_4 =>
    unfold State.argumentByte
    split
    · exact (writeCap s _).withLink _
    · exact refl.withLink _
  case h_5 | h_7 => exact refl.withLink _
  case h_1 | h_6 => exact refl

end State.Continues

/-! ### Every command -/

/-- Everything that a command can do leaves the queue and keeps both memories canonical. -/
theorem Effect.continues (h : Effect s t) : s.Continues t := by
  cases h with
  | same => exact .refl
  | rail rail mv cut => exact .setRail s rail mv cut
  | restart cut => exact .restart s cut
  | crystal => exact .crystalEdge s
  | second => exact .ofCellMoves CellMoves.refl.secondEvent
  | purge => exact .purge s
  | purgeReplied => exact .ofStoreMoves StoreMoves.refl.purgeReplied
  | store event => exact .ofStoreMoves (.ofEvent event)
  | produce => exact .produce s
  | ram a v => exact .ofStoreMoves (StoreMoves.refl.putRam a _)
  | take => exact .runUnit s _ _
  | refused c | acknowledged c => exact .ofStoreMoves (StoreMoves.refl.setCell c _)
  | abort => exact .ofStoreMoves StoreMoves.refl.abortStore
  | wire b => exact .linkByte s b
  | detector | settled | cue | play | pull | wrap | unit | motorLevel | trip | enable | start | stop =>
    exact ⟨rfl, id⟩

end

/-- Settles O52: both memories keep their canonical form under every effect, so at every step. -/
theorem memoriesStayCanonical : Obligations.MemoriesStayCanonical := by
  unfold Obligations.MemoriesStayCanonical
  intro s t hs h
  exact step_keeps (L := State.memoriesCanonical) (fun _ _ hu => hu)
    (fun _ _ hu he => he.continues.memories hu) hs h

/-- Settles O2: a command answers the next state of one of the effects, and none of these touches the queue. -/
theorem everyCommandGoesOn : Obligations.EveryCommandGoesOn := by
  unfold Obligations.EveryCommandGoesOn
  intro i s
  obtain ⟨t, answers, effect⟩ := exec_effect i s
  exact ⟨t, answers, effect.continues.queue⟩

end Sys2Proof.Machine
end

section
/-! SUPPORT. Proofs: the termination record and the end of a store request (R146, R28, R15, R16, R161). -/
namespace Sys2Proof.Machine

/-! ### The bits of a byte -/

/-- The bits of a byte made of at most eight named bits are those bits. -/
theorem bitsByte_getLsbD (bs : List Bool) (h : bs.length ≤ 8) (k : Nat) :
    (bitsByte bs).getLsbD k = bs.getD k false := by
  induction bs generalizing k with
  | nil => simp [bitsByte]
  | cons b bs ih =>
    rw [List.length_cons] at h
    rw [bitsByte, BitVec.getLsbD_or, BitVec.getLsbD_shiftLeft]
    cases k with
    | zero => cases b <;> rfl
    | succ k =>
      have flag : (flagByte b).getLsbD (k + 1) = false := by
        cases b <;> simp [flagByte, BitVec.getLsbD_one]
      rw [flag, ih (by omega), Bool.false_or, Nat.add_sub_cancel, List.getD_cons_succ]
      by_cases hk : k + 1 < 8
      · simp [hk]
      · rw [List.getD_eq_getElem?_getD, List.getElem?_eq_none (show bs.length ≤ k by omega), Option.getD_none,
          Bool.and_false]

/-! ### Bytes and cells after a write (R142, R146) -/

section
variable {s : State}

@[simp] theorem State.setCell_ramByte (c : CellId) (r : CellReg) (x : Nat) :
    (s.setCell c r).ramByte x = s.ramByte x := by
  simp [State.ramByte]

/-- R142: a write of bytes into Exchange RAM, byte by byte. -/
theorem State.putRam_ramByte (hw : Memory.wf s.port.ram = true) (a : Nat) (bs : List Byte) (x : Nat) :
    (s.putRam a bs).ramByte x = if a ≤ x ∧ x < a + bs.length then bs.getD (x - a) 0 else s.ramByte x :=
  Mem.read_writes hw a bs x

theorem State.putRam_ramByte_outside (hw : Memory.wf s.port.ram = true) {a : Nat} {bs : List Byte} {x : Nat}
    (h : x < a ∨ a + bs.length ≤ x) : (s.putRam a bs).ramByte x = s.ramByte x := by
  rw [State.putRam_ramByte hw, if_neg (by omega)]

/-- R142: a word of bytes written to Exchange RAM, low byte first, spells its number. -/
theorem natOf_bytes16 {n : Nat} (h : n ≤ 65535) : natOf (bytes16 n) = n := by
  simp only [bytes16, byteOf, natOf, BitVec.toNat_ofNat]
  omega

@[simp] theorem Answer.bytes_length (a : Answer) : a.bytes.length = 4 := rfl

/-- TABLE 11-1: byte `k` of the block's last four is byte `k` of the termination record. -/
theorem State.terminate_ramByte (hw : Memory.wf s.port.ram = true) (c : CellId) (b : Block) (a : Answer)
    {k : Nat} (hk : k < 4) :
    (s.terminate c b a).ramByte (b.off + 4 * b.words - 4 + k) = a.bytes.getD k 0 := by
  rw [State.terminate, State.setCell_ramByte, State.putRam_ramByte hw, Answer.bytes_length,
    if_pos (by omega), Nat.add_sub_cancel_left]

theorem State.terminate_ramByte_outside (hw : Memory.wf s.port.ram = true) (c : CellId) {b : Block}
    (a : Answer) {x : Nat} (h : x < b.off + 4 * b.words - 4 ∨ b.off + 4 * b.words - 4 + 4 ≤ x) :
    (s.terminate c b a).ramByte x = s.ramByte x := by
  rw [State.terminate, State.setCell_ramByte, State.putRam_ramByte_outside hw (by rwa [Answer.bytes_length])]

@[simp] theorem State.terminate_cell (c : CellId) (b : Block) (a : Answer) :
    (s.terminate c b a).cell c = { hold := .pending b, refused := (s.cell c).refused } :=
  State.cell_setCell _ _ _

theorem State.terminate_cell_of_ne {c c' : CellId} (b : Block) (a : Answer) (h : c' ≠ c) :
    (s.terminate c b a).cell c' = s.cell c' :=
  State.cell_setCell_of_ne _ _ h

/-! ### The end of a store request (R28, R15, R16, R161) -/

/-- R16: with nothing running, the store is held as its state and its hold say. -/
theorem Store.held_of_none {st : Store} (h : st.op = .none) :
    st.held = decide (st.status = .quiesced ∨ st.status = .unformatted ∧ st.hold = true) := by
  simp [Store.held, h]

/-- R28: the end of a running request, in the words of the statement. -/
theorem State.endRun_eq (s : State) (r : Run) (st : Status) (part : Bool) (count : Nat) :
    s.endRun r st part count =
      { s.terminate .store r.blk { status := st, part := part, late := r.late, count := count } with
        store := { s.store with op := .none, status := s.store.rest },
        link := { s.link with
          quiesce := s.link.quiesce.reported
            (decide (s.store.rest = .quiesced ∨ s.store.rest = .unformatted ∧ s.store.hold = true) &&
              decide (s.sound.engine = .held) && s.rumble.hold) } } := by
  have held := Store.held_of_none (st := { s.store with op := .none, status := s.store.rest }) rfl
  rw [State.endRun, State.settleQuiesce_eq, State.allHeld, State.withStore_store, held]
  rfl

end

/-- Settles O3: the record by its four bytes, the cells by their writes, the end of a request by its
equation. -/
theorem terminationRecord : Obligations.TerminationRecord := by
  unfold Obligations.TerminationRecord
  refine ⟨?codes, ?record, ?ends, State.setJob_eq⟩
  case codes => intro st; cases st <;> rfl
  case record =>
    intro s c b a hw hwords hfits hcount
    obtain ⟨base, hbase⟩ : ∃ base, b.off + 4 * b.words - 4 = base := ⟨_, rfl⟩
    have byte {k : Nat} (hk : k < 4) := State.terminate_ramByte hw c b a hk
    rw [hbase] at byte
    rw [show b.off + 4 * b.words - 3 = base + 1 by omega,
      show b.off + 4 * b.words - 2 = base + 2 by omega, hbase]
    refine ⟨byte (k := 0) (by decide), ?flags, ?count, ?frame, State.terminate_cell c b a,
      fun c' hne => State.terminate_cell_of_ne b a hne⟩
    case flags =>
      intro k
      rw [byte (by decide)]
      exact bitsByte_getLsbD _ (by simp) k
    case count =>
      rw [State.ramNat_two, byte (by decide), byte (k := 3) (by decide)]
      exact natOf_bytes16 hcount
    case frame =>
      intro x hx
      exact State.terminate_ramByte_outside hw c a (by omega)
  case ends =>
    rintro s _ r st part count _ rfl rfl
    exact State.endRun_eq s r st part count

end Sys2Proof.Machine
end

section
/-! SUPPORT. Proofs: writes to the command cells, and aborts (R143 to R145, R26, R47, R48). -/
namespace Sys2Proof.Machine

/-! ### A write to a cell, by what the cell holds (R143 to R145) -/

section
variable {s : State} {c : CellId} {v : Word} {b : Block}

theorem State.busCellWrite_full (hf : s.supplyState = .full) : s.busCellWrite c v = s.cellWrite c v :=
  if_pos ((consoleOn_iff s).2 hf)

/-- R141: outside Full a write on the bus reaches nothing. -/
theorem State.busCellWrite_unpowered (h : s.supplyState ≠ .full) : s.busCellWrite c v = s :=
  if_neg fun on => h ((consoleOn_iff s).1 on)

theorem State.cellWrite_idle_zero (hi : (s.cell c).hold = .idle) : s.cellWrite c 0 = s := by
  rw [State.cellWrite, hi]
  exact if_pos rfl

/-- R144: a nonzero value that names no acceptable block sets the Refused mark. -/
theorem State.cellWrite_idle_refused (hi : (s.cell c).hold = .idle) (hv : v ≠ 0)
    (ho : (s.blockAt v).offerable = false) :
    s.cellWrite c v = s.setCell c { hold := (s.cell c).hold, refused := true } := by
  unfold State.cellWrite
  split
  · rw [if_neg hv, State.offer, ho]
    exact if_neg nofun
  · next hb => rw [hi] at hb; cases hb
  · next hp => rw [hi] at hp; cases hp

/-- R145: a nonzero value to a Busy or Pending cell sets the Refused mark. -/
theorem State.cellWrite_taken_nonzero (hi : (s.cell c).hold ≠ .idle) (hv : v ≠ 0) :
    s.cellWrite c v = s.setCell c { hold := (s.cell c).hold, refused := true } := by
  unfold State.cellWrite
  split
  · contradiction
  · exact if_neg hv
  · exact if_neg hv

/-- R145: a zero to a Busy cell is an abort request. -/
theorem State.cellWrite_busy_zero (hb : (s.cell c).hold = .busy b) : s.cellWrite c 0 = s.abortUnit c := by
  rw [State.cellWrite, hb]
  exact if_pos rfl

/-- R145: a zero to a Pending cell is an acknowledge. -/
theorem State.cellWrite_pending_zero (hp : (s.cell c).hold = .pending b) :
    s.cellWrite c 0 = s.setCell c { hold := .idle, refused := (s.cell c).refused } := by
  rw [State.cellWrite, hp]
  exact if_pos rfl

/-- R144: the header checks that an unacceptable block fails. -/
theorem Block.offerable_eq_false_iff (b : Block) : b.offerable = false ↔
    b.off % 4 ≠ 0 ∨ b.off = 0 ∨ b.words < 2 ∨ 64 < b.words ∨ 4096 < b.off + 4 * b.words := by
  rw [← Bool.not_eq_true, Block.offerable]
  simp only [Bool.and_eq_true, decide_eq_true_eq]
  omega

theorem exec_refusedCellWrite (hf : s.supplyState = .full) :
    exec (.refusedCellWrite c v) s = .next (s.cellWrite c v) :=
  congrArg _ (State.busCellWrite_full hf)

theorem exec_acknowledge (hf : s.supplyState = .full) : exec (.acknowledge c) s = .next (s.cellWrite c 0) :=
  congrArg _ (State.busCellWrite_full hf)

end

/-- Settles O45: each write by what its cell holds, and outside Full by the closed bus. -/
theorem cellWrites : Obligations.CellWrites := by
  unfold Obligations.CellWrites
  refine ⟨?unacceptable, ?taken, ?acknowledged, ?idle, ?unpowered⟩
  case unacceptable =>
    rintro s c v _ hf hi hv rfl bad
    rw [exec_refusedCellWrite hf,
      State.cellWrite_idle_refused hi hv ((Block.offerable_eq_false_iff _).2 bad), hi]
  case taken =>
    intro s c v hf hi hv
    rw [exec_refusedCellWrite hf, State.cellWrite_taken_nonzero hi hv]
  case acknowledged =>
    intro s c b hf hp
    rw [exec_acknowledge hf, State.cellWrite_pending_zero hp]
  case idle =>
    intro s c hf hi
    rw [exec_acknowledge hf, State.cellWrite_idle_zero hi]
  case unpowered =>
    intro s c v h
    exact ⟨congrArg _ (State.busCellWrite_unpowered h), congrArg _ (State.busCellWrite_unpowered h),
      congrArg _ (State.busCellWrite_unpowered h)⟩

/-! ### Aborts, by what the engine does (R26, R47, R48) -/

section
variable {s : State} {b : Block} {r : Run} {j : Job} {c : Commit}

theorem exec_abortRequest (hf : s.supplyState = .full) (hb : s.port.store.hold = .busy b) :
    exec .abortRequest s = .next s.abortStore :=
  congrArg _ ((State.busCellWrite_full hf).trans (State.cellWrite_busy_zero (c := .store) hb))

/-- R48: an abort of a commit goes by its phase. -/
theorem State.abortStore_commit {ph : CommitPhase} (ho : s.store.op = .run r (.commit c ph)) :
    s.abortStore = s.abortCommit r c ph := by
  rw [State.abortStore, ho]

/-- R26: in Scanning an abort ends the waiting block ABORTED. -/
theorem State.abortStore_scan {n : ScanNotes} {ph : ScanPhase} (ho : s.store.op = .scan n ph) :
    s.abortStore = match s.store.waiting with
      | some w => ({ s with store := { s.store with waiting := none } } : State).terminate .store w
          { status := .aborted, part := false, late := false, count := 0 }
      | none => s := by
  rw [State.abortStore, ho]
  rfl

/-- R47, R48: an abort marks a transfer, and a commit in Staging. -/
theorem State.abortStore_marks (ho : s.store.op = .run r j)
    (hj : (∃ f offset length buf k link, j = .readFile f offset length buf k link) ∨
      (∃ f k link, j = .verify f k link) ∨
      (∃ first count buf done, j = .readRaw first count buf done) ∨
      ∃ c i, j = .commit c (.staging i)) :
    s.abortStore = s.setJob { r with abort := true } j := by
  rcases hj with ⟨_, _, _, _, _, _, rfl⟩ | ⟨_, _, _, rfl⟩ | ⟨_, _, _, _, rfl⟩ | ⟨_, _, rfl⟩
  · rw [State.abortStore, ho]
  · rw [State.abortStore, ho]
  · rw [State.abortStore, ho]
  · rw [State.abortStore_commit ho, State.abortCommit]

/-- R48: an abort of a commit before its arming write rolls it back. -/
theorem State.abortStore_arm (ho : s.store.op = .run r (.commit c .arm)) (hl : c.length ≠ 0) :
    s.abortStore = s.enterRollback { r with abort := true } c .aborted := by
  rw [State.abortStore_commit ho]
  exact if_neg hl

/-- R48: a second abort of a commit that rolls back for the first changes nothing. -/
theorem State.abortStore_aborted {todo : List PageNo}
    (ho : s.store.op = .run r (.commit c (.rollback todo .aborted))) : s.abortStore = s := by
  rw [State.abortStore_commit ho]
  rfl

/-- R47, R48: what an abort can no longer stop will say AbortLate. -/
theorem State.abortStore_late (ho : s.store.op = .run r j)
    (hj : (∃ c, j = .commit c .arm ∧ c.length = 0) ∨
      (∃ c todo why, j = .commit c (.rollback todo why) ∧ why ≠ .aborted) ∨
      (∃ c ph, j = .commit c ph ∧ ((∃ t, ph = .entry t) ∨ (∃ done todo, ph = .live done todo) ∨
        (∃ kept todo, ph = .breakFree kept todo) ∨ (∃ kept, ph = .damagedEntry kept) ∨
        (∃ todo broken, ph = .freeOld todo broken) ∨ ∃ broken, ph = .clear broken)) ∨
      (∃ f ph, j = .delete f ph) ∨ ∃ ph, j = .format ph) :
    s.abortStore = s.setJob { r with late := true } j := by
  rcases hj with ⟨c, rfl, hl⟩ | ⟨c, todo, why, rfl, hw⟩ | ⟨c, ph, rfl, armed⟩ | ⟨f, ph, rfl⟩ | ⟨ph, rfl⟩
  · rw [State.abortStore_commit ho]
    exact if_pos hl
  · rw [State.abortStore_commit ho]
    exact if_neg hw
  · rw [State.abortStore_commit ho]
    rcases armed with ⟨_, rfl⟩ | ⟨_, _, rfl⟩ | ⟨_, _, rfl⟩ | ⟨_, rfl⟩ | ⟨_, _, rfl⟩ | ⟨_, rfl⟩ <;> rfl
  · rw [State.abortStore, ho]
  · rw [State.abortStore, ho]

end

/-- Settles O32: an abort request in Full reaches the engine, which takes it by what it does. -/
theorem abort : Obligations.Abort := by
  unfold Obligations.Abort
  refine ⟨?marks, ?scan, ?rollsBack, ?again, ?late⟩
  case marks =>
    intro s b r j hf hb ho hj
    rw [exec_abortRequest hf hb, State.abortStore_marks ho hj, State.setJob_eq]
  case scan =>
    intro s b n ph hf hb ho
    exact (exec_abortRequest hf hb).trans (congrArg _ (State.abortStore_scan ho))
  case rollsBack =>
    intro s b r c hf hb ho hl
    rw [exec_abortRequest hf hb, State.abortStore_arm ho hl, State.enterRollback, State.setJob_eq]
  case again =>
    intro s b r c todo hf hb ho
    rw [exec_abortRequest hf hb, State.abortStore_aborted ho]
  case late =>
    intro s b r j hf hb ho hj
    rw [exec_abortRequest hf hb, State.abortStore_late ho hj, State.setJob_eq]

end Sys2Proof.Machine
end

section
/-! SUPPORT. Proofs: Exchange RAM words, bus reads, the notice causes and the notice line (R141 to R143, R150,
R151, TABLE 8-2, TABLE 11-12). -/
namespace Sys2Proof.Machine

/-! ### Words on the bus (R141, R142) -/

section
variable {s : State} {a : BitVec 13} {v : Word}

theorem State.busRead_unpowered (h : s.supplyState ≠ .full) : s.busRead a = none :=
  if_neg fun on => h ((consoleOn_iff s).1 on)

/-- TABLE 11-12: the words past Exchange RAM, address by address. -/
theorem State.busRead_registers (hf : s.supplyState = .full) :
    s.busRead 0x1000 = some (s.cell .store).value ∧ s.busRead 0x1002 = some (s.cell .calendar).value ∧
      s.busRead 0x1004 = some (s.cell .sound).value ∧ s.busRead 0x1006 = some (s.cell .rumble).value ∧
      s.busRead 0x1008 = some s.noticeSummary ∧ s.busRead 0x100A = some (s.port.enable.setWidth 16) ∧
      s.busRead 0x100C = some 0 := by
  have on := (consoleOn_iff s).2 hf
  exact ⟨(if_pos on).trans rfl, (if_pos on).trans rfl, (if_pos on).trans rfl, (if_pos on).trans rfl,
    (if_pos on).trans rfl, (if_pos on).trans rfl, (if_pos on).trans rfl⟩

/-- TABLE 11-12: past part control nothing answers. -/
theorem State.busRead_past (hf : s.supplyState = .full) (ha : 0x100E ≤ a.toNat) :
    s.busRead a = some 0xFFFF := by
  have on := (consoleOn_iff s).2 hf
  have ram : ¬ wordAddr a < 4096 := by rw [wordAddr]; omega
  have register {n : Nat} (hn : n < 0x100E) : wordAddr a ≠ n := by rw [wordAddr]; omega
  simp [State.busRead, on, ram, register]

theorem State.busRead_ram (hf : s.supplyState = .full) (ha : a.toNat < 4096) :
    s.busRead a = some (wordOf (Mem.reads s.port.ram (wordAddr a) 2)) := by
  have on := (consoleOn_iff s).2 hf
  have ram : wordAddr a < 4096 := by rw [wordAddr]; omega
  rw [State.busRead, if_pos on, if_pos ram]

theorem exec_exchangeRamWrite (hf : s.supplyState = .full) :
    exec (.exchangeRamWrite a v) s = .next (s.busWrite a v) :=
  if_pos ((consoleOn_iff s).2 hf)

theorem State.busWrite_ram (ha : a.toNat < 4096) :
    s.busWrite a v = s.putRam (wordAddr a) (bytes16 v.toNat) :=
  if_pos (by rw [wordAddr]; omega)

/-- TABLE 11-12: a write to the notice summary, or past part control, changes nothing. -/
theorem State.busWrite_unnamed (ha : wordAddr a = 0x1008 ∨ 0x100E ≤ a.toNat) : s.busWrite a v = s := by
  have ram : ¬ wordAddr a < 4096 := by rw [wordAddr] at ha ⊢; omega
  have register {n : Nat} (hn : n < 0x100E) (hs : n ≠ 0x1008) : wordAddr a ≠ n := by
    rw [wordAddr] at ha ⊢; omega
  simp [State.busWrite, ram, register]

/-- R142: the two bytes of a word written to Exchange RAM are read back whole. -/
theorem State.putRam_word (hw : Memory.wf s.port.ram = true) (x : Nat) (v : Word) :
    Mem.reads (s.putRam x (bytes16 v.toNat)).port.ram x 2 = bytes16 v.toNat :=
  Mem.reads_writes hw x (bytes16 v.toNat)

theorem exec_noticeEnableWrite (hf : s.supplyState = .full) :
    exec (.noticeEnableWrite v) s = .next (s.writeEnable v) :=
  if_pos ((consoleOn_iff s).2 hf)

end

/-! ### The causes (R150, TABLE 8-2) -/

/-- The binary digits of a number made of bits are those bits. -/
theorem bitsNat_testBit (bs : List Bool) (k : Nat) : (bitsNat bs).testBit k = bs.getD k false := by
  induction bs generalizing k with
  | nil => exact Nat.zero_testBit k
  | cons b bs ih =>
    cases k with
    | zero =>
      rw [bitsNat, Nat.testBit_zero, List.getD_cons_zero]
      cases b <;> simp
    | succ k =>
      have half : (b.toNat + 2 * bitsNat bs) / 2 = bitsNat bs := by
        have := Bool.toNat_lt b
        omega
      rw [bitsNat, Nat.testBit_succ, half, ih, List.getD_cons_succ]

/-- The cause of rank `k + 1` is the one at position `k` of the list. -/
theorem State.causes_getLsbD (s : State) {k : Nat} (hk : k < 12) :
    s.causes.getLsbD k = s.causeList.getD k false := by
  rw [State.causes, BitVec.getLsbD_ofNat, decide_eq_true hk, Bool.true_and, bitsNat_testBit]

theorem CellReg.isPending_iff (x : CellReg) : x.isPending = true ↔ ∃ b, x.hold = .pending b := by
  obtain ⟨hold, refused⟩ := x
  cases hold <;> simp [CellReg.isPending]

/-- TABLE 8-2: the last cause is present while any cell shows Refused. -/
theorem State.refused_iff (s : State) :
    (s.port.store.refused || s.port.calendar.refused || s.port.sound.refused || s.port.rumble.refused) =
      true ↔ ∃ c : CellId, (s.cell c).refused = true := by
  simp only [Bool.or_eq_true]
  constructor
  · rintro (((h | h) | h) | h)
    · exact ⟨.store, h⟩
    · exact ⟨.calendar, h⟩
    · exact ⟨.sound, h⟩
    · exact ⟨.rumble, h⟩
  · rintro ⟨c, h⟩
    cases c with
    | store => exact .inl (.inl (.inl h))
    | calendar => exact .inl (.inl (.inr h))
    | sound => exact .inl (.inr h)
    | rumble => exact .inr h

/-! ### The top cause (R150) -/

/-- No rank is found exactly when no bit in the list is set. -/
theorem firstSet_eq_zero_iff (x : BitVec 12) (r : Nat) (is : List Nat) :
    firstSet x (r + 1) is = 0 ↔ ∀ i ∈ is, x.getLsbD i = false := by
  induction is generalizing r with
  | nil => simp [firstSet]
  | cons i is ih =>
    rw [firstSet, List.forall_mem_cons]
    cases hi : x.getLsbD i with
    | true => simp
    | false => simpa using ih (r + 1)

/-- The rank found is that of the first set bit. -/
theorem firstSet_eq_succ_iff (x : BitVec 12) (lo n k : Nat) :
    firstSet x (lo + 1) (List.range' lo n) = k + 1 ↔
      (lo ≤ k ∧ k < lo + n) ∧ x.getLsbD k = true ∧ ∀ j, lo ≤ j → j < k → x.getLsbD j = false := by
  induction n generalizing lo with
  | zero =>
    simp only [List.range'_zero, firstSet]
    omega
  | succ n ih =>
    rw [List.range'_succ, firstSet]
    by_cases hlo : x.getLsbD lo = true
    · rw [if_pos hlo]
      constructor
      · intro h
        obtain rfl : lo = k := by omega
        exact ⟨by omega, hlo, fun j _ _ => by omega⟩
      · rintro ⟨⟨hle, -⟩, -, first⟩
        rcases Nat.eq_or_lt_of_le hle with rfl | later
        · rfl
        · rw [first lo (Nat.le_refl lo) later] at hlo
          cases hlo
    · rw [if_neg hlo, ih (lo + 1)]
      constructor
      · rintro ⟨hk, set, first⟩
        refine ⟨by omega, set, fun j hj hjk => ?_⟩
        rcases Nat.eq_or_lt_of_le hj with rfl | hj
        · simpa using hlo
        · exact first j hj hjk
      · rintro ⟨hk, set, first⟩
        have : lo ≠ k := by rintro rfl; exact hlo set
        exact ⟨by omega, set, fun j hj hjk => first j (by omega) hjk⟩

section
variable (s : State)

/-- R150: a bit of the masked set is a cause both present and enabled. -/
theorem State.enabledCause_iff (k : Nat) : (s.causes &&& s.port.enable).getLsbD k = true ↔
    s.causes.getLsbD k = true ∧ s.port.enable.getLsbD k = true := by
  rw [BitVec.getLsbD_and, Bool.and_eq_true]

/-- R150: there is no top cause exactly when no cause is both present and enabled. -/
theorem State.topCause_eq_zero_iff : s.topCause = 0 ↔
    ∀ i : Fin 12, ¬ (s.causes.getLsbD i.val = true ∧ s.port.enable.getLsbD i.val = true) := by
  rw [State.topCause, firstSet_eq_zero_iff]
  simp only [← s.enabledCause_iff, Bool.not_eq_true]
  exact ⟨fun clear i => clear i.val (List.mem_range.2 i.isLt),
    fun clear i hi => clear ⟨i, List.mem_range.1 hi⟩⟩

/-- R150: the top cause is the lowest rank both present and enabled. -/
theorem State.topCause_eq_succ_iff (i : Fin 12) : s.topCause = i.val + 1 ↔
    s.causes.getLsbD i.val = true ∧ s.port.enable.getLsbD i.val = true ∧
      ∀ j : Fin 12, j < i → ¬ (s.causes.getLsbD j.val = true ∧ s.port.enable.getLsbD j.val = true) := by
  rw [State.topCause, List.range_eq_range', firstSet_eq_succ_iff, s.enabledCause_iff]
  constructor
  · rintro ⟨-, ⟨present, enabled⟩, first⟩
    refine ⟨present, enabled, fun j hj set => ?_⟩
    rw [← s.enabledCause_iff, first j.val (Nat.zero_le _) hj] at set
    cases set
  · rintro ⟨present, enabled, first⟩
    refine ⟨by omega, ⟨present, enabled⟩, fun j _ hj => ?_⟩
    rw [← Bool.not_eq_true, s.enabledCause_iff]
    exact first ⟨j, by omega⟩ hj

/-- R151: some cause is both present and enabled exactly when there is a top cause. -/
theorem State.topCause_ne_zero_iff : s.topCause ≠ 0 ↔ s.causes &&& s.port.enable ≠ 0 := by
  refine not_congr ((firstSet_eq_zero_iff _ _ _).trans ⟨fun clear => ?_, fun zero i _ => ?_⟩)
  · refine BitVec.eq_of_getLsbD_eq fun i hi => ?_
    rw [clear i (List.mem_range.2 hi)]
    exact BitVec.getLsbD_zero.symm
  · rw [zero]
    exact BitVec.getLsbD_zero

/-- R151: in Full the notice line follows the top cause. -/
theorem State.ntc_full (hf : s.supplyState = .full) : s.ntc = some (decide (s.topCause ≠ 0)) := by
  rw [State.ntc, if_pos ((consoleOn_iff s).2 hf)]
  exact congrArg some (decide_eq_decide.2 s.topCause_ne_zero_iff.symm)

end

/-- Settles O46: reads and writes by what their address names, each cause by its place in the list, and the
top cause by the first bit that is set. -/
theorem ramAndNotices : Obligations.RamAndNotices := by
  unfold Obligations.RamAndNotices
  refine ⟨?registers, fun _ _ => State.busRead_unpowered, ?cell, ?word, ?unnamed,
    fun _ _ => exec_noticeEnableWrite, ?causes, ?notices⟩
  case registers =>
    intro s hf
    obtain ⟨store, calendar, sound, rumble, -, -, partControl⟩ := State.busRead_registers hf
    exact ⟨store, calendar, sound, rumble, partControl, fun a ha => State.busRead_past hf ha⟩
  case cell =>
    rintro ⟨hold, refused⟩ off pend h
    cases hold with
    | idle | busy b | pending b =>
      obtain ⟨rfl, rfl⟩ := h
      rfl
  case word =>
    intro s a v hf ha hw
    have back := State.putRam_word hw (wordAddr a) v
    refine ⟨s.putRam (wordAddr a) (bytes16 v.toNat), ?_, ?_, ?_, fun x low high => ?_, rfl⟩
    · rw [exec_exchangeRamWrite hf, State.busWrite_ram ha]
    · exact (congrArg natOf back).trans (natOf_bytes16 (by omega))
    · exact (State.busRead_ram (s := s.putRam _ _) hf ha).trans (by rw [back, wordOf_bytes16])
    · refine State.putRam_ramByte_outside hw ?_
      rw [wordAddr, show (bytes16 v.toNat).length = 2 from rfl]
      omega
  case unnamed =>
    intro s a v hf ha
    rw [exec_exchangeRamWrite hf, State.busWrite_unnamed ha]
  case causes =>
    intro s
    have cause {k : Nat} (hk : k < 12) {b : Bool} (hb : s.causeList.getD k false = b) :
        s.causes.getLsbD k = true ↔ b = true := by rw [State.causes_getLsbD s hk, hb]
    have pending {k : Nat} (hk : k < 12) {x : CellReg} (hx : s.causeList.getD k false = x.isPending) :
        s.causes.getLsbD k = true ↔ ∃ b, x.hold = .pending b := (cause hk hx).trans x.isPending_iff
    exact ⟨cause (by decide) rfl, pending (by decide) rfl, pending (by decide) rfl,
      pending (by decide) rfl, pending (by decide) rfl,
      (cause (b := !s.cal.fired.isEmpty) (by decide) rfl).trans (by simp), cause (by decide) rfl,
      (cause (b := !s.rumble.outcomes.isEmpty) (by decide) rfl).trans (by simp), cause (by decide) rfl,
      cause (by decide) rfl, cause (by decide) rfl, (cause (by decide) rfl).trans s.refused_iff⟩
  case notices =>
    intro s hf
    obtain ⟨-, -, -, -, summary, enable, -⟩ := State.busRead_registers hf
    exact ⟨summary, enable, s.topCause_eq_zero_iff, s.topCause_eq_succ_iff, s.ntc_full hf⟩

end Sys2Proof.Machine
end

section
/-! SUPPORT. Proofs: the law of the quiesce state and the three holds, by what it reads (R16, R161, R162). -/
namespace Sys2Proof.Machine

section
variable {s t u : State}

/-! ### The law by its parts (R161) -/

/-- The law of the three holds, apart from a held report that is still to be made. -/
structure State.HoldsInLaw (s : State) : Prop where
  done : s.link.quiesce = .done → s.allHeld = true
  inForce : s.link.quiesce ≠ .none →
    s.supplyState = .full ∧ s.store.hold = true ∧ s.sound.hold = true ∧ s.rumble.hold = true
  free : s.link.quiesce = .none → s.store.hold = false ∧ s.sound.hold = false ∧ s.rumble.hold = false
  engine : s.sound.engine = .held → s.sound.hold = true

/-- The conjuncts of `State.quiesceLawful`, named. -/
structure State.QuiesceInLaw (s : State) : Prop extends s.HoldsInLaw where
  pending : s.link.quiesce = .pending → s.allHeld = false

theorem State.quiesceLawful_iff (s : State) : s.quiesceLawful ↔ s.QuiesceInLaw :=
  ⟨fun ⟨pending, done, inForce, free, engine⟩ => ⟨⟨done, inForce, free, engine⟩, pending⟩,
    fun h => ⟨h.pending, h.done, h.inForce, h.free, h.engine⟩⟩

/-- R161: the held report makes the law whole. -/
theorem State.HoldsInLaw.settled (h : s.HoldsInLaw) : s.settleQuiesce.QuiesceInLaw := by
  by_cases report : s.link.quiesce = .pending ∧ s.allHeld = true
  · obtain ⟨pending, held⟩ := report
    have force := h.inForce (by rw [pending]; decide)
    rw [State.settleQuiesce, if_pos ⟨pending, held⟩]
    exact ⟨⟨fun _ => held, fun _ => force, nofun, h.engine⟩, nofun⟩
  · rw [State.settleQuiesce, if_neg report]
    exact ⟨h, fun pending => Bool.eq_false_iff.2 fun held => report ⟨pending, held⟩⟩

/-! ### What the law reads -/

/-- The supply state, the quiesce state and the three holds are the same in two states. -/
structure SameMarks (s t : State) : Prop where
  supply : t.supplyState = s.supplyState
  quiesce : t.link.quiesce = s.link.quiesce
  store : t.store.hold = s.store.hold
  sound : t.sound.hold = s.sound.hold
  rumble : t.rumble.hold = s.rumble.hold

/-- Besides the marks, the store engine and the sound engine count as held in both states or in neither. -/
structure SameHolds (s t : State) : Prop extends SameMarks s t where
  storeHeld : t.store.held = s.store.held
  soundHeld : t.sound.engine = .held ↔ s.sound.engine = .held

/-- The parts of the law that the marks decide. -/
theorem State.HoldsInLaw.marked (h : s.HoldsInLaw) (same : SameMarks s t)
    (done : s.link.quiesce = .done → t.allHeld = true)
    (engine : t.sound.engine = .held → t.sound.hold = true) : t.HoldsInLaw where
  done := same.quiesce ▸ done
  inForce := by
    rw [same.quiesce, same.supply, same.store, same.sound, same.rumble]
    exact h.inForce
  free := by
    rw [same.quiesce, same.store, same.sound, same.rumble]
    exact h.free
  engine := engine

namespace SameHolds

theorem refl : SameHolds s s := ⟨⟨rfl, rfl, rfl, rfl, rfl⟩, rfl, Iff.rfl⟩

theorem allHeld (h : SameHolds s t) : t.allHeld = s.allHeld := by
  rw [State.allHeld, State.allHeld, h.storeHeld, h.rumble, decide_eq_decide.2 h.soundHeld]

theorem quiesceInLaw (h : SameHolds s t) (law : s.QuiesceInLaw) : t.QuiesceInLaw where
  toHoldsInLaw := law.marked h.toSameMarks (fun d => h.allHeld.trans (law.done d))
    fun e => h.sound.trans (law.engine (h.soundHeld.1 e))
  pending p := h.allHeld.trans (law.pending (h.quiesce ▸ p))

theorem trans (h : SameHolds s t) (h' : SameHolds t u) : SameHolds s u :=
  ⟨⟨h'.supply.trans h.supply, h'.quiesce.trans h.quiesce, h'.store.trans h.store, h'.sound.trans h.sound,
    h'.rumble.trans h.rumble⟩, h'.storeHeld.trans h.storeHeld, h'.soundHeld.trans h.soundHeld⟩

theorem withCal (h : SameHolds s t) (c : Calendar) : SameHolds s (t.withCal c) :=
  h.trans ⟨⟨rfl, rfl, rfl, rfl, rfl⟩, rfl, Iff.rfl⟩

theorem withStore (h : SameHolds s t) (st : Store) (hold : st.hold = t.store.hold := by rfl)
    (held : st.held = t.store.held := by rfl) : SameHolds s (t.withStore st) :=
  h.trans ⟨⟨rfl, rfl, hold, rfl, rfl⟩, held, Iff.rfl⟩

theorem putRam (h : SameHolds s t) (a : Nat) (bs : List Byte) : SameHolds s (t.putRam a bs) :=
  h.trans ⟨⟨rfl, rfl, rfl, rfl, rfl⟩, rfl, Iff.rfl⟩

theorem setCell (h : SameHolds s t) (c : CellId) (r : CellReg) : SameHolds s (t.setCell c r) :=
  h.trans ⟨⟨rfl, rfl, rfl, rfl, rfl⟩, rfl, Iff.rfl⟩

theorem terminate (h : SameHolds s t) (c : CellId) (b : Block) (a : Answer) :
    SameHolds s (t.terminate c b a) := (h.putRam _ _).setCell _ _

theorem answerWith (h : SameHolds s t) (c : CellId) (b : Block) (k : Nat) (bs : List Byte) (a : Answer) :
    SameHolds s (t.answerWith c b k bs a) := (h.putRam _ _).terminate _ _ _

theorem withSound (h : SameHolds s t) (so : Sound) (hold : so.hold = t.sound.hold := by rfl)
    (engine : so.engine = .held ↔ t.sound.engine = .held := by rfl) : SameHolds s (t.withSound so) :=
  h.trans ⟨⟨rfl, rfl, rfl, hold, rfl⟩, rfl, engine⟩

theorem withRumble (h : SameHolds s t) (r : Rumble) (hold : r.hold = t.rumble.hold := by rfl) :
    SameHolds s (t.withRumble r) := h.trans ⟨⟨rfl, rfl, rfl, rfl, hold⟩, rfl, Iff.rfl⟩

/-- A request of another cell leaves the store engine and the link; the law then reads the other two units. -/
theorem ofCell (frame : CellFrame s t) (hold : t.sound.hold = s.sound.hold)
    (engine : t.sound.engine = .held ↔ s.sound.engine = .held) (rumble : t.rumble.hold = s.rumble.hold) :
    SameHolds s t :=
  ⟨⟨congrArg Supply.state frame.supply, congrArg Link.quiesce frame.link, congrArg Store.hold frame.store,
    hold, rumble⟩, congrArg Store.held frame.store, engine⟩

end SameHolds

end

/-! ### The hold of the rumble unit (R136) -/

namespace Rumble

variable (r : Rumble)

@[simp] theorem record_hold (p : Play) (k : OutcomeKind) : (r.record p k).hold = r.hold := by
  obtain ⟨o, e, -⟩ := r.record_cases p k
  rw [e]

@[simp] theorem recordAll_hold (ps : List Play) (k : OutcomeKind) : (r.recordAll ps k).hold = r.hold := by
  induction ps generalizing r with
  | nil => rfl
  | cons p ps ih => exact (ih (r.record p k)).trans (r.record_hold p k)

@[simp] theorem endAll_hold (k : OutcomeKind) : (r.endAll k).hold = r.hold := r.recordAll_hold r.plays k

@[simp] theorem takeFrom_hold (running : Bool) (ps : List Play) : (takeFrom running ps r).hold = r.hold := by
  induction ps generalizing r with
  | nil => rfl
  | cons p ps ih =>
    unfold takeFrom
    split
    · exact (ih (r.record p .beatLost)).trans (r.record_hold p .beatLost)
    · rfl

@[simp] theorem endCurrent_hold (running : Bool) (p : Play) (k : OutcomeKind) :
    (r.endCurrent running p k).hold = r.hold :=
  (takeFrom_hold (r.record p k) running r.queue).trans (r.record_hold p k)

@[simp] theorem tick_hold (pacing : Pacing) (running : Bool) : (r.tick pacing running).hold = r.hold := by
  unfold tick countDown
  repeat' split
  all_goals simp

@[simp] theorem beatLost_hold : r.beatLost.hold = r.hold := by
  unfold beatLost
  repeat' split
  all_goals simp

@[simp] theorem place_hold (p : Play) : (r.place p).1.hold = r.hold := by
  unfold place
  repeat' split
  all_goals simp [start]

@[simp] theorem arrive_hold (cap : Cap) (running : Bool) (p : Play) :
    (r.arrive cap running p).1.hold = r.hold := by
  unfold arrive
  split
  · rfl
  · exact r.place_hold p

@[simp] theorem alarmPlay_hold (cap : Cap) (running : Bool) (p : Play) :
    (r.alarmPlay cap running p).hold = r.hold := by
  have arrived := r.arrive_hold cap running p
  unfold alarmPlay
  split
  next placed => rw [placed] at arrived; exact (record_hold _ _ _).trans arrived
  next placed => rw [placed] at arrived; exact arrived

@[simp] theorem capChange_hold (cap : Cap) : (r.capChange cap).hold = r.hold := by
  unfold capChange
  dsimp only
  split
  · exact endAll_hold _ _
  · rfl

@[simp] theorem tripNow_hold : r.tripNow.hold = r.hold := by
  unfold tripNow
  split
  · rfl
  · split
    · rfl
    · exact endAll_hold _ _

@[simp] theorem wrap_hold (cap : Cap) : (r.wrap cap).hold = r.hold := by
  unfold wrap
  dsimp only
  split <;> rfl

@[simp] theorem quiesce_hold : r.quiesce.hold = true := by
  unfold quiesce
  split
  · assumption
  · split <;> rfl

end Rumble

theorem Sound.quiesce_hold (so : Sound) : so.quiesce.hold = true := by
  unfold Sound.quiesce
  dsimp only
  split <;> rfl

end Sys2Proof.Machine
end

section
/-! SUPPORT. Proofs: the three holds through the events of the store engine (R16, R24, R28, R161). -/
namespace Sys2Proof.Machine

section
variable {s t u : State}

/-! ### An operation in flight (R15, R16) -/

/-- What the writes of an event in flight leave alone of what the law of the holds reads. -/
structure KeepsHolds (s t : State) : Prop where
  supply : t.supply = s.supply
  link : t.link = s.link
  sound : t.sound = s.sound
  rumble : t.rumble = s.rumble
  hold : t.store.hold = s.store.hold
  status : t.store.status = s.store.status

namespace KeepsHolds

theorem refl : KeepsHolds s s := ⟨rfl, rfl, rfl, rfl, rfl, rfl⟩

theorem withStore (h : KeepsHolds s t) (st : Store) (hold : st.hold = t.store.hold := by rfl)
    (status : st.status = t.store.status := by rfl) : KeepsHolds s (t.withStore st) :=
  ⟨h.supply, h.link, h.sound, h.rumble, hold.trans h.hold, status.trans h.status⟩

theorem putRam (h : KeepsHolds s t) (a : Nat) (bs : List Byte) : KeepsHolds s (t.putRam a bs) :=
  ⟨h.supply, h.link, h.sound, h.rumble, h.hold, h.status⟩

theorem putArray (h : KeepsHolds s t) (w : RecWrite) : KeepsHolds s (t.putArray w) :=
  ⟨h.supply, h.link, h.sound, h.rumble, h.hold, h.status⟩

theorem putRecord (h : KeepsHolds s t) (w : RecWrite) (dev : List Host.Cell) :
    KeepsHolds s (t.putRecord w dev) := h.putArray _

theorem rewrite (h : KeepsHolds s t) (p : PageNo) (hd : PageHdr) (v : HeaderVerify) :
    KeepsHolds s (t.rewrite p hd v) := by
  rw [State.rewrite_eq]
  exact ⟨h.supply, h.link, h.sound, h.rumble, h.hold, h.status⟩

theorem freePage (h : KeepsHolds s t) (p : PageNo) (v : HeaderVerify) : KeepsHolds s (t.freePage p v) := by
  rw [State.freePage_eq]
  exact ⟨h.supply, h.link, h.sound, h.rumble, h.hold, h.status⟩

theorem markDamaged (h : KeepsHolds s t) (f : FileNo) (dev : List Host.Cell) :
    KeepsHolds s (t.markDamaged f dev) := by
  unfold State.markDamaged
  dsimp only
  split
  · exact h
  · exact (h.putRecord _ _).withStore _

theorem sameMarks (h : KeepsHolds s t) : SameMarks s t :=
  ⟨congrArg Supply.state h.supply, congrArg Link.quiesce h.link, h.hold, congrArg Sound.hold h.sound,
    congrArg Rumble.hold h.rumble⟩

end KeepsHolds

/-- R16: with an operation in flight the store counts as held only if it is Quiesced. -/
theorem Store.held_of_running {st : Store} (h : st.op ≠ .none) :
    st.held = decide (st.status = .quiesced) := by
  simp [Store.held, h]

/-- What an event of an operation in flight can do: the operation goes on, or a request ends. -/
inductive Proceeds (s : State) : State → Prop where
  | goesOn {t : State} (h : KeepsHolds s t) (running : t.store.op ≠ .none) : Proceeds s t
  | ends {t : State} (h : KeepsHolds s t) (r : Run) (st : Status) (part : Bool) (count : Nat) :
      Proceeds s (t.endRun r st part count)

/-! ### The events of the store engine, one by one -/

theorem KeepsHolds.setJob (h : KeepsHolds s t) (r : Run) (j : Job) : Proceeds s (t.setJob r j) :=
  .goesOn (h.withStore _) nofun

theorem KeepsHolds.setScan (h : KeepsHolds s t) (n : ScanNotes) (ph : ScanPhase) :
    Proceeds s (t.setScan n ph) := .goesOn (h.withStore _) nofun

theorem KeepsHolds.afterPage (h : KeepsHolds s t) (r : Run) (last : Bool) (count : Nat) (j : Job) :
    Proceeds s (t.afterPage r last count j) := by
  unfold State.afterPage
  split
  · exact .ends h _ _ _ _
  · split
    · exact .ends h _ _ _ _
    · exact h.setJob _ _

theorem KeepsHolds.enterRollback (h : KeepsHolds s t) (r : Run) (c : Commit) (why : Status) :
    Proceeds s (t.enterRollback r c why) := by
  unfold State.enterRollback
  split
  · exact .ends h _ _ _ _
  · exact h.setJob _ _

section
variable (r : Run)

theorem Proceeds.readFilePage (f : FileNo) (offset length buf k : Nat) (link : Word) :
    Proceeds s (s.readFilePage r f offset length buf k link) := by
  have here : KeepsHolds s s := .refl
  unfold State.readFilePage
  dsimp only
  repeat' split
  · exact .ends here _ _ _ _
  · exact .ends here _ _ _ _
  · exact here.afterPage _ _ _ _
  · exact .ends here _ _ _ _
  · exact (here.putRam _ _).afterPage _ _ _ _

theorem Proceeds.verifyPage (f : FileNo) (k : Nat) (link : Word) : Proceeds s (s.verifyPage r f k link) := by
  have here : KeepsHolds s s := .refl
  unfold State.verifyPage
  dsimp only
  repeat' split
  · exact .ends here _ _ _ _
  · exact .ends here _ _ _ _
  · exact .ends here _ _ _ _
  · exact here.afterPage _ _ _ _

theorem Proceeds.stageChunk (c : Commit) (i : Nat) (v : Verify) : Proceeds s (s.stageChunk r c i v) := by
  unfold State.stageChunk
  split
  · exact KeepsHolds.refl.enterRollback _ _ _
  next p rest _ =>
    split
    · have staged : KeepsHolds s ((s.putArray (s.stageWrite c i p)).withStore { s.store with free := rest }) :=
        (KeepsHolds.refl.putArray _).withStore _
      unfold State.afterStage
      split
      · exact staged.enterRollback _ _ _
      · split <;> exact staged.setJob _ _
    next dev bad =>
      have retired : KeepsHolds s ((s.putArray (badPage p dev bad (s.chunkBytes c i))).withStore
          ({ s.store with free := rest }.retire p)) := by
        rw [Store.retire_eq _ _ []]
        exact (KeepsHolds.refl.putArray _).withStore _
      unfold State.afterRetire
      split
      · exact retired.enterRollback _ _ _
      · exact retired.setJob _ _

theorem Proceeds.rollbackPage (c : Commit) (todo : List PageNo) (why : Status) (v : HeaderVerify) :
    Proceeds s (s.rollbackPage r c todo why v) := by
  unfold State.rollbackPage
  split
  · exact .ends .refl _ _ _ _
  · exact .ends (KeepsHolds.refl.freePage _ _) _ _ _ _
  · exact (KeepsHolds.refl.freePage _ _).setJob _ _

theorem Proceeds.liveRewrite (c : Commit) (done todo : List PageNo) (v : HeaderVerify) :
    Proceeds s (s.liveRewrite r c done todo v) := by
  unfold State.liveRewrite
  split
  · exact KeepsHolds.refl.setJob _ _
  next p ps =>
    have rewritten : KeepsHolds s (s.rewrite p (liveHdr s.sram p) v) := KeepsHolds.refl.rewrite _ _ _
    dsimp only
    split
    · exact rewritten.setJob _ _
    · exact (rewritten.withStore _).setJob _ _

theorem Proceeds.breakFree (c : Commit) (kept todo : List PageNo) (v : HeaderVerify) :
    Proceeds s (s.breakFree r c kept todo v) := by
  unfold State.breakFree
  split
  · exact KeepsHolds.refl.setJob _ _
  · exact (KeepsHolds.refl.freePage _ _).setJob _ _

theorem Proceeds.freeOldCommit (c : Commit) (todo : List PageNo) (broken : Option Nat) (v : HeaderVerify) :
    Proceeds s (s.freeOldCommit r c todo broken v) := by
  unfold State.freeOldCommit
  split
  · exact KeepsHolds.refl.setJob _ _
  · exact (KeepsHolds.refl.freePage _ _).setJob _ _

theorem Proceeds.freeOldDelete (f : FileNo) (todo : List PageNo) (v : HeaderVerify) :
    Proceeds s (s.freeOldDelete r f todo v) := by
  unfold State.freeOldDelete
  split
  · exact KeepsHolds.refl.setJob _ _
  · exact (KeepsHolds.refl.freePage _ _).setJob _ _

theorem Proceeds.clearCommit (c : Commit) (broken : Option Nat) (dev : List Host.Cell) :
    Proceeds s (s.clearCommit r c broken dev) := by
  unfold State.clearCommit
  split <;> exact .ends (KeepsHolds.refl.putRecord _ _) _ _ _ _

theorem Proceeds.formatPage (p : PageNo) (bad : Nat) (v : HeaderVerify) :
    Proceeds s (s.formatPage r p bad v) := by
  have freed : KeepsHolds s (s.freePage p v) := KeepsHolds.refl.freePage _ _
  unfold State.formatPage
  dsimp only
  split
  · exact freed.setJob _ _
  · exact .goesOn ((freed.withStore _).withStore _) nofun

end

theorem Proceeds.scanEntry (n : ScanNotes) (f : FileNo) (dev : List Host.Cell) :
    Proceeds s (s.scanEntry n f dev) := by
  unfold State.scanEntry
  split
  · exact (KeepsHolds.refl.withStore _).setScan _ _
  · exact ((KeepsHolds.refl.putRecord _ _).withStore _).setScan _ _

theorem Proceeds.scanWalk (n : ScanNotes) (f : FileNo) (k : Nat) (link : Word) (dev : List Host.Cell) :
    Proceeds s (s.scanWalk n f k link dev) := by
  have claimed : KeepsHolds s (s.withStore (s.store.claim f (s.claims f k link))) := by
    cases s.claims f k link <;> exact KeepsHolds.refl.withStore _
  unfold State.scanWalk
  dsimp only
  split
  · exact claimed.setScan _ _
  · exact claimed.setScan _ _
  · exact (claimed.markDamaged _ _).setScan _ _

theorem Proceeds.sweep (n : ScanNotes) (p : PageNo) (v : HeaderVerify) : Proceeds s (s.sweep n p v) := by
  have here : KeepsHolds s s := .refl
  unfold State.sweep
  dsimp only
  repeat' split
  · exact here.setScan _ _
  · exact ((here.withStore _).freePage _ _).setScan _ _
  · rw [Store.retire_eq _ _ []]
    exact (here.withStore _).setScan _ _
  · exact (here.withStore _).setScan _ _
  · exact (here.freePage _ _).setScan _ _
  · exact (here.freePage _ _).setScan _ _

/-- R28, R15: every event of the store engine goes on with its operation, or ends its request. -/
theorem Proceeds.ofEvent (h : StoreEvent s t) : Proceeds s t := by
  have here : KeepsHolds s s := .refl
  cases h with
  | readFilePage => exact .readFilePage ..
  | verifyPage => exact .verifyPage ..
  | readRawPage => exact (here.putRam _ _).afterPage _ _ _ _
  | stageChunk => exact .stageChunk ..
  | rollback | rollbackFirst => exact .rollbackPage ..
  | armCommit | armDelete | formatHeader | formatJournal => exact (here.putRecord _ _).setJob _ _
  | commitEntry | damagedEntry | deleteEntry | formatEntry =>
    exact ((here.putRecord _ _).withStore _).setJob _ _
  | liveRewrite => exact .liveRewrite ..
  | breakFree => exact .breakFree ..
  | freeOldCommit => exact .freeOldCommit ..
  | freeOldDelete => exact .freeOldDelete ..
  | clearCommit => exact .clearCommit ..
  | clearDelete => exact .goesOn (((here.putRecord _ _).withStore _).withStore _) nofun
  | formatPage => exact .formatPage ..
  | discardHeader | rollEntry | rollClear => exact (here.putRecord _ _).setScan _ _
  | clearBatteryLost => exact .goesOn ⟨rfl, rfl, rfl, rfl, rfl, rfl⟩ nofun
  | headerRead | publish => exact (here.withStore _).setScan _ _
  | journalClear | journalArmed => exact here.setScan _ _
  | rollOld | rollLive => exact (here.rewrite _ _ _).setScan _ _
  | scanEntry => exact .scanEntry ..
  | scanWalk => exact .scanWalk ..
  | sweep => exact .sweep ..

/-- R48, R47: an abort of a request in flight marks it, or ends it. -/
theorem Proceeds.abortCommit (running : s.store.op ≠ .none) (r : Run) (c : Commit) (ph : CommitPhase) :
    Proceeds s (s.abortCommit r c ph) := by
  have here : KeepsHolds s s := .refl
  unfold State.abortCommit
  split
  · exact here.setJob _ _
  · split
    · exact here.setJob _ _
    · exact here.enterRollback _ _ _
  · split
    · exact .goesOn here running
    · exact here.setJob _ _
  all_goals exact here.setJob _ _

end

/-! ### The law through the events -/

section
variable {s t u : State}

/-- R16: the state in which a request leaves the store under the hold. -/
theorem Store.rest_quiesced {st : Store} (h : st.status = .quiesced ∨ st.status = .busy ∧ st.hold = true) :
    st.rest = .quiesced := by
  unfold Store.rest
  rcases h with quiesced | ⟨busy, hold⟩
  · rw [quiesced]; rfl
  · rw [if_pos busy, if_pos hold]

/-- R161: a unit's event followed by its held report; no unit ceases to be held under a quiesce that is Done. -/
theorem State.QuiesceInLaw.report (law : s.QuiesceInLaw) (same : SameMarks s t)
    (done : s.link.quiesce = .done → t.allHeld = true)
    (engine : t.sound.engine = .held → t.sound.hold = true) : t.settleQuiesce.QuiesceInLaw :=
  (law.marked same done engine).settled

/-- R28, R161: the end of a running request, with its held report. -/
theorem State.QuiesceInLaw.endRun (law : s.QuiesceInLaw) (same : SameMarks s t) (sound : t.sound = s.sound)
    (rest : s.link.quiesce = .done → t.store.rest = .quiesced) (r : Run) (st : Status) (part : Bool)
    (count : Nat) : (t.endRun r st part count).QuiesceInLaw := by
  unfold State.endRun
  refine law.report ⟨same.supply, same.quiesce, same.store, same.sound, same.rumble⟩ (fun d => ?_) ?_
  · obtain ⟨-, engine, rumble⟩ := (State.allHeld_iff s).1 (law.done d)
    refine (State.allHeld_iff _).2 ⟨(Store.held_iff _).2 (.inl (rest d)), ?_, same.rumble.trans rumble⟩
    exact (congrArg Sound.engine sound).trans engine
  · rw [State.withStore_sound, State.terminate_sound, sound]
    exact law.engine

/-- R16: an event of an operation in flight keeps the law; a store that counts as held is Quiesced then. -/
theorem Proceeds.quiesceInLaw (h : Proceeds s t) (running : s.store.op ≠ .none) (law : s.QuiesceInLaw) :
    t.QuiesceInLaw := by
  cases h with
  | goesOn keeps still =>
    have held : t.store.held = s.store.held := by
      rw [Store.held_of_running still, Store.held_of_running running, keeps.status]
    exact SameHolds.quiesceInLaw ⟨keeps.sameMarks, held, by rw [keeps.sound]⟩ law
  | ends keeps r st part count =>
    refine law.endRun keeps.sameMarks keeps.sound (fun d => Store.rest_quiesced (.inl ?_)) r st part count
    obtain ⟨held, -⟩ := (State.allHeld_iff s).1 (law.done d)
    rw [Store.held_of_running running] at held
    exact keeps.status.trans (of_decide_eq_true held)

/-- An event of the store engine has an operation in flight. -/
theorem StoreEvent.running (h : StoreEvent s t) : s.store.op ≠ .none := by
  cases h
  case rollbackFirst op _ | discardHeader op _ | headerRead op _ | journalClear op _ | journalArmed op _ =>
    rw [op]
    exact nofun
  all_goals
    next op =>
      rw [op]
      exact nofun

theorem StoreEvent.quiesceInLaw (h : StoreEvent s t) (law : s.QuiesceInLaw) : t.QuiesceInLaw :=
  (Proceeds.ofEvent h).quiesceInLaw h.running law

end

end Sys2Proof.Machine
end

section
/-! SUPPORT. Proofs: the three holds through the start of a request, the purge reply and an abort (R16, R24,
R27). -/
namespace Sys2Proof.Machine

section
variable {s t : State} {b : Block}

/-! ### The start of a request (R27, R16) -/

/-- A store that its hold does not refuse, and that comes to count as held no sooner, keeps the law. -/
theorem State.QuiesceInLaw.starts (law : s.QuiesceInLaw) (accepts : s.store.refusesHeld = false)
    (same : SameMarks s t) (sound : t.sound = s.sound) (held : t.store.held = true → s.store.held = true) :
    t.QuiesceInLaw := by
  have back (h : t.allHeld = true) : s.allHeld = true := by
    obtain ⟨store, engine, rumble⟩ := (State.allHeld_iff t).1 h
    exact (State.allHeld_iff s).2 ⟨held store, sound ▸ engine, same.rumble ▸ rumble⟩
  have notDone : s.link.quiesce ≠ .done := fun d => by
    obtain ⟨-, hold, -⟩ := law.inForce (by rw [d]; decide)
    obtain ⟨store, -⟩ := (State.allHeld_iff s).1 (law.done d)
    rw [Store.refusesHeld, hold, store] at accepts
    cases accepts
  refine ⟨law.marked same (fun d => absurd d notDone) (by rw [sound]; exact law.engine), fun p => ?_⟩
  rw [same.quiesce] at p
  exact Bool.eq_false_iff.2 fun h => Bool.eq_false_iff.1 (law.pending p) (back h)

/-- R16: with an operation in flight the store counts as held only if it is Quiesced, which a start leaves. -/
theorem State.QuiesceInLaw.startRun (law : s.QuiesceInLaw) (accepts : s.store.refusesHeld = false) (j : Job) :
    (s.startRun b j).QuiesceInLaw := by
  refine law.starts accepts ⟨rfl, rfl, rfl, rfl, rfl⟩ rfl fun held => (Store.held_iff _).2 (.inl ?_)
  have running : (s.startRun b j).store.op ≠ .none := nofun
  rw [Store.held_of_running running] at held
  have quiesced : (if s.store.status = .ready then StoreState.busy else s.store.status) = .quiesced :=
    of_decide_eq_true held
  split at quiesced
  · cases quiesced
  · exact quiesced

/-- R44: a format leaves the store Unformatted with an operation in flight. -/
theorem State.QuiesceInLaw.formatReq (law : s.QuiesceInLaw) (accepts : s.store.refusesHeld = false) :
    (s.formatReq b).QuiesceInLaw := by
  refine law.starts accepts ⟨rfl, rfl, rfl, rfl, rfl⟩ rfl fun held => ?_
  have running : (s.formatReq b).store.op ≠ .none := nofun
  rw [Store.held_of_running running] at held
  cases held

/-- What a store request can do at its start event: it is answered there, or it takes time. -/
inductive State.Begins (s : State) (b : Block) : State → Prop where
  | answered {t : State} (h : SameHolds s t) : s.Begins b t
  | startRun (j : Job) : s.Begins b (s.startRun b j)
  | formatReq : s.Begins b (s.formatReq b)

namespace State.Begins

theorem refuseStore (st : Status) : s.Begins b (s.refuseStore b st) := .answered (SameHolds.refl.terminate ..)

/-- R27: a check ends the block, or the request goes on. -/
theorem refuse_or {c : Prop} [Decidable c] {st : Status} (h : s.Begins b t) :
    s.Begins b (if c then s.refuseStore b st else t) := by
  split
  · exact refuseStore st
  · exact h

theorem readFileReq (s : State) (b : Block) : s.Begins b (s.readFileReq b) := by
  unfold State.readFileReq
  dsimp only
  split
  · exact refuseStore _
  · refine refuse_or (refuse_or (refuse_or (refuse_or (refuse_or ?_))))
    split
    · exact .answered (SameHolds.refl.terminate ..)
    · exact .startRun _

theorem commitReq (s : State) (b : Block) : s.Begins b (s.commitReq b) := by
  unfold State.commitReq
  dsimp only
  split
  · exact refuseStore _
  · exact refuse_or (refuse_or (refuse_or (refuse_or (refuse_or (refuse_or (.startRun _))))))

theorem deleteReq (s : State) (b : Block) : s.Begins b (s.deleteReq b) := by
  unfold State.deleteReq
  dsimp only
  split
  · exact refuseStore _
  · exact refuse_or (refuse_or (refuse_or (refuse_or (.startRun _))))

theorem verifyReq (s : State) (b : Block) : s.Begins b (s.verifyReq b) := by
  unfold State.verifyReq
  dsimp only
  split
  · exact refuseStore _
  · refine refuse_or (refuse_or ?_)
    split
    · exact .answered (SameHolds.refl.terminate ..)
    · exact .startRun _

theorem readRawReq (s : State) (b : Block) : s.Begins b (s.readRawReq b) := refuse_or (.startRun _)

theorem quiesceInLaw (h : s.Begins b t) (accepts : s.store.refusesHeld = false) (law : s.QuiesceInLaw) :
    t.QuiesceInLaw := by
  cases h with
  | answered same => exact same.quiesceInLaw law
  | startRun j => exact law.startRun accepts j
  | formatReq => exact law.formatReq accepts

end State.Begins

theorem SameHolds.readEntryReq (s : State) (b : Block) : SameHolds s (s.readEntryReq b) := by
  unfold State.readEntryReq
  dsimp only
  repeat' split
  case isFalse.isFalse => exact SameHolds.refl.answerWith ..
  all_goals exact SameHolds.refl.terminate ..

theorem SameHolds.readStoreStatus (s : State) (b : Block) : SameHolds s (s.readStoreStatus b) :=
  (refl.withStore _).answerWith ..

/-- R27: the two requests that start while the store is held are answered at once; no other starts then. -/
theorem State.QuiesceInLaw.startStore (law : s.QuiesceInLaw) : (s.startStore b).QuiesceInLaw := by
  have refused (st : Status) : (s.refuseStore b st).QuiesceInLaw :=
    (SameHolds.refl.terminate ..).quiesceInLaw law
  unfold State.startStore
  split
  · exact refused _
  split
  · exact refused _
  split
  · exact refused _
  next accepts =>
    have begins {t : State} (h1 : s.opcode b ≠ 1) (h8 : s.opcode b ≠ 8) (h : s.Begins b t) :
        t.QuiesceInLaw :=
      h.quiesceInLaw (Bool.eq_false_iff.2 fun held => accepts ⟨held, h1, h8⟩) law
    unfold State.storeRequest
    split
    · exact (SameHolds.readEntryReq s b).quiesceInLaw law
    next op => exact begins (by omega) (by omega) (.readFileReq s b)
    next op => exact begins (by omega) (by omega) (.commitReq s b)
    next op => exact begins (by omega) (by omega) (.deleteReq s b)
    next op => exact begins (by omega) (by omega) (.verifyReq s b)
    next op => exact begins (by omega) (by omega) (.readRawReq s b)
    next op => exact begins (by omega) (by omega) .formatReq
    · exact (SameHolds.readStoreStatus s b).quiesceInLaw law

/-- R27: a block that the engine takes waits in Scanning, or starts. -/
theorem State.QuiesceInLaw.runStore (law : s.QuiesceInLaw) : (s.runStore b).QuiesceInLaw := by
  unfold State.runStore
  split
  · exact (SameHolds.refl.withStore _).quiesceInLaw law
  · exact law.startStore

/-! ### The purge reply (R24, R41, R45) -/

/-- R24, R16: a scan that ends under the hold leaves the store held. -/
theorem State.QuiesceInLaw.scanEnd (law : s.QuiesceInLaw) (n : ScanNotes) : (s.scanEnd n).QuiesceInLaw := by
  have ended : (s.withStore (s.store.scanEnd n)).settleQuiesce.QuiesceInLaw := by
    refine law.report ⟨rfl, rfl, rfl, rfl, rfl⟩ (fun d => ?_) law.engine
    obtain ⟨-, hold, -⟩ := law.inForce (by rw [d]; decide)
    obtain ⟨-, engine, rumble⟩ := (State.allHeld_iff s).1 (law.done d)
    exact (State.allHeld_iff _).2 ⟨(Store.scanEnd_held s.store n).trans hold, engine, rumble⟩
  unfold State.scanEnd
  dsimp only
  split
  · exact ended
  · split
    · exact (SameHolds.refl.terminate ..).quiesceInLaw ended
    · exact ended.startStore

/-- R45, R16: a format that ends under the hold leaves the store Quiesced. -/
theorem State.QuiesceInLaw.formatEnd (law : s.QuiesceInLaw) (r : Run) (bad : Nat) :
    (s.formatEnd r bad).QuiesceInLaw := by
  unfold State.formatEnd
  refine law.endRun (t := s.withStore { s.store with verdict := true, purgeReply := none, status := .busy })
    ⟨rfl, rfl, rfl, rfl, rfl⟩ rfl (fun d => ?_) ..
  obtain ⟨-, hold, -⟩ := law.inForce (by rw [d]; decide)
  exact Store.rest_quiesced (.inr ⟨rfl, hold⟩)

theorem State.QuiesceInLaw.purgeReplied (law : s.QuiesceInLaw) : s.purgeReplied.QuiesceInLaw := by
  unfold State.purgeReplied
  split
  · exact law
  split
  · exact law.scanEnd _
  next op =>
    have running : s.store.op ≠ .none := by rw [op]; exact nofun
    exact (Proceeds.ends (KeepsHolds.refl.withStore _) _ _ _ _).quiesceInLaw running law
  · exact law.formatEnd _ _
  · exact law

/-! ### Aborts (R26, R47, R48) -/

theorem State.QuiesceInLaw.abortStore (law : s.QuiesceInLaw) : s.abortStore.QuiesceInLaw := by
  unfold State.abortStore
  split
  · exact law
  · split
    · exact ((SameHolds.refl.withStore _).terminate ..).quiesceInLaw law
    · exact law
  next r j op =>
    have running : s.store.op ≠ .none := by rw [op]; exact nofun
    have marked (r' : Run) : (s.setJob r' j).QuiesceInLaw :=
      (KeepsHolds.refl.setJob r' j).quiesceInLaw running law
    cases j with
    | commit c ph => exact (Proceeds.abortCommit running r c ph).quiesceInLaw running law
    | readFile | verify | readRaw | delete | format => exact marked _

/-- R83: a purge leaves a request or a reply under way. -/
theorem SameHolds.purge (s : State) : SameHolds s s.purge := by
  unfold State.purge
  split
  · exact refl
  · exact ⟨⟨rfl, rfl, rfl, rfl, rfl⟩, rfl, Iff.rfl⟩

end

end Sys2Proof.Machine
end

section
/-! SUPPORT. Proofs: the quiesce state and the three holds through the other units, supply events and the link
(R109, R136, R161 to R169), and every step (O57). -/
namespace Sys2Proof.Machine

section
variable {s t : State}

/-! ### Alarms and production events (R72, R76, R97, R108) -/

namespace SameHolds

theorem cueRequest (h : SameHolds s t) (slot : Fin 4) (alarm : Fin 32) :
    SameHolds s (t.cueRequest slot alarm) := by
  unfold State.cueRequest Sound.cueRequest
  split <;> exact h.withSound _

theorem playRequest (h : SameHolds s t) (p : RumbleRef) : SameHolds s (t.playRequest p) :=
  h.withRumble _ (Rumble.alarmPlay_hold ..)

theorem deliver (h : SameHolds s t) (a : Alarm) : SameHolds s (t.deliver a) := by
  unfold State.deliver
  cases a.cue with
  | none =>
    cases a.rumble with
    | none => exact h
    | some p => exact h.playRequest p
  | some slot =>
    cases a.rumble with
    | none => exact h.cueRequest slot a.id
    | some p => exact (h.cueRequest slot a.id).playRequest p

theorem fireDue (n : Nat) (h : SameHolds s t) : SameHolds s (t.fireDue n).1 := by
  induction n generalizing t with
  | zero => exact h
  | succ n ih =>
    unfold State.fireDue
    split
    · exact h
    split
    · exact h
    · refine ih ?_
      unfold State.fire
      dsimp only
      split
      · exact (h.withCal _).deliver _
      · exact (h.withCal _).withCal _

theorem secondEvent (s : State) : SameHolds s s.secondEvent := (refl.withCal _).fireDue _

theorem crystalEdge (s : State) : SameHolds s s.crystalEdge := by
  unfold State.crystalEdge
  split
  · exact refl.withCal _
  · split <;> exact refl.withCal _
  · split
    · exact refl.withCal _
    · exact secondEvent s

theorem pull (s : State) : SameHolds s (s.withSound s.sound.pull) := by
  unfold Sound.pull
  repeat' split
  all_goals exact refl.withSound _

end SameHolds

/-- R108: the end of the ramp under the hold mark leaves the engine Held, under no hold mark Stopped. -/
theorem Sound.rampEnd_holds (so : Sound) :
    so.rampEnd.hold = so.hold ∧ (so.rampEnd.engine = .held → so.hold = true) := by
  cases hold : so.hold with
  | true =>
    rw [Sound.rampEnd_hold hold]
    exact ⟨hold, fun _ => rfl⟩
  | false =>
    rw [Sound.rampEnd_free hold]
    exact ⟨hold, nofun⟩

/-- R97, R108: a production event is no departure from Held, and the ramp's end makes its held report. -/
theorem State.QuiesceInLaw.produce (law : s.QuiesceInLaw) (produces : s.sound.canProduce = true) :
    s.produce.QuiesceInLaw := by
  by_cases running : s.sound.engine = .running
  · by_cases beat : s.sound.frameCount + 1 = s.sound.tempo
    · rw [State.produce_beat running beat]
      have beaten : SameHolds s ((s.withSound { s.sound.produceFrame with
          frameCount := s.sound.frameCount + 1 }).beatEvent) :=
        ((SameHolds.refl.withSound _).withSound _).withRumble _ (Rumble.tick_hold ..)
      exact beaten.quiesceInLaw law
    · rw [State.produce_counts running beat]
      exact (SameHolds.refl.withSound _).quiesceInLaw law
  · by_cases silent : s.sound.frameGain = 0
    · obtain ⟨hold, held⟩ := s.sound.produceFrame.rampEnd_holds
      rw [State.produce_rampEnd running silent]
      refine law.report ⟨rfl, rfl, rfl, hold, rfl⟩ (fun d => ?_) fun e => hold.trans (held e)
      obtain ⟨-, engine, -⟩ := (State.allHeld_iff s).1 (law.done d)
      obtain ⟨ramping, -⟩ := Sound.canProduce_iff.1 produces
      rw [engine] at ramping
      rcases ramping with e | e <;> cases e
    · rw [State.produce_ramps running silent]
      exact (SameHolds.refl.withSound _).quiesceInLaw law

/-! ### The requests of the other three cells -/

theorem SameHolds.runCalendar (s : State) (b : Block) : SameHolds s (s.runCalendar b) := by
  have here : SameHolds s s := .refl
  unfold State.runCalendar State.calendarRequest State.readCalendar State.setCalendar State.setRollover
    State.addAlarm State.removeAlarm State.listAlarms State.takeFired State.applyFiring
  dsimp only
  repeat' split
  all_goals first
    | with_reducible exact here.terminate _ _ _
    | with_reducible exact here.answerWith _ _ _ _ _
    | with_reducible exact (here.withCal _).terminate _ _ _
    | with_reducible exact (here.withCal _).answerWith _ _ _ _ _
    | with_reducible exact (here.putRam _ _).terminate _ _ _
    | with_reducible exact ((here.withCal _).putRam _ _).answerWith _ _ _ _ _
    | with_reducible exact ((here.withCal _).fireDue _).terminate _ _ _

/-- R109: no request of the sound cell sets or clears the hold mark. -/
theorem State.soundRequest_hold (s : State) (b : Block) : (s.soundRequest b).sound.hold = s.sound.hold := by
  unfold State.soundRequest State.setVoices State.commitVoices State.broadcast State.silence State.loadWave
    State.startSound State.stopSound State.stopNow State.setTempo State.queueNotes State.loadCue State.playCue
    State.readSoundStatus
  dsimp only
  repeat' split
  all_goals rfl

/-- R107, R108: a start leaves Stopped and a stop leaves Running; no request of the sound cell leaves Held. -/
theorem State.soundRequest_held (s : State) (b : Block) :
    (s.soundRequest b).sound.engine = .held ↔ s.sound.engine = .held := by
  rcases s.soundRequest_engine b with ⟨-, engine, -⟩ | starts | stops
  · rw [engine]
  · rw [starts]
    unfold State.startSound
    split
    · split
      case h_4 stopped => simp [stopped, Sound.started]
      all_goals rfl
    · rfl
  · rw [stops]
    unfold State.stopSound State.stopNow
    split
    next running => simp [running, Sound.mute, State.beatLostSignal]
    · rfl

theorem State.soundRequest_rumbleHold (s : State) (b : Block) :
    (s.soundRequest b).rumble.hold = s.rumble.hold := by
  rcases s.soundRequest_engine b with ⟨rumble, -⟩ | starts | stops
  · rw [rumble]
  · rw [starts]
    unfold State.startSound
    repeat' split
    all_goals rfl
  · rw [stops]
    unfold State.stopSound State.stopNow
    split
    · exact Rumble.beatLost_hold _
    · rfl

theorem SameHolds.runSound (s : State) (b : Block) : SameHolds s (s.runSound b) := by
  have frame := CellFrame.ofMoves (CellMoves.refl.runSound (s := s) b)
  cases needs : s.soundNeeds b with
  | none =>
    rw [State.runSound, needs]
    exact refl.terminate ..
  | some n =>
    by_cases short : b.words < n
    · rw [State.runSound, needs]
      dsimp only
      rw [if_pos short]
      exact refl.terminate ..
    · rw [State.runSound_passes needs (Nat.not_lt.1 short)] at frame ⊢
      exact ofCell frame (s.soundRequest_hold b) (s.soundRequest_held b) (s.soundRequest_rumbleHold b)

/-- R136: no request of the rumble cell sets or clears the hold mark. -/
theorem State.runRumble_hold (s : State) (b : Block) : (s.runRumble b).rumble.hold = s.rumble.hold := by
  unfold State.runRumble State.rumbleRequest State.setLevels State.loadPattern State.stopRumble
    State.clearTrip State.readRumbleStatus
  dsimp only
  repeat' split
  case h_3 =>
    unfold State.playPattern
    split
    next slot prio _ _ =>
      have arrived := s.rumble.arrive_hold s.link.cap s.beatRunning
        { pattern := slot, priority := prio, source := .console }
      split
      · rfl
      next placed =>
        rw [placed] at arrived
        exact arrived
    · rfl
  all_goals simp

theorem SameHolds.runRumble (s : State) (b : Block) : SameHolds s (s.runRumble b) :=
  have sound := State.runRumble_sound (s := s) b
  ofCell (CellFrame.ofMoves (CellMoves.refl.runRumble b)) (congrArg Sound.hold sound)
    (by rw [sound]) (s.runRumble_hold b)

/-- R144: whatever a block that its cell takes asks for. -/
theorem State.QuiesceInLaw.runUnit (law : s.QuiesceInLaw) (c : CellId) (b : Block) :
    (s.runUnit c b).QuiesceInLaw := by
  cases c with
  | store => exact law.runStore
  | calendar => exact (SameHolds.runCalendar s b).quiesceInLaw law
  | sound => exact (SameHolds.runSound s b).quiesceInLaw law
  | rumble => exact (SameHolds.runRumble s b).quiesceInLaw law

/-! ### Supply events (R165 to R169) -/

/-- No quiesce is in force and no unit holds. -/
structure State.Released (s : State) : Prop where
  quiesce : s.link.quiesce = .none
  store : s.store.hold = false
  sound : s.sound.hold = false
  rumble : s.rumble.hold = false
  engine : s.sound.engine ≠ .held

namespace State.Released

theorem quiesceInLaw (h : s.Released) : s.QuiesceInLaw where
  done d := nomatch h.quiesce.symm.trans d
  inForce q := absurd h.quiesce q
  free _ := ⟨h.store, h.sound, h.rumble⟩
  engine e := absurd e h.engine
  pending p := nomatch h.quiesce.symm.trans p

/-- R161: outside Full no quiesce is in force. -/
theorem ofUnpowered (law : s.QuiesceInLaw) (off : s.supplyState ≠ .full) : s.Released := by
  have none : s.link.quiesce = .none := Decidable.byContradiction fun q => off (law.inForce q).1
  obtain ⟨store, sound, rumble⟩ := law.free none
  exact ⟨none, store, sound, rumble, fun e => nomatch sound.symm.trans (law.engine e)⟩

theorem withSupply (h : s.Released) (p : Supply) : ({ s with supply := p } : State).Released := { h with }

theorem coldStart (h : s.Released) : s.coldStart.Released := { h with }

theorem keepPowerUp (h : s.Released) : s.keepPowerUp.Released := { h with quiesce := rfl }

theorem backupEntry (h : s.Released) : s.backupEntry.Released := { h with quiesce := rfl }

/-- R166, R140: at Full entry a trip may be set, a hold is not. -/
theorem fullEntry (s : State) : s.fullEntry.Released where
  quiesce := rfl
  store := rfl
  sound := rfl
  rumble := by
    show (Rumble.atFullEntry s.msns).hold = false
    unfold Rumble.atFullEntry
    split
    · exact Rumble.tripNow_hold _
    · rfl
  engine := nofun

theorem supplyLoss (s : State) (cut : WriteCut) : (s.supplyLoss cut).Released := ⟨rfl, rfl, rfl, rfl, nofun⟩

theorem powerDown (s : State) : s.powerDown.Released := ⟨rfl, rfl, rfl, rfl, nofun⟩

/-- R165: the supply events of a change of supply state that begins or ends outside Full. -/
theorem supplyEvents {before : SupplyState} (h : before ≠ .full → s.Released) (after : SupplyState)
    (cut : WriteCut) : (s.supplyEvents before after cut).Released ∨ before = .full ∧ after = .full := by
  cases before with
  | full =>
    cases after with
    | full => exact .inr ⟨rfl, rfl⟩
    | standby => exact .inl (supplyLoss s cut)
    | backup => exact .inl (supplyLoss s cut).backupEntry
    | dead => exact .inl (powerDown s)
  | standby =>
    cases after with
    | full => exact .inl (fullEntry s)
    | standby => exact .inl (h nofun)
    | backup => exact .inl (h nofun).backupEntry
    | dead => exact .inl (powerDown s)
  | backup =>
    cases after with
    | full => exact .inl (fullEntry _)
    | standby => exact .inl (h nofun).keepPowerUp
    | backup => exact .inl (h nofun)
    | dead => exact .inl (powerDown s)
  | dead =>
    cases after with
    | full => exact .inl (fullEntry _)
    | standby => exact .inl (h nofun).coldStart.keepPowerUp
    | backup => exact .inl (h nofun).coldStart
    | dead => exact .inl (h nofun)

end State.Released

/-- R165, R161: a quiesce ends where Full does, and stands where Full does. -/
theorem State.QuiesceInLaw.setRail (law : s.QuiesceInLaw) (rail : Rail) (mv : Nat) (cut : WriteCut) :
    (s.setRail rail mv cut).QuiesceInLaw := by
  unfold State.setRail
  dsimp only
  generalize (s.supply.setRail rail mv).trackCellLow rail = p
  have unpowered (off : s.supplyState ≠ .full) : ({ s with supply := p } : State).Released :=
    (State.Released.ofUnpowered law off).withSupply p
  rcases State.Released.supplyEvents unpowered p.state cut with released | ⟨before, after⟩
  · exact released.quiesceInLaw
  · rw [before, after]
    exact SameHolds.quiesceInLaw ⟨⟨after.trans before.symm, rfl, rfl, rfl, rfl⟩, rfl, Iff.rfl⟩ law

/-! ### The standby link (R154 to R162) -/

/-- R161, R16, R109, R136: a QUIESCE in Full sets the three holds, and makes the held report. -/
theorem State.QuiesceInLaw.quiesceAll (law : s.QuiesceInLaw) (full : s.supplyState = .full) :
    s.quiesceAll.QuiesceInLaw := by
  unfold State.quiesceAll
  split
  · refine State.HoldsInLaw.settled ?_
    unfold State.soundQuiesce
    dsimp only
    have sound := s.sound.quiesce_hold
    have rumble := s.rumble.quiesce_hold
    split
    · exact ⟨nofun, fun _ => ⟨full, rfl, sound, (Rumble.beatLost_hold _).trans rumble⟩, nofun,
        fun _ => sound⟩
    · exact ⟨nofun, fun _ => ⟨full, rfl, sound, rumble⟩, nofun, fun _ => sound⟩
  · exact law
  · exact law

/-- R162: a RESUME clears the three holds. -/
theorem State.resumeAll_released (s : State) : s.resumeAll.Released where
  quiesce := rfl
  store := rfl
  sound := by
    show s.sound.resume.hold = false
    unfold Sound.resume
    dsimp only
    split <;> rfl
  rumble := rfl
  engine := by
    show s.sound.resume.engine ≠ .held
    unfold Sound.resume
    dsimp only
    split
    · exact nofun
    · assumption

theorem State.QuiesceInLaw.commandEffect (law : s.QuiesceInLaw) {c : LinkCmd} (takes : s.takes c = true) :
    (s.commandEffect c).QuiesceInLaw := by
  cases c with
  | quiesce => exact law.quiesceAll ((consoleOn_iff s).1 takes)
  | resume => exact s.resumeAll_released.quiesceInLaw
  | wakeAck => exact (SameHolds.refl.withCal _).quiesceInLaw law
  | status | cal | nextDue | firedHead | setCap => exact law

/-- Outside its quiesce state the law does not read the link. -/
theorem SameHolds.withLink (h : SameHolds s t) (l : Link) (quiesce : l.quiesce = t.link.quiesce := by rfl) :
    SameHolds s (t.withLink l) := h.trans ⟨⟨rfl, quiesce, rfl, rfl, rfl⟩, rfl, Iff.rfl⟩

/-- R160: a cap reaches the rumble unit, and not its hold. -/
theorem SameHolds.writeCap (s : State) (cap : Cap) : SameHolds s (s.writeCap cap) := by
  unfold State.writeCap
  dsimp only
  split
  · exact (refl.withLink _).withRumble _ (Rumble.capChange_hold ..)
  · exact refl.withLink _

/-- R154 to R162: a byte on the link reaches the holds by a quiesce or a resume alone. -/
theorem State.QuiesceInLaw.linkByte (law : s.QuiesceInLaw) (b : Byte) : (s.linkByte b).QuiesceInLaw := by
  have linked (l : Link) (quiesce : l.quiesce = s.link.quiesce) : (s.withLink l).QuiesceInLaw :=
    (SameHolds.refl.withLink l quiesce).quiesceInLaw law
  unfold State.linkByte
  split
  case h_2 =>
    unfold State.addressByte
    split
    · exact linked _ rfl
    · split <;> exact linked _ rfl
  case h_3 =>
    unfold State.commandByte
    split
    · split
      next takes => exact (SameHolds.refl.withLink _).quiesceInLaw (law.commandEffect takes)
      · exact linked _ rfl
    · exact linked _ rfl
  case h_4 =>
    unfold State.argumentByte
    split
    · exact ((SameHolds.writeCap s _).withLink _).quiesceInLaw law
    · exact linked _ rfl
  case h_5 | h_7 => exact linked _ rfl
  case h_1 | h_6 => exact law

/-! ### Every command -/

theorem SameHolds.withQueue (s : State) (cs : List Instr) : SameHolds s { s with pending := cs } :=
  ⟨⟨rfl, rfl, rfl, rfl, rfl⟩, rfl, Iff.rfl⟩

/-- R161, R162: the law of the quiesce state is kept by everything that a command can do. -/
theorem Effect.quiesceInLaw (he : Effect s t) (law : s.QuiesceInLaw) : t.QuiesceInLaw := by
  have same {t : State} (h : SameHolds s t) : t.QuiesceInLaw := h.quiesceInLaw law
  cases he with
  | same => exact law
  | rail rail mv cut => exact law.setRail rail mv cut
  | restart cut => exact (State.Released.fullEntry _).quiesceInLaw
  | crystal => exact same (.crystalEdge s)
  | second => exact same (.secondEvent s)
  | cue slot alarm => exact same (SameHolds.refl.cueRequest slot alarm)
  | play p => exact same (SameHolds.refl.playRequest p)
  | purge => exact same (.purge s)
  | purgeReplied => exact law.purgeReplied
  | store event => exact event.quiesceInLaw law
  | produce _ produces => exact law.produce produces
  | pull => exact same (.pull s)
  | wrap => exact same (SameHolds.refl.withRumble _ (Rumble.wrap_hold ..))
  | unit => exact same (SameHolds.refl.withRumble _ (Rumble.tick_hold ..))
  | trip => exact same ⟨⟨rfl, rfl, rfl, rfl, Rumble.tripNow_hold _⟩, rfl, Iff.rfl⟩
  | @take c v b => exact State.QuiesceInLaw.runUnit (same (SameHolds.refl.setCell c _)) c b
  | abort => exact law.abortStore
  | wire b => exact law.linkByte b
  | detector | settled | motorLevel | enable | ram | refused | acknowledged | start | stop =>
    exact same ⟨⟨rfl, rfl, rfl, rfl, rfl⟩, rfl, Iff.rfl⟩

end

/-- Settles O57: every effect keeps the quiesce state in step with the three holds, so every step does. -/
theorem quiesceLawKept : Obligations.QuiesceLawKept := by
  unfold Obligations.QuiesceLawKept
  intro s t hs h
  have kept : t.QuiesceInLaw := step_keeps
    (fun u cs law => (SameHolds.withQueue u cs).quiesceInLaw law)
    (fun _ _ law effect => effect.quiesceInLaw law) (s.quiesceLawful_iff.1 hs) h
  exact t.quiesceLawful_iff.2 kept

end Sys2Proof.Machine
end

section
/-! SUPPORT. Proofs: a rail's new level, by the judgement that it meets, and the supply events that are not at
the console domain (R163 to R165, R168 to R170). -/
namespace Sys2Proof.Machine

/-! ### Judgements and the supply state that they form (R164) -/

theorem RailState.judge_good (r : RailState) {goodAbove lostBelow mv : Nat} (h : goodAbove < mv) :
    r.judge goodAbove lostBelow mv = { mv := mv, good := true } := by
  rw [RailState.judge, if_pos h]

theorem RailState.judge_lost (r : RailState) {goodAbove lostBelow mv : Nat} (h : mv < lostBelow)
    (apart : lostBelow ≤ goodAbove) : r.judge goodAbove lostBelow mv = { mv := mv, good := false } := by
  rw [RailState.judge, if_neg (Nat.not_lt.2 (Nat.le_trans (Nat.le_of_lt h) apart)), if_pos h]

theorem Supply.state_standby_iff (p : Supply) :
    p.state = .standby ↔ p.vcart.good = false ∧ p.vkeep.good = true := by
  unfold Supply.state
  cases p.vcart.good <;> cases p.vkeep.good <;> cases p.vcell.good <;> decide

theorem Supply.state_backup_iff (p : Supply) :
    p.state = .backup ↔ p.vcart.good = false ∧ p.vkeep.good = false ∧ p.vcell.good = true := by
  unfold Supply.state
  cases p.vcart.good <;> cases p.vkeep.good <;> cases p.vcell.good <;> decide

theorem Supply.state_dead_iff (p : Supply) :
    p.state = .dead ↔ p.vcart.good = false ∧ p.vkeep.good = false ∧ p.vcell.good = false := by
  unfold Supply.state
  cases p.vcart.good <;> cases p.vkeep.good <;> cases p.vcell.good <;> decide

/-! ### CellLow (R170) -/

section
variable {p : Supply} {mv : Nat}

theorem Supply.trackCellLow_of_ne {rail : Rail} (h : rail ≠ .vcell) : p.trackCellLow rail = p :=
  if_neg fun ⟨vcell, _⟩ => h vcell

/-- R170: in Dead CellLow does not follow VCELL. -/
theorem Supply.trackCellLow_of_dead {rail : Rail} (h : p.state = .dead) : p.trackCellLow rail = p :=
  if_neg fun ⟨_, powered⟩ => powered h

theorem Supply.trackCellLow_vcell (h : p.state ≠ .dead) : p.trackCellLow .vcell = p.formCellLow :=
  if_pos ⟨rfl, h⟩

theorem Supply.setRail_vcell_good (h : 2000 ≤ mv) :
    p.setRail .vcell mv = { p with vcell := { mv := mv, good := true } } := by
  rw [Supply.setRail, decide_eq_true h]

theorem Supply.setRail_vcell_lost (h : mv < 2000) :
    p.setRail .vcell mv = { p with vcell := { mv := mv, good := false } } := by
  rw [Supply.setRail, decide_eq_false (Nat.not_le.2 h)]

/-! ### The rails that do not bear on CellLow -/

theorem Supply.setRail_vcart_lost (h : mv < 2700) : (p.setRail .vcart mv).trackCellLow .vcart =
    { p with vcart := { mv := mv, good := false } } := by
  rw [Supply.trackCellLow_of_ne (by decide), Supply.setRail, RailState.judge_lost _ h (by decide)]

theorem Supply.setRail_vkeep_good (h : 2600 < mv) : (p.setRail .vkeep mv).trackCellLow .vkeep =
    { p with vkeep := { mv := mv, good := true } } := by
  rw [Supply.trackCellLow_of_ne (by decide), Supply.setRail, RailState.judge_good _ h]

theorem Supply.setRail_vkeep_lost (h : mv < 2400) : (p.setRail .vkeep mv).trackCellLow .vkeep =
    { p with vkeep := { mv := mv, good := false } } := by
  rw [Supply.trackCellLow_of_ne (by decide), Supply.setRail, RailState.judge_lost _ h (by decide)]

end

/-! ### The wake line (R159) -/

theorem State.wak_eq (s : State) : s.wak =
    if s.supplyState = .full then some false
    else if s.supplyState = .standby then some s.cal.wakePending else none := by
  unfold State.wak State.keepOn
  cases s.supplyState <;> rfl

theorem State.wak_backup {s : State} (h : s.supplyState = .backup) : s.wak = none := by
  rw [State.wak_eq, h]
  rfl

/-! ### The event of a rail's new level (R165) -/

section
variable {s : State} {rail : Rail} {mv : Nat} {p : Supply}

/-- R165: a new level changes the rails, and the supply events are those of the change of supply state. -/
theorem exec_railJudgementChange (cut : WriteCut) (rails : (s.supply.setRail rail mv).trackCellLow rail = p)
    {before after : SupplyState} (hb : s.supplyState = before) (ha : p.state = after) :
    exec (.railJudgementChange rail mv cut) s =
      .next (({ s with supply := p } : State).supplyEvents before after cut) := by
  subst rails hb ha
  rfl

/-- R168: a supply state left for Dead is a power-down of every domain. -/
theorem State.supplyEvents_toDead (s : State) {before : SupplyState} (h : before ≠ .dead) (cut : WriteCut) :
    s.supplyEvents before .dead cut = s.powerDown := by
  cases before with
  | dead => exact absurd rfl h
  | full | standby | backup => rfl

/-- R165, R166: every change of supply state to Full ends with Full entry. -/
theorem State.supplyEvents_toFull (s : State) {before : SupplyState} (h : before ≠ .full) (cut : WriteCut) :
    ∃ u : State, u.supplyState = s.supplyState ∧ s.supplyEvents before .full cut = u.fullEntry := by
  cases before with
  | full => exact absurd rfl h
  | standby => exact ⟨s, rfl, rfl⟩
  | backup => exact ⟨s.keepPowerUp, rfl, rfl⟩
  | dead => exact ⟨s.coldStart.keepPowerUp, rfl, rfl⟩

/-- R170: a level of VCELL that crosses no judgement leaves the supply state, and CellLow follows it. -/
theorem exec_cellLowChange_within (powered : s.supplyState ≠ .dead)
    (within : s.supply.vcell.good = decide (2000 ≤ mv)) :
    exec (.cellLowChange mv) s = .next { s with supply := { s.supply with
      vcell := { s.supply.vcell with mv := mv }, cellLow := decide (mv < 2500) } } := by
  have level : s.supply.setRail .vcell mv = { s.supply with vcell := { s.supply.vcell with mv := mv } } := by
    rw [Supply.setRail, ← within]
  have rails : (s.supply.setRail .vcell mv).trackCellLow .vcell =
      { s.supply with vcell := { s.supply.vcell with mv := mv }, cellLow := decide (mv < 2500) } := by
    rw [level]
    exact Supply.trackCellLow_vcell powered
  refine (exec_railJudgementChange ⟨.nextEvent, .old⟩ rails rfl rfl).trans ?_
  show Host.Outcome.next (State.supplyEvents _ s.supplyState s.supplyState _) = _
  cases s.supplyState <;> rfl

end

/-- Settles O7: each event by the rails that it leaves and the supply events of the change that they make. -/
theorem coldStartKeepPowerAndCellLow : Obligations.ColdStartKeepPowerAndCellLow := by
  unfold Obligations.ColdStartKeepPowerAndCellLow
  refine ⟨?cellBack, ?keepBack, ?keepUp, ?toBackup, ?toDead, fun s mv powered within =>
    exec_cellLowChange_within powered within⟩
  case cellBack =>
    intro s mv cut dead good
    obtain ⟨vcart, vkeep, -⟩ := s.supply.state_dead_iff.1 dead
    have after : ({ s.supply with vcell := { mv := mv, good := true } } : Supply).state = .backup :=
      (Supply.state_backup_iff _).2 ⟨vcart, vkeep, rfl⟩
    have rails : (s.supply.setRail .vcell mv).trackCellLow .vcell = { s.supply with
        vcell := { mv := mv, good := true }, cellLow := decide (mv < 2500) } := by
      rw [Supply.setRail_vcell_good good]
      exact Supply.trackCellLow_vcell (by rw [after]; decide)
    exact exec_railJudgementChange cut rails dead after
  case keepBack =>
    intro s mv cut dead good
    obtain ⟨vcart, -, -⟩ := s.supply.state_dead_iff.1 dead
    exact exec_railJudgementChange cut (Supply.setRail_vkeep_good good) dead
      ((Supply.state_standby_iff _).2 ⟨vcart, rfl⟩)
  case keepUp =>
    intro s mv cut backup good
    obtain ⟨vcart, -, -⟩ := s.supply.state_backup_iff.1 backup
    exact exec_railJudgementChange cut (Supply.setRail_vkeep_good good) backup
      ((Supply.state_standby_iff _).2 ⟨vcart, rfl⟩)
  case toBackup =>
    intro s mv cut standby cell lost
    obtain ⟨vcart, -⟩ := s.supply.state_standby_iff.1 standby
    have after : ({ s.supply with vkeep := { mv := mv, good := false } } : Supply).state = .backup :=
      (Supply.state_backup_iff _).2 ⟨vcart, rfl, cell⟩
    refine ⟨_, exec_railJudgementChange cut (Supply.setRail_vkeep_lost lost) standby after, after,
      State.wak_backup after, rfl⟩
  case toDead =>
    intro s rail mv cut p h
    obtain ⟨before, rails, dead⟩ : s.supplyState ≠ .dead ∧
        (s.supply.setRail rail mv).trackCellLow rail = p ∧ p.state = .dead := by
      rcases h with ⟨full, vkeep, vcell, rfl, lost, rfl⟩ | ⟨standby, vcell, rfl, lost, rfl⟩ |
        ⟨backup, rfl, lost, rfl⟩
      · exact ⟨by rw [full]; decide, Supply.setRail_vcart_lost lost,
          (Supply.state_dead_iff _).2 ⟨rfl, vkeep, vcell⟩⟩
      · obtain ⟨vcart, -⟩ := s.supply.state_standby_iff.1 standby
        exact ⟨by rw [standby]; decide, Supply.setRail_vkeep_lost lost,
          (Supply.state_dead_iff _).2 ⟨vcart, rfl, vcell⟩⟩
      · obtain ⟨vcart, vkeep, -⟩ := s.supply.state_backup_iff.1 backup
        have dead : ({ s.supply with vcell := { mv := mv, good := false } } : Supply).state = .dead :=
          (Supply.state_dead_iff _).2 ⟨vcart, vkeep, rfl⟩
        refine ⟨by rw [backup]; decide, ?_, dead⟩
        rw [Supply.setRail_vcell_lost lost]
        exact Supply.trackCellLow_of_dead dead
    rw [exec_railJudgementChange cut rails rfl dead, State.supplyEvents_toDead _ before]
    rfl

end Sys2Proof.Machine
end

section
/-! SUPPORT. Proofs: bytes on the standby link, by the target's state, and the command bytes (R154 to R156,
R159, R174). -/
namespace Sys2Proof.Machine

section
variable {s : State} {b : Byte} {c : LinkCmd} {cap : Cap}

/-! ### A byte on the wire, by the target's state (R154) -/

theorem State.keepOn_iff (s : State) :
    s.keepOn = true ↔ s.supplyState = .full ∨ s.supplyState = .standby := by simp [State.keepOn]

theorem State.wireByte_on (h : s.keepOn = true) : s.wireByte b = s.linkByte b := if_pos h

theorem State.wireByte_off (h : s.keepOn = false) : s.wireByte b = s := if_neg (Bool.eq_false_iff.1 h)

theorem State.wireByte_address (on : s.keepOn = true) (ht : s.link.target = .address) :
    s.wireByte b = s.addressByte b := by
  rw [State.wireByte_on on, State.linkByte, ht]

theorem State.wireByte_command (on : s.keepOn = true) (ht : s.link.target = .command) :
    s.wireByte b = s.commandByte b := by
  rw [State.wireByte_on on, State.linkByte, ht]

theorem State.wireByte_argument (on : s.keepOn = true) (ht : s.link.target = .argument) :
    s.wireByte b = s.argumentByte b := by
  rw [State.wireByte_on on, State.linkByte, ht]

/-- R154: past its command, and while it ignores the bus, the target acknowledges no byte. -/
theorem State.wireByte_ignored (on : s.keepOn = true)
    (ht : s.link.target = .complete ∨ s.link.target = .ignore) :
    s.wireByte b = s.withLink (s.link.nacked .ignore) := by
  rw [State.wireByte_on on, State.linkByte]
  rcases ht with ht | ht <;> rw [ht]

/-! ### Command bytes (R155) -/

/-- R155: a byte that names a command which the supply state allows. -/
theorem goesOn_takes (b : Byte) (c : LinkCmd) (on : s.keepOn = true) (ht : s.link.target = .command)
    (names : LinkCmd.ofByte b = some c) (takes : s.takes c = true) :
    goesOn (s.wireByte b) = .next (s.takeCommand c) := by
  rw [State.wireByte_command on ht, State.commandByte, names]
  exact congrArg _ (if_pos takes)

/-- R155, R174: a byte that names no command, or one that the supply state does not allow. -/
theorem State.wireByte_refused (on : s.keepOn = true) (ht : s.link.target = .command)
    (refused : ∀ c, LinkCmd.ofByte b = some c → s.takes c = false) :
    s.wireByte b = s.withLink { s.link.nacked .ignore with selected := none } := by
  rw [State.wireByte_command on ht, State.commandByte]
  split
  next names => exact if_neg (Bool.eq_false_iff.1 (refused _ names))
  · rfl

/-- TABLE 9-3: the bytes of the eight commands; every other byte names none. -/
theorem LinkCmd.ofByte_eq_none
    (h : b ∉ ([0x01, 0x02, 0x03, 0x04, 0x10, 0x11, 0x12, 0x13] : List Byte)) : LinkCmd.ofByte b = none := by
  simp only [List.mem_cons, List.not_mem_nil, or_false, not_or] at h
  obtain ⟨status, cal, nextDue, firedHead, wakeAck, setCap, quiesce, resume⟩ := h
  rw [LinkCmd.ofByte, if_neg status, if_neg cal, if_neg nextDue, if_neg firedHead, if_neg wakeAck,
    if_neg setCap, if_neg quiesce, if_neg resume]

/-- R155: QUIESCE and RESUME are taken in Full alone. -/
theorem State.takes_eq_false (off : s.supplyState ≠ .full) (hc : c = .quiesce ∨ c = .resume) :
    s.takes c = false := by
  have unpowered : s.consoleOn = false := Bool.eq_false_iff.2 fun on => off ((consoleOn_iff s).1 on)
  rcases hc with rfl | rfl <;> exact unpowered

/-! ### Argument bytes (R155, R160) -/

theorem State.wireByte_cap (on : s.keepOn = true) (ht : s.link.target = .argument)
    (encodes : Cap.ofByte b = some cap) :
    s.wireByte b = (s.writeCap cap).withLink ((s.writeCap cap).link.acked .complete) := by
  rw [State.wireByte_argument on ht, State.argumentByte, encodes]

theorem State.wireByte_noCap (on : s.keepOn = true) (ht : s.link.target = .argument)
    (encodes : Cap.ofByte b = none) : s.wireByte b = s.withLink (s.link.nacked .ignore) := by
  rw [State.wireByte_argument on ht, State.argumentByte, encodes]

theorem Cap.ofByte_eq_none (h : 3 ≤ b.toNat) : Cap.ofByte b = none := by
  have ne (x : Byte) (hx : x.toNat < 3) : b ≠ x := fun e => by
    rw [e] at h
    omega
  rw [Cap.ofByte, if_neg (ne 0 (by decide)), if_neg (ne 1 (by decide)), if_neg (ne 2 (by decide))]

/-- R160: the value already held, and any value outside Full, reach no unit. -/
theorem State.writeCap_alone (h : cap = s.link.cap ∨ s.supplyState ≠ .full) :
    s.writeCap cap = s.withLink { s.link with cap := cap } := by
  refine if_neg fun ⟨changed, on⟩ => ?_
  rcases h with same | off
  · exact changed same
  · exact off ((consoleOn_iff s).1 on)

/-- R160, R133: a change in Full reaches the rumble unit. -/
theorem State.writeCap_changes (full : s.supplyState = .full) (changed : cap ≠ s.link.cap) :
    s.writeCap cap = (s.withLink { s.link with cap := cap }).withRumble (s.rumble.capChange cap) :=
  if_pos ⟨changed, (consoleOn_iff s).2 full⟩

theorem Rumble.capChange_on (r : Rumble) (h : cap ≠ .off) :
    r.capChange cap = { r with capChanged := true } := if_neg h

end

/-- Settles O48: each byte by what it names and by the target's state; outside the keep domain's power no byte
is heard. -/
theorem linkCommands : Obligations.LinkCommands := by
  unfold Obligations.LinkCommands
  refine ⟨?reads, ?unnamed, ?standby, ?ignored, ?unpowered⟩
  case reads =>
    intro s on ht
    exact ⟨goesOn_takes 0x01 .status on ht rfl rfl, goesOn_takes 0x02 .cal on ht rfl rfl,
      goesOn_takes 0x03 .nextDue on ht rfl rfl, goesOn_takes 0x04 .firedHead on ht rfl rfl⟩
  case unnamed =>
    intro s x on ht hx
    refine congrArg _ (State.wireByte_refused on ht fun c names => ?_)
    rw [LinkCmd.ofByte_eq_none hx] at names
    cases names
  case standby =>
    intro s standby ht
    have on := s.keepOn_iff.2 (.inr standby)
    have off : s.supplyState ≠ .full := by rw [standby]; decide
    have refused {b : Byte} {c : LinkCmd} (names : LinkCmd.ofByte b = some c)
        (hc : c = .quiesce ∨ c = .resume) :
        s.wireByte b = s.withLink { s.link.nacked .ignore with selected := none } :=
      State.wireByte_refused on ht fun c' names' => by
        rw [names] at names'
        injection names' with e
        exact e ▸ State.takes_eq_false off hc
    exact ⟨congrArg _ (refused rfl (.inl rfl)), congrArg _ (refused rfl (.inr rfl))⟩
  case ignored =>
    intro s x on ht
    exact congrArg _ (State.wireByte_ignored on ht)
  case unpowered =>
    intro s x off
    exact ⟨congrArg _ (State.wireByte_off off), congrArg _ (State.wireByte_off off),
      if_neg (Bool.eq_false_iff.1 off)⟩

/-- Settles O49: the line by the supply state, WAKE_ACK by its command byte, Full entry by what it leaves. -/
theorem wakeLine : Obligations.WakeLine := by
  unfold Obligations.WakeLine
  refine ⟨State.wak_eq, ?acknowledged, ?fullEntry⟩
  case acknowledged =>
    intro s powered ht
    exact goesOn_takes 0x10 .wakeAck (s.keepOn_iff.2 powered) ht rfl rfl
  case fullEntry =>
    intro s mv cut off good
    have after := Supply.setRail_vcart_state s.supply good
    obtain ⟨u, same, entered⟩ := State.supplyEvents_toFull
      { s with supply := (s.supply.setRail .vcart mv).trackCellLow .vcart } off cut
    have full : u.fullEntry.supplyState = .full := same.trans after
    refine ⟨_, exec_railJudgementChange cut rfl rfl after, ?_⟩
    rw [entered]
    exact ⟨full, rfl, by rw [State.wak_eq, if_pos full]⟩

/-- Settles O50: the command byte, then each argument byte by the cap that it encodes and by what the cap
reaches. -/
theorem setCap : Obligations.SetCap := by
  unfold Obligations.SetCap
  refine ⟨?command, ?unchanged, ?changed, ?endsPlays, ?noPlays, ?noCap⟩
  case command =>
    intro s on ht
    exact goesOn_takes 0x11 .setCap on ht rfl rfl
  case unchanged =>
    intro s x cap on ht hx h
    have encodes : Cap.ofByte x = some cap := by
      subst hx
      cases cap <;> rfl
    have alone : s.writeCap cap = s.withLink { s.link with cap := cap } :=
      State.writeCap_alone (h.imp_right fun standby => by rw [standby]; decide)
    refine congrArg _ ((State.wireByte_cap on ht encodes).trans ?_)
    rw [alone]
    rfl
  case changed =>
    intro s x cap full ht hx ne
    have encodes : Cap.ofByte x = some cap ∧ cap ≠ .off := by
      rcases hx with ⟨rfl, rfl⟩ | ⟨rfl, rfl⟩ <;> exact ⟨rfl, by decide⟩
    obtain ⟨encodes, motor⟩ := encodes
    refine congrArg _ ((State.wireByte_cap (s.keepOn_iff.2 (.inl full)) ht encodes).trans ?_)
    rw [State.writeCap_changes full ne, Rumble.capChange_on _ motor]
    rfl
  case endsPlays =>
    intro s c full ht on playing room
    refine congrArg _ ((State.wireByte_cap (s.keepOn_iff.2 (.inl full)) ht rfl).trans ?_)
    rw [State.writeCap_changes full on.symm, Rumble.capChange, if_pos rfl,
      Rumble.endAll_eq { s.rumble with capChanged := true } .capped c playing room]
    rfl
  case noPlays =>
    intro s full ht on idle empty
    refine congrArg _ ((State.wireByte_cap (s.keepOn_iff.2 (.inl full)) ht rfl).trans ?_)
    rw [State.writeCap_changes full on.symm, Rumble.capChange, if_pos rfl,
      Rumble.endAll_of_idle { s.rumble with capChanged := true } .capped idle empty]
    rfl
  case noCap =>
    intro s x on ht hx
    exact congrArg _ (State.wireByte_noCap on ht (Cap.ofByte_eq_none hx))

end Sys2Proof.Machine
end

section
/-! SUPPORT. Proofs: the frames of the standby link: conditions, the address byte, and the four responses (R154,
R156 to R158, TABLE 11-13). -/
namespace Sys2Proof.Machine

/-! ### Bytes of flags -/

/-- A byte of at most eight flags is the number that they spell. -/
theorem bitsByte_eq_ofNat {bs : List Bool} (h : bs.length ≤ 8) :
    bitsByte bs = BitVec.ofNat 8 (bitsNat bs) := by
  refine BitVec.eq_of_getLsbD_eq fun k hk => ?_
  rw [bitsByte_getLsbD bs h, BitVec.getLsbD_ofNat, bitsNat_testBit, decide_eq_true hk, Bool.true_and]

theorem bitsByte_four (a b c d : Bool) :
    bitsByte [a, b, c, d] = BitVec.ofNat 8 (a.toNat + 2 * b.toNat + 4 * c.toNat + 8 * d.toNat) := by
  rw [bitsByte_eq_ofNat (by simp)]
  simp only [bitsNat]
  exact congrArg _ (by omega)

theorem bitsByte_three (a b c : Bool) :
    bitsByte [a, b, c] = BitVec.ofNat 8 (a.toNat + 2 * b.toNat + 4 * c.toNat) := by
  rw [bitsByte_eq_ofNat (by simp)]
  simp only [bitsNat]
  exact congrArg _ (by omega)

/-! ### The address byte (R154, R156) -/

section
variable {s : State} {x : Byte}

theorem exec_startCondition (on : s.keepOn = true) :
    exec .startCondition s = .next (s.withLink s.link.start) := if_pos on

theorem exec_stopCondition (on : s.keepOn = true) :
    exec .stopCondition s = .next (s.withLink s.link.stop) := if_pos on

theorem exec_addressByte (on : s.keepOn = true) (ht : s.link.target = .address) :
    exec (.addressByte x) s = .next (s.addressByte x) := congrArg _ (State.wireByte_address on ht)

/-- R156: an address for reading captures the response. -/
theorem State.addressByte_read (s : State) : s.addressByte 0x59 =
    s.withLink { s.link.acked .read with response := s.linkResponse } := rfl

/-- R154: an address of another part. -/
theorem State.addressByte_other (write : x ≠ 0x58) (read : x ≠ 0x59) :
    s.addressByte x = s.withLink (s.link.nacked .ignore) := by
  rw [State.addressByte, if_neg write, if_neg read]

/-! ### The responses (R157, R158) -/

theorem State.calResponse_length (s : State) : s.calResponse.length = 10 := rfl

theorem State.nextDueResponse_length (s : State) : s.nextDueResponse.length = 7 := by
  unfold State.nextDueResponse
  split <;> rfl

theorem State.firedHeadResponse_length (s : State) : s.firedHeadResponse.length = 17 := by
  unfold State.firedHeadResponse
  split <;> rfl

theorem SupplyState.code_powered {p : SupplyState} (h : p ≠ .dead) :
    p.code = if p = .full then 0 else if p = .standby then 1 else 2 := by
  cases p with
  | dead => exact absurd rfl h
  | full | standby | backup => rfl

/-- R157: the rumble state in STATUS, with the unit powered. -/
theorem Rumble.state_statusCode (r : Rumble) : r.state.code + 1 =
    if r.hold then 4 else if r.trip then 3 else if r.current = none then 1 else 2 := by
  unfold Rumble.state
  cases r.hold <;> cases r.trip <;> cases r.current <;> rfl

/-- R157: outside Full the three units of the console domain read 0 in STATUS. -/
theorem State.statusCodes_unpowered (off : s.supplyState ≠ .full) :
    s.storeStatusCode = 0 ∧ s.soundStatusCode = 0 ∧ s.rumbleStatusCode = 0 := by
  have unpowered : ¬ s.consoleOn = true := fun on => off ((consoleOn_iff s).1 on)
  exact ⟨if_neg unpowered, if_neg unpowered, if_neg unpowered⟩

theorem State.statusCodes_full (full : s.supplyState = .full) :
    s.storeStatusCode = s.store.status.code ∧ s.soundStatusCode = s.sound.engine.code + 1 ∧
      s.rumbleStatusCode = s.rumble.state.code + 1 := by
  have powered := (consoleOn_iff s).2 full
  exact ⟨if_pos powered, if_pos powered, if_pos powered⟩

end

/-- Settles O47: conditions and address bytes by the target's state, the responses field by field. -/
theorem linkFrames : Obligations.LinkFrames := by
  unfold Obligations.LinkFrames
  refine ⟨fun s on => exec_startCondition on, fun s on => exec_stopCondition on,
    fun s on ht => exec_addressByte on ht, ?read, ?other, ?past, ?clocked, ?lengths, ?cal, ?status, ?noAlarm,
    ?nextDue, ?noFired, ?firedHead⟩
  case read =>
    intro s bytes on ht hbytes
    have captured : s.linkResponse = bytes := hbytes.symm
    rw [exec_addressByte on ht, State.addressByte_read, captured]
    rfl
  case other =>
    intro s x on ht write read
    rw [exec_addressByte on ht, State.addressByte_other write read]
    rfl
  case past =>
    intro s k hk
    rw [State.linkByteOut, List.getD_eq_getElem?_getD, List.getElem?_eq_none hk]
    rfl
  case clocked =>
    intro s k x hx
    rw [State.linkByteOut, List.getD_eq_getElem?_getD, hx]
    rfl
  case lengths =>
    exact fun s => ⟨rfl, s.calResponse_length, s.nextDueResponse_length, s.firedHeadResponse_length⟩
  case cal =>
    intro s
    rw [State.calResponse, gameDay_eq]
  case status =>
    intro s store sound rumble inFull powered
    have codes : s.supplyState.code = (if s.supplyState = .full then 0 else 1) ∧ s.storeStatusCode = store ∧
        s.soundStatusCode = sound ∧ s.rumbleStatusCode = rumble := by
      rcases powered with full | ⟨standby, rfl, rfl, rfl⟩
      · obtain ⟨rfl, rfl, rfl⟩ := inFull full
        obtain ⟨store, sound, rumble⟩ := State.statusCodes_full full
        refine ⟨by rw [full]; rfl, store.trans ?_, sound.trans ?_, rumble.trans s.rumble.state_statusCode⟩
        · cases s.store.status <;> rfl
        · cases s.sound.engine <;> rfl
      · exact ⟨by rw [standby]; rfl, State.statusCodes_unpowered (by rw [standby]; decide)⟩
    obtain ⟨supply, store, sound, rumble⟩ := codes
    rw [State.statusResponse, supply, store, sound, rumble, bitsByte_four]
    rfl
  case noAlarm =>
    intro s none
    rw [State.nextDueResponse, none]
  case nextDue =>
    intro s a rest head
    rw [State.nextDueResponse, head]
  case noFired =>
    intro s none
    rw [State.firedHeadResponse, none]
  case firedHead =>
    intro s f rest head powered
    rw [State.firedHeadResponse, head]
    dsimp only
    rw [Fired.bytes, SupplyState.code_powered powered, bitsByte_three]
    rfl

end Sys2Proof.Machine
end

section
/-! SUPPORT. Proofs: a QUIESCE and a RESUME, unit by unit (R16, R109, R136, R161, R162). -/
namespace Sys2Proof.Machine

/-! ### What each unit makes of a QUIESCE and of a RESUME -/

/-- R16: the store that a QUIESCE reaches counts as held once it is Quiesced, or Unformatted and idle. -/
theorem Store.quiesce_held_iff (st : Store) : st.quiesce.held = true ↔
    st.quiesce.status = .quiesced ∨ st.quiesce.status = .unformatted ∧ st.op = .none := by
  rw [Store.held_iff]
  exact or_congr_right (and_congr_right fun _ => and_iff_right rfl)

/-- R109: a QUIESCE holds a Stopped engine at once, and a Running one only at the end of its ramp. -/
theorem Sound.quiesce_held_iff (so : Sound) :
    so.quiesce.engine = .held ↔ so.engine = .stopped ∨ so.engine = .held := by
  unfold Sound.quiesce
  cases so.engine <;> simp [Sound.mute]

theorem Sound.quiesce_eq (so : Sound) : so.quiesce =
    match so.engine with
    | .running => { so with hold := true, notes := [], engine := .muting }
    | .stopped => { so with hold := true, engine := .held }
    | .muting | .held => { so with hold := true } := by
  unfold Sound.quiesce
  cases so.engine <;> rfl

theorem Sound.resume_held {so : Sound} (h : so.engine = .held) :
    so.resume = { so with hold := false, engine := .stopped, fifo := [] } := if_pos h

theorem Sound.resume_other {so : Sound} (h : so.engine ≠ .held) : so.resume = { so with hold := false } :=
  if_neg h

/-- R136: the unit that a QUIESCE reaches has no play, if a tripped or a held one has none. -/
theorem Rumble.quiesce_idle {r : Rumble} (h : r.trip = true ∨ r.hold = true → r.current = none) :
    r.quiesce.current = none := by
  unfold Rumble.quiesce
  split
  next held => exact h (.inr held)
  · split
    next tripped => exact h (.inl tripped)
    · rfl

/-- R136: the plays end Quiesced, the current one first. -/
theorem Rumble.quiesce_eq (r : Rumble) (room : r.outcomes.length ≤ 8) : r.quiesce =
    if r.hold then r
    else if r.trip then { r with hold := true }
    else { r with
      hold := true, current := none, queue := [], duty := 0,
      outcomes := (r.outcomes ++ endings r.plays .quiesced).take 8 } := by
  rw [Rumble.quiesce, Rumble.endAll_eq_plays r .quiesced room]

/-! ### The three units together (R161, R162) -/

section
variable {s : State}

/-- R110, R132: with no play in the rumble unit the beat-lost signal of the engine finds none. -/
theorem State.soundQuiesce_idle (h : s.rumble.current = none) :
    s.soundQuiesce = s.withSound s.sound.quiesce := by
  unfold State.soundQuiesce
  dsimp only
  split
  · rw [State.beatLostSignal, State.withSound_rumble, Rumble.beatLost_of_none _ h]
    rfl
  · rfl

/-- R161: a QUIESCE from None, with its held report. -/
theorem State.quiesceAll_none (hq : s.link.quiesce = .none)
    (idle : s.rumble.trip = true ∨ s.rumble.hold = true → s.rumble.current = none) {held : Bool}
    (hheld : held = true ↔ s.store.quiesce.held = true ∧ s.sound.quiesce.engine = .held) :
    s.quiesceAll = { s with
      link := { s.link with quiesce := if held then .done else .pending }, store := s.store.quiesce,
      sound := s.sound.quiesce, rumble := s.rumble.quiesce } := by
  have all (t : State) (store : t.store = s.store.quiesce) (sound : t.sound = s.sound.quiesce)
      (rumble : t.rumble = s.rumble.quiesce) : t.allHeld = held := by
    rw [Bool.eq_iff_iff, State.allHeld_iff, store, sound, rumble, Rumble.quiesce_hold, hheld]
    simp
  rw [State.quiesceAll, hq]
  dsimp only
  rw [State.soundQuiesce_idle (Rumble.quiesce_idle idle), State.settleQuiesce_eq, all _ rfl rfl rfl]
  cases held <;> rfl

/-- R161: a QUIESCE in Pending or Done changes nothing. -/
theorem State.quiesceAll_inForce (hq : s.link.quiesce ≠ .none) : s.quiesceAll = s := by
  unfold State.quiesceAll
  split
  next none => exact absurd none hq
  · rfl
  · rfl

/-- R161, R162: in Full the two command bytes are taken. -/
theorem exec_quiesce (full : s.supplyState = .full) (ht : s.link.target = .command) :
    exec .quiesce s = .next (s.takeCommand .quiesce) :=
  goesOn_takes 0x12 .quiesce (s.keepOn_iff.2 (.inl full)) ht rfl ((consoleOn_iff s).2 full)

theorem exec_resume (full : s.supplyState = .full) (ht : s.link.target = .command) :
    exec .resume s = .next (s.takeCommand .resume) :=
  goesOn_takes 0x13 .resume (s.keepOn_iff.2 (.inl full)) ht rfl ((consoleOn_iff s).2 full)

end

/-- Settles O51: each unit's part by its own equation, Done by the two units that may not be held at once. -/
theorem quiesceAndResume : Obligations.QuiesceAndResume := by
  unfold Obligations.QuiesceAndResume
  refine ⟨?quiesce, ?again, ?resumeHeld, ?resume⟩
  case quiesce =>
    rintro s _ _ held full ht hq room idle rfl rfl hheld
    have units : held = true ↔ s.store.quiesce.held = true ∧ s.sound.quiesce.engine = .held := by
      rw [Store.quiesce_held_iff, Sound.quiesce_held_iff]
      exact hheld
    rw [exec_quiesce full ht, State.takeCommand, State.commandEffect,
      State.quiesceAll_none hq (fun h => (idle h).1) units, Rumble.quiesce_eq _ room, Sound.quiesce_eq]
    rfl
  case again =>
    intro s full ht hq
    rw [exec_quiesce full ht, State.takeCommand, State.commandEffect, State.quiesceAll_inForce hq]
    rfl
  case resumeHeld =>
    intro s full ht engine
    rw [exec_resume full ht, State.takeCommand, State.commandEffect, State.resumeAll, Sound.resume_held engine]
    rfl
  case resume =>
    intro s full ht engine
    rw [exec_resume full ht, State.takeCommand, State.commandEffect, State.resumeAll, Sound.resume_other engine]
    rfl

end Sys2Proof.Machine
end

section
/-! SUPPORT. Proofs: the supply law by its parts, through supply events, alarms, the units and the link, and
every step (R78, R163 to R170; O53). -/
namespace Sys2Proof.Machine

/-! ### The rails under a new level (R164, R170) -/

section
variable {p : Supply}

/-- R164: whatever a rail was judged before, its judgement agrees with the new level. -/
theorem RailState.judge_agrees (r : RailState) {goodAbove lostBelow : Nat} (apart : lostBelow ≤ goodAbove)
    (mv : Nat) : (r.judge goodAbove lostBelow mv).agrees goodAbove lostBelow := by
  by_cases high : goodAbove < mv
  · rw [r.judge_good high]
    exact ⟨fun _ => Nat.le_of_lt (Nat.lt_of_le_of_lt apart high), nofun⟩
  · by_cases low : mv < lostBelow
    · rw [r.judge_lost low apart]
      exact ⟨nofun, fun _ => Nat.le_of_lt (Nat.lt_of_lt_of_le low apart)⟩
    · rw [RailState.judge, if_neg high, if_neg low]
      exact ⟨fun _ => Nat.not_lt.1 low, fun _ => Nat.not_lt.1 high⟩

theorem Supply.setRail_lawful (h : p.lawful) (rail : Rail) (mv : Nat) : (p.setRail rail mv).lawful := by
  obtain ⟨vcart, vkeep, vcell⟩ := h
  cases rail with
  | vcart => exact ⟨p.vcart.judge_agrees (by decide) mv, vkeep, vcell⟩
  | vkeep => exact ⟨vcart, p.vkeep.judge_agrees (by decide) mv, vcell⟩
  | vcell => exact ⟨vcart, vkeep, rfl⟩

/-- R170: tracking touches CellLow alone. -/
theorem Supply.trackCellLow_frame (p : Supply) (rail : Rail) :
    p.trackCellLow rail = { p with cellLow := (p.trackCellLow rail).cellLow } := by
  unfold Supply.trackCellLow
  split <;> rfl

theorem Supply.trackCellLow_state (p : Supply) (rail : Rail) : (p.trackCellLow rail).state = p.state := by
  rw [Supply.trackCellLow_frame]
  rfl

theorem Supply.trackCellLow_lawful (h : p.lawful) (rail : Rail) : (p.trackCellLow rail).lawful := by
  rw [Supply.trackCellLow_frame]
  exact h

/-- R170: between powered supply states CellLow stays in step with VCELL. -/
theorem Supply.setRail_cellLow (h : p.cellLow = decide (p.vcell.mv < 2500)) {rail : Rail} {mv : Nat}
    (powered : (p.setRail rail mv).state ≠ .dead) :
    ((p.setRail rail mv).trackCellLow rail).cellLow =
      decide (((p.setRail rail mv).trackCellLow rail).vcell.mv < 2500) := by
  cases rail with
  | vcart | vkeep => exact h
  | vcell =>
    rw [Supply.trackCellLow_vcell powered]
    rfl

end

section
variable {s t : State}

/-! ### What supply events leave of the rails and of the console domain (R165 to R169) -/

/-- R167: a supply loss, field by field. -/
theorem State.supplyLoss_eq (s : State) (cut : WriteCut) : s.supplyLoss cut =
    { s with sram := (s.cutWrite cut).sram, port := .reset, store := .unpowered, sound := .reset,
             rumble := .reset, link := { s.link with quiesce := .none } } := by
  rw [State.supplyLoss, State.cutWrite_frame]

@[simp] theorem State.supplyLoss_supply (s : State) (cut : WriteCut) : (s.supplyLoss cut).supply = s.supply := by
  rw [State.supplyLoss_eq]

/-- R165, R169, R170: of the rails and CellLow the supply events touch CellLow alone, at a cold start. -/
theorem State.supplyEvents_supply (s : State) (before after : SupplyState) (cut : WriteCut) :
    (s.supplyEvents before after cut).supply =
      if before = .dead ∧ after ≠ .dead then s.supply.formCellLow else s.supply := by
  cases before with
  | dead => cases after <;> rfl
  | backup | standby => cases after <;> rfl
  | full =>
    cases after with
    | standby | backup => exact s.supplyLoss_supply cut
    | full | dead => rfl

/-- R167: no quiesce is in force, and the console domain is without power. -/
structure State.ConsoleDown (s : State) : Prop where
  quiesce : s.link.quiesce = .none
  lost : s.consoleLost

namespace State.ConsoleDown

theorem withSupply (h : s.ConsoleDown) (p : Supply) : ({ s with supply := p } : State).ConsoleDown :=
  ⟨h.quiesce, h.lost⟩

theorem coldStart (h : s.ConsoleDown) : s.coldStart.ConsoleDown := ⟨h.quiesce, h.lost⟩

theorem keepPowerUp (h : s.ConsoleDown) : s.keepPowerUp.ConsoleDown := ⟨rfl, h.lost⟩

theorem backupEntry (h : s.ConsoleDown) : s.backupEntry.ConsoleDown := ⟨rfl, h.lost⟩

theorem supplyLoss (s : State) (cut : WriteCut) : (s.supplyLoss cut).ConsoleDown := ⟨rfl, rfl, rfl, rfl, rfl⟩

theorem powerDown (s : State) : s.powerDown.ConsoleDown := ⟨rfl, rfl, rfl, rfl, rfl⟩

/-- R165: every change of supply state that ends outside Full leaves the console domain without power. -/
theorem supplyEvents {before after : SupplyState} (h : before ≠ .full → s.ConsoleDown) (off : after ≠ .full)
    (cut : WriteCut) : (s.supplyEvents before after cut).ConsoleDown := by
  cases after with
  | full => exact absurd rfl off
  | standby =>
    cases before with
    | full => exact supplyLoss s cut
    | standby => exact h nofun
    | backup => exact (h nofun).keepPowerUp
    | dead => exact (h nofun).coldStart.keepPowerUp
  | backup =>
    cases before with
    | full => exact (supplyLoss s cut).backupEntry
    | standby => exact (h nofun).backupEntry
    | backup => exact h nofun
    | dead => exact (h nofun).coldStart
  | dead =>
    cases before with
    | full | standby | backup => exact powerDown s
    | dead => exact h nofun

end State.ConsoleDown

/-! ### What leaves the rails or the calendar unit alone (R72, R99, R127, R161) -/

theorem State.fireDue_supplyState (n : Nat) (s : State) : (s.fireDue n).1.supplyState = s.supplyState :=
  congrArg Supply.state (CellFrame.ofMoves (CellMoves.refl.fireDue n)).supply

theorem State.runSound_cal (s : State) (b : Block) : (s.runSound b).cal = s.cal := by
  unfold State.runSound State.soundRequest State.setVoices State.commitVoices State.broadcast State.silence
    State.loadWave State.startSound State.stopSound State.stopNow State.setTempo State.queueNotes State.loadCue
    State.playCue State.readSoundStatus State.beatLostSignal
  dsimp only
  repeat' split
  all_goals simp

theorem State.runRumble_cal (s : State) (b : Block) : (s.runRumble b).cal = s.cal := by
  unfold State.runRumble State.rumbleRequest State.setLevels State.loadPattern State.playPattern
    State.stopRumble State.clearTrip State.readRumbleStatus
  dsimp only
  repeat' split
  all_goals simp

theorem State.quiesceAll_supply (s : State) : s.quiesceAll.supply = s.supply := by
  unfold State.quiesceAll State.soundQuiesce
  dsimp only
  split
  · rw [State.settleQuiesce_supply]
    split <;> rfl
  · rfl
  · rfl

theorem State.quiesceAll_cal (s : State) : s.quiesceAll.cal = s.cal := by
  unfold State.quiesceAll State.soundQuiesce
  dsimp only
  split
  · rw [State.settleQuiesce_cal]
    split <;> rfl
  · rfl
  · rfl

/-! ### The law by its parts -/

/-- The conjuncts of `State.supplyLawful`, named. -/
structure State.SupplyInLaw (s : State) : Prop where
  rails : s.supply.lawful
  cellLow : s.supplyState ≠ .dead → s.supply.cellLow = decide (s.supply.vcell.mv < 2500)
  wake : s.supplyState = .full → s.cal.wakePending = false
  down : s.supplyState ≠ .full → s.ConsoleDown

theorem State.supplyLawful_iff (s : State) : s.supplyLawful ↔ s.SupplyInLaw :=
  ⟨fun ⟨rails, cellLow, wake, down⟩ =>
      ⟨rails, cellLow, wake, fun off => have ⟨quiesce, lost⟩ := down off; ⟨quiesce, lost⟩⟩,
    fun h => ⟨h.rails, h.cellLow, h.wake, fun off => ⟨(h.down off).quiesce, (h.down off).lost⟩⟩⟩

namespace State.SupplyInLaw

/-- In Full the law reads the rails, CellLow and wake-pending alone. -/
theorem inFull (law : s.SupplyInLaw) (full : s.supplyState = .full) (supply : t.supply = s.supply)
    (wake : t.cal.wakePending = false) : t.SupplyInLaw where
  rails := supply ▸ law.rails
  cellLow powered := by
    rw [supply]
    exact law.cellLow (by rw [full]; decide)
  wake _ := wake
  down off := absurd ((congrArg Supply.state supply).trans full) off

/-- In Full the law is kept by what leaves these three alone. -/
theorem keptInFull (law : s.SupplyInLaw) (full : s.supplyState = .full) (supply : t.supply = s.supply := by rfl)
    (wake : t.cal.wakePending = s.cal.wakePending := by rfl) : t.SupplyInLaw :=
  law.inFull full supply (wake.trans (law.wake full))

/-- The law does not read the queue or the level of MSNS. -/
theorem withQueue (law : s.SupplyInLaw) (cs : List Instr) : ({ s with pending := cs } : State).SupplyInLaw :=
  ⟨law.rails, law.cellLow, law.wake, fun off => ⟨(law.down off).quiesce, (law.down off).lost⟩⟩

theorem withMsns (law : s.SupplyInLaw) (level : Bool) : ({ s with msns := level } : State).SupplyInLaw :=
  ⟨law.rails, law.cellLow, law.wake, fun off => ⟨(law.down off).quiesce, (law.down off).lost⟩⟩

/-- An event of the store engine in Full. -/
theorem storeFrame (law : s.SupplyInLaw) (full : s.supplyState = .full) (frame : StoreFrame s t) :
    t.SupplyInLaw :=
  law.keptInFull full frame.supply (congrArg Calendar.wakePending frame.cal)

theorem withCal (law : s.SupplyInLaw) (c : Calendar)
    (wake : s.supplyState = .full → c.wakePending = false) : (s.withCal c).SupplyInLaw :=
  ⟨law.rails, law.cellLow, wake, fun off => ⟨(law.down off).quiesce, (law.down off).lost⟩⟩

theorem withLink (law : s.SupplyInLaw) (l : Link) (quiesce : l.quiesce = s.link.quiesce := by rfl) :
    (s.withLink l).SupplyInLaw :=
  ⟨law.rails, law.cellLow, law.wake, fun off => ⟨quiesce.trans (law.down off).quiesce, (law.down off).lost⟩⟩

/-- Outside Full the store engine is without power, with nothing in flight. -/
theorem store_unpowered (law : s.SupplyInLaw) (off : s.supplyState ≠ .full) : s.store = .unpowered := by
  obtain ⟨-, -, store, -⟩ := law.down off
  exact store

/-! ### Supply events (R165 to R170) -/

/-- R164, R165, R170: a rail's new level, each part of the law in turn. -/
theorem setRail (law : s.SupplyInLaw) (rail : Rail) (mv : Nat) (cut : WriteCut) :
    (s.setRail rail mv cut).SupplyInLaw := by
  have lawful := Supply.trackCellLow_lawful (Supply.setRail_lawful law.rails rail mv) rail
  have tracked (before : s.supplyState ≠ .dead) :=
    Supply.setRail_cellLow (law.cellLow before) (rail := rail) (mv := mv)
  rw [← Supply.trackCellLow_state _ rail] at tracked
  unfold State.setRail
  dsimp only
  generalize (s.supply.setRail rail mv).trackCellLow rail = p at lawful tracked ⊢
  have supply := State.supplyEvents_supply { s with supply := p } s.supplyState p.state cut
  have state :
      (({ s with supply := p } : State).supplyEvents s.supplyState p.state cut).supplyState = p.state := by
    rw [State.supplyState, supply]
    split <;> rfl
  refine ⟨?rails, fun powered => ?cellLow, fun full => ?wake, fun off => ?down⟩
  case rails =>
    rw [supply]
    split <;> exact lawful
  case cellLow =>
    rw [state] at powered
    rw [supply]
    split
    · rfl
    next warm => exact tracked (fun before => warm ⟨before, powered⟩) powered
  case wake =>
    rw [state] at full
    rw [full]
    by_cases before : s.supplyState = .full
    · rw [before]
      exact law.wake before
    · obtain ⟨u, -, entered⟩ := State.supplyEvents_toFull { s with supply := p } before cut
      rw [entered]
      rfl
  case down =>
    rw [state] at off
    exact .supplyEvents (fun before => (law.down before).withSupply p) off cut

/-- R152: a part restart ends with Full entry. -/
theorem restart (law : s.SupplyInLaw) (full : s.supplyState = .full) (cut : WriteCut) :
    (s.restart cut).SupplyInLaw :=
  law.inFull full (s.supplyLoss_supply cut) rfl

/-! ### Alarms (R72 to R78) -/

/-- R76, R77, R78: a firing in Full raises no wake-pending, and one outside Full reaches no unit of the console
domain. -/
theorem fire (law : s.SupplyInLaw) (a : Alarm) (rest : List Alarm) : (s.fire a rest).SupplyInLaw := by
  obtain ⟨so, ru, fired, quiet, -⟩ := s.fire_eq a rest
  obtain ⟨-, -, -, -, -, -, -, -, kept⟩ :=
    (s.cal.rearm a rest).addFired_rest (firedRecord a s.cal.now s.supplyState)
  rw [fired]
  refine ⟨law.rails, law.cellLow, fun full => ?_, fun off => ?_⟩
  · have none : decide (s.supplyState ≠ .full) = false := decide_eq_false fun off => off full
    show (Calendar.wakePending _ || _) = false
    rw [kept, none]
    exact (Bool.or_false _).trans (law.wake full)
  · obtain ⟨rfl, rfl⟩ := quiet off
    exact ⟨(law.down off).quiesce, (law.down off).lost⟩

theorem fireDue (n : Nat) (law : s.SupplyInLaw) : (s.fireDue n).1.SupplyInLaw := by
  induction n generalizing s with
  | zero => exact law
  | succ n ih =>
    unfold State.fireDue
    split
    · exact law
    split
    · exact law
    · exact ih (law.fire _ _)

theorem secondEvent (law : s.SupplyInLaw) : s.secondEvent.SupplyInLaw :=
  (law.withCal s.cal.tick law.wake).fireDue _

theorem crystalEdge (law : s.SupplyInLaw) : s.crystalEdge.SupplyInLaw := by
  unfold State.crystalEdge
  split
  · exact law.withCal _ law.wake
  · split <;> exact law.withCal _ law.wake
  · split
    · exact law.withCal _ law.wake
    · exact law.secondEvent

theorem stop (law : s.SupplyInLaw) : (s.withCal s.cal.stop).SupplyInLaw := by
  unfold Calendar.stop
  split <;> exact law.withCal _ law.wake

/-! ### The store engine, and production events (R83, R97, R108) -/

/-- R83: a purge request is under way in Full alone. -/
theorem purge (law : s.SupplyInLaw) : s.purge.SupplyInLaw := by
  unfold State.purge
  split
  · exact law
  next form request =>
    have full : s.supplyState = .full := Decidable.byContradiction fun off => by
      rw [law.store_unpowered off] at request
      cases request
    exact law.keptInFull full

theorem purgeReplied (law : s.SupplyInLaw) : s.purgeReplied.SupplyInLaw := by
  by_cases full : s.supplyState = .full
  · exact law.storeFrame full (.ofMoves StoreMoves.refl.purgeReplied)
  · have reply : s.store.purgeReply = none := by rw [law.store_unpowered full]; rfl
    rw [State.purgeReplied, reply]
    exact law

theorem storeEvent (law : s.SupplyInLaw) (event : StoreEvent s t) : t.SupplyInLaw := by
  have full : s.supplyState = .full := Decidable.byContradiction fun off =>
    event.running (by rw [law.store_unpowered off]; rfl)
  exact law.storeFrame full (.ofEvent event)

theorem produce (law : s.SupplyInLaw) (full : s.supplyState = .full) : s.produce.SupplyInLaw := by
  unfold State.produce
  dsimp only
  split
  · split <;> exact law.keptInFull full
  · split
    · exact law.keptInFull full (State.settleQuiesce_supply _)
        (congrArg Calendar.wakePending (State.settleQuiesce_cal _))
    · exact law.keptInFull full

/-! ### The requests of the four cells (R144) -/

theorem terminate (law : s.SupplyInLaw) (full : s.supplyState = .full) (c : CellId) (b : Block) (a : Answer) :
    (s.terminate c b a).SupplyInLaw := law.keptInFull full

theorem answerWith (law : s.SupplyInLaw) (full : s.supplyState = .full) (c : CellId) (b : Block) (k : Nat)
    (fields : List Byte) (a : Answer) : (s.answerWith c b k fields a).SupplyInLaw := law.keptInFull full

/-- R60: a set applies the firing rule at the new time. -/
theorem setCalendar (law : s.SupplyInLaw) (full : s.supplyState = .full) (b : Block) :
    (s.setCalendar b).SupplyInLaw := by
  unfold State.setCalendar
  split
  · exact law.terminate full _ _ _
  · exact ((law.withCal (s.cal.setTime _) law.wake).fireDue _).terminate
      ((State.fireDue_supplyState _ _).trans full) _ _ _

/-- R60: of the requests of the calendar cell a set alone fires alarms. -/
theorem calendarRequest (law : s.SupplyInLaw) (full : s.supplyState = .full) (b : Block) :
    (s.calendarRequest b).SupplyInLaw := by
  unfold State.calendarRequest
  split
  case h_1 => exact law.answerWith full _ _ _ _ _
  case h_2 => exact law.setCalendar full b
  case h_3 =>
    unfold State.setRollover
    split <;> exact law.keptInFull full
  case h_4 =>
    unfold State.addAlarm
    repeat' split
    all_goals exact law.keptInFull full
  case h_5 =>
    unfold State.removeAlarm
    repeat' split
    all_goals exact law.keptInFull full
  case h_6 =>
    unfold State.listAlarms
    split <;> exact law.keptInFull full
  case h_7 =>
    unfold State.takeFired
    dsimp only
    split <;> exact law.keptInFull full

theorem runCalendar (law : s.SupplyInLaw) (full : s.supplyState = .full) (b : Block) :
    (s.runCalendar b).SupplyInLaw := by
  unfold State.runCalendar
  split
  · exact law.terminate full _ _ _
  · split
    · exact law.terminate full _ _ _
    · exact law.calendarRequest full b

/-- R144: whatever a block that its cell takes asks for. -/
theorem runUnit (law : s.SupplyInLaw) (full : s.supplyState = .full) (c : CellId) (b : Block) :
    (s.runUnit c b).SupplyInLaw := by
  cases c with
  | store => exact law.storeFrame full (.ofMoves (StoreMoves.refl.runStore b))
  | calendar => exact law.runCalendar full b
  | sound =>
    exact law.keptInFull full (CellFrame.ofMoves (CellMoves.refl.runSound b)).supply
      (congrArg Calendar.wakePending (s.runSound_cal b))
  | rumble =>
    exact law.keptInFull full (CellFrame.ofMoves (CellMoves.refl.runRumble b)).supply
      (congrArg Calendar.wakePending (s.runRumble_cal b))

/-! ### The standby link (R154 to R162) -/

/-- R159, R161, R162: a quiesce or a resume is taken in Full alone; a WAKE_ACK clears wake-pending. -/
theorem commandEffect (law : s.SupplyInLaw) {c : LinkCmd} (takes : s.takes c = true) :
    (s.commandEffect c).SupplyInLaw := by
  cases c with
  | quiesce =>
    exact law.keptInFull ((consoleOn_iff s).1 takes) s.quiesceAll_supply
      (congrArg Calendar.wakePending s.quiesceAll_cal)
  | resume => exact law.keptInFull ((consoleOn_iff s).1 takes)
  | wakeAck => exact law.withCal _ fun _ => rfl
  | status | cal | nextDue | firedHead | setCap => exact law

/-- R160: a cap reaches the rumble unit in Full alone. -/
theorem writeCap (law : s.SupplyInLaw) (cap : Cap) : (s.writeCap cap).SupplyInLaw := by
  unfold State.writeCap
  dsimp only
  split
  next reaches =>
    obtain ⟨-, on⟩ := reaches
    exact law.keptInFull ((consoleOn_iff s).1 on)
  · exact law.withLink _

/-- R154 to R162: a byte on the link, by the target's state. -/
theorem linkByte (law : s.SupplyInLaw) (b : Byte) : (s.linkByte b).SupplyInLaw := by
  unfold State.linkByte
  split
  case h_2 =>
    unfold State.addressByte
    split
    · exact law.withLink _
    · split <;> exact law.withLink _
  case h_3 =>
    unfold State.commandByte
    split
    · split
      next takes => exact (law.commandEffect takes).withLink _
      · exact law.withLink _
    · exact law.withLink _
  case h_4 =>
    unfold State.argumentByte
    split
    · exact (law.writeCap _).withLink _
    · exact law.withLink _
  case h_5 | h_7 => exact law.withLink _
  case h_1 | h_6 => exact law

end State.SupplyInLaw

/-! ### Every command -/

/-- R164, R170, R78, R163, R167: the supply law is kept by everything that a command can do. -/
theorem Effect.supplyInLaw (he : Effect s t) (law : s.SupplyInLaw) : t.SupplyInLaw := by
  cases he with
  | same => exact law
  | rail rail mv cut => exact law.setRail rail mv cut
  | restart cut full => exact law.restart full cut
  | crystal => exact law.crystalEdge
  | detector => exact law.stop
  | settled => exact law.withCal _ law.wake
  | second => exact law.secondEvent
  | purge => exact law.purge
  | purgeReplied => exact law.purgeReplied
  | store event => exact law.storeEvent event
  | produce full => exact law.produce full
  | @take c v b taken =>
    obtain ⟨full, -⟩ := taken
    exact State.SupplyInLaw.runUnit (s := s.accepted c b) (law.keptInFull full) full c b
  | abort full => exact law.storeFrame full (.ofMoves StoreMoves.refl.abortStore)
  | motorLevel level => exact law.withMsns level
  | start | stop => exact law.withLink _
  | wire b => exact law.linkByte b
  | cue _ _ full | play _ full | pull full | wrap full | unit full | trip full | enable _ full
  | ram _ _ full | refused _ full | acknowledged _ full => exact law.keptInFull full

end

/-- Settles O53: every effect keeps the supply law, so every step does. -/
theorem supplyLawKept : Obligations.SupplyLawKept := by
  unfold Obligations.SupplyLawKept
  intro s t hs h
  have kept : t.SupplyInLaw := step_keeps (fun _ cs law => law.withQueue cs)
    (fun _ _ law effect => effect.supplyInLaw law) (s.supplyLawful_iff.1 hs) h
  exact t.supplyLawful_iff.2 kept

end Sys2Proof.Machine
end

section
/-! SUPPORT. Proofs: the rails' judgements, Full entry and part restart, supply loss with the write that it cuts
short, and the laws right after reset (R3, R152, R163 to R168; O4, O5, O6, O60). -/
namespace Sys2Proof.Machine

/-! ### Judgements and the supply state that they form (R164) -/

section
variable {r : RailState} {goodAbove lostBelow : Nat}

/-- R164: a lost rail becomes good above the one threshold alone. -/
theorem RailState.judge_of_lost (lost : r.good = false) (mv : Nat) :
    (r.judge goodAbove lostBelow mv).good = decide (goodAbove < mv) := by
  unfold RailState.judge
  by_cases high : goodAbove < mv
  · simp [high]
  · simp [high, lost]

/-- R164: a rail judged lost lies no higher than the threshold at which it becomes good. -/
theorem RailState.agrees.good_of_lost (h : r.agrees goodAbove lostBelow) (lost : r.good = false) :
    r.good = decide (goodAbove < r.mv) := by
  obtain ⟨-, low⟩ := h
  rw [lost]
  exact (decide_eq_false (Nat.not_lt.2 (low lost))).symm

end

theorem Supply.state_full_iff (p : Supply) : p.state = .full ↔ p.vcart.good = true := by
  unfold Supply.state
  cases p.vcart.good <;> cases p.vkeep.good <;> cases p.vcell.good <;> decide

theorem Supply.setRail_vcart_good {p : Supply} {mv : Nat} (h : 2900 < mv) :
    (p.setRail .vcart mv).trackCellLow .vcart = { p with vcart := { mv := mv, good := true } } := by
  rw [Supply.trackCellLow_of_ne (by decide), Supply.setRail, RailState.judge_good _ h]

/-- R164, R170: a rail's new level changes that rail, and besides it CellLow alone. -/
theorem State.setRail_supply (s : State) (rail : Rail) (mv : Nat) (cut : WriteCut) :
    (s.setRail rail mv cut).supply =
      { s.supply.setRail rail mv with cellLow := (s.setRail rail mv cut).supply.cellLow } := by
  unfold State.setRail
  dsimp only
  rw [State.supplyEvents_supply, Supply.trackCellLow_frame]
  split <;> rfl

/-- Settles O4: the rails after the event are those with the new level judged. -/
theorem railJudgements : Obligations.RailJudgements := by
  unfold Obligations.RailJudgements
  intro s rail mv cut
  have rails := s.setRail_supply rail mv cut
  refine ⟨s.setRail rail mv cut, rfl, ?vcart, ?vkeep, ?vcell, rfl, fun lawful dead => ?fromDead⟩
  case vcart | vkeep | vcell =>
    rw [rails]
    cases rail <;> rfl
  case fromDead =>
    obtain ⟨vcartLost, vkeepLost, vcellLost⟩ := s.supply.state_dead_iff.1 dead
    obtain ⟨vcart, vkeep, vcell⟩ := lawful
    rw [rails]
    cases rail with
    | vcart => exact ⟨RailState.judge_of_lost vcartLost mv, vkeep.good_of_lost vkeepLost, vcell⟩
    | vkeep => exact ⟨vcart.good_of_lost vcartLost, RailState.judge_of_lost vkeepLost mv, vcell⟩
    | vcell => exact ⟨vcart.good_of_lost vcartLost, vkeep.good_of_lost vkeepLost, rfl⟩

/-! ### Full entry and part restart (R140, R152, R165, R166) -/

/-- R140, TABLE 7-6: at Full entry an asserted MSNS is a trip, and there is no play for it to end. -/
theorem Rumble.atFullEntry_eq (msns : Bool) : Rumble.atFullEntry msns = { Rumble.reset with trip := msns } := by
  cases msns <;> rfl

/-- R166: Full entry, field by field. -/
theorem State.fullEntry_eq (s : State) : s.fullEntry =
    { s with port := .reset, store := .reset, sound := .reset, rumble := { Rumble.reset with trip := s.msns },
             cal := { s.cal with wakePending := false }, link := { s.link with quiesce := .none } } := by
  rw [State.fullEntry, Rumble.atFullEntry_eq]

/-- R165: VCART becomes good: the events of the change of supply state to Full. -/
theorem exec_vcart_good {s : State} {mv : Nat} (good : 2900 < mv) (cut : WriteCut) :
    exec (.railJudgementChange .vcart mv cut) s =
      .next (({ s with supply := { s.supply with vcart := { mv := mv, good := true } } } :
        State).supplyEvents s.supplyState .full cut) :=
  exec_railJudgementChange cut (Supply.setRail_vcart_good good) rfl ((Supply.state_full_iff _).2 rfl)

theorem exec_partRestart_one {s : State} (full : s.supplyState = .full) (cut : WriteCut) :
    exec (.partRestart 1 cut) s = .next (s.restart cut) := if_pos ((consoleOn_iff s).2 full)

theorem exec_partRestart_other (s : State) {v : Word} (other : v ≠ 1) (cut : WriteCut) :
    exec (.partRestart v cut) s = .next s := by
  show execPartRestart v cut s = _
  rw [execPartRestart, State.writePartControl, if_neg other]
  exact ite_self _

/-- Settles O5: the Full-entry values by their tables, and each event by the Full entry that it ends with. -/
theorem fullEntryAndPartRestart : Obligations.FullEntryAndPartRestart := by
  unfold Obligations.FullEntryAndPartRestart
  refine ⟨⟨rfl, rfl⟩, ?sound, ?rumble, ?standby, ?backup, ?dead, ?restart, ?other⟩
  case sound | rumble =>
    rintro _ rfl
    rfl
  case standby | backup | dead =>
    intro s mv cut before good
    rw [exec_vcart_good good, before]
    exact congrArg _ (State.fullEntry_eq _)
  case restart =>
    intro s cut full
    rw [exec_partRestart_one full, State.restart, State.fullEntry_eq, State.supplyLoss_eq]
  case other => exact fun s v cut other => exec_partRestart_other s other cut

/-! ### A write cut short (R3) -/

/-- A byte of a mixture is new where the mask says so and both records have it, else old. -/
theorem mixBytes_getElem? (mask : List Bool) (old new : List Byte) (k : Nat) : (mixBytes mask old new)[k]? =
    if mask[k]? = some true ∧ k < old.length ∧ k < new.length then new[k]? else old[k]? := by
  fun_induction mixBytes mask old new generalizing k with
  | case1 m ms o os n ns ih =>
    cases k with
    | zero => cases m <;> simp
    | succ k => simp [ih]
  | case2 mask old new short =>
    rw [if_neg]
    rintro ⟨taken, hold, hnew⟩
    match mask, old, new with
    | _ :: _, _ :: _, _ :: _ => exact short _ _ _ _ _ _ rfl rfl rfl
    | [], _, _ => cases taken
    | _, [], _ => cases hold
    | _, _, [] => cases hnew

theorem recordPasses_header {bs : List Byte} (h : bs.length = 10) : recordPasses bs = passes 8 bs := by
  rw [recordPasses, h]
  rfl

/-- R3: no write in progress, nothing cut short. -/
theorem State.cutWrite_none {s : State} {cut : WriteCut} (h : s.writeInProgress cut.write = none) :
    s.cutWrite cut = s := by
  rw [State.cutWrite, h]

theorem State.cutWrite_some {s : State} {cut : WriteCut} {w : RecWrite}
    (h : s.writeInProgress cut.write = some w) : (s.cutWrite cut).sram =
      Mem.writes s.sram w.base
        (WriteRemains.content cut.remains (Mem.reads s.sram w.base w.bytes.length) w.bytes) := by
  rw [State.cutWrite, h]
  rfl

/-- Which write is cut short does not depend on the rails. -/
theorem State.cutWrite_withSupply (s : State) (p : Supply) (cut : WriteCut) :
    (({ s with supply := p } : State).cutWrite cut).sram = (s.cutWrite cut).sram := by
  cases h : s.writeInProgress cut.write with
  | none => rw [State.cutWrite_none h, State.cutWrite_none ((s.writeInProgress_withSupply p _).trans h)]
  | some w => rw [State.cutWrite_some h, State.cutWrite_some ((s.writeInProgress_withSupply p _).trans h)]

/-- R3, log 10: the Bad header of a page write that failed verify is a header: its mixture has ten bytes. -/
theorem tornOr_badHeader {new : List Byte} (page : new.length = 10 ∨ new.length = 268) (dev : List Host.Cell)
    (mask : List Bool) : tornOr mask ((overlay dev 0 new).take 10) (plainHeader 3) =
      if passes 8 (mixBytes mask ((overlay dev 0 new).take 10) (plainHeader 3)) then
        (overlay dev 0 new).take 10
      else mixBytes mask ((overlay dev 0 new).take 10) (plainHeader 3) := by
  rw [tornOr, recordPasses_header]
  rw [mixBytes_length, List.length_take, overlay_length]
  omega

/-- R37, R48: in Staging, once Rolling back may be entered, its first write is the first staged page's. -/
theorem State.firstRollbackWrite_staging {s : State} {r : Run} {c : Commit} {i : Nat}
    (staging : s.store.op = .run r (.commit c (.staging i))) (may : r.abort = true ∨ s.store.free = []) :
    s.firstRollbackWrite = c.staged.head?.map fun p => hdrWrite p (.plain .free) := by
  rw [State.firstRollbackWrite, staging]
  exact if_pos may

/-! ### Supply loss (R167, R168) -/

section
variable {s : State} (off : s.supplyState ≠ .full)
include off

theorem State.console_unpowered : ¬ s.consoleOn = true := fun on => off ((consoleOn_iff s).1 on)

theorem State.ntc_unpowered : s.ntc = none := if_neg (State.console_unpowered off)

theorem State.sdoFrame_unpowered : s.sdoFrame = none := if_neg (State.console_unpowered off)

theorem State.motorDuty_unpowered : s.motorDuty = 0 := if_neg (State.console_unpowered off)

theorem State.storeStatusCode_unpowered : s.storeStatusCode = 0 := if_neg (State.console_unpowered off)

theorem State.soundStatusCode_unpowered : s.soundStatusCode = 0 := if_neg (State.console_unpowered off)

theorem State.rumbleStatusCode_unpowered : s.rumbleStatusCode = 0 := if_neg (State.console_unpowered off)

end

/-- R167: a supply loss under the rails as they now stand, field by field. -/
theorem State.supplyLoss_withSupply (s : State) (p : Supply) (cut : WriteCut) :
    ({ s with supply := p } : State).supplyLoss cut =
      { s with supply := p, sram := (s.cutWrite cut).sram, port := .reset, store := .unpowered,
               sound := .reset, rumble := .reset, link := { s.link with quiesce := .none } } := by
  rw [State.supplyLoss_eq, State.cutWrite_withSupply]

/-- Settles O6: both losses by their supply events, the write in progress by what the engine does, and what is
left of it by its remains. -/
theorem supplyLossStopsTheConsoleDomain : Obligations.SupplyLossStopsTheConsoleDomain := by
  unfold Obligations.SupplyLossStopsTheConsoleDomain
  refine ⟨?standby, ?backup, mixBytes_getElem?, overlay_getElem?, fun _ => rfl, fun _ => rfl, ?notStaging,
    ?nothingStaged, ?staged, fun s cut h => congrArg State.sram (State.cutWrite_none h), ?cut⟩
  case standby =>
    intro s mv cut full keep lost
    have after : ({ s.supply with vcart := { mv := mv, good := false } } : Supply).state = .standby :=
      (Supply.state_standby_iff _).2 ⟨rfl, keep⟩
    have off : ({ s.supply with vcart := { mv := mv, good := false } } : Supply).state ≠ .full := by
      rw [after]
      decide
    refine ⟨_, (exec_railJudgementChange cut (Supply.setRail_vcart_lost lost) full after).trans
      (congrArg Host.Outcome.next (s.supplyLoss_withSupply _ cut)), after, State.ntc_unpowered off,
      State.sdoFrame_unpowered off, State.motorDuty_unpowered off, fun _ => State.busRead_unpowered off,
      State.storeStatusCode_unpowered off, State.soundStatusCode_unpowered off,
      State.rumbleStatusCode_unpowered off, rfl⟩
  case backup =>
    intro s mv cut full keep cell lost
    have after : ({ s.supply with vcart := { mv := mv, good := false } } : Supply).state = .backup :=
      (Supply.state_backup_iff _).2 ⟨rfl, keep, cell⟩
    rw [exec_railJudgementChange cut (Supply.setRail_vcart_lost lost) full after]
    exact congrArg (fun u : State => Host.Outcome.next u.backupEntry) (s.supplyLoss_withSupply _ cut)
  case notStaging =>
    intro s stays
    refine Option.eq_none_iff_forall_ne_some.2 fun w progress => ?_
    obtain ⟨r, c, i, p, ps, staging, may, -, -⟩ := State.firstRollbackWrite_eq_some progress
    obtain ⟨unaborted, free⟩ := stays r c i staging
    rcases may with aborted | empty
    · exact nomatch unaborted.symm.trans aborted
    · exact free empty
  case nothingStaged =>
    intro s r c i staging may none
    exact (State.firstRollbackWrite_staging staging may).trans (by rw [none]; rfl)
  case staged =>
    intro s r c i p ps staging may pages
    exact (State.firstRollbackWrite_staging staging may).trans (by rw [pages]; rfl)
  case cut =>
    intro s cut w progress
    rw [State.cutWrite_some progress]
    obtain ⟨-, remains⟩ := cut
    cases remains with
    | old | new | torn mask => rfl
    | badHeader dev mask =>
      show Mem.writes _ _ (if _ then tornOr mask _ (PageHdr.plain .bad).bytes ++ _ else _) = _
      by_cases page : w.bytes.length = 10 ∨ w.bytes.length = 268
      · rw [if_pos page, plainBad_bytes, tornOr_badHeader page]
        simp only [if_pos page]
      · simp only [if_neg page]

/-! ### Right after reset (log 1) -/

theorem Calendar.reset_lawful : Calendar.reset.lawful :=
  ⟨by decide, .nil, .nil, nofun, by decide, nofun, fun _ => rfl⟩

theorem State.reset_supplyLawful : State.reset.supplyLawful :=
  ⟨⟨⟨fun _ => by decide, nofun⟩, ⟨nofun, fun _ => by decide⟩, rfl⟩, fun _ => rfl, fun _ => rfl,
    fun off => absurd rfl off⟩

/-- Settles O60: the part right after reset stands at a Full entry, which leaves each unit in its law; the cell
domain stands at its cold start. -/
theorem lawsHoldAtReset : Obligations.LawsHoldAtReset := by
  unfold Obligations.LawsHoldAtReset
  have pages : State.reset.pagesLawful := fullEntry_pagesLawful (s := State.reset) rfl rfl
  have ⟨engine, _⟩ := pages
  exact ⟨⟨rfl, rfl⟩, State.reset_supplyLawful, Calendar.reset_lawful, (Sound.lawful_iff _).2 .reset,
    (State.rumbleLawful_iff _).2 Rumble.reset_lawful,
    (State.quiesceLawful_iff _).2 (State.Released.fullEntry State.reset).quiesceInLaw, pages,
    ⟨engine, rfl, rfl⟩, rfl, rfl⟩

end Sys2Proof.Machine
end

section
/-! SUPPORT. Proofs: the two equations of a step, one for each shape of the queue (log 18; O1). -/
namespace Sys2Proof.Machine

theorem step_of_pending_cons {c : Instr} {cs : List Instr} {s : State} (front : s.pending = c :: cs) :
    step s = exec c { s with pending := cs } := by
  unfold step
  rw [front]

theorem step_of_pending_nil {s : State} (empty : s.pending = []) : step s = .next s := by
  unfold step
  rw [empty]

/-- Settles O1: the queue is empty or has a front command, and a step has one equation for each. -/
theorem stepTakesTheFrontCommand : Obligations.StepTakesTheFrontCommand := by
  unfold Obligations.StepTakesTheFrontCommand
  exact ⟨fun _ _ _ => step_of_pending_cons, fun _ => step_of_pending_nil⟩

end Sys2Proof.Machine
end

section
/-! SUPPORT. Proofs: all that a command can do to the calendar unit (R52 to R57, R60, R62, R66 to R72, R80, R83,
R169), said once. -/
namespace Sys2Proof.Machine

/-! ### Free ids (R67) -/

/-- R67: the lowest free id is carried by no entry, and every id below it is carried. -/
theorem lowestFree_eq_some_iff {as : List Alarm} {id : Fin 32} : lowestFree as = some id ↔
    (∀ x ∈ as, x.id ≠ id) ∧ ∀ j, j < id → ∃ x ∈ as, x.id = j := by
  rw [lowestFree, List.find?_eq_some_iff_getElem]
  constructor
  · rintro ⟨free, i, inside, at_, below⟩
    rw [List.getElem_finRange] at at_
    subst at_
    refine ⟨by simpa using free, fun j lower => ?_⟩
    simpa using below j.val lower
  · rintro ⟨free, below⟩
    refine ⟨by simpa using free, id.val, by simp, by simp, fun j lower => ?_⟩
    simpa using below ⟨j, lower.trans id.isLt⟩ lower

/-- R66, R67: a table with room has a free id. -/
theorem lowestFree_isSome {as : List Alarm} (room : as.length < 32) : ∃ id, lowestFree as = some id := by
  refine Option.ne_none_iff_exists'.1 fun none => ?_
  rw [lowestFree, List.find?_eq_none] at none
  have covered : List.finRange 32 ⊆ as.map (·.id) := fun id _ => by
    simpa using none id (List.mem_finRange id)
  have long := (List.subperm_of_subset (List.nodup_finRange 32) covered).length_le
  rw [List.length_finRange, List.length_map] at long
  omega

/-! ### The changes -/

/-- The table, the fired list and the overflow flag stand, and so does what R56 says of TimeLost. -/
structure Calendar.SameTable (c d : Calendar) : Prop where
  alarms : d.alarms = c.alarms
  fired : d.fired = c.fired
  overflow : d.overflow = c.overflow
  stopped : (c.osc = .stopped → c.timeLost = true) → d.osc = .stopped → d.timeLost = true

/-- Everything that a command can do to the calendar unit, as far as the laws of the alarm table, the fired list
and TimeLost can tell, from `c` under the live-file set `live`. -/
inductive CalChange (c : Calendar) (live : FileSet) : Calendar → Prop where
  | keeps {d : Calendar} (same : c.SameTable d) (now : d.now = c.now) : CalChange c live d
  | fires {u : State} (same : c.SameTable u.cal) : CalChange c live u.applyFiring.1.cal
  | adds (a : Alarm) (free : ∀ x ∈ c.alarms, x.id ≠ a.id) (room : c.alarms.length < 32)
      (owner : FileSet.has live a.owner = true) (later : a.due.later c.now = true) :
      CalChange c live { c with alarms := insertAlarm a c.alarms }
  | filters (p : Alarm → Bool) : CalChange c live { c with alarms := c.alarms.filter p }
  | takes (n : Nat) : CalChange c live (c.take n)
  | lost : CalChange c live .reset

theorem Calendar.SameTable.refl (c : Calendar) : c.SameTable c := ⟨rfl, rfl, rfl, id⟩

section
variable {s t : State}

/-- A command that leaves the calendar unit alone. -/
theorem CalChange.ofEq (h : t.cal = s.cal) : CalChange s.cal s.store.live t.cal := h ▸ .keeps (.refl _) rfl

/-! ### The counting path and supply events (R52 to R56, R165 to R169) -/

theorem CalChange.second (s : State) : CalChange s.cal s.store.live s.secondEvent.cal :=
  .fires (u := s.withCal s.cal.tick) ⟨rfl, rfl, rfl, fun lost stopped => by
    rw [State.withCal_cal, Calendar.tick, lost stopped]; rfl⟩

theorem CalChange.crystal (s : State) : CalChange s.cal s.store.live s.crystalEdge.cal := by
  unfold State.crystalEdge
  split
  · exact .keeps ⟨rfl, rfl, rfl, fun _ => nofun⟩ rfl
  next settling =>
    split
    · exact .keeps ⟨rfl, rfl, rfl, id⟩ rfl
    · exact .keeps ⟨rfl, rfl, rfl, fun _ => nofun⟩ rfl
  · split
    · exact .keeps ⟨rfl, rfl, rfl, id⟩ rfl
    · exact .second s

/-- R56: a stop sets TimeLost. -/
theorem CalChange.stop (s : State) : CalChange s.cal s.store.live s.cal.stop := by
  unfold Calendar.stop
  split
  · exact .keeps (.refl _) rfl
  · exact .keeps ⟨rfl, rfl, rfl, fun _ _ => rfl⟩ rfl

/-- R165, R166, R169: the supply events leave the calendar unit alone, clear its wake-pending, or leave it at its
cold start. -/
theorem State.supplyEvents_cal (s : State) (before after : SupplyState) (cut : WriteCut) :
    (s.supplyEvents before after cut).cal = s.cal ∨
      (s.supplyEvents before after cut).cal = { s.cal with wakePending := false } ∨
      (s.supplyEvents before after cut).cal = .reset := by
  have loss : (s.supplyLoss cut).cal = s.cal := by rw [State.supplyLoss_eq]
  cases after with
  | full =>
    cases before with
    | full => exact .inl rfl
    | standby | backup => exact .inr (.inl rfl)
    | dead => exact .inr (.inr rfl)
  | standby | backup =>
    cases before with
    | full => exact .inl loss
    | standby | backup => exact .inl rfl
    | dead => exact .inr (.inr rfl)
  | dead =>
    cases before with
    | full | standby | backup => exact .inr (.inr rfl)
    | dead => exact .inl rfl

/-- Wake-pending is not in the laws that `CalChange` is for. -/
theorem CalChange.wake (s : State) (w : Bool) : CalChange s.cal s.store.live { s.cal with wakePending := w } :=
  .keeps ⟨rfl, rfl, rfl, id⟩ rfl

theorem CalChange.setRail (s : State) (rail : Rail) (mv : Nat) (cut : WriteCut) :
    CalChange s.cal s.store.live (s.setRail rail mv cut).cal := by
  unfold State.setRail
  rcases State.supplyEvents_cal { s with supply := (s.supply.setRail rail mv).trackCellLow rail }
    s.supplyState ((s.supply.setRail rail mv).trackCellLow rail).state cut with same | quiet | cold
  · exact .ofEq same
  · exact quiet ▸ .wake s false
  · exact cold ▸ .lost

theorem CalChange.restart (s : State) (cut : WriteCut) : CalChange s.cal s.store.live (s.restart cut).cal := by
  rw [State.restart, State.supplyLoss_eq]
  exact .wake s false

/-! ### The requests of the calendar cell (R59 to R62, R68 to R71, R80) -/

/-- R68: an add that passes its checks inserts an entry with a free id and a Live owner, due later than now. -/
theorem CalChange.addAlarm (s : State) (b : Block) : CalChange s.cal s.store.live (s.addAlarm b).cal := by
  unfold State.addAlarm
  split
  · exact .ofEq rfl
  next a read =>
    split
    · exact .ofEq rfl
    next live =>
      split
      · exact .ofEq rfl
      next later =>
        split
        · exact .ofEq rfl
        next room =>
          obtain ⟨id, free⟩ := lowestFree_isSome (Nat.lt_of_not_le room)
          obtain ⟨carries, -⟩ := (s.alarmAt_eq_some_iff _ _ a).1 read
          rw [free] at carries
          obtain ⟨unused, -⟩ := lowestFree_eq_some_iff.1 free
          exact .adds a (carries ▸ unused) (Nat.lt_of_not_le room) (by simpa using live) (by simpa using later)

/-- R60, R56: a set clears TimeLost unless the oscillator is Stopped. -/
theorem Calendar.sameTable_setTime (c : Calendar) (now : CalTime) : c.SameTable (c.setTime now) :=
  ⟨rfl, rfl, rfl, fun lost stopped => by
    have stopped : c.osc = .stopped := stopped
    rw [Calendar.setTime, stopped, lost stopped]
    rfl⟩

/-- R60, R72: a set applies the firing rule at the new time. -/
theorem CalChange.setCalendar (s : State) (b : Block) : CalChange s.cal s.store.live (s.setCalendar b).cal := by
  unfold State.setCalendar
  split
  · exact .ofEq rfl
  · rw [State.terminate_cal]
    exact .fires (s.cal.sameTable_setTime _)

theorem CalChange.calendarRequest (s : State) (b : Block) :
    CalChange s.cal s.store.live (s.calendarRequest b).cal := by
  unfold State.calendarRequest
  split
  case h_1 => exact .ofEq (State.answerWith_cal ..)
  case h_2 => exact .setCalendar s b
  case h_3 =>
    unfold State.setRollover
    split
    · exact .ofEq rfl
    · exact .keeps ⟨rfl, rfl, rfl, id⟩ rfl
  case h_4 => exact .addAlarm s b
  case h_5 =>
    unfold State.removeAlarm
    split
    · split
      · exact .filters _
      · exact .ofEq rfl
    · exact .ofEq rfl
  case h_6 =>
    unfold State.listAlarms
    split <;> exact .ofEq rfl
  case h_7 =>
    unfold State.takeFired
    dsimp only
    split
    · exact .takes _
    · exact .ofEq rfl

/-- R144: of the requests of the four cells those of the calendar cell alone reach the calendar unit. -/
theorem CalChange.runUnit (s : State) (c : CellId) (b : Block) :
    CalChange s.cal s.store.live (s.runUnit c b).cal := by
  cases c with
  | store => exact .ofEq (StoreFrame.ofMoves (StoreMoves.refl.runStore b)).cal
  | sound => exact .ofEq (s.runSound_cal b)
  | rumble => exact .ofEq (s.runRumble_cal b)
  | calendar =>
    rw [State.runUnit, State.runCalendar]
    split
    · exact .ofEq rfl
    · split
      · exact .ofEq rfl
      · exact .calendarRequest s b

/-! ### The standby link and purges (R83, R159) -/

theorem CalChange.commandEffect (s : State) (c : LinkCmd) : CalChange s.cal s.store.live (s.commandEffect c).cal := by
  cases c with
  | quiesce => exact .ofEq s.quiesceAll_cal
  | wakeAck => exact .wake s false
  | status | cal | nextDue | firedHead | setCap | resume => exact .ofEq rfl

/-- R154, R159: a byte on the link reaches the calendar unit at most by a WAKE_ACK. -/
theorem CalChange.linkByte (s : State) (b : Byte) : CalChange s.cal s.store.live (s.linkByte b).cal := by
  unfold State.linkByte
  split
  case h_2 =>
    unfold State.addressByte
    repeat' split
    all_goals exact .ofEq rfl
  case h_3 =>
    unfold State.commandByte
    split
    · split
      · exact .commandEffect s _
      · exact .ofEq rfl
    · exact .ofEq rfl
  case h_4 =>
    unfold State.argumentByte State.writeCap
    dsimp only
    repeat' split
    all_goals exact .ofEq rfl
  all_goals exact .ofEq rfl

/-- R83: a purge keeps the entries that its form says. -/
theorem CalChange.purge (s : State) : CalChange s.cal s.store.live s.purge.cal := by
  unfold State.purge
  split
  · exact .ofEq rfl
  · exact .filters _

theorem State.produce_cal (s : State) : s.produce.cal = s.cal := by
  unfold State.produce
  dsimp only
  split
  · split <;> rfl
  · split
    · exact State.settleQuiesce_cal _
    · rfl

/-! ### Every command -/

theorem Effect.calChange (he : Effect s t) : CalChange s.cal s.store.live t.cal := by
  cases he with
  | rail rail mv cut => exact .setRail s rail mv cut
  | restart cut => exact .restart s cut
  | crystal => exact .crystal s
  | detector => exact .stop s
  | settled => exact .keeps ⟨rfl, rfl, rfl, fun _ => nofun⟩ rfl
  | second => exact .second s
  | purge => exact .purge s
  | purgeReplied => exact .ofEq (StoreFrame.ofMoves StoreMoves.refl.purgeReplied).cal
  | store event => exact .ofEq (StoreFrame.ofEvent event).cal
  | produce => exact .ofEq s.produce_cal
  | @take c v b => exact .runUnit (s.accepted c b) c b
  | abort => exact .ofEq (StoreFrame.ofMoves StoreMoves.refl.abortStore).cal
  | wire b => exact .linkByte s b
  | same | cue | play | pull | wrap | unit | motorLevel | trip | enable | ram | refused | acknowledged | start
    | stop => exact .ofEq rfl

end

end Sys2Proof.Machine
end

section
/-! SUPPORT. Proofs: the law of the alarm table, the fired list and TimeLost through every change of the calendar
unit (R66, R75, R56; O54). -/
namespace Sys2Proof.Machine

/-! ### The law by its parts -/

/-- The conjuncts of `Calendar.lawful` that do not read the time, named. -/
structure Calendar.TableInLaw (c : Calendar) : Prop where
  room : c.alarms.length ≤ 32
  ids : (c.alarms.map (·.id)).Nodup
  sorted : alarmsSorted c.alarms
  fits : c.fired.length ≤ 16
  overflow : c.overflow = true → c.fired ≠ []
  stopped : c.osc = .stopped → c.timeLost = true

/-- The conjuncts of `Calendar.lawful`, named. -/
structure Calendar.InLaw (c : Calendar) : Prop extends c.TableInLaw where
  later : ∀ a ∈ c.alarms, a.due.later c.now = true

theorem Calendar.lawful_iff (c : Calendar) : c.lawful ↔ c.InLaw :=
  ⟨fun ⟨room, ids, sorted, later, fits, overflow, stopped⟩ =>
      ⟨⟨room, ids, sorted, fits, overflow, stopped⟩, later⟩,
    fun h => ⟨h.room, h.ids, h.sorted, h.later, h.fits, h.overflow, h.stopped⟩⟩

theorem Calendar.SameTable.tableInLaw {c d : Calendar} (same : c.SameTable d) (law : c.TableInLaw) :
    d.TableInLaw where
  room := same.alarms ▸ law.room
  ids := same.alarms ▸ law.ids
  sorted := same.alarms ▸ law.sorted
  fits := same.fired ▸ law.fits
  overflow := same.overflow ▸ same.fired ▸ law.overflow
  stopped := same.stopped law.stopped

/-! ### The firing rule (R72 to R75) -/

/-- R72, R73: firing forms no new id: a rearmed entry keeps its own. -/
theorem Fires.ids_subperm {s : State} {now : CalTime} {st : SupplyState} {r : State × Nat}
    (fires : Fires s now st r) :
    (r.1.cal.alarms.map (·.id)).Subperm (s.cal.alarms.map (·.id)) := by
  have rearmed : ∀ due : List Alarm,
      ((due.filterMap fun x => (nextDue x now).map fun d => { x with due := d }).map (·.id)).Sublist
        (due.map (·.id)) := by
    intro due
    induction due with
    | nil => exact .slnil
    | cons x xs ih =>
      cases next : nextDue x now with
      | none =>
        rw [List.filterMap_cons_none (by rw [next]; rfl)]
        exact ih.cons _
      | some d =>
        rw [List.filterMap_cons_some (by rw [next]; rfl)]
        exact ih.cons_cons _
  have table : dueBy s.cal.alarms now ++ s.cal.alarms.drop (dueBy s.cal.alarms now).length = s.cal.alarms :=
    List.prefix_iff_eq_append.1 (List.takeWhile_prefix _)
  have order := (fires.alarms.trans List.perm_append_comm).map (·.id)
  rw [List.map_append] at order
  refine order.subperm.trans ?_
  conv_rhs => rw [← table, List.map_append]
  exact ((rearmed _).append (.refl _)).subperm

/-- R75: sixteen of the records of a list that is not empty are not none. -/
theorem take_sixteen_ne_nil {fs : List Fired} (h : fs ≠ []) : fs.take 16 ≠ [] := by
  simpa using h

/-- R72 to R75: the firing rule keeps the law, whatever the time has become. -/
theorem State.applyFiring_inLaw {s : State} (law : s.cal.TableInLaw) : s.applyFiring.1.cal.InLaw := by
  have fires := s.applyFiring_spec law.sorted law.fits
  have ids := fires.ids_subperm
  refine { room := ?room, ids := ?ids, sorted := fires.sorted, fits := ?fits, overflow := ?overflow,
           stopped := ?stopped, later := ?later }
  case room => simpa using ids.length_le.trans (by simpa using law.room)
  case ids =>
    obtain ⟨kept, order, part⟩ := ids
    exact order.nodup_iff.1 (law.ids.sublist part)
  case fits => rw [fires.fired]; exact List.length_take_le _ _
  case overflow =>
    rw [fires.fired, fires.overflow]
    intro dropped
    refine take_sixteen_ne_nil ?_
    rcases Bool.or_eq_true_iff.1 dropped with before | more
    · exact List.append_ne_nil_of_left_ne_nil (law.overflow before) _
    · refine List.ne_nil_of_length_pos ?_
      have more := of_decide_eq_true more
      rw [List.length_append, List.length_map]
      omega
  case stopped =>
    rw [fires.osc, fires.timeLost]
    exact law.stopped
  case later =>
    rw [fires.clock]
    exact fires.later

/-! ### The other changes -/

section
variable {c : Calendar}

/-- R66, R67: an entry with a free id, due later than now, joins the table. -/
theorem Calendar.InLaw.adds (law : c.InLaw) {a : Alarm} (free : ∀ x ∈ c.alarms, x.id ≠ a.id)
    (room : c.alarms.length < 32) (later : a.due.later c.now = true) :
    ({ c with alarms := insertAlarm a c.alarms } : Calendar).InLaw where
  room := by rw [insertAlarm_length]; exact room
  ids := by
    refine (((insertAlarm_perm a c.alarms).map (·.id)).nodup_iff).2 (List.nodup_cons.2 ⟨?_, law.ids⟩)
    rintro carried
    obtain ⟨x, inside, same⟩ := List.mem_map.1 carried
    exact free x inside same
  sorted := insertAlarm_sorted law.sorted
  fits := law.fits
  overflow := law.overflow
  stopped := law.stopped
  later x inside := by
    rcases mem_insertAlarm.1 inside with rfl | old
    · exact later
    · exact law.later x old

/-- Entries that leave the table break no part of the law. -/
theorem Calendar.InLaw.filters (law : c.InLaw) (p : Alarm → Bool) :
    ({ c with alarms := c.alarms.filter p } : Calendar).InLaw where
  room := (List.length_filter_le _ _).trans law.room
  ids := law.ids.sublist (List.filter_sublist.map _)
  sorted := law.sorted.sublist List.filter_sublist
  fits := law.fits
  overflow := law.overflow
  stopped := law.stopped
  later x inside := law.later x (List.mem_of_mem_filter inside)

/-- R80: a take clears the overflow flag when it empties the list. -/
theorem Calendar.InLaw.takes (law : c.InLaw) (n : Nat) : (c.take n).InLaw where
  room := law.room
  ids := law.ids
  sorted := law.sorted
  fits := (List.drop_sublist n c.fired).length_le.trans law.fits
  overflow dropped := by
    obtain ⟨-, left⟩ := Bool.and_eq_true_iff.1 dropped
    refine List.ne_nil_of_length_pos ?_
    have left := of_decide_eq_true left
    rw [Calendar.take, List.length_drop]
    omega
  stopped := law.stopped
  later := law.later

theorem CalChange.inLaw {live : FileSet} {d : Calendar} (change : CalChange c live d) (law : c.InLaw) :
    d.InLaw := by
  cases change with
  | keeps same now => exact ⟨same.tableInLaw law.toTableInLaw, by rw [same.alarms, now]; exact law.later⟩
  | fires same => exact State.applyFiring_inLaw (same.tableInLaw law.toTableInLaw)
  | adds a free room _ later => exact law.adds free room later
  | filters p => exact law.filters p
  | takes n => exact law.takes n
  | lost => exact (Calendar.lawful_iff _).1 Calendar.reset_lawful

end

/-- Settles O54: every change that a command can make to the calendar unit keeps the law, so every step does. -/
theorem calendarLawKept : Obligations.CalendarLawKept := by
  unfold Obligations.CalendarLawKept
  intro s t hs h
  have kept : t.cal.InLaw := step_keeps (L := fun u => u.cal.InLaw) (fun _ _ law => law)
    (fun _ _ law effect => effect.calChange.inLaw law) ((Calendar.lawful_iff _).1 hs) h
  exact (Calendar.lawful_iff _).2 kept

end Sys2Proof.Machine
end

section
/-! SUPPORT. Proofs: the law that alarms name Live files, by what the engine does (R83). -/
namespace Sys2Proof.Machine

/-! ### The engine's place (R15, R16, R27, R145) -/

/-- The engine's law while a request runs. -/
structure State.RunEngine (s : State) (r : Run) (j : Job) : Prop where
  full : s.supplyState = .full
  cell : s.port.store.hold = .busy r.blk
  waiting : s.store.waiting = none
  runs : j.runsIn s.store.status

/-- The engine's law during the recovery scan. -/
structure State.ScanEngine (s : State) : Prop where
  full : s.supplyState = .full
  status : s.store.status = .scanning
  waits : s.store.waitsFor s.port.store.hold

/-- The engine's law while it does nothing. -/
structure State.IdleEngine (s : State) : Prop where
  on : s.supplyState = .full → s.store.status ≠ .off
  held : s.store.status = .quiesced → s.store.hold = true
  notScanning : s.store.status ≠ .scanning
  notBusy : s.store.status ≠ .busy
  cell : ¬ s.port.store.hold.isBusy
  waiting : s.store.waiting = none

section
variable {s t : State}

theorem engineLawful_run_iff {r : Run} {j : Job} (op : s.store.op = .run r j) :
    s.engineLawful ↔ s.RunEngine r j := by
  unfold State.engineLawful
  rw [op]
  constructor
  · rintro ⟨off, -, -, -, cell, waiting, runs⟩
    refine ⟨Classical.byContradiction fun h => (nomatch off h), cell, waiting, ?_⟩
    cases j <;> exact runs
  · intro h
    have status := Job.runsIn_cases h.runs
    refine ⟨fun off => absurd h.full off, ?_, ?_, ?_, h.cell, h.waiting, ?_⟩
    · rintro - e; rw [e] at status; simp at status
    · intro e; rw [e] at status; simp at status
    · intro e; rw [e] at status; simp at status
    · have := h.runs; cases j <;> exact this

theorem engineLawful_scan_iff {n : ScanNotes} {ph : ScanPhase} (op : s.store.op = .scan n ph) :
    s.engineLawful ↔ s.ScanEngine := by
  unfold State.engineLawful
  rw [op]
  constructor
  · rintro ⟨off, -, -, -, status, waits⟩
    refine ⟨Classical.byContradiction fun h => (nomatch off h), status, ?_⟩
    unfold Store.waitsFor
    cases hw : s.store.waiting <;> rw [hw] at waits <;> exact waits
  · rintro ⟨full, status, waits⟩
    unfold Store.waitsFor at waits
    refine ⟨fun off => absurd full off, ?_, ?_, fun _ => ⟨n, ph, rfl⟩, status, ?_⟩
    · rw [status]; simp
    · rw [status]; simp
    · cases hw : s.store.waiting <;> rw [hw] at waits <;> exact waits

theorem engineLawful_idle_iff (op : s.store.op = .none) : s.engineLawful ↔ s.IdleEngine := by
  unfold State.engineLawful
  rw [op]
  constructor
  · rintro ⟨-, on, held, scanning, busy, cell, waiting⟩
    exact ⟨on, held, fun e => (by obtain ⟨_, _, h⟩ := scanning e; cases h), busy, cell, waiting⟩
  · intro h
    exact ⟨fun _ => rfl, h.on, h.held, fun e => absurd e h.notScanning, h.notBusy, h.cell, h.waiting⟩

/-- R16: the engine's law reads Full, the store cell's hold and the working state; a store at rest may stay at
rest in the other of its two states. -/
theorem engineLawful_of_same (law : s.engineLawful) (full : t.supplyState = .full ↔ s.supplyState = .full)
    (cell : t.port.store.hold = s.port.store.hold) (op : t.store.op = s.store.op)
    (waiting : t.store.waiting = s.store.waiting)
    (status : t.store.status = s.store.status ∨ s.store.status.resting ∧ t.store.status.resting)
    (held : (s.store.status = .quiesced → s.store.hold = true) → t.store.status = .quiesced →
      t.store.hold = true) : t.engineLawful := by
  cases place : s.store.op with
  | none =>
    have idle := (engineLawful_idle_iff place).1 law
    have notRest {st : StoreState} (h : ¬ st.resting) (here : s.store.status ≠ st) : t.store.status ≠ st := by
      rcases status with same | ⟨-, rest⟩
      · exact same ▸ here
      · rintro rfl; exact h rest
    exact (engineLawful_idle_iff (op.trans place)).2
      { on := fun h => notRest (by rintro (e | e) <;> cases e) (idle.on (full.1 h))
        held := held idle.held
        notScanning := notRest (by rintro (e | e) <;> cases e) idle.notScanning
        notBusy := notRest (by rintro (e | e) <;> cases e) idle.notBusy
        cell := cell ▸ idle.cell
        waiting := waiting.trans idle.waiting }
  | scan n ph =>
    have scan := (engineLawful_scan_iff place).1 law
    have same := status.resolve_right fun ⟨rest, _⟩ => by
      rw [scan.status] at rest; rcases rest with e | e <;> cases e
    refine (engineLawful_scan_iff (op.trans place)).2 ⟨full.2 scan.full, same.trans scan.status, ?_⟩
    have waits := scan.waits
    unfold Store.waitsFor at waits ⊢
    rw [waiting, cell]
    exact waits
  | run r j =>
    have run := (engineLawful_run_iff place).1 law
    have same := status.resolve_right fun ⟨rest, _⟩ => by
      rcases Job.runsIn_cases run.runs with e | e <;> rw [e] at rest <;> rcases rest with h | h <;> cases h
    exact (engineLawful_run_iff (op.trans place)).2
      ⟨full.2 run.full, cell.trans run.cell, waiting.trans run.waiting, same ▸ run.runs⟩

/-! ### The owners' law from state to state (R83) -/

/-- Every alarm's owner is one that the table named before, or is Live; no purge comes under way or ends, and no
file leaves the live-file set. -/
structure OwnersFrom (s t : State) : Prop where
  request : t.store.purgeReq = s.store.purgeReq
  reply : t.store.purgeReply = s.store.purgeReply
  on : t.store.status ≠ .off → s.store.status ≠ .off
  live : ∀ f, FileSet.has s.store.live f = true → FileSet.has t.store.live f = true
  alarms : ∀ a ∈ t.cal.alarms, (∃ x ∈ s.cal.alarms, x.owner = a.owner) ∨ FileSet.has t.store.live a.owner = true

namespace OwnersFrom

/-- What every alarm's owner meets unless it is Live, it still does. -/
theorem unlessLive (h : OwnersFrom s t) {P : FileNo → Prop}
    (before : ∀ a ∈ s.cal.alarms, P a.owner ∨ FileSet.has s.store.live a.owner = true) :
    ∀ a ∈ t.cal.alarms, P a.owner ∨ FileSet.has t.store.live a.owner = true := by
  intro a inside
  rcases h.alarms a inside with ⟨x, old, same⟩ | live
  · rw [← same]
    exact (before x old).imp_right (h.live _)
  · exact .inr live

theorem ownersLive (h : OwnersFrom s t) (before : s.ownersLive) : t.ownersLive := fun a inside =>
  (h.unlessLive (P := fun _ => False) (fun x old => .inr (before x old)) a inside).resolve_left id

theorem ownersAt (h : OwnersFrom s t) {op : Op} (law : s.ownersAt op) : t.ownersAt op := by
  have request {p : Option PurgeForm} (e : s.store.purgeReq = p) : t.store.purgeReq = p := h.request.trans e
  have reply {k : Option Nat} (e : s.store.purgeReply = k) : t.store.purgeReply = k := h.reply.trans e
  unfold State.ownersAt at law ⊢
  split at law
  · obtain ⟨req, rep, live⟩ := law
    exact ⟨request req, reply rep, fun on => h.ownersLive (live (h.on on))⟩
  · exact law.imp (fun ⟨req, rep⟩ => ⟨request req, reply rep⟩) fun ⟨req, live⟩ => ⟨request req, h.ownersLive live⟩
  · obtain ⟨req, rep⟩ := law
    exact ⟨request req, reply rep⟩
  · exact law.imp (fun ⟨req, rep, owners⟩ => ⟨request req, reply rep, h.unlessLive (P := (· = _)) owners⟩)
      fun ⟨req, live⟩ => ⟨request req, h.ownersLive live⟩
  next ph _ =>
    obtain ⟨req, rep, owners⟩ := law
    exact ⟨request req, reply rep, h.unlessLive (P := fun o => ph ≠ .arm ∧ ph ≠ .entry ∧ o = _) owners⟩
  · exact law.imp (fun ⟨req, rep⟩ => ⟨request req, reply rep⟩) fun ⟨req, live⟩ => ⟨request req, h.ownersLive live⟩
  · obtain ⟨req, rep⟩ := law
    exact ⟨request req, reply rep⟩
  · obtain ⟨req, rep, live⟩ := law
    exact ⟨request req, reply rep, h.ownersLive live⟩

end OwnersFrom

end

end Sys2Proof.Machine
end

section
/-! SUPPORT. Proofs: alarm owners through the firing rule and the events of the store engine (R83, R33 to R45). -/
namespace Sys2Proof.Machine

section
variable {s t u : State}

/-! ### The calendar unit (R68, R72, R73) -/

/-- R72, R73: a firing takes its entry out of the table, or puts it back under the same owner. -/
theorem State.fire_owners {a x : Alarm} {rest : List Alarm} (inside : x ∈ (s.fire a rest).cal.alarms) :
    ∃ y ∈ a :: rest, y.owner = x.owner := by
  obtain ⟨so, ru, fired, -⟩ := s.fire_eq a rest
  obtain ⟨-, -, -, -, -, -, -, kept, -⟩ :=
    (s.cal.rearm a rest).addFired_rest (firedRecord a s.cal.now s.supplyState)
  have table : (s.fire a rest).cal.alarms = (s.cal.rearm a rest).alarms := by rw [fired]; exact kept
  rw [table, Calendar.rearm] at inside
  dsimp only at inside
  split at inside
  · rcases mem_insertAlarm.1 inside with rfl | old
    · exact ⟨a, List.mem_cons_self, rfl⟩
    · exact ⟨x, List.mem_cons_of_mem _ old, rfl⟩
  · exact ⟨x, List.mem_cons_of_mem _ inside, rfl⟩

theorem State.fireDue_owners (n : Nat) (s : State) :
    ∀ a ∈ (s.fireDue n).1.cal.alarms, ∃ x ∈ s.cal.alarms, x.owner = a.owner := by
  induction n generalizing s with
  | zero => exact fun a inside => ⟨a, inside, rfl⟩
  | succ n ih =>
    unfold State.fireDue
    split
    · exact fun a inside => ⟨a, inside, rfl⟩
    next head rest table =>
      split
      · exact fun a inside => ⟨a, inside, rfl⟩
      · intro a inside
        obtain ⟨x, left, same⟩ := ih _ a inside
        obtain ⟨y, before, old⟩ := State.fire_owners left
        exact ⟨y, table ▸ before, old.trans same⟩

/-- R68: every command leaves the table with the owners that it named, and Live ones. -/
theorem CalChange.owners {c d : Calendar} {live : FileSet} (change : CalChange c live d) :
    ∀ a ∈ d.alarms, (∃ x ∈ c.alarms, x.owner = a.owner) ∨ FileSet.has live a.owner = true := by
  intro a inside
  cases change with
  | keeps same => exact .inl ⟨a, same.alarms ▸ inside, rfl⟩
  | fires same =>
    obtain ⟨x, before, owner⟩ := State.fireDue_owners _ _ a inside
    exact .inl ⟨x, same.alarms ▸ before, owner⟩
  | adds new _ _ owner =>
    rcases mem_insertAlarm.1 inside with rfl | old
    · exact .inr owner
    · exact .inl ⟨a, old, rfl⟩
  | filters p => exact .inl ⟨a, List.mem_of_mem_filter inside, rfl⟩
  | takes n => exact .inl ⟨a, inside, rfl⟩
  | lost => cases inside

/-- What leaves the store engine alone keeps the owners' law, whatever it does to the calendar unit. -/
theorem OwnersFrom.ofChange (change : CalChange s.cal s.store.live t.cal) (store : t.store = s.store) :
    OwnersFrom s t :=
  ⟨congrArg _ store, congrArg _ store, fun on => store ▸ on, fun _ live => store ▸ live,
    fun a inside => store ▸ change.owners a inside⟩

theorem SameStore.ownersLawful (same : SameStore s t) (change : CalChange s.cal s.store.live t.cal)
    (law : s.ownersLawful) : t.ownersLawful := by
  obtain ⟨engine, owners⟩ := law
  refine ⟨engineLawful_of_same engine (by rw [same.state]) same.cell (congrArg _ same.store)
    (congrArg _ same.store) (.inl (congrArg _ same.store)) (fun h => same.store ▸ h), ?_⟩
  rw [same.store]
  exact (OwnersFrom.ofChange change same.store).ownersAt owners

/-! ### An operation in flight goes on, or ends (R15, R28) -/

/-- What the writes of an event in flight leave alone of what the owners' law reads. -/
structure KeepsOwners (s t : State) : Prop extends SameEngine s t where
  cal : t.cal = s.cal
  live : t.store.live = s.store.live
  request : t.store.purgeReq = s.store.purgeReq
  reply : t.store.purgeReply = s.store.purgeReply

namespace KeepsOwners

theorem refl : KeepsOwners s s := ⟨.refl, rfl, rfl, rfl, rfl⟩

theorem withStore (h : KeepsOwners s t) (st : Store) (status : st.status = t.store.status := by rfl)
    (waiting : st.waiting = t.store.waiting := by rfl) (live : st.live = t.store.live := by rfl)
    (request : st.purgeReq = t.store.purgeReq := by rfl)
    (reply : st.purgeReply = t.store.purgeReply := by rfl) : KeepsOwners s (t.withStore st) :=
  ⟨h.toSameEngine.withStore st status waiting, h.cal, live.trans h.live, request.trans h.request,
    reply.trans h.reply⟩

theorem putRam (h : KeepsOwners s t) (a : Nat) (bs : List Byte) : KeepsOwners s (t.putRam a bs) :=
  ⟨h.toSameEngine.putRam a bs, h.cal, h.live, h.request, h.reply⟩

theorem putArray (h : KeepsOwners s t) (w : RecWrite) : KeepsOwners s (t.putArray w) :=
  ⟨h.toSameEngine.putArray w, h.cal, h.live, h.request, h.reply⟩

theorem putRecord (h : KeepsOwners s t) (w : RecWrite) (dev : List Host.Cell) :
    KeepsOwners s (t.putRecord w dev) := h.putArray _

theorem rewrite (h : KeepsOwners s t) (p : PageNo) (hd : PageHdr) (v : HeaderVerify) :
    KeepsOwners s (t.rewrite p hd v) := by
  refine ⟨h.toSameEngine.rewrite p hd v, ?_, ?_, ?_, ?_⟩ <;> rw [State.rewrite_eq]
  exacts [h.cal, h.live, h.request, h.reply]

theorem freePage (h : KeepsOwners s t) (p : PageNo) (v : HeaderVerify) : KeepsOwners s (t.freePage p v) := by
  refine ⟨h.toSameEngine.freePage p v, ?_, ?_, ?_, ?_⟩ <;> rw [State.freePage_eq]
  exacts [h.cal, h.live, h.request, h.reply]

theorem markDamaged (h : KeepsOwners s t) (f : FileNo) (dev : List Host.Cell) :
    KeepsOwners s (t.markDamaged f dev) := by
  unfold State.markDamaged
  dsimp only
  split
  · exact h
  · exact (h.putRecord _ _).withStore _

theorem ownersFrom (h : KeepsOwners s t) : OwnersFrom s t :=
  ⟨h.request, h.reply, fun on => h.status ▸ on, fun _ live => h.live ▸ live,
    fun a inside => .inl ⟨a, h.cal ▸ inside, rfl⟩⟩

end KeepsOwners

variable {r r' : Run} {j j' : Job}

/-- A running request goes on to a place whose owners' law holds there. -/
theorem State.ownersLawful.runs (law : s.ownersLawful) (op : s.store.op = .run r j) (same : SameEngine s t)
    (next : t.store.op = .run r' j') (runs : j.runsIn s.store.status → j'.runsIn s.store.status)
    (owners : t.ownersAt (.run r' j')) (blk : r'.blk = r.blk := by rfl) : t.ownersLawful := by
  have run := (engineLawful_run_iff op).1 law.1
  refine ⟨(engineLawful_run_iff next).2 ⟨?_, ?_, same.waiting.trans run.waiting, ?_⟩, next ▸ owners⟩
  · exact (congrArg Supply.state same.supply).trans run.full
  · rw [same.cell, blk]; exact run.cell
  · rw [same.status]; exact runs run.runs

/-- A request that neither deletes nor formats: it leaves no purge under way and every owner Live. -/
def Job.isPlain : Job → Prop
  | .readFile _ _ _ _ _ _ | .verify _ _ _ | .readRaw _ _ _ _ | .commit _ _ => True
  | .delete _ _ | .format _ => False

/-- No purge is under way, and every alarm's owner is Live. -/
structure State.OwnersRest (s : State) : Prop where
  request : s.store.purgeReq = none
  reply : s.store.purgeReply = none
  live : s.ownersLive

theorem ownersAt_plain_iff (plain : j.isPlain) : s.ownersAt (.run r j) ↔ s.OwnersRest := by
  cases j with
  | delete _ _ | format _ => cases plain
  | readFile _ _ _ _ _ _ | verify _ _ _ | readRaw _ _ _ _ | commit _ _ =>
    exact ⟨fun ⟨request, reply, live⟩ => ⟨request, reply, live⟩, fun h => ⟨h.request, h.reply, h.live⟩⟩

/-- R28: the end of a request, with no purge under way. -/
theorem endRun_ownersLawful (on : u.store.status = .busy ∨ u.store.status = .unformatted)
    (waiting : u.store.waiting = none) (owners : u.OwnersRest) (st : Status) (part : Bool) (count : Nat) :
    (u.endRun r st part count).ownersLawful := by
  have rest := Store.rest_cases on
  have op : (u.endRun r st part count).store.op = .none := by rw [State.endRun_store]
  refine ⟨(engineLawful_idle_iff op).2 ⟨?on, ?held, ?notScanning, ?notBusy, ?cell, ?waiting⟩, ?owners⟩
  case cell => simp [State.endRun, State.terminate, Port.setCell, Hold.isBusy]
  case waiting => rw [State.endRun_store]; exact waiting
  case owners =>
    rw [op]
    unfold State.ownersAt State.ownersLive
    rw [State.endRun_store, State.endRun_cal]
    exact ⟨owners.request, owners.reply, fun _ => owners.live⟩
  all_goals
    rw [State.endRun_store]
    rcases rest with ⟨-, e⟩ | ⟨-, hold, e⟩ | e
    all_goals simp [*]

end

end Sys2Proof.Machine
end

section
/-! SUPPORT. Proofs: alarm owners through every event of the store engine (R83, R18 to R24, R33 to R45). -/
namespace Sys2Proof.Machine

section
variable {s t u : State} {r r' : Run} {j j' : Job}

/-! ### Events that move no purge and no file (R15, R28) -/

/-- The place `j'` asks no more of the store state and of the owners than `j`. -/
structure Job.Precedes (j j' : Job) : Prop where
  runs : ∀ st, j.runsIn st → j'.runsIn st
  owners : ∀ (s : State) (r r' : Run), s.ownersAt (.run r j) → s.ownersAt (.run r' j')

/-- What an event of a running request can do that moves no purge and no file: the request goes on, or ends. -/
inductive Advances (s : State) (r : Run) (j : Job) : State → Prop where
  | goesOn {u : State} (keeps : KeepsOwners s u) (r' : Run) (j' : Job) (next : j.Precedes j')
      (blk : r'.blk = r.blk := by rfl) : Advances s r j (u.setJob r' j')
  | ends {u : State} (keeps : KeepsOwners s u) (st : Status) (part : Bool) (count : Nat)
      (plain : j.isPlain := by exact trivial) : Advances s r j (u.endRun r st part count)

theorem Advances.ownersLawful (h : Advances s r j t) (law : s.ownersLawful) (op : s.store.op = .run r j) :
    t.ownersLawful := by
  have here : s.ownersAt (.run r j) := op ▸ law.2
  cases h with
  | goesOn keeps r' j' next blk =>
    exact law.runs op (keeps.toSameEngine.setJob _ _) rfl (next.runs _)
      (next.owners _ r r' (keeps.ownersFrom.ownersAt here)) blk
  | ends keeps st part count plain =>
    have run := (engineLawful_run_iff op).1 law.1
    refine endRun_ownersLawful ?_ (keeps.waiting.trans run.waiting) ?_ st part count
    · rw [keeps.status]; exact Job.runsIn_cases run.runs
    · exact (ownersAt_plain_iff plain).1 (keeps.ownersFrom.ownersAt here)

namespace Job.Precedes

theorem readFile {f : FileNo} {offset length buf k k' : Nat} {link link' : Word} :
    (Job.readFile f offset length buf k link).Precedes (.readFile f offset length buf k' link') :=
  ⟨fun _ => id, fun _ _ _ => id⟩

theorem verify {f : FileNo} {k k' : Nat} {link link' : Word} : (Job.verify f k link).Precedes (.verify f k' link') :=
  ⟨fun _ => id, fun _ _ _ => id⟩

theorem readRaw {first count buf done done' : Nat} :
    (Job.readRaw first count buf done).Precedes (.readRaw first count buf done') :=
  ⟨fun _ => id, fun _ _ _ => id⟩

theorem commit {c c' : Commit} {ph ph' : CommitPhase} : (Job.commit c ph).Precedes (.commit c' ph') :=
  ⟨fun _ => id, fun _ _ _ => id⟩

end Job.Precedes

theorem KeepsOwners.afterPage (keeps : KeepsOwners s u) (next : j.Precedes j') (last : Bool) (count : Nat)
    (plain : j.isPlain := by exact trivial) : Advances s r j (u.afterPage r last count j') := by
  unfold State.afterPage
  split
  · exact .ends keeps _ _ _ plain
  · split
    · exact .ends keeps _ _ _ plain
    · exact .goesOn keeps r _ next

theorem Advances.readFilePage {f : FileNo} {offset length buf k : Nat} {link : Word} :
    Advances s r (.readFile f offset length buf k link) (s.readFilePage r f offset length buf k link) := by
  have here : KeepsOwners s s := .refl
  unfold State.readFilePage
  dsimp only
  repeat' split
  · exact .ends here _ _ _
  · exact .ends here _ _ _
  · exact here.afterPage .readFile _ _
  · exact .ends here _ _ _
  · exact (here.putRam _ _).afterPage .readFile _ _

theorem Advances.verifyPage {f : FileNo} {k : Nat} {link : Word} :
    Advances s r (.verify f k link) (s.verifyPage r f k link) := by
  have here : KeepsOwners s s := .refl
  unfold State.verifyPage
  dsimp only
  repeat' split
  · exact .ends here _ _ _
  · exact .ends here _ _ _
  · exact .ends here _ _ _
  · exact here.afterPage .verify _ _

/-! ### COMMIT_FILE (R35 to R39) -/

section
variable {c : Commit} {ph : CommitPhase}

theorem KeepsOwners.commitGoesOn (keeps : KeepsOwners s u) (c' : Commit) (ph' : CommitPhase) :
    Advances s r (.commit c ph) (u.setJob r (.commit c' ph')) := .goesOn keeps r _ .commit

theorem KeepsOwners.enterRollback (keeps : KeepsOwners s u) (c' : Commit) (why : Status) :
    Advances s r (.commit c ph) (u.enterRollback r c' why) := by
  unfold State.enterRollback
  split
  · exact .ends keeps _ _ _
  · exact keeps.commitGoesOn _ _

theorem Advances.stageChunk (i : Nat) (v : Verify) : Advances s r (.commit c ph) (s.stageChunk r c i v) := by
  have here : KeepsOwners s s := .refl
  unfold State.stageChunk
  split
  · exact here.enterRollback _ _
  next p rest _ =>
    split
    · have staged : KeepsOwners s ((s.putArray (s.stageWrite c i p)).withStore { s.store with free := rest }) :=
        (here.putArray _).withStore _
      unfold State.afterStage
      split
      · exact staged.enterRollback _ _
      · split <;> exact staged.commitGoesOn _ _
    next dev bad =>
      have retired : KeepsOwners s ((s.putArray (badPage p dev bad (s.chunkBytes c i))).withStore
          ({ s.store with free := rest }.retire p)) := by
        rw [Store.retire_eq _ _ []]
        exact (here.putArray _).withStore _
      unfold State.afterRetire
      split
      · exact retired.enterRollback _ _
      · exact retired.commitGoesOn _ _

theorem Advances.rollbackPage (todo : List PageNo) (why : Status) (v : HeaderVerify) :
    Advances s r (.commit c ph) (s.rollbackPage r c todo why v) := by
  unfold State.rollbackPage
  split
  · exact .ends .refl _ _ _
  · exact .ends (KeepsOwners.refl.freePage _ _) _ _ _
  · exact (KeepsOwners.refl.freePage _ _).commitGoesOn _ _

theorem Advances.liveRewrite (done todo : List PageNo) (v : HeaderVerify) :
    Advances s r (.commit c ph) (s.liveRewrite r c done todo v) := by
  unfold State.liveRewrite
  split
  · exact KeepsOwners.refl.commitGoesOn _ _
  next p ps =>
    have rewritten : KeepsOwners s (s.rewrite p (liveHdr s.sram p) v) := KeepsOwners.refl.rewrite _ _ _
    dsimp only
    split
    · exact rewritten.commitGoesOn _ _
    · exact (rewritten.withStore _).commitGoesOn _ _

theorem Advances.breakFree (kept todo : List PageNo) (v : HeaderVerify) :
    Advances s r (.commit c ph) (s.breakFree r c kept todo v) := by
  unfold State.breakFree
  split
  · exact KeepsOwners.refl.commitGoesOn _ _
  · exact (KeepsOwners.refl.freePage _ _).commitGoesOn _ _

theorem Advances.freeOldCommit (todo : List PageNo) (broken : Option Nat) (v : HeaderVerify) :
    Advances s r (.commit c ph) (s.freeOldCommit r c todo broken v) := by
  unfold State.freeOldCommit
  split
  · exact KeepsOwners.refl.commitGoesOn _ _
  · exact (KeepsOwners.refl.freePage _ _).commitGoesOn _ _

theorem Advances.clearCommit (broken : Option Nat) (dev : List Host.Cell) :
    Advances s r (.commit c ph) (s.clearCommit r c broken dev) := by
  unfold State.clearCommit
  split <;> exact .ends (KeepsOwners.refl.putRecord _ _) _ _ _

/-- R38, R83: the entry write makes the file Live, which takes no owner out of the set. -/
theorem commitEntry_ownersLawful (law : s.ownersLawful) {stamp : Stamp}
    (op : s.store.op = .run r (.commit c (.entry stamp))) (dev : List Host.Cell) :
    (s.commitEntry r c stamp dev).ownersLawful := by
  have here : s.ownersAt (.run r (.commit c (.entry stamp))) := op ▸ law.2
  have owners : OwnersFrom s (s.commitEntry r c stamp dev) :=
    { request := rfl, reply := rfl, on := id
      live := fun f live => by
        refine (FileSet.join_getLsbD _ _ f).trans ?_
        rw [show s.store.live.getLsbD f.val = true from live]
        rfl
      alarms := fun a inside => .inl ⟨a, inside, rfl⟩ }
  exact law.runs op (((SameEngine.refl.putRecord _ _).withStore _).setJob _ _) rfl id
    (owners.ownersAt (op := .run r (.commit c c.afterEntry)) here)

end

/-! ### DELETE_FILE (R40, R41) -/

section
variable {f : FileNo}

/-- What the phases of a delete from its entry write to its purge ask of the owners. -/
theorem ownersAt_deleted_iff {ph : DeletePhase} (deleted : ph ≠ .arm ∧ ph ≠ .entry ∧ ph ≠ .purging) :
    s.ownersAt (.run r (.delete f ph)) ↔ s.store.purgeReq = none ∧ s.store.purgeReply = none ∧
      ∀ a ∈ s.cal.alarms, a.owner = f ∨ FileSet.has s.store.live a.owner = true := by
  obtain ⟨arm, entry, purging⟩ := deleted
  cases ph with
  | purging => exact absurd rfl purging
  | arm => exact absurd rfl arm
  | entry => exact absurd rfl entry
  | freeOld _ | clear => simp [State.ownersAt]

/-- What the phases of a delete before its entry write ask of the owners. -/
theorem ownersAt_undeleted_iff {ph : DeletePhase} (undeleted : ph = .arm ∨ ph = .entry) :
    s.ownersAt (.run r (.delete f ph)) ↔ s.OwnersRest := by
  have rest : s.OwnersRest ↔ s.store.purgeReq = none ∧ s.store.purgeReply = none ∧ s.ownersLive :=
    ⟨fun h => ⟨h.request, h.reply, h.live⟩, fun ⟨request, reply, live⟩ => ⟨request, reply, live⟩⟩
  rw [rest]
  rcases undeleted with rfl | rfl <;> simp [State.ownersAt, State.ownersLive]

theorem Job.Precedes.armDelete : (Job.delete f .arm).Precedes (.delete f .entry) :=
  ⟨fun _ => id, fun _ _ _ h => (ownersAt_undeleted_iff (.inr rfl)).2 ((ownersAt_undeleted_iff (.inl rfl)).1 h)⟩

theorem Job.Precedes.deleted {ph ph' : DeletePhase} (before : ph ≠ .arm ∧ ph ≠ .entry ∧ ph ≠ .purging)
    (after : ph' ≠ .arm ∧ ph' ≠ .entry ∧ ph' ≠ .purging) : (Job.delete f ph).Precedes (.delete f ph') :=
  ⟨fun _ => id, fun _ _ _ h => (ownersAt_deleted_iff after).2 ((ownersAt_deleted_iff before).1 h)⟩

theorem Advances.freeOldDelete (todo : List PageNo) (v : HeaderVerify) :
    Advances s r (.delete f (.freeOld todo)) (s.freeOldDelete r f todo v) := by
  have next {ph : DeletePhase} (after : ph ≠ .arm ∧ ph ≠ .entry ∧ ph ≠ .purging) :
      (Job.delete f (.freeOld todo)).Precedes (.delete f ph) := .deleted (by simp) after
  unfold State.freeOldDelete
  split
  · exact .goesOn .refl r _ (next (by simp))
  · exact .goesOn (KeepsOwners.refl.freePage _ _) r _ (next (by split <;> simp))

theorem FileSet.has_leave (x : FileSet) (a g : FileNo) :
    FileSet.has (FileSet.leave x a) g = (FileSet.has x g && decide (g ≠ a)) := by
  have := g.isLt
  have := a.isLt
  simp only [FileSet.has, FileSet.leave, BitVec.getLsbD_and, BitVec.getLsbD_not, BitVec.getLsbD_shiftLeft]
  by_cases same : g = a
  · subst same; simp
  · have apart : g.val ≠ a.val := fun e => same (Fin.ext e)
    simp [same]
    omega

/-- R40: the entry write takes the file, and no other, out of the live-file set. -/
theorem deleteEntry_ownersLawful (law : s.ownersLawful) (op : s.store.op = .run r (.delete f .entry))
    (dev : List Host.Cell) : (s.deleteEntry r f dev).ownersLawful := by
  have here : s.ownersAt (.run r (.delete f .entry)) := op ▸ law.2
  have owners := (ownersAt_undeleted_iff (.inr rfl)).1 here
  refine law.runs op (((SameEngine.refl.putRecord _ _).withStore _).setJob _ _) rfl id ?_
  refine (ownersAt_deleted_iff (by split <;> simp)).2 ⟨owners.request, owners.reply, fun a inside => ?_⟩
  by_cases same : a.owner = f
  · exact .inl same
  · refine .inr ((FileSet.has_leave _ _ _).trans ?_)
    rw [owners.live a inside, decide_eq_true same]
    rfl

/-- R41: the clearing write sends the purge of the file. -/
theorem clearDelete_ownersLawful (law : s.ownersLawful) (op : s.store.op = .run r (.delete f .clear))
    (dev : List Host.Cell) : (s.clearDelete r f dev).ownersLawful := by
  have here : s.ownersAt (.run r (.delete f .clear)) := op ▸ law.2
  obtain ⟨-, reply, owners⟩ := (ownersAt_deleted_iff (by simp)).1 here
  exact law.runs op (((SameEngine.refl.putRecord _ _).setJob _ _).withStore _) rfl id
    (.inl ⟨rfl, reply, owners⟩)

end

/-! ### FORMAT_STORE (R44, R45) -/

section

/-- Before its purge a format asks nothing of the owners. -/
theorem ownersAt_format_iff {ph : FormatPhase} (formatting : ∀ bad, ph ≠ .purging bad) :
    s.ownersAt (.run r (.format ph)) ↔ s.store.purgeReq = none ∧ s.store.purgeReply = none := by
  cases ph with
  | purging bad => exact absurd rfl (formatting bad)
  | header | journal | entries _ | pages _ _ => exact Iff.rfl

theorem Job.Precedes.format {ph ph' : FormatPhase} (before : ∀ bad, ph ≠ .purging bad)
    (after : ∀ bad, ph' ≠ .purging bad) : (Job.format ph).Precedes (.format ph') :=
  ⟨fun _ => id, fun _ _ _ h => (ownersAt_format_iff after).2 ((ownersAt_format_iff before).1 h)⟩

/-- R44, R45: a page of a format; the last one sends the purge of what is not Live. -/
theorem formatPage_ownersLawful (law : s.ownersLawful) {p : PageNo} {bad : Nat}
    (op : s.store.op = .run r (.format (.pages p bad))) (v : HeaderVerify) :
    (s.formatPage r p bad v).ownersLawful := by
  have freed : KeepsOwners s (s.freePage p v) := KeepsOwners.refl.freePage _ _
  have here : s.ownersAt (.run r (.format (.pages p bad))) := op ▸ law.2
  obtain ⟨-, reply⟩ := (ownersAt_format_iff (by simp)).1 here
  unfold State.formatPage
  dsimp only
  split
  · exact (Advances.goesOn freed r _ (.format (by simp) (by simp))).ownersLawful law op
  · exact law.runs op ((freed.toSameEngine.setJob _ _).withStore _) rfl id (.inl ⟨rfl, freed.reply.trans reply⟩)

end

/-! ### The recovery scan (R18 to R24) -/

section
variable {n n' : ScanNotes} {ph ph' : ScanPhase}

/-- Before its purge the recovery scan asks nothing of the owners. -/
theorem ownersAt_scan_iff (scanning : ph ≠ .purging) :
    s.ownersAt (.scan n ph) ↔ s.store.purgeReq = none ∧ s.store.purgeReply = none := by
  cases ph with
  | purging => exact absurd rfl scanning
  | _ => exact Iff.rfl

/-- The recovery scan goes on to a place whose owners' law holds there. -/
theorem State.ownersLawful.scans (law : s.ownersLawful) (op : s.store.op = .scan n ph) (same : SameEngine s t)
    (next : t.store.op = .scan n' ph') (owners : t.ownersAt (.scan n' ph')) : t.ownersLawful := by
  have scan := (engineLawful_scan_iff op).1 law.1
  refine ⟨(engineLawful_scan_iff next).2
    ⟨(congrArg Supply.state same.supply).trans scan.full, same.status.trans scan.status, ?_⟩, next ▸ owners⟩
  have waits := scan.waits
  unfold Store.waitsFor at waits ⊢
  rw [same.waiting, same.cell]
  exact waits

/-- An event of the recovery scan before its purge. -/
theorem KeepsOwners.scanGoesOn (keeps : KeepsOwners s u) (law : s.ownersLawful) (op : s.store.op = .scan n ph)
    (n' : ScanNotes) (before : ph ≠ .purging := by exact nofun) (after : ph' ≠ .purging := by exact nofun) :
    (u.setScan n' ph').ownersLawful := by
  have here : s.ownersAt (.scan n ph) := op ▸ law.2
  obtain ⟨request, reply⟩ := (ownersAt_scan_iff before).1 here
  exact law.scans op (keeps.toSameEngine.setScan _ _) rfl
    ((ownersAt_scan_iff after).2 ⟨keeps.request.trans request, keeps.reply.trans reply⟩)

theorem rollLiveFrom_ne_purging (m : Mem) (jr : Journal) (left k : Nat) (link : Word) :
    rollLiveFrom m jr left k link ≠ .purging := by
  induction left generalizing k link with
  | zero => exact nofun
  | succ left ih =>
    unfold rollLiveFrom
    repeat' split
    · exact nofun
    · exact nofun
    · exact ih _ _
    · exact nofun

theorem rollOldFrom_ne_purging (m : Mem) (jr : Journal) (k : Nat) (link : Word) :
    rollOldFrom m jr k link ≠ .purging := by
  have after : afterRollOld m jr ≠ .purging := by
    unfold afterRollOld
    split
    · exact rollLiveFrom_ne_purging _ _ _ _ _
    · exact nofun
  unfold rollOldFrom
  repeat' split
  · exact after
  · exact nofun
  · exact after

theorem firstWalk_ne_purging (st : Store) (fs : List FileNo) : firstWalk st fs ≠ .purging := by
  induction fs with
  | nil => exact nofun
  | cons f fs ih =>
    unfold firstWalk
    split
    · exact nofun
    · exact ih

theorem scanEntry_ownersLawful (law : s.ownersLawful) {f : FileNo} (op : s.store.op = .scan n (.entries f))
    (dev : List Host.Cell) : (s.scanEntry n f dev).ownersLawful := by
  have after {st : Store} :
      (if h : f.val + 1 < 16 then ScanPhase.entries ⟨f.val + 1, h⟩ else firstWalk st (List.finRange 16)) ≠
        .purging := by
    split
    · exact nofun
    · exact firstWalk_ne_purging _ _
  unfold State.scanEntry
  split
  · exact (KeepsOwners.refl.withStore _).scanGoesOn law op _ (after := after)
  · exact ((KeepsOwners.refl.putRecord _ _).withStore _).scanGoesOn law op _ (after := after)

theorem scanWalk_ownersLawful (law : s.ownersLawful) {f : FileNo} {k : Nat} {link : Word}
    (op : s.store.op = .scan n (.walk f k link)) (dev : List Host.Cell) :
    (s.scanWalk n f k link dev).ownersLawful := by
  have claimed : KeepsOwners s (s.withStore (s.store.claim f (s.claims f k link))) := by
    cases s.claims f k link <;> exact KeepsOwners.refl.withStore _
  unfold State.scanWalk
  dsimp only
  split
  · exact claimed.scanGoesOn law op _
  · exact claimed.scanGoesOn law op _ (after := firstWalk_ne_purging _ _)
  · exact (claimed.markDamaged _ _).scanGoesOn law op _ (after := firstWalk_ne_purging _ _)

theorem sweep_ownersLawful (law : s.ownersLawful) {p : PageNo} (op : s.store.op = .scan n (.sweep p))
    (v : HeaderVerify) : (s.sweep n p v).ownersLawful := by
  have here : KeepsOwners s s := .refl
  have after {t : State} (keeps : KeepsOwners s t) (n' : ScanNotes) : (t.afterSweep n' p).ownersLawful :=
    keeps.scanGoesOn law op _ (after := by split <;> exact nofun)
  unfold State.sweep
  dsimp only
  repeat' split
  · exact after here _
  · exact after ((here.withStore _).freePage _ _) _
  · rw [Store.retire_eq _ _ []]
    exact after (here.withStore _) _
  · exact after (here.withStore _) _
  · exact after (here.freePage _ _) _
  · exact after (here.freePage _ _) _

/-- R24: the publication sends the purge of what is not Live. -/
theorem publish_ownersLawful (law : s.ownersLawful) (op : s.store.op = .scan n .publish) :
    (s.publish n).ownersLawful := by
  have here : s.ownersAt (.scan n .publish) := op ▸ law.2
  obtain ⟨-, reply⟩ := here
  exact law.scans op ((SameEngine.refl.withStore _).setScan _ _) rfl (.inl ⟨rfl, reply⟩)

end

/-! ### Every event -/

/-- R83: the owners' law is kept by every event of the store engine. -/
theorem StoreEvent.ownersLawful (event : StoreEvent s t) (law : s.ownersLawful) : t.ownersLawful := by
  have here : KeepsOwners s s := .refl
  cases event with
  | readFilePage op => exact Advances.readFilePage.ownersLawful law op
  | verifyPage op => exact Advances.verifyPage.ownersLawful law op
  | readRawPage op => exact ((here.putRam _ _).afterPage .readRaw _ _).ownersLawful law op
  | stageChunk v op => exact (Advances.stageChunk _ v).ownersLawful law op
  | rollback v op | rollbackFirst v op => exact (Advances.rollbackPage _ _ v).ownersLawful law op
  | armCommit dev op => exact ((here.putRecord _ _).commitGoesOn _ _).ownersLawful law op
  | armDelete dev op => exact (Advances.goesOn (here.putRecord _ _) _ _ .armDelete).ownersLawful law op
  | commitEntry dev op => exact commitEntry_ownersLawful law op dev
  | liveRewrite v op => exact (Advances.liveRewrite _ _ v).ownersLawful law op
  | breakFree v op => exact (Advances.breakFree _ _ v).ownersLawful law op
  | damagedEntry dev op => exact (((here.putRecord _ _).withStore _).commitGoesOn _ _).ownersLawful law op
  | freeOldCommit v op => exact (Advances.freeOldCommit _ _ v).ownersLawful law op
  | freeOldDelete v op => exact (Advances.freeOldDelete _ v).ownersLawful law op
  | clearCommit dev op => exact (Advances.clearCommit _ dev).ownersLawful law op
  | clearDelete dev op => exact clearDelete_ownersLawful law op dev
  | deleteEntry dev op => exact deleteEntry_ownersLawful law op dev
  | formatHeader dev op | formatJournal dev op =>
    exact (Advances.goesOn (here.putRecord _ _) _ _ (.format (by simp) (by simp))).ownersLawful law op
  | formatEntry dev op =>
    exact (Advances.goesOn ((here.putRecord _ _).withStore _) _ _
      (.format (by simp) (by split <;> simp))).ownersLawful law op
  | formatPage v op => exact formatPage_ownersLawful law op v
  | discardHeader dev op => exact (here.putRecord _ _).scanGoesOn law op _
  | clearBatteryLost op =>
    exact KeepsOwners.scanGoesOn (u := { s with
      batteryLost := false, store := { s.store with verdict := false } })
      ⟨⟨rfl, rfl, rfl, rfl, id⟩, rfl, rfl, rfl, rfl⟩ law op _
  | headerRead op => exact (here.withStore _).scanGoesOn law op _ (after := by split <;> exact nofun)
  | journalClear op | journalArmed op => exact here.scanGoesOn law op _
  | rollEntry dev op => exact (here.putRecord _ _).scanGoesOn law op _ (after := rollOldFrom_ne_purging _ _ _ _)
  | rollOld v op => exact (here.rewrite _ _ _).scanGoesOn law op _ (after := rollOldFrom_ne_purging _ _ _ _)
  | rollLive v op => exact (here.rewrite _ _ _).scanGoesOn law op _ (after := rollLiveFrom_ne_purging _ _ _ _ _)
  | rollClear dev op => exact (here.putRecord _ _).scanGoesOn law op _
  | scanEntry dev op => exact scanEntry_ownersLawful law op dev
  | scanWalk dev op => exact scanWalk_ownersLawful law op dev
  | sweep v op => exact sweep_ownersLawful law op v
  | publish op => exact publish_ownersLawful law op

end

end Sys2Proof.Machine
end

section
/-! SUPPORT. Proofs: alarm owners through the start of a request, the store cell, aborts and the purge reply (R83,
R24 to R27, R41, R45, R143 to R145). -/
namespace Sys2Proof.Machine

section
variable {s t : State} {b : Block}

/-! ### The start of a request (R27) -/

/-- What holds of an engine at rest in Full with no purge under way, whatever the store cell holds. -/
structure State.OwnersIdle (s : State) : Prop extends s.OwnersRest where
  full : s.supplyState = .full
  op : s.store.op = .none
  waiting : s.store.waiting = none
  status : s.store.status = .ready ∨ s.store.status = .unformatted ∨ s.store.status = .quiesced
  held : s.store.status = .quiesced → s.store.hold = true

/-- What holds when the engine starts a block that the store cell has taken. -/
structure State.OwnersStart (s : State) (b : Block) : Prop extends s.OwnersIdle where
  cell : s.port.store.hold = .busy b

/-- With no block in work an engine at rest meets the law. -/
theorem State.OwnersIdle.ownersLawful (h : s.OwnersIdle) (cell : ¬ s.port.store.hold.isBusy) :
    s.ownersLawful := by
  have elsewhere {st : StoreState} (other : st ≠ .ready ∧ st ≠ .unformatted ∧ st ≠ .quiesced) :
      s.store.status ≠ st := by
    rintro rfl
    obtain ⟨ready, unformatted, quiesced⟩ := other
    rcases h.status with e | e | e
    · exact ready e
    · exact unformatted e
    · exact quiesced e
  refine ⟨(engineLawful_idle_iff h.op).2 ⟨fun _ => elsewhere (by decide), h.held, elsewhere (by decide),
    elsewhere (by decide), cell, h.waiting⟩, ?_⟩
  rw [h.op]
  exact ⟨h.request, h.reply, fun _ => h.live⟩

namespace State.OwnersStart

/-- A block that ends at its start event leaves the engine at rest. -/
theorem terminate (h : s.OwnersStart b) (a : Answer) : (s.terminate .store b a).ownersLawful :=
  State.OwnersIdle.ownersLawful (s := s.terminate .store b a)
    ⟨⟨h.request, h.reply, h.live⟩, h.full, h.op, h.waiting, h.status, h.held⟩ id

theorem answerWith (h : s.OwnersStart b) (k : Nat) (bs : List Byte) (a : Answer) :
    (s.answerWith .store b k bs a).ownersLawful :=
  terminate (s := s.putRam (b.off + k) bs)
    ⟨⟨⟨h.request, h.reply, h.live⟩, h.full, h.op, h.waiting, h.status, h.held⟩, h.cell⟩ a

theorem refuseStore (h : s.OwnersStart b) (st : Status) : (s.refuseStore b st).ownersLawful := h.terminate _

/-- R27: a check of a request ends the block, or the request goes on with what the check found. -/
theorem refuse_or (h : s.OwnersStart b) {c : Prop} [Decidable c] {st : Status} (next : ¬ c → t.ownersLawful) :
    (if c then s.refuseStore b st else t).ownersLawful := by
  split
  · exact h.refuseStore _
  next passes => exact next passes

/-- R27, R15: a request begins at a place that asks no more of the owners than an engine at rest. -/
theorem startRun (h : s.OwnersStart b) {j : Job}
    (runs : j.runsIn (if s.store.status = .ready then .busy else s.store.status))
    (owners : ∀ {t : State} {r : Run}, t.OwnersRest → t.ownersAt (.run r j)) : (s.startRun b j).ownersLawful :=
  ⟨(engineLawful_run_iff (s := s.startRun b j) rfl).2 ⟨h.full, h.cell, h.waiting, runs⟩,
    owners ⟨h.request, h.reply, h.live⟩⟩

theorem startPlain (h : s.OwnersStart b) {j : Job}
    (runs : j.runsIn (if s.store.status = .ready then .busy else s.store.status))
    (plain : j.isPlain := by exact trivial) : (s.startRun b j).ownersLawful :=
  h.startRun runs (ownersAt_plain_iff plain).2

/-- R27: a request of a formatted store that begins under no hold finds it Ready. -/
theorem busy (h : s.OwnersStart b) (free : s.store.status ≠ .quiesced) (formatted : ¬ s.store.status = .unformatted) :
    (if s.store.status = .ready then StoreState.busy else s.store.status) = .busy :=
  if_pos (h.status.resolve_right fun e => e.elim formatted free)

theorem readEntryReq (h : s.OwnersStart b) : (s.readEntryReq b).ownersLawful := by
  unfold State.readEntryReq
  dsimp only
  split
  · exact h.refuseStore _
  · exact h.refuse_or fun _ => h.refuse_or fun _ => h.answerWith _ _ _

/-- R44: a format begins with no file Live. -/
theorem formatReq (h : s.OwnersStart b) : (s.formatReq b).ownersLawful :=
  ⟨(engineLawful_run_iff (s := s.formatReq b) (j := .format .header) rfl).2 ⟨h.full, h.cell, h.waiting, rfl⟩,
    ⟨h.request, h.reply⟩⟩

theorem readStoreStatus (h : s.OwnersStart b) : (s.readStoreStatus b).ownersLawful :=
  answerWith (s := s.withStore { s.store with storeDamaged := false })
    ⟨⟨⟨h.request, h.reply, h.live⟩, h.full, h.op, h.waiting, h.status, h.held⟩, h.cell⟩ _ _ _

section
variable (h : s.OwnersStart b) (free : s.store.status ≠ .quiesced)
include h free

theorem readFileReq : (s.readFileReq b).ownersLawful := by
  unfold State.readFileReq
  dsimp only
  split
  · exact h.refuseStore _
  · refine h.refuse_or fun _ => h.refuse_or fun formatted => h.refuse_or fun _ => h.refuse_or fun _ =>
      h.refuse_or fun _ => ?_
    split
    · exact h.terminate _
    · exact h.startPlain (h.busy free formatted)

theorem commitReq : (s.commitReq b).ownersLawful := by
  unfold State.commitReq
  dsimp only
  split
  · exact h.refuseStore _
  · exact h.refuse_or fun _ => h.refuse_or fun formatted => h.refuse_or fun _ => h.refuse_or fun _ =>
      h.refuse_or fun _ => h.refuse_or fun _ => h.startPlain (h.busy free formatted)

theorem deleteReq : (s.deleteReq b).ownersLawful := by
  unfold State.deleteReq
  dsimp only
  split
  · exact h.refuseStore _
  · exact h.refuse_or fun _ => h.refuse_or fun formatted => h.refuse_or fun _ => h.refuse_or fun _ =>
      h.startRun (h.busy free formatted) (ownersAt_undeleted_iff (.inl rfl)).2

theorem verifyReq : (s.verifyReq b).ownersLawful := by
  unfold State.verifyReq
  dsimp only
  split
  · exact h.refuseStore _
  · refine h.refuse_or fun formatted => h.refuse_or fun _ => ?_
    split
    · exact h.terminate _
    · exact h.startPlain (h.busy free formatted)

theorem readRawReq : (s.readRawReq b).ownersLawful := by
  unfold State.readRawReq
  dsimp only
  split
  · exact h.refuseStore _
  · refine h.startPlain ?_
    by_cases unformatted : s.store.status = .unformatted
    · exact .inr (by rw [unformatted]; rfl)
    · exact .inl (h.busy free unformatted)

end

/-- R27: under the hold of a Quiesced store only reads of the entry and of the status start. -/
theorem startStore (h : s.OwnersStart b) : (s.startStore b).ownersLawful := by
  unfold State.startStore
  split
  · exact h.refuseStore _
  · refine h.refuse_or fun _ => h.refuse_or fun accepts => ?_
    have free (h1 : s.opcode b ≠ 1) (h8 : s.opcode b ≠ 8) : s.store.status ≠ .quiesced := by
      intro e
      refine accepts ⟨?_, h1, h8⟩
      rw [Store.refusesHeld, Store.held, h.held e, e]
      rfl
    unfold State.storeRequest
    split
    · exact h.readEntryReq
    next op => exact h.readFileReq (free (by omega) (by omega))
    next op => exact h.commitReq (free (by omega) (by omega))
    next op => exact h.deleteReq (free (by omega) (by omega))
    next op => exact h.verifyReq (free (by omega) (by omega))
    next op => exact h.readRawReq (free (by omega) (by omega))
    · exact h.formatReq
    · exact h.readStoreStatus

end State.OwnersStart

/-! ### The store cell (R27, R143 to R145) -/

/-- R27: during a scan the block that waits, and the cell that holds it, change together. -/
theorem scan_rewaits_ownersLawful (law : s.ownersLawful) {n : ScanNotes} {ph : ScanPhase}
    (op : s.store.op = .scan n ph) (same : OwnersFrom s t) (supply : t.supply = s.supply)
    (next : t.store.op = s.store.op) (status : t.store.status = s.store.status)
    (waits : t.store.waitsFor t.port.store.hold) : t.ownersLawful := by
  have scan := (engineLawful_scan_iff op).1 law.1
  refine ⟨(engineLawful_scan_iff (next.trans op)).2
    ⟨(congrArg Supply.state supply).trans scan.full, status.trans scan.status, waits⟩, ?_⟩
  rw [next]
  exact same.ownersAt law.2

/-- R27: a block that the store cell takes waits for the end of the scan, or starts. -/
theorem take_store_ownersLawful (law : s.ownersLawful) {v : Word} (taken : s.canTake .store v b) :
    ((s.accepted .store b).runStore b).ownersLawful := by
  obtain ⟨full, idle, -⟩ := taken
  have idle : s.port.store.hold = .idle := idle
  unfold State.runStore
  cases op : s.store.op with
  | none =>
    have rest := (engineLawful_idle_iff op).1 law.1
    have owners : s.ownersAt .none := op ▸ law.2
    obtain ⟨request, reply, live⟩ := owners
    rw [if_neg (show (s.accepted .store b).store.status ≠ .scanning from rest.notScanning)]
    refine State.OwnersStart.startStore
      ⟨⟨⟨request, reply, live (rest.on full)⟩, full, op, rest.waiting, ?_, rest.held⟩, rfl⟩
    have on := rest.on full
    have notScanning := rest.notScanning
    have notBusy := rest.notBusy
    show s.store.status = .ready ∨ s.store.status = .unformatted ∨ s.store.status = .quiesced
    cases e : s.store.status <;> simp_all
  | scan n ph =>
    have scan := (engineLawful_scan_iff op).1 law.1
    rw [if_pos (show (s.accepted .store b).store.status = .scanning from scan.status)]
    exact scan_rewaits_ownersLawful law op
      ⟨rfl, rfl, id, fun _ => id, fun a inside => .inl ⟨a, inside, rfl⟩⟩ rfl rfl rfl rfl
  | run r j =>
    have run := (engineLawful_run_iff op).1 law.1
    rw [run.cell] at idle
    cases idle

theorem take_ownersLawful {c : CellId} {v : Word} (law : s.ownersLawful) (taken : s.canTake c v b) :
    ((s.accepted c b).runUnit c b).ownersLawful := by
  have accepted (hc : c ≠ .store) : CellMoves s (s.accepted c b) := .setCell _ .refl hc
  have change := CalChange.runUnit (s.accepted c b) c b
  cases c with
  | store => exact take_store_ownersLawful law taken
  | calendar => exact (SameStore.of_cellMoves ((accepted (by decide)).runCalendar b)).ownersLawful change law
  | sound => exact (SameStore.of_cellMoves ((accepted (by decide)).runSound b)).ownersLawful change law
  | rumble => exact (SameStore.of_cellMoves ((accepted (by decide)).runRumble b)).ownersLawful change law

/-- R145: an acknowledge frees a cell whose block was answered. -/
theorem acknowledged_ownersLawful {c : CellId} (law : s.ownersLawful) (answered : (s.cell c).hold = .pending b) :
    (s.setCell c { s.cell c with hold := .idle }).ownersLawful := by
  have owners : OwnersFrom s (s.setCell .store { s.port.store with hold := .idle }) :=
    ⟨rfl, rfl, id, fun _ => id, fun a inside => .inl ⟨a, inside, rfl⟩⟩
  cases c with
  | calendar | sound | rumble => exact SameStore.ownersLawful ⟨rfl, rfl, rfl, rfl⟩ (.ofEq rfl) law
  | store =>
    have answered : s.port.store.hold = .pending b := answered
    cases op : s.store.op with
    | none =>
      have idle := (engineLawful_idle_iff op).1 law.1
      exact ⟨(engineLawful_idle_iff (s := s.setCell .store { s.port.store with hold := .idle }) op).2
        ⟨idle.on, idle.held, idle.notScanning, idle.notBusy, id, idle.waiting⟩, owners.ownersAt law.2⟩
    | scan n ph =>
      have waits := ((engineLawful_scan_iff op).1 law.1).waits
      refine scan_rewaits_ownersLawful law op owners rfl rfl rfl ?_
      unfold Store.waitsFor at waits ⊢
      rw [State.setCell_store]
      cases hw : s.store.waiting with
      | none => exact id
      | some b' => rw [hw, answered] at waits; cases waits
    | run r j =>
      have cell := ((engineLawful_run_iff op).1 law.1).cell
      rw [answered] at cell
      cases cell

/-! ### Aborts (R26, R47, R48) -/

/-- A place asks nothing of the request's marks. -/
theorem Job.Precedes.refl (j : Job) : j.Precedes j :=
  ⟨fun _ => id, fun _ _ _ => by cases j with
    | delete f ph => cases ph <;> exact id
    | format ph => cases ph <;> exact id
    | readFile _ _ _ _ _ _ | verify _ _ _ | readRaw _ _ _ _ | commit _ _ => exact id⟩

/-- R48: an abort of a commit marks it, makes it say AbortLate, or has it roll back. -/
theorem abortCommit_ownersLawful (law : s.ownersLawful) {r : Run} {c : Commit} {ph : CommitPhase}
    (op : s.store.op = .run r (.commit c ph)) : (s.abortCommit r c ph).ownersLawful := by
  have marked (r' : Run) (blk : r'.blk = r.blk) : (s.setJob r' (.commit c ph)).ownersLawful :=
    (Advances.goesOn .refl r' _ .commit blk).ownersLawful law op
  unfold State.abortCommit
  split
  · exact marked _ rfl
  · split
    · exact marked _ rfl
    · unfold State.enterRollback
      split
      · exact (Advances.ends (r := r) (u := s) .refl _ _ _).ownersLawful law op
      · exact (Advances.goesOn (r := r) .refl _ _ .commit).ownersLawful law op
  · split
    · exact law
    · exact marked _ rfl
  all_goals exact marked _ rfl

/-- R26, R47, R48: an abort request. -/
theorem abortStore_ownersLawful (law : s.ownersLawful) : s.abortStore.ownersLawful := by
  unfold State.abortStore
  split
  · exact law
  next op =>
    split
    · exact scan_rewaits_ownersLawful law op
        ⟨rfl, rfl, id, fun _ => id, fun a inside => .inl ⟨a, inside, rfl⟩⟩ rfl rfl rfl id
    · exact law
  next r j op =>
    have marked (r' : Run) (blk : r'.blk = r.blk) : (s.setJob r' j).ownersLawful :=
      (Advances.goesOn .refl r' j (.refl j) blk).ownersLawful law op
    cases j with
    | commit c ph => exact abortCommit_ownersLawful law op
    | readFile _ _ _ _ _ _ | verify _ _ _ | readRaw _ _ _ _ | delete _ _ | format _ => exact marked _ rfl

/-! ### The purge and its reply (R83, R24, R41, R45) -/

/-- R24: when the scan has ended the engine is at rest, with every owner Live. -/
theorem scanEnd_ownersIdle (law : s.ownersLawful) {n : ScanNotes} (op : s.store.op = .scan n .purging)
    (request : s.store.purgeReq = none) (live : s.ownersLive) :
    (s.withStore (s.store.scanEnd n)).settleQuiesce.OwnersIdle := by
  have scan := (engineLawful_scan_iff op).1 law.1
  have status := Store.scanEnd_status_cases s.store n
  refine ⟨⟨?request, ?reply, ?live⟩, ?full, ?op, ?waiting, ?status, ?held⟩
  case full => exact (congrArg Supply.state (State.settleQuiesce_supply _)).trans scan.full
  case live =>
    unfold State.ownersLive
    rw [State.settleQuiesce_store, State.settleQuiesce_cal]
    exact live
  all_goals rw [State.settleQuiesce_store, State.withStore_store]
  case request => exact request
  case reply | op | waiting => rfl
  case status =>
    rcases status with ⟨e, -⟩ | e | ⟨e, -, -⟩
    · exact .inl e
    · exact .inr (.inl e)
    · exact .inr (.inr e)
  case held =>
    intro quiesced
    rcases status with ⟨e, -⟩ | e | ⟨-, -, hold⟩
    · rw [quiesced] at e; cases e
    · rw [quiesced] at e; cases e
    · exact hold

/-- R24, R27: the scan ends, and a block that has waited starts or ends QUIESCED. -/
theorem scanEnd_ownersLawful (law : s.ownersLawful) {n : ScanNotes} (op : s.store.op = .scan n .purging)
    (request : s.store.purgeReq = none) (live : s.ownersLive) : (s.scanEnd n).ownersLawful := by
  have rest := scanEnd_ownersIdle law op request live
  have waits := ((engineLawful_scan_iff op).1 law.1).waits
  unfold Store.waitsFor at waits
  rw [← State.withStore_port s (s.store.scanEnd n),
    ← State.settleQuiesce_port (s.withStore (s.store.scanEnd n))] at waits
  unfold State.scanEnd
  dsimp only
  split
  next none =>
    rw [none] at waits
    exact rest.ownersLawful waits
  next b some =>
    rw [some] at waits
    split
    · exact State.OwnersStart.refuseStore ⟨rest, waits⟩ _
    · exact State.OwnersStart.startStore ⟨rest, waits⟩

/-- R24, R41, R45: a purge that was asked for is replied to before its operation ends. -/
theorem purgeReplied_ownersLawful (law : s.ownersLawful) : s.purgeReplied.ownersLawful := by
  obtain ⟨engine, owners⟩ := id law
  unfold State.purgeReplied
  split
  · exact law
  next k replied =>
    have done {p : Prop} {q : Option PurgeForm}
        (h : (s.store.purgeReq = q ∧ s.store.purgeReply = none ∧ p) ∨ (s.store.purgeReq = none ∧ s.ownersLive)) :
        s.store.purgeReq = none ∧ s.ownersLive :=
      h.resolve_left fun ⟨_, reply, _⟩ => nomatch replied.symm.trans reply
    split
    next n op =>
      rw [op] at owners
      obtain ⟨request, live⟩ := done (p := True) (owners.imp_left fun ⟨q, e⟩ => ⟨q, e, trivial⟩)
      exact scanEnd_ownersLawful law op request live
    next r f op =>
      rw [op] at owners
      obtain ⟨request, live⟩ := done owners
      have run := (engineLawful_run_iff op).1 engine
      exact endRun_ownersLawful (u := s.withStore { s.store with purgeReply := none }) (.inl run.runs) run.waiting
        ⟨request, rfl, live⟩ _ _ _
    next r bad op =>
      rw [op] at owners
      obtain ⟨request, live⟩ := done (p := True) (owners.imp_left fun ⟨q, e⟩ => ⟨q, e, trivial⟩)
      have run := (engineLawful_run_iff op).1 engine
      exact endRun_ownersLawful
        (u := s.withStore { s.store with verdict := true, purgeReply := none, status := .busy }) (.inl rfl)
        run.waiting ⟨request, rfl, live⟩ _ _ _
    · exact law

/-- R83: a purge leaves no owner that is not Live, be it of one file or of all that are not Live. -/
theorem purge_ownersLawful (law : s.ownersLawful) : s.purge.ownersLawful := by
  obtain ⟨engine, owners⟩ := id law
  unfold State.purge
  split
  · exact law
  next form asked =>
    refine ⟨engineLawful_of_same engine Iff.rfl rfl rfl rfl (.inl rfl) id, ?_⟩
    have idle {p : Prop} (h : s.store.purgeReq = none ∧ p) : False := nomatch asked.symm.trans h.1
    have all (h : s.store.purgeReq = some .allNotLive ∧ s.store.purgeReply = none ∨
        s.store.purgeReq = none ∧ s.ownersLive) (a : Alarm)
        (kept : a ∈ s.cal.alarms.filter (form.keeps s.store.live)) : FileSet.has s.store.live a.owner = true := by
      obtain ⟨request, -⟩ := h.resolve_right idle
      obtain rfl := Option.some.inj (asked.symm.trans request)
      have keeps : PurgeForm.allNotLive.keeps s.store.live a = true := List.of_mem_filter kept
      exact keeps
    unfold State.ownersAt at owners ⊢
    dsimp only
    split at owners
    · exact (idle owners).elim
    · exact .inr ⟨rfl, all owners⟩
    · exact (idle owners).elim
    next f _ =>
      obtain ⟨request, -, before⟩ := owners.resolve_right idle
      obtain rfl := Option.some.inj (asked.symm.trans request)
      refine .inr ⟨rfl, fun a kept => ?_⟩
      have keeps : (PurgeForm.file f).keeps s.store.live a = true := List.of_mem_filter kept
      have other : a.owner ≠ f := of_decide_eq_true keeps
      exact (before a (List.mem_of_mem_filter kept)).resolve_left other
    · exact (idle owners).elim
    · exact .inr ⟨rfl, all owners⟩
    · exact (idle owners).elim
    · exact (idle owners).elim

end

end Sys2Proof.Machine
end

section
/-! SUPPORT. Proofs: alarm owners through supply events, quiesce and the standby link, and every step (R83; O59). -/
namespace Sys2Proof.Machine

section
variable {s t : State}

/-! ### Supply events (R165 to R169) -/

/-- R166: at Full entry the scan stands at its begin, with no purge under way. -/
theorem fullEntry_ownersLawful (full : s.supplyState = .full) : s.fullEntry.ownersLawful :=
  ⟨(engineLawful_scan_iff (s := s.fullEntry) rfl).2 ⟨full, rfl, id⟩, ⟨rfl, rfl⟩⟩

/-- R15: without power the engine is Off, and no alarm has to name a Live file (log 3). -/
theorem unpowered_ownersLawful (off : s.supplyState ≠ .full) (store : s.store = .unpowered)
    (port : s.port = .reset) : s.ownersLawful := by
  refine ⟨(engineLawful_idle_iff (by rw [store]; rfl)).2 ⟨fun full => absurd full off, ?_, ?_, ?_, ?_, ?_⟩, ?_⟩
  · rw [store]; exact nofun
  · rw [store]; exact nofun
  · rw [store]; exact nofun
  · rw [port]; exact id
  · rw [store]; rfl
  · unfold State.ownersAt
    rw [store]
    exact ⟨rfl, rfl, fun on => absurd rfl on⟩

/-- Where a change of supply state leaves the store engine and the port alone, it begins and ends in Full, or
begins and ends outside it. -/
theorem kept_ownersLawful (law : s.ownersLawful) (change : CalChange s.cal s.store.live t.cal)
    (full : t.supplyState = .full ↔ s.supplyState = .full) (store : t.store = s.store) (port : t.port = s.port) :
    t.ownersLawful := by
  obtain ⟨engine, owners⟩ := law
  refine ⟨engineLawful_of_same engine full (by rw [port]) (congrArg _ store) (congrArg _ store)
    (.inl (congrArg _ store)) (fun h => store ▸ h), ?_⟩
  rw [store]
  exact (OwnersFrom.ofChange change store).ownersAt owners

/-- R165 to R168: what the supply events of a change of supply state leave of the console domain: its values at
Full entry, the loss of them, or what stood, where Full neither begins nor ends. -/
theorem State.supplyEvents_console (s : State) (before after : SupplyState) (cut : WriteCut) :
    (after = .full ∧ ∃ u : State, u.supplyState = s.supplyState ∧ s.supplyEvents before after cut = u.fullEntry) ∨
      (after ≠ .full ∧ (s.supplyEvents before after cut).store = .unpowered ∧
        (s.supplyEvents before after cut).port = .reset) ∨
      ((after = .full ↔ before = .full) ∧ (s.supplyEvents before after cut).store = s.store ∧
        (s.supplyEvents before after cut).port = s.port) := by
  by_cases entered : after = .full
  · subst entered
    by_cases stays : before = .full
    · subst stays
      exact .inr (.inr ⟨Iff.rfl, rfl, rfl⟩)
    · exact .inl ⟨rfl, s.supplyEvents_toFull stays cut⟩
  · refine .inr ?_
    cases after with
    | full => exact absurd rfl entered
    | standby | backup =>
      cases before with
      | full => exact .inl ⟨nofun, rfl, rfl⟩
      | standby | backup | dead => exact .inr ⟨⟨nofun, nofun⟩, rfl, rfl⟩
    | dead =>
      cases before with
      | full | standby | backup => exact .inl ⟨nofun, rfl, rfl⟩
      | dead => exact .inr ⟨⟨nofun, nofun⟩, rfl, rfl⟩

theorem setRail_ownersLawful (law : s.ownersLawful) (rail : Rail) (mv : Nat) (cut : WriteCut) :
    (s.setRail rail mv cut).ownersLawful := by
  have change := CalChange.setRail s rail mv cut
  unfold State.setRail at change ⊢
  dsimp only at change ⊢
  generalize (s.supply.setRail rail mv).trackCellLow rail = p at change ⊢
  have supply := State.supplyEvents_supply { s with supply := p } s.supplyState p.state cut
  have state :
      (({ s with supply := p } : State).supplyEvents s.supplyState p.state cut).supplyState = p.state := by
    rw [State.supplyState, supply]
    split <;> rfl
  rcases State.supplyEvents_console { s with supply := p } s.supplyState p.state cut with
    ⟨full, u, same, entered⟩ | ⟨off, store, port⟩ | ⟨full, store, port⟩
  · rw [entered]
    exact fullEntry_ownersLawful (same.trans full)
  · exact unpowered_ownersLawful (state.symm ▸ off) store port
  · exact kept_ownersLawful law change (by rw [state]; exact full) store port

/-! ### Quiesce, resume and the standby link (R16, R154 to R162) -/

/-- R16: a quiesce or a resume of the store engine moves a store at rest between its two states. -/
theorem rested_ownersLawful (law : s.ownersLawful) (change : CalChange s.cal s.store.live t.cal)
    (state : t.supplyState = s.supplyState) (port : t.port = s.port)
    (store : t.store = s.store.quiesce ∨ t.store = s.store.resume) : t.ownersLawful := by
  obtain ⟨engine, owners⟩ := law
  have moved : t.store.status = s.store.status ∨ s.store.status.resting ∧ t.store.status.resting := by
    rcases store with e | e
    · rw [e, Store.quiesce]
      by_cases ready : s.store.status = .ready
      · exact .inr ⟨.inl ready, .inr (if_pos ready)⟩
      · exact .inl (if_neg ready)
    · rw [e, Store.resume]
      by_cases quiesced : s.store.status = .quiesced
      · exact .inr ⟨.inr quiesced, .inl (if_pos quiesced)⟩
      · exact .inl (if_neg quiesced)
  have held : t.store.status = .quiesced → t.store.hold = true := by
    rcases store with e | e
    · rw [e]; exact fun _ => rfl
    · rw [e, Store.resume]
      intro quiesced
      dsimp only at quiesced
      split at quiesced
      · cases quiesced
      · contradiction
  have same : OwnersFrom s t := by
    refine { request := ?_, reply := ?_, on := fun on off => ?_, live := fun f live => ?_, alarms := ?_ }
    · rcases store with e | e <;> rw [e] <;> rfl
    · rcases store with e | e <;> rw [e] <;> rfl
    · rcases moved with e | ⟨rest, -⟩
      · exact on (e.trans off)
      · rw [off] at rest; rcases rest with e | e <;> cases e
    · rcases store with e | e <;> rw [e] <;> exact live
    · have live : t.store.live = s.store.live := by rcases store with e | e <;> rw [e] <;> rfl
      rw [live]
      exact change.owners
  have op : t.store.op = s.store.op := by rcases store with e | e <;> rw [e] <;> rfl
  have waiting : t.store.waiting = s.store.waiting := by rcases store with e | e <;> rw [e] <;> rfl
  refine ⟨engineLawful_of_same engine (by rw [state]) (by rw [port]) op waiting moved fun _ => held, ?_⟩
  rw [op]
  exact same.ownersAt owners

/-- R161, R162: what a command of the link makes of the store engine. -/
theorem State.commandEffect_store (s : State) (c : LinkCmd) :
    (s.commandEffect c).supplyState = s.supplyState ∧ (s.commandEffect c).port = s.port ∧
      ((s.commandEffect c).store = s.store ∨ (s.commandEffect c).store = s.store.quiesce ∨
        (s.commandEffect c).store = s.store.resume) := by
  cases c with
  | resume => exact ⟨rfl, rfl, .inr (.inr rfl)⟩
  | wakeAck | status | cal | nextDue | firedHead | setCap => exact ⟨rfl, rfl, .inl rfl⟩
  | quiesce =>
    refine ⟨congrArg Supply.state s.quiesceAll_supply, ?_⟩
    show s.quiesceAll.port = s.port ∧
      (s.quiesceAll.store = s.store ∨ s.quiesceAll.store = s.store.quiesce ∨ s.quiesceAll.store = s.store.resume)
    unfold State.quiesceAll State.soundQuiesce
    dsimp only
    split
    · rw [State.settleQuiesce_port, State.settleQuiesce_store]
      refine ⟨?_, .inr (.inl ?_)⟩ <;> split <;> rfl
    · exact ⟨rfl, .inl rfl⟩
    · exact ⟨rfl, .inl rfl⟩

/-- R154 to R162: a byte on the link touches the store engine at most by a quiesce or a resume. -/
theorem State.linkByte_store (s : State) (b : Byte) :
    (s.linkByte b).supplyState = s.supplyState ∧ (s.linkByte b).port = s.port ∧
      ((s.linkByte b).store = s.store ∨ (s.linkByte b).store = s.store.quiesce ∨
        (s.linkByte b).store = s.store.resume) := by
  unfold State.linkByte
  split
  case h_2 =>
    unfold State.addressByte
    repeat' split
    all_goals exact ⟨rfl, rfl, .inl rfl⟩
  case h_3 =>
    unfold State.commandByte
    split
    · split
      · exact s.commandEffect_store _
      · exact ⟨rfl, rfl, .inl rfl⟩
    · exact ⟨rfl, rfl, .inl rfl⟩
  case h_4 =>
    unfold State.argumentByte State.writeCap
    dsimp only
    repeat' split
    all_goals exact ⟨rfl, rfl, .inl rfl⟩
  all_goals exact ⟨rfl, rfl, .inl rfl⟩

theorem linkByte_ownersLawful (law : s.ownersLawful) (b : Byte) : (s.linkByte b).ownersLawful := by
  have change := CalChange.linkByte s b
  obtain ⟨state, port, same | rested⟩ := s.linkByte_store b
  · exact kept_ownersLawful law change (by rw [state]) same port
  · exact rested_ownersLawful law change state port rested

/-! ### Every command -/

/-- R83: the owners' law is kept by everything that a command can do. -/
theorem Effect.ownersLawful (he : Effect s t) (law : s.ownersLawful) : t.ownersLawful := by
  have same (h : SameStore s t) : t.ownersLawful := h.ownersLawful he.calChange law
  cases he with
  | same => exact law
  | rail rail mv cut => exact setRail_ownersLawful law rail mv cut
  | restart cut full => exact fullEntry_ownersLawful (s := s.supplyLoss cut) ((cutWrite_supplyState s cut).trans full)
  | crystal =>
    refine same ?_
    unfold State.crystalEdge
    repeat' split
    case h_3.isFalse => exact .of_cellMoves CellMoves.refl.secondEvent
    all_goals exact ⟨rfl, rfl, rfl, rfl⟩
  | second => exact same (.of_cellMoves CellMoves.refl.secondEvent)
  | purge => exact purge_ownersLawful law
  | purgeReplied => exact purgeReplied_ownersLawful law
  | store event => exact event.ownersLawful law
  | produce => exact same (.produce s)
  | take taken => exact take_ownersLawful law taken
  | acknowledged c _ answered => exact acknowledged_ownersLawful law answered
  | abort => exact abortStore_ownersLawful law
  | wire b => exact linkByte_ownersLawful law b
  | refused c => cases c <;> exact same ⟨rfl, rfl, rfl, rfl⟩
  | detector | settled | cue | play | pull | wrap | unit | motorLevel | trip | enable | ram | start | stop =>
    exact same ⟨rfl, rfl, rfl, rfl⟩

end

/-- Settles O59: the law at every place of an operation is kept by every effect, so by every step; in Full an engine
at rest is not Off, and then the law has every alarm name a Live file. -/
theorem alarmOwnersKept : Obligations.AlarmOwnersKept := by
  unfold Obligations.AlarmOwnersKept
  intro s t hs h
  have law : t.ownersLawful := step_keeps (L := State.ownersLawful)
    (fun _ _ law => SameStore.ownersLawful ⟨rfl, rfl, rfl, rfl⟩ (.ofEq rfl) law)
    (fun _ _ law effect => effect.ownersLawful law) hs h
  refine ⟨law, fun full op => ?_⟩
  obtain ⟨engine, owners⟩ := law
  rw [op] at owners
  obtain ⟨-, -, live⟩ := owners
  exact live (((engineLawful_idle_iff op).1 engine).on full)

end Sys2Proof.Machine
end

section
/-! SUPPORT. Proofs: one application of the firing rule at a second event, and the arithmetic of repeats (R66, R72
to R77; O9, O10). -/
namespace Sys2Proof.Machine

/-! ### A second event (R54, R72) -/

/-- R72: what the firing rule does at a second event to a lawful calendar. -/
theorem State.tick_fires {s : State} (lawful : s.cal.lawful) :
    Fires (s.withCal s.cal.tick) s.cal.now.advance.1 s.supplyState (s.withCal s.cal.tick).applyFiring := by
  obtain ⟨-, -, sorted, -, fits, -, -⟩ := lawful
  exact State.applyFiring_spec (s.withCal s.cal.tick) sorted fits

/-- Settles O9: a second event ticks the clock, and the firing rule does the rest (`Fires`). -/
theorem firingRule : Obligations.FiringRule := by
  unfold Obligations.FiringRule
  refine ⟨?fires, fun _ _ _ => rfl⟩
  rintro s now due powered running count lawful rfl rfl
  have ran := exec_secondEvent powered running count
  have fires := s.tick_fires lawful
  obtain ⟨cal, sound, rumble, frame, quiet⟩ := fires.frame
  rw [State.secondEvent] at ran
  generalize (s.withCal s.cal.tick).applyFiring = r at ran fires frame
  refine ⟨r.1, ran, fires.clock, fires.prescaler, fires.timeLost, fires.fired, fires.overflow, fires.later,
    fires.sorted, fires.table, fires.wakePending, fires.osc, fires.settle, fires.epoch, fires.rollover, ?supply,
    ?msns, ?batteryLost, ?sram, ?link, ?port, ?store, ?outside, ?full⟩
  case supply | msns | batteryLost | sram | link | port | store => rw [frame]; rfl
  case outside =>
    intro off
    rw [frame]
    exact quiet (.inl off)
  case full =>
    intro full
    obtain ⟨handedSound, handedRumble⟩ := fires.handed full
    obtain ⟨sameSound, sameRumble⟩ := State.commands_congr (dueBy s.cal.alarms s.cal.now.advance.1) (s := s)
      (t := s.withCal s.cal.tick) full full rfl rfl rfl
    exact ⟨handedSound.trans sameSound.symm, handedRumble.trans sameRumble.symm⟩

/-! ### Repeats (R73) -/

/-- R73: a position before the end of the calendar is a calendar time, and no other is. -/
theorem CalTime.ofPos_of_le {p : Nat} (h : p ≤ 5662310399) : ∃ d, CalTime.ofPos p = some d ∧ d.pos = p := by
  have inside : p < 65536 * 86400 := by omega
  have some : ∃ d, CalTime.ofPos p = some d := ⟨_, dif_pos inside⟩
  obtain ⟨d, at_⟩ := some
  exact ⟨d, at_, CalTime.ofPos_pos at_⟩

theorem CalTime.ofPos_of_gt {p : Nat} (h : 5662310399 < p) : CalTime.ofPos p = none := dif_neg (by omega)

/-- R73: one more than the whole intervals that have passed is the least number that leads past now. -/
theorem least_past {due now seconds : Nat} (positive : 0 < seconds) (passed : due ≤ now) :
    now < due + ((now - due) / seconds + 1) * seconds ∧
      ∀ j, 1 ≤ j → now < due + j * seconds → (now - due) / seconds + 1 ≤ j := by
  constructor
  · have := Nat.lt_div_mul_add positive (a := now - due)
    rw [Nat.succ_mul]
    omega
  · intro j _ past
    exact Nat.div_lt_of_lt_mul (by rw [Nat.mul_comm]; omega)

section
variable {a : Alarm} {now : CalTime}

theorem Alarm.seconds_pos (repeats : a.every ≠ 0) : 0 < 60 * a.every.toNat := by
  have : a.every.toNat ≠ 0 := fun h => repeats (BitVec.eq_of_toNat_eq (by simpa using h))
  omega

theorem nextDue_once (once : a.every = 0) : nextDue a now = none := if_pos once

theorem missedCount_once (once : a.every = 0) : missedCount a now = 0 := if_pos once

theorem nextDue_repeating (repeats : a.every ≠ 0) : nextDue a now =
    CalTime.ofPos (a.due.pos + (intervalsPassed a.due now (60 * a.every.toNat) + 1) * (60 * a.every.toNat)) :=
  if_neg repeats

theorem missedCount_repeating (repeats : a.every ≠ 0) :
    (missedCount a now).toNat = min 255 (intervalsPassed a.due now (60 * a.every.toNat)) := by
  rw [missedCount, if_neg repeats, byteOf, BitVec.toNat_ofNat]
  exact Nat.mod_eq_of_lt (by omega)

end

/-- Settles O10: the number sought is one more than the intervals passed. -/
theorem repeatArithmetic : Obligations.RepeatArithmetic := by
  unfold Obligations.RepeatArithmetic
  refine ⟨CalTime.later_iff, fun _ => rfl, ?repeating, fun a now once => ⟨nextDue_once once, missedCount_once once⟩⟩
  intro a now repeats passed
  obtain ⟨past, least⟩ := least_past (a.seconds_pos repeats) ((CalTime.later_eq_false_iff _ _).1 passed)
  refine ⟨intervalsPassed a.due now (60 * a.every.toNat) + 1, Nat.le_add_left _ _, past, least, ?_, ?_, ?_⟩
  · rw [nextDue_repeating repeats]
    exact CalTime.ofPos_of_le
  · rw [nextDue_repeating repeats]
    exact CalTime.ofPos_of_gt
  · rw [missedCount_repeating repeats, Nat.add_sub_cancel]

end Sys2Proof.Machine
end

section
/-! SUPPORT. Proofs: ADD_ALARM, REMOVE_ALARM, LIST_ALARMS, TAKE_FIRED and purges (R66 to R71, R80, R83; O13 to
O16). -/
namespace Sys2Proof.Machine

/-! ### The offers (R148) -/

section
variable {s : State} {v : Word} {b : Block}

theorem exec_addAlarm (h : s.offered .calendar 4 6 v b) :
    exec (.addAlarm v) s = .next ((s.accepted .calendar b).addAlarm b) :=
  (h.calendarRequests (by decide)).trans (by rw [State.calendarRequest, h.calendar_opcode]; rfl)

theorem exec_removeAlarm (h : s.offered .calendar 5 3 v b) :
    exec (.removeAlarm v) s = .next ((s.accepted .calendar b).removeAlarm b) :=
  (h.calendarRequests (by decide)).trans (by rw [State.calendarRequest, h.calendar_opcode]; rfl)

theorem exec_listAlarms (h : s.offered .calendar 6 3 v b) :
    exec (.listAlarms v) s = .next ((s.accepted .calendar b).listAlarms b) :=
  (h.calendarRequests (by decide)).trans (by rw [State.calendarRequest, h.calendar_opcode]; rfl)

theorem exec_takeFired (h : s.offered .calendar 7 4 v b) :
    exec (.takeFired v) s = .next ((s.accepted .calendar b).takeFired b) :=
  (h.calendarRequests (by decide)).trans (by rw [State.calendarRequest, h.calendar_opcode]; rfl)

end

/-! ### ADD_ALARM (R66 to R68) -/

section
variable {s : State} {b : Block} {a : Alarm}

/-- R67, TABLE 11-7: the id is no part of what the sixteen bytes state. -/
theorem State.alarmAt_withId {x : Nat} (read : s.alarmAt x 0 = some a) (id : Fin 32) :
    s.alarmAt x id = some { a with id := id } :=
  (s.alarmAt_eq_some_iff x id _).2 ⟨rfl, ((s.alarmAt_eq_some_iff x 0 a).1 read).2⟩

theorem State.alarmAt_eq_none {x : Nat} (unread : s.alarmAt x 0 = none) (id : Fin 32) : s.alarmAt x id = none := by
  refine Option.eq_none_iff_forall_ne_some.2 fun a read => ?_
  obtain ⟨-, bytes⟩ := (s.alarmAt_eq_some_iff x id a).1 read
  have zero : s.alarmAt x 0 = some { a with id := 0 } := (s.alarmAt_eq_some_iff x 0 _).2 ⟨rfl, bytes⟩
  exact nomatch unread.symm.trans zero

theorem State.addAlarm_unread (unread : s.alarmAt (b.off + 4) 0 = none) :
    s.addAlarm b = s.terminate .calendar b (.refuse .badArg) := by
  rw [State.addAlarm, State.alarmAt_eq_none unread]

/-- R68: the checks after the first, in order, of an add whose bytes state an alarm. -/
theorem State.addAlarm_read (read : s.alarmAt (b.off + 4) 0 = some a) : s.addAlarm b =
    if FileSet.has s.store.live a.owner = false then s.terminate .calendar b (.refuse .noFile)
    else if a.due.later s.cal.now = false then s.terminate .calendar b (.refuse .badArg)
    else if 32 ≤ s.cal.alarms.length then s.terminate .calendar b (.refuse .tableFull)
    else (s.withCal { s.cal with
        alarms := insertAlarm { a with id := (lowestFree s.cal.alarms).getD 0 } s.cal.alarms }).answerWith
      .calendar b 4 [byteOf ((lowestFree s.cal.alarms).getD 0).val] (.ok 0) := by
  rw [State.addAlarm, State.alarmAt_withId read]

end

/-- Settles O13: the reader of an alarm by its bytes, the checks in their order, and an add that passes by the
lowest free id and the place of an insertion. -/
theorem addAlarm : Obligations.AddAlarm := by
  unfold Obligations.AddAlarm
  refine ⟨fun s => s.alarmAt_eq_some_iff, ?unread, ?noFile, ?notLater, ?full, ?adds⟩
  case unread =>
    intro s v b h unread
    rw [exec_addAlarm h, State.addAlarm_unread]
    rwa [State.accepted_alarmAt]
  case noFile =>
    intro s v b a h read dead
    rw [exec_addAlarm h, State.addAlarm_read ((s.accepted_alarmAt ..).trans read)]
    exact congrArg _ (if_pos dead)
  case notLater =>
    intro s v b a h read live past
    rw [exec_addAlarm h, State.addAlarm_read ((s.accepted_alarmAt ..).trans read)]
    exact congrArg _ ((if_neg (ne_false_of_eq_true live)).trans (if_pos past))
  case full =>
    intro s v b a h read live later long
    rw [exec_addAlarm h, State.addAlarm_read ((s.accepted_alarmAt ..).trans read)]
    exact congrArg _ ((if_neg (ne_false_of_eq_true live)).trans
      ((if_neg (ne_false_of_eq_true later)).trans (if_pos long)))
  case adds =>
    intro s v b a id h read live later room free lowest
    have chosen : (lowestFree s.cal.alarms).getD 0 = id := by
      rw [lowestFree_eq_some_iff.2 ⟨free, lowest⟩, Option.getD_some]
    rw [exec_addAlarm h, State.addAlarm_read ((s.accepted_alarmAt ..).trans read), State.accepted_cal, chosen,
      insertAlarm_eq_placed]
    exact congrArg _ ((if_neg (ne_false_of_eq_true live)).trans
      ((if_neg (ne_false_of_eq_true later)).trans (if_neg (Nat.not_le.2 room))))

/-! ### REMOVE_ALARM and LIST_ALARMS (R70, R71, R149) -/

section
variable {s : State} {b : Block}

theorem State.removeAlarm_badArg (h : 32 ≤ s.arg8 b 4 ∨ 16 ≤ s.arg8 b 5) :
    s.removeAlarm b = s.terminate .calendar b (.refuse .badArg) := by
  rw [State.removeAlarm]
  rcases h with id | owner
  · rw [inRange_eq_none id]
  · rw [inRange_eq_none owner]
    cases inRange (s.arg8 b 4) 32 <;> rfl

/-- R70: with its fields in range a removal looks for the entry that carries the id and names the owner. -/
theorem State.removeAlarm_fields {id : Fin 32} {owner : FileNo} (hid : s.arg8 b 4 = id.val)
    (howner : s.arg8 b 5 = owner.val) : s.removeAlarm b =
      if s.cal.alarms.any fun a => decide (a.id = id) && decide (a.owner = owner) then
        (s.withCal { s.cal with alarms := s.cal.alarms.filter fun a => decide (a.id ≠ id) }).terminate .calendar b
          (.ok 0)
      else s.terminate .calendar b (.refuse .noAlarm) := by
  rw [State.removeAlarm, inRange_val id hid, inRange_val owner howner]

/-- TABLE 11-7: the flags of an entry as a number. -/
theorem Alarm.bytes_eq (a : Alarm) : a.bytes = [BitVec.ofNat 8 a.id.val, BitVec.ofNat 8 a.owner.val] ++
    bytes16 a.due.day.val ++ bytes32 a.due.second.val ++ bytes16 a.every.toNat ++ bytes16 a.tag.toNat ++
    [BitVec.ofNat 8 (a.wake.toNat + 2 * a.cue.isSome.toNat + 4 * a.rumble.isSome.toNat),
     match a.cue with
     | some slot => BitVec.ofNat 8 slot.val
     | none => 0] ++
    match a.rumble with
    | some r => [BitVec.ofNat 8 r.pattern.val, BitVec.ofNat 8 r.priority.val]
    | none => [0, 0] := by
  rw [Alarm.bytes, bitsByte_three]
  cases a.cue <;> cases a.rumble <;> rfl

theorem State.listAlarms_ok (ok : b.bufferOk (s.arg16 b 4) 512 = true) : s.listAlarms b =
    (s.putRam (s.arg16 b 4) (s.cal.alarms.map Alarm.bytes).flatten).terminate .calendar b
      (.ok s.cal.alarms.length) := if_pos ok

theorem State.listAlarms_badArg (bad : b.bufferOk (s.arg16 b 4) 512 = false) :
    s.listAlarms b = s.terminate .calendar b (.refuse .badArg) := if_neg (ne_true_of_eq_false bad)

end

/-- Settles O14: a removal by the range of its fields and by the entry that it looks for, a list by its buffer. -/
theorem removeAndListAlarms : Obligations.RemoveAndListAlarms := by
  unfold Obligations.RemoveAndListAlarms
  refine ⟨Alarm.bytes_eq, ?badArg, ?noAlarm, ?removes, ?lists, ?badBuffer⟩
  case badArg =>
    intro s v b h range
    rw [exec_removeAlarm h, State.removeAlarm_badArg]
    rwa [State.accepted_arg8, State.accepted_arg8]
  case noAlarm =>
    intro s v b h idRange ownerRange absent
    have missed : ¬ (s.cal.alarms.any fun a =>
        decide (a.id = ⟨s.arg8 b 4, idRange⟩) && decide (a.owner = ⟨s.arg8 b 5, ownerRange⟩)) = true := by
      simpa [Fin.ext_iff] using absent
    rw [exec_removeAlarm h, State.removeAlarm_fields (id := ⟨s.arg8 b 4, idRange⟩)
      (owner := ⟨s.arg8 b 5, ownerRange⟩) (s.accepted_arg8 ..) (s.accepted_arg8 ..)]
    exact congrArg _ (if_neg missed)
  case removes =>
    intro s v b a h inside id owner
    have found : (s.cal.alarms.any fun x => decide (x.id = a.id) && decide (x.owner = a.owner)) = true :=
      List.any_eq_true.2 ⟨a, inside, by simp⟩
    rw [exec_removeAlarm h, State.removeAlarm_fields ((s.accepted_arg8 ..).trans id.symm)
      ((s.accepted_arg8 ..).trans owner.symm)]
    exact congrArg _ (if_pos found)
  case lists =>
    intro s v b h fits apart
    rw [exec_listAlarms h, State.listAlarms_ok, State.accepted_arg16, State.accepted_cal]
    rw [State.accepted_arg16]
    exact (b.bufferOk_iff _ _).2 (.inr ⟨fits, apart⟩)
  case badBuffer =>
    intro s v b h bad
    rw [exec_listAlarms h, State.listAlarms_badArg]
    rw [State.accepted_arg16]
    exact (b.bufferOk_eq_false_iff _ _).2 ⟨by decide, bad⟩

/-! ### TAKE_FIRED (R80) -/

section
variable {s : State} {b : Block}

/-- TABLE 11-9: the flags of a fired record as a number. -/
theorem Fired.bytes_eq (f : Fired) : f.bytes = [BitVec.ofNat 8 f.id.val, BitVec.ofNat 8 f.owner.val] ++
    bytes16 f.tag.toNat ++ bytes16 f.due.day.val ++ [f.missed, f.supply.code] ++ bytes32 f.due.second.val ++
    [BitVec.ofNat 8 (f.delivered.toNat + 2 * f.wake.toNat + 4 * f.rearmed.toNat), 0, 0, 0] := by
  rw [Fired.bytes, bitsByte_three]
  rfl

theorem State.takeFired_badArg (bad : ¬ (1 ≤ s.arg8 b 6 ∧ s.arg8 b 6 ≤ 16 ∧
    b.bufferOk (s.arg16 b 4) (s.arg8 b 6 * 16) = true)) :
    s.takeFired b = s.terminate .calendar b (.refuse .badArg) := if_neg bad

theorem State.takeFired_ok {n : Nat} (maximum : s.arg8 b 6 = n) (h1 : 1 ≤ n) (h16 : n ≤ 16)
    (buffer : b.bufferOk (s.arg16 b 4) (n * 16) = true) : s.takeFired b =
      ((s.withCal (s.cal.take n)).putRam (s.arg16 b 4) ((s.cal.fired.take n).map Fired.bytes).flatten).answerWith
        .calendar b 8 [byteOf (s.cal.fired.drop n).length, flagByte s.cal.overflow, 0, 0]
        (.ok (s.cal.fired.take n).length) := by
  subst maximum
  exact if_pos ⟨h1, h16, buffer⟩

end

/-- Settles O15: the maximum and the buffer decide, and a take that passes answers from the list as it stood. -/
theorem takeFired : Obligations.TakeFired := by
  unfold Obligations.TakeFired
  refine ⟨fun f => ?bytes, ?badArg, ?takes⟩
  case bytes =>
    rw [Fired.bytes_eq]
    cases f.supply <;> rfl
  case badArg =>
    intro s v b h bad
    rw [exec_takeFired h, State.takeFired_badArg]
    rw [State.accepted_arg8, State.accepted_arg16, Block.bufferOk_iff]
    omega
  case takes =>
    intro s v b n h maximum h1 h16 fits apart
    have buffer : b.bufferOk ((s.accepted .calendar b).arg16 b 4) (n * 16) = true := by
      rw [State.accepted_arg16]
      exact (b.bufferOk_iff _ _).2 (.inr ⟨fits, apart⟩)
    rw [exec_takeFired h, State.takeFired_ok ((s.accepted_arg8 ..).trans maximum.symm) h1 h16 buffer,
      State.accepted_arg16, State.accepted_cal, List.length_drop, List.length_take]
    rfl

/-! ### Purges (R83, R84) -/

/-- R83: a purge keeps the entries that its form says, and replies with the number of the others. -/
theorem exec_purgeRequest {s : State} {p : PurgeForm} (asked : s.store.purgeReq = some p) :
    exec .purgeRequest s = .next { s with
      cal := { s.cal with alarms := s.cal.alarms.filter (p.keeps s.store.live) },
      store := { s.store with
        purgeReq := none,
        purgeReply := some (s.cal.alarms.filter fun a => !p.keeps s.store.live a).length } } := by
  have rest := List.length_eq_length_filter_add (l := s.cal.alarms) (p.keeps s.store.live)
  have removed : s.cal.alarms.length - (s.cal.alarms.filter (p.keeps s.store.live)).length =
      (s.cal.alarms.filter fun a => !p.keeps s.store.live a).length := by omega
  rw [← removed]
  show goesOn s.purge = _
  rw [State.purge, asked]
  rfl

/-- Settles O16: the purge by its form; with no request under way the state stands. -/
theorem purge : Obligations.Purge := by
  unfold Obligations.Purge
  refine ⟨fun s f asked => ?file, fun s asked => ?notLive, fun s idle => ?none⟩
  case file =>
    have others : (fun a : Alarm => !(PurgeForm.file f).keeps s.store.live a) = fun a => decide (a.owner = f) := by
      funext a
      exact (decide_not (p := ¬ a.owner = f)).symm.trans (decide_eq_decide.2 Decidable.not_not)
    rw [exec_purgeRequest asked, others]
    rfl
  case notLive =>
    rw [exec_purgeRequest asked]
    rfl
  case none =>
    show goesOn s.purge = _
    rw [State.purge, idle]
    rfl

end Sys2Proof.Machine
end
